-- ==== Sys2Proof/Word.lean ====
section
/-! DEFINITION. The word types the spec treats as bits (00_scope.md R10, R11). Counts, capacities and indices are not
here: they are naturals below 2^32 (92_eei_decisions.md D4). -/

namespace Sys2Proof

/-- One byte: a slot of every RB inside a CS or a DLC (R10, `W = 8`), and a byte on the SPI wire. -/
abbrev Byte := BitVec 8

/-- 16 bits: preamble length, IRQ status, register addresses, sync words (R35, R107, R320). -/
abbrev Word16 := BitVec 16

/-- 24 bits: the three-byte timeouts of the SPI frames (R104, R105). -/
abbrev Word24 := BitVec 24

/-- 32 bits: `uint` operands and results, capacities and amounts as operands (R10, R92). -/
abbrev Word32 := BitVec 32

end Sys2Proof
end

