-- ==== Sys2Proof/Syntax.lean ====
section
/-! DEFINITION. The whole syntax: unit instances and their ports, operand types, and one constructor of `Instr` for each
row of spec/opcode_table.json (30_encoding.md R90 to R98, 44_radio_opcodes.md R321 to R338). -/

namespace Sys2Proof

/-- The two DLC instances, `LINK_S` and `LINK_A` (00_scope.md R3). -/
inductive LinkId where
  | s
  | a
deriving DecidableEq, Repr

/-- Transport kind of a link (10_state.md R28). -/
inductive LinkKind where
  | sync
  | async
deriving DecidableEq, Repr

/-- A backing-array reference. The spec gives a `ref` no representation; the model names arrays by 32-bit numbers.
DESIGN CHOICE, unsafe only for a claim about the number itself (log 16). -/
abbrev Ref := BitVec 32

/-- The CS instances, each a port of its own (R91): the `rx` of a link, the radio's `sink`, and the stand-alone stream
(R430 "a RB or CS used by itself"; log 18). -/
inductive CsPort where
  | bench
  | rx (k : LinkId)
  | sink
deriving DecidableEq, Repr

/-- The RB instances, each a port of its own (R91): the stand-alone ring (R10, log 18), a link's `tx`, and the `rb` inside
a CS. -/
inductive RbPort where
  | bench
  | tx (k : LinkId)
  | inner (c : CsPort)
deriving DecidableEq, Repr

/-- Where a request arrives (R91). `irq k` is the interrupt port of link `k`. `spi` is the model's own port for a single
frame of the RadioController's sequencer (log 15): the spec gives frames no operation code (R262). -/
inductive Port where
  | rb (p : RbPort)
  | cs (c : CsPort)
  | dlc (k : LinkId)
  | irq (k : LinkId)
  | radio
  | spi
deriving DecidableEq, Repr

/-- The gate selector operand (R16, R94). -/
inductive Gate where
  | noop
  | rxGate (k : LinkId)
  | txGate (k : LinkId)
deriving DecidableEq, Repr

/-- The members of `power_class` (R340). -/
inductive PowerClass where
  | p14 | p17 | p20 | p22
deriving DecidableEq, Repr

/-- The eight members of `ramp_time`, in microseconds (R341). -/
inductive RampTime where
  | us10 | us20 | us40 | us80 | us200 | us800 | us1700 | us3400
deriving DecidableEq, Repr

/-- The members of `spreading_factor` (R342). -/
inductive SpreadingFactor where
  | sf5 | sf6 | sf7 | sf8 | sf9 | sf10 | sf11 | sf12
deriving DecidableEq, Repr

/-- The ten members of `bandwidth`, 7.81 kHz to 500 kHz (R343). -/
inductive Bandwidth where
  | khz7 | khz10 | khz15 | khz20 | khz31 | khz41 | khz62 | khz125 | khz250 | khz500
deriving DecidableEq, Repr

/-- The members of `coding_rate` (R344). -/
inductive CodingRate where
  | cr45 | cr46 | cr47 | cr48
deriving DecidableEq, Repr

/-- The `peripheral_config` record of `DLC.INIT` (R92): `err_en`, and the transport settings, which the block does not
interpret (91_not_in_source.md N10). -/
structure PeriphConfig where
  errEn : Bool
  settings : List Byte
deriving DecidableEq, Repr

/-- RadioConfig, an operand record of `RC.INIT` (10_state.md R35). -/
structure RadioConfig where
  freqHz : Word32
  powerClass : PowerClass
  rampTime : RampTime
  spreadingFactor : SpreadingFactor
  bandwidth : Bandwidth
  codingRate : CodingRate
  lowDataRate : Bool
  preambleLength : Word16
  crcEnabled : Bool
  publicNetwork : Bool
deriving DecidableEq, Repr

/-- The eighteen frames of the SPI opcode map (R111). -/
inductive FrameOp where
  | standbyMode | setPacketType | setRfFrequency | setPowerAmplifierConfig | setTxParams | writeRegister | readRegister
  | setBufferBaseAddress | setModulationParams | setPacketParams | setDioIrqParams | writeBuffer | setTxMode | setRxMode
  | getIrqStatus | clearIrq | getRxBufferStatus | readBuffer
deriving DecidableEq, Repr

/-- A frame (R100): the `out` bytes, opcode first, and the number of filler bytes clocked after them. -/
structure Frame where
  out : List Byte
  numRead : Nat
deriving DecidableEq, Repr

/-- One constructor per row of spec/opcode_table.json. The first argument of a request is the instance whose port it
arrives at (R90, R91); the rest are the operand fields of its format (R92), or, for a frame, the fields its bit pattern
has letters for (R321 to R338). -/
inductive Instr where
  | rbReset (p : RbPort) (backing : Option Ref) (capacity : Word32)
  | rbClear (p : RbPort)
  | rbPut (p : RbPort) (value : Nat)
  | rbGet (p : RbPort)
  | rbPeek (p : RbPort)
  | rbRawView (p : RbPort)
  | rbShiftReadPointer (p : RbPort) (amount : Word32) (forward : Bool)
  | rbCount (p : RbPort)
  | rbState (p : RbPort)
  | csReset (c : CsPort) (backing : Option Ref) (capacity : Word32)
  | csClear (c : CsPort)
  | csPutByte (c : CsPort) (value : Byte) (gate : Gate)
  | csGetByte (c : CsPort) (gate : Gate)
  | csMatchToken (c : CsPort) (token : List Byte) (shift : Byte) (moveCursor : Bool) (gate : Gate)
  | csMatchAsciiUint (c : CsPort) (gate : Gate)
  | csMatchParam (c : CsPort) (token : List Byte) (delimiter maxDigits : Byte) (gate : Gate)
  | csCount (c : CsPort)
  | dlcInit (k : LinkId) (config : PeriphConfig) (txBacking : Option Ref) (txCapacity : Word32)
      (rxBacking : Option Ref) (rxCapacity : Word32)
  | dlcDeinit (k : LinkId)
  | dlcOnInterrupt (k : LinkId)
  | dlcTransmit (k : LinkId) (value : Byte)
  | dlcReceive (k : LinkId)
  | dlcTransmitPacket (k : LinkId) (data : List Byte)
  | dlcTransmitString (k : LinkId) (data : List Byte)
  | dlcTransmitUint (k : LinkId) (value : Word32)
  | dlcMatchToken (k : LinkId) (token : List Byte) (shift : Byte) (moveCursor : Bool)
  | dlcMatchAsciiUint (k : LinkId)
  | dlcMatchParam (k : LinkId) (token : List Byte) (delimiter maxDigits : Byte)
  | dlcHostTransaction (k : LinkId) (out : List Byte) (numRead : Word32)
  | dlcStatus (k : LinkId)
  | dlcAckError (k : LinkId)
  | dlcAckTxIrq (k : LinkId)
  | dlcAckRxIrq (k : LinkId)
  | rcInit (config : RadioConfig) (sinkBacking : Option Ref) (sinkCapacity : Word32)
  | rcTransmit (payload : List Byte) (timeout : Word32)
  | rcReceive (timeout : Word32)
  | rcReadByte
  | rcMatchToken (token : List Byte) (shift : Byte) (moveCursor : Bool)
  | rcMatchAsciiUint
  | rcMatchParam (token : List Byte) (delimiter maxDigits : Byte)
  | rcAvailableCount
  | spiStandbyMode (cfg : Byte)
  | spiSetPacketType (packetType : Byte)
  | spiSetRfFrequency (rf : Word32)
  | spiSetPowerAmplifierConfig (dutyCycle hpMax deviceSel lut : Byte)
  | spiSetTxParams (power ramp : Byte)
  | spiWriteRegister (addr : Word16) (data : List Byte)
  | spiReadRegister (addr : Word16)
  | spiSetBufferBaseAddress (txBase rxBase : Byte)
  | spiSetModulationParams (sf bw cr : Byte) (lowDataRate : Bool)
  | spiSetPacketParams (preamble : Word16) (header len : Byte) (crc : Bool) (iq : Byte)
  | spiSetDioIrqParams (irqMask dio1Mask : Word16)
  | spiWriteBuffer (offset : Byte) (data : List Byte)
  | spiSetTxMode (timeout : Word24)
  | spiSetRxMode (timeout : Word24)
  | spiGetIrqStatus
  | spiClearIrq
  | spiGetRxBufferStatus
  | spiReadBuffer (offset len : Byte)
deriving DecidableEq, Repr

end Sys2Proof
end

