-- ==== Sys2Proof/Config.lean ====
section
/-! DEFINITION. What an implementation fixes (00_scope.md R10): the record `ENC` (44_radio_opcodes.md R320), the parameters
`RC_STANDBY_FIRST` and `W`, and the model's free values. The machine carries one `Params` as plain data in its state, which
no step changes, so that every statement about all states is a statement about every instantiation. -/

namespace Sys2Proof

/-- One row of `ENC.pa_table` (R340). -/
structure PaPair where
  dutyCycle : Byte
  hpMax : Byte
deriving DecidableEq, Repr

/-- `ENC.pa_table`, by `power_class` (R340). -/
structure PaTable where
  p14 : PaPair
  p17 : PaPair
  p20 : PaPair
  p22 : PaPair
deriving DecidableEq, Repr

/-- `ENC.ramp_code`, by `ramp_time` (R341). -/
structure RampTable where
  us10 : Byte
  us20 : Byte
  us40 : Byte
  us80 : Byte
  us200 : Byte
  us800 : Byte
  us1700 : Byte
  us3400 : Byte
deriving DecidableEq, Repr

/-- `ENC.sf_code`, by `spreading_factor` (R342). -/
structure SfTable where
  sf5 : Byte
  sf6 : Byte
  sf7 : Byte
  sf8 : Byte
  sf9 : Byte
  sf10 : Byte
  sf11 : Byte
  sf12 : Byte
deriving DecidableEq, Repr

/-- `ENC.bw_code`, by `bandwidth` (R343). -/
structure BwTable where
  khz7 : Byte
  khz10 : Byte
  khz15 : Byte
  khz20 : Byte
  khz31 : Byte
  khz41 : Byte
  khz62 : Byte
  khz125 : Byte
  khz250 : Byte
  khz500 : Byte
deriving DecidableEq, Repr

/-- `ENC.cr_code`, by `coding_rate` (R344). -/
structure CrTable where
  cr45 : Byte
  cr46 : Byte
  cr47 : Byte
  cr48 : Byte
deriving DecidableEq, Repr

/-- The record `ENC` (R320). Opcode members are bytes, `irq_*` members bit positions 0 to 15, `reg_*` members 16-bit
register addresses. -/
structure Enc where
  nop : Byte
  opStandby : Byte
  opSetPacketType : Byte
  opSetRfFrequency : Byte
  opSetPaConfig : Byte
  opSetTxParams : Byte
  opWriteRegister : Byte
  opReadRegister : Byte
  opSetBufferBase : Byte
  opSetModulationParams : Byte
  opSetPacketParams : Byte
  opSetDioIrqParams : Byte
  opWriteBuffer : Byte
  opSetTx : Byte
  opSetRx : Byte
  opGetIrqStatus : Byte
  opClearIrq : Byte
  opGetRxBufferStatus : Byte
  opReadBuffer : Byte
  standbyCfg : Byte
  packetTypeLora : Byte
  paTable : PaTable
  paDeviceSel : Byte
  paLut : Byte
  txPowerByte : Byte
  rampCode : RampTable
  sfCode : SfTable
  bwCode : BwTable
  crCode : CrTable
  bwWidest : Bandwidth
  headerExplicit : Byte
  iqStandard : Byte
  irqTxDone : Fin 16
  irqRxDone : Fin 16
  irqCrcErr : Fin 16
  irqTimeout : Fin 16
  regTxClamp : Word16
  txClampOr : Byte
  regModQuality : Word16
  modQualityBit : Byte
  regSyncWord : Word16
  syncPublic : Word16
  syncPrivate : Word16
deriving DecidableEq, Repr

/-- The parameters the model takes as plain data (R10): `ENC`, `RC_STANDBY_FIRST` (R272), and the slot width `W` of the
stand-alone ring. -/
structure Params where
  enc : Enc
  rcStandbyFirst : Bool
  slotWidth : Nat
deriving DecidableEq, Repr

/-- `RC_STANDBY_FIRST` of the machine that `State.reset` describes: OPEN (90_conflicts.md C6), so a free value. DESIGN
CHOICE that it is held in `Params`; safe (log 6). -/
opaque Config.rcStandbyFirst : Bool

/-- `W - 1` of the stand-alone ring of the machine that `State.reset` describes: OPEN with `W >= 1` (R10), so a free value;
safe (log 6). -/
opaque Config.slotWidthPred : Nat

/-- What a slot of a byte array reads as once its ownership was broken: `any value` (93_implementation_defined.md U3). The
arguments are the counter of disturbances and the slot's key; safe (log 12). -/
opaque Config.anyByte : Nat → Nat → Byte

/-- The same for a slot of the stand-alone ring's array (U3; log 12). -/
opaque Config.anySlot : Nat → Nat → Nat

/-- `T_SETTLE`, the length of the reset settle delay: OPEN, used by no rule (R10, R265; log 19). -/
opaque Config.tSettle : Nat

end Sys2Proof
end

