-- ==== Sys2Proof/WellFormed.lean ====
section
/-! DEFINITION. When an instruction can be written as a request or a frame: the lengths and ranges of 30_encoding.md R92 and
44_radio_opcodes.md R326, R332, R334 that the operand types do not already hold. Ranges whose breach the hardware itself
answers (R112: a capacity without an array, a frequency that does not fit, a text with a zero byte) are the meanings' to
check. -/

namespace Sys2Proof

/-- A record length fits its 32-bit field (R92). -/
def fits32 (n : Nat) : Bool := n < 2 ^ 32

/-- A token length fits its 8-bit field (R110). -/
def fits8 (n : Nat) : Bool := n < 2 ^ 8

/-- The slot width behind an RB port: `W` for the stand-alone ring, 8 for every other (R10). -/
def slotWidthOf (ps : Params) : RbPort → Nat
  | .bench => ps.slotWidth
  | .tx _ => 8
  | .inner _ => 8

/-- The operand fields have the lengths their formats allow. -/
def Instr.wf (ps : Params) : Instr → Bool
  | .rbPut p v => v < 2 ^ slotWidthOf ps p
  | .csMatchToken _ token _ _ _ => fits8 token.length
  | .csMatchParam _ token _ _ _ => fits8 token.length
  | .dlcInit _ cfg _ _ _ _ => fits32 cfg.settings.length
  | .dlcTransmitPacket _ data => fits32 data.length
  | .dlcTransmitString _ data => fits32 data.length
  | .dlcMatchToken _ token _ _ => fits8 token.length
  | .dlcMatchParam _ token _ _ => fits8 token.length
  | .dlcHostTransaction _ out _ => fits32 out.length
  | .rcTransmit payload _ => fits32 payload.length
  | .rcMatchToken token _ _ => fits8 token.length
  | .rcMatchParam token _ _ => fits8 token.length
  | .spiWriteRegister _ data => data.length == 1 || data.length == 2
  | .spiWriteBuffer _ data => fits8 data.length
  | .spiSetRxMode t => t != 0xFFFFFF#24
  | .rbReset _ _ _ => true
  | .rbClear _ => true
  | .rbGet _ => true
  | .rbPeek _ => true
  | .rbRawView _ => true
  | .rbShiftReadPointer _ _ _ => true
  | .rbCount _ => true
  | .rbState _ => true
  | .csReset _ _ _ => true
  | .csClear _ => true
  | .csPutByte _ _ _ => true
  | .csGetByte _ _ => true
  | .csMatchAsciiUint _ _ => true
  | .csCount _ => true
  | .dlcDeinit _ => true
  | .dlcOnInterrupt _ => true
  | .dlcTransmit _ _ => true
  | .dlcReceive _ => true
  | .dlcTransmitUint _ _ => true
  | .dlcMatchAsciiUint _ => true
  | .dlcStatus _ => true
  | .dlcAckError _ => true
  | .dlcAckTxIrq _ => true
  | .dlcAckRxIrq _ => true
  | .rcInit _ _ _ => true
  | .rcReceive _ => true
  | .rcReadByte => true
  | .rcMatchAsciiUint => true
  | .rcAvailableCount => true
  | .spiStandbyMode _ => true
  | .spiSetPacketType _ => true
  | .spiSetRfFrequency _ => true
  | .spiSetPowerAmplifierConfig _ _ _ _ => true
  | .spiSetTxParams _ _ => true
  | .spiReadRegister _ => true
  | .spiSetBufferBaseAddress _ _ => true
  | .spiSetModulationParams _ _ _ _ => true
  | .spiSetPacketParams _ _ _ _ _ => true
  | .spiSetDioIrqParams _ _ => true
  | .spiSetTxMode _ => true
  | .spiGetIrqStatus => true
  | .spiClearIrq => true
  | .spiGetRxBufferStatus => true
  | .spiReadBuffer _ _ => true

end Sys2Proof
end

