-- ==== Sys2Proof/Decode.lean ====
section
/-! DEFINITION. The two encodings of the block (30_encoding.md): operation requests and SPI frames. First the numbers of the
SX1262 instantiation of `ENC` and the byte-order helpers, then the decoder (total, rejecting by name), then the encoder.

Requests: the spec gives `op` its 8 bits and the operands their widths, but no bit positions (R90). The model lays a request
out as bytes: `op`, then the operand fields of its format in the order of R92, numbers most significant byte first, a byte
string after the length field R92 names for it, a one-bit field as a byte 0 or 1, a reference as 0 (NONE) or 1 and four
bytes. DESIGN CHOICE (log 1). Frames: the bytes of R321 to R338, fillers included (R100). -/

namespace Sys2Proof

/-! ### Bytes of a number, most significant first (R67) -/

/-- The two bytes of a 16-bit field (R106). -/
def be16 (w : Word16) : List Byte := [w.extractLsb' 8 8, w.extractLsb' 0 8]

/-- The three bytes of a timeout (R104). -/
def be24 (w : Word24) : List Byte := [w.extractLsb' 16 8, w.extractLsb' 8 8, w.extractLsb' 0 8]

/-- The four bytes of a 32-bit field (R103). -/
def be32 (w : Word32) : List Byte :=
  [w.extractLsb' 24 8, w.extractLsb' 16 8, w.extractLsb' 8 8, w.extractLsb' 0 8]

/-- A one-bit field as a byte (R329, R330: "the byte 0x00 or 0x01"). -/
def boolByte (b : Bool) : Byte := if b then 0x01 else 0x00

/-- A natural number as exactly `n` bytes, most significant first. -/
def natBytes : Nat → Nat → List Byte
  | 0, _ => []
  | n + 1, v => BitVec.ofNat 8 (v / 256 ^ n) :: natBytes n v

/-- The number some bytes stand for, most significant first, after `acc`. -/
def bytesNat (acc : Nat) : List Byte → Nat
  | [] => acc
  | b :: bs => bytesNat (acc * 256 + b.toNat) bs

/-! ### The numbers of the transceiver -/

/-- The SX1262 instantiation of `ENC` (R320, R340 to R349). PRESUMED: the spec takes these numbers from general knowledge
of the chip (93_implementation_defined.md U1); no statement rests on them (log 5). -/
def Enc.sx1262 : Enc where
  nop := 0x00
  opStandby := 0x80
  opSetPacketType := 0x8A
  opSetRfFrequency := 0x86
  opSetPaConfig := 0x95
  opSetTxParams := 0x8E
  opWriteRegister := 0x0D
  opReadRegister := 0x1D
  opSetBufferBase := 0x8F
  opSetModulationParams := 0x8B
  opSetPacketParams := 0x8C
  opSetDioIrqParams := 0x08
  opWriteBuffer := 0x0E
  opSetTx := 0x83
  opSetRx := 0x82
  opGetIrqStatus := 0x12
  opClearIrq := 0x02
  opGetRxBufferStatus := 0x13
  opReadBuffer := 0x1E
  standbyCfg := 0x00
  packetTypeLora := 0x01
  paTable :=
    { p14 := ⟨0x02, 0x02⟩, p17 := ⟨0x02, 0x03⟩, p20 := ⟨0x03, 0x05⟩, p22 := ⟨0x04, 0x07⟩ }
  paDeviceSel := 0x00
  paLut := 0x01
  txPowerByte := 0x16
  rampCode :=
    { us10 := 0x00, us20 := 0x01, us40 := 0x02, us80 := 0x03, us200 := 0x04, us800 := 0x05, us1700 := 0x06
      us3400 := 0x07 }
  sfCode :=
    { sf5 := 0x05, sf6 := 0x06, sf7 := 0x07, sf8 := 0x08, sf9 := 0x09, sf10 := 0x0A, sf11 := 0x0B, sf12 := 0x0C }
  bwCode :=
    { khz7 := 0x00, khz10 := 0x08, khz15 := 0x01, khz20 := 0x09, khz31 := 0x02, khz41 := 0x0A, khz62 := 0x03
      khz125 := 0x04, khz250 := 0x05, khz500 := 0x06 }
  crCode := { cr45 := 0x01, cr46 := 0x02, cr47 := 0x03, cr48 := 0x04 }
  bwWidest := .khz500
  headerExplicit := 0x00
  iqStandard := 0x00
  irqTxDone := 0
  irqRxDone := 1
  irqCrcErr := 6
  irqTimeout := 9
  regTxClamp := 0x08D8
  txClampOr := 0x1E
  regModQuality := 0x0889
  modQualityBit := 0x04
  regSyncWord := 0x0740
  syncPublic := 0x3444
  syncPrivate := 0x1424

/-- The parameters of the machine that `State.reset` describes (logs 5 and 6). -/
def Params.initial : Params where
  enc := Enc.sx1262
  rcStandbyFirst := Config.rcStandbyFirst
  slotWidth := Config.slotWidthPred + 1

/-- The opcode member of `ENC` for each frame (R320, R321 to R338). -/
def Enc.opcode (e : Enc) : FrameOp → Byte
  | .standbyMode => e.opStandby
  | .setPacketType => e.opSetPacketType
  | .setRfFrequency => e.opSetRfFrequency
  | .setPowerAmplifierConfig => e.opSetPaConfig
  | .setTxParams => e.opSetTxParams
  | .writeRegister => e.opWriteRegister
  | .readRegister => e.opReadRegister
  | .setBufferBaseAddress => e.opSetBufferBase
  | .setModulationParams => e.opSetModulationParams
  | .setPacketParams => e.opSetPacketParams
  | .setDioIrqParams => e.opSetDioIrqParams
  | .writeBuffer => e.opWriteBuffer
  | .setTxMode => e.opSetTx
  | .setRxMode => e.opSetRx
  | .getIrqStatus => e.opGetIrqStatus
  | .clearIrq => e.opClearIrq
  | .getRxBufferStatus => e.opGetRxBufferStatus
  | .readBuffer => e.opReadBuffer

/-- The frames of the opcode map, in the order of R321 to R338. -/
def FrameOp.all : List FrameOp :=
  [.standbyMode, .setPacketType, .setRfFrequency, .setPowerAmplifierConfig, .setTxParams, .writeRegister, .readRegister,
   .setBufferBaseAddress, .setModulationParams, .setPacketParams, .setDioIrqParams, .writeBuffer, .setTxMode, .setRxMode,
   .getIrqStatus, .clearIrq, .getRxBufferStatus, .readBuffer]

/-- The constraints R320 puts on every instantiation: distinct opcodes, distinct IRQ positions, injective code tables. -/
def Enc.wf (e : Enc) : Bool :=
  decide ((FrameOp.all.map e.opcode).Nodup)
    && decide ([e.irqTxDone, e.irqRxDone, e.irqCrcErr, e.irqTimeout].Nodup)
    && decide ([e.paTable.p14, e.paTable.p17, e.paTable.p20, e.paTable.p22].Nodup)
    && decide ([e.rampCode.us10, e.rampCode.us20, e.rampCode.us40, e.rampCode.us80, e.rampCode.us200, e.rampCode.us800,
        e.rampCode.us1700, e.rampCode.us3400].Nodup)
    && decide ([e.sfCode.sf5, e.sfCode.sf6, e.sfCode.sf7, e.sfCode.sf8, e.sfCode.sf9, e.sfCode.sf10, e.sfCode.sf11,
        e.sfCode.sf12].Nodup)
    && decide ([e.bwCode.khz7, e.bwCode.khz10, e.bwCode.khz15, e.bwCode.khz20, e.bwCode.khz31, e.bwCode.khz41,
        e.bwCode.khz62, e.bwCode.khz125, e.bwCode.khz250, e.bwCode.khz500].Nodup)
    && decide ([e.crCode.cr45, e.crCode.cr46, e.crCode.cr47, e.crCode.cr48].Nodup)

/-! ### The frames (44_radio_opcodes.md R321 to R338) -/

/-- Every byte a frame sends: `out` and then the fillers (R100, R102). -/
def Frame.wire (e : Enc) (f : Frame) : List Byte := f.out ++ List.replicate f.numRead e.nop

/-- R321. -/
def Frame.standbyMode (e : Enc) (cfg : Byte) : Frame := ⟨[e.opStandby, cfg], 0⟩

/-- R322. -/
def Frame.setPacketType (e : Enc) (packetType : Byte) : Frame := ⟨[e.opSetPacketType, packetType], 0⟩

/-- R323. -/
def Frame.setRfFrequency (e : Enc) (rf : Word32) : Frame := ⟨e.opSetRfFrequency :: be32 rf, 0⟩

/-- R324. -/
def Frame.setPowerAmplifierConfig (e : Enc) (dutyCycle hpMax deviceSel lut : Byte) : Frame :=
  ⟨[e.opSetPaConfig, dutyCycle, hpMax, deviceSel, lut], 0⟩

/-- R325. -/
def Frame.setTxParams (e : Enc) (power ramp : Byte) : Frame := ⟨[e.opSetTxParams, power, ramp], 0⟩

/-- R326. -/
def Frame.writeRegister (e : Enc) (addr : Word16) (data : List Byte) : Frame :=
  ⟨e.opWriteRegister :: (be16 addr ++ data), 0⟩

/-- R327: the fourth byte is a wait byte, the response to the one filler is the register. -/
def Frame.readRegister (e : Enc) (addr : Word16) : Frame := ⟨e.opReadRegister :: (be16 addr ++ [e.nop]), 1⟩

/-- R328. -/
def Frame.setBufferBaseAddress (e : Enc) (txBase rxBase : Byte) : Frame := ⟨[e.opSetBufferBase, txBase, rxBase], 0⟩

/-- R329. -/
def Frame.setModulationParams (e : Enc) (sf bw cr : Byte) (lowDataRate : Bool) : Frame :=
  ⟨[e.opSetModulationParams, sf, bw, cr, boolByte lowDataRate], 0⟩

/-- R330. -/
def Frame.setPacketParams (e : Enc) (preamble : Word16) (header len : Byte) (crc : Bool) (iq : Byte) : Frame :=
  ⟨e.opSetPacketParams :: (be16 preamble ++ [header, len, boolByte crc, iq]), 0⟩

/-- R331: the DIO2 and DIO3 masks are literal zeros. -/
def Frame.setDioIrqParams (e : Enc) (irqMask dio1Mask : Word16) : Frame :=
  ⟨e.opSetDioIrqParams :: (be16 irqMask ++ be16 dio1Mask ++ [0, 0, 0, 0]), 0⟩

/-- R332. -/
def Frame.writeBuffer (e : Enc) (offset : Byte) (data : List Byte) : Frame := ⟨e.opWriteBuffer :: offset :: data, 0⟩

/-- R333. -/
def Frame.setTxMode (e : Enc) (timeout : Word24) : Frame := ⟨e.opSetTx :: be24 timeout, 0⟩

/-- R334. -/
def Frame.setRxMode (e : Enc) (timeout : Word24) : Frame := ⟨e.opSetRx :: be24 timeout, 0⟩

/-- R335. -/
def Frame.getIrqStatus (e : Enc) : Frame := ⟨[e.opGetIrqStatus], 3⟩

/-- R336: the mask is all ones. -/
def Frame.clearIrq (e : Enc) : Frame := ⟨[e.opClearIrq, 0xFF, 0xFF], 0⟩

/-- R337. -/
def Frame.getRxBufferStatus (e : Enc) : Frame := ⟨[e.opGetRxBufferStatus], 3⟩

/-- R338: the third byte is a wait byte, `len` fillers follow. -/
def Frame.readBuffer (e : Enc) (offset len : Byte) : Frame := ⟨[e.opReadBuffer, offset, e.nop], len.toNat⟩

/-! ### The decoder -/

/-- Why bytes at a port are no request. The hardware answers each as R112 says. -/
inductive Reject where
  /-- the bytes end before the last operand field -/
  | truncated
  /-- an `op` outside R95 to R98 for this port -/
  | unknownOp
  /-- a one-bit field that is neither 0 nor 1 -/
  | badFlag
  /-- a reference that is neither NONE nor an array -/
  | badRef
  /-- a gate selector outside R94 -/
  | badGate
  /-- a RadioConfig field that is no member of its enumeration -/
  | badMember
  /-- a value outside its stated range -/
  | outOfRange
  /-- a first byte that is no opcode of R111 -/
  | unknownFrame
  /-- a frame of the wrong length, or with a wrong literal byte -/
  | badFrame
deriving DecidableEq, Repr

/-- What reads one operand field from the front of some bytes. -/
abbrev Parser (α : Type) := List Byte → Except Reject (α × List Byte)

def takeByte : Parser Byte
  | [] => .error .truncated
  | b :: bs => .ok (b, bs)

def takeBytes : Nat → Parser (List Byte)
  | 0, bs => .ok ([], bs)
  | n + 1, bs => do
    let (b, bs) ← takeByte bs
    let (rest, bs) ← takeBytes n bs
    return (b :: rest, bs)

def takeWord16 : Parser Word16
  | b1 :: b0 :: bs => .ok (b1 ++ b0, bs)
  | _ => .error .truncated

def takeWord32 : Parser Word32
  | b3 :: b2 :: b1 :: b0 :: bs => .ok (b3 ++ b2 ++ b1 ++ b0, bs)
  | _ => .error .truncated

def takeBool : Parser Bool
  | [] => .error .truncated
  | b :: bs => if b = 0 then .ok (false, bs) else if b = 1 then .ok (true, bs) else .error .badFlag

def takeRef : Parser (Option Ref)
  | [] => .error .truncated
  | b :: bs =>
    if b = 0 then .ok (none, bs)
    else if b = 1 then do
      let (r, bs) ← takeWord32 bs
      return (some r, bs)
    else .error .badRef

/-- `bytes[L]` after its 8-bit length (R92, format `T`). -/
def takeBytes8 : Parser (List Byte) := fun bs => do
  let (n, bs) ← takeByte bs
  takeBytes n.toNat bs

/-- `bytes[n]` after its 32-bit length (R92, formats `K`, `X`, `RT`). -/
def takeBytes32 : Parser (List Byte) := fun bs => do
  let (n, bs) ← takeWord32 bs
  takeBytes n.toNat bs

/-- A member of a list by its position, which one byte gives. -/
def takeMember {α : Type} (members : List α) : Parser α
  | [] => .error .truncated
  | b :: bs =>
    match members[b.toNat]? with
    | some m => .ok (m, bs)
    | none => .error .badMember

/-- The gate selectors in the order of R94. -/
def Gate.all : List Gate := [.noop, .rxGate .s, .rxGate .a, .txGate .s, .txGate .a]

def PowerClass.all : List PowerClass := [.p14, .p17, .p20, .p22]

def RampTime.all : List RampTime := [.us10, .us20, .us40, .us80, .us200, .us800, .us1700, .us3400]

def SpreadingFactor.all : List SpreadingFactor := [.sf5, .sf6, .sf7, .sf8, .sf9, .sf10, .sf11, .sf12]

def Bandwidth.all : List Bandwidth :=
  [.khz7, .khz10, .khz15, .khz20, .khz31, .khz41, .khz62, .khz125, .khz250, .khz500]

def CodingRate.all : List CodingRate := [.cr45, .cr46, .cr47, .cr48]

def takeGate : Parser Gate
  | [] => .error .truncated
  | b :: bs =>
    match Gate.all[b.toNat]? with
    | some g => .ok (g, bs)
    | none => .error .badGate

def takePeriphConfig : Parser PeriphConfig := fun bs => do
  let (errEn, bs) ← takeBool bs
  let (settings, bs) ← takeBytes32 bs
  return (⟨errEn, settings⟩, bs)

/-- The fields of RadioConfig in the order of R35. -/
def takeRadioConfig : Parser RadioConfig := fun bs => do
  let (freqHz, bs) ← takeWord32 bs
  let (powerClass, bs) ← takeMember PowerClass.all bs
  let (rampTime, bs) ← takeMember RampTime.all bs
  let (spreadingFactor, bs) ← takeMember SpreadingFactor.all bs
  let (bandwidth, bs) ← takeMember Bandwidth.all bs
  let (codingRate, bs) ← takeMember CodingRate.all bs
  let (lowDataRate, bs) ← takeBool bs
  let (preambleLength, bs) ← takeWord16 bs
  let (crcEnabled, bs) ← takeBool bs
  let (publicNetwork, bs) ← takeBool bs
  return ({ freqHz, powerClass, rampTime, spreadingFactor, bandwidth, codingRate, lowDataRate, preambleLength,
            crcEnabled, publicNetwork }, bs)

/-- How many bytes hold a slot of `w` bits. -/
def slotBytes (w : Nat) : Nat := (w + 7) / 8

/-- A slot value of `w` bits (format `V`). -/
def takeSlot (w : Nat) : Parser Nat := fun bs => do
  let (b, bs) ← takeBytes (slotBytes w) bs
  if bytesNat 0 b < 2 ^ w then return (bytesNat 0 b, bs) else .error .outOfRange

/-- Requests at an RB port (R95); `fn` is `op[3:0]`. -/
def decodeRb (ps : Params) (p : RbPort) (fn : Nat) (bs : List Byte) : Except Reject (Instr × List Byte) :=
  match fn with
  | 0 => do
    let (backing, bs) ← takeRef bs
    let (capacity, bs) ← takeWord32 bs
    return (.rbReset p backing capacity, bs)
  | 1 => .ok (.rbClear p, bs)
  | 2 => do
    let (value, bs) ← takeSlot (slotWidthOf ps p) bs
    return (.rbPut p value, bs)
  | 3 => .ok (.rbGet p, bs)
  | 4 => .ok (.rbPeek p, bs)
  | 5 => .ok (.rbRawView p, bs)
  | 6 => do
    let (amount, bs) ← takeWord32 bs
    let (forward, bs) ← takeBool bs
    return (.rbShiftReadPointer p amount forward, bs)
  | 7 => .ok (.rbCount p, bs)
  | 8 => .ok (.rbState p, bs)
  | _ => .error .unknownOp

/-- Requests at a CS port (R96). -/
def decodeCs (c : CsPort) (fn : Nat) (bs : List Byte) : Except Reject (Instr × List Byte) :=
  match fn with
  | 0 => do
    let (backing, bs) ← takeRef bs
    let (capacity, bs) ← takeWord32 bs
    return (.csReset c backing capacity, bs)
  | 1 => .ok (.csClear c, bs)
  | 2 => do
    let (value, bs) ← takeByte bs
    let (gate, bs) ← takeGate bs
    return (.csPutByte c value gate, bs)
  | 3 => do
    let (gate, bs) ← takeGate bs
    return (.csGetByte c gate, bs)
  | 4 => do
    let (token, bs) ← takeBytes8 bs
    let (shift, bs) ← takeByte bs
    let (moveCursor, bs) ← takeBool bs
    let (gate, bs) ← takeGate bs
    return (.csMatchToken c token shift moveCursor gate, bs)
  | 5 => do
    let (gate, bs) ← takeGate bs
    return (.csMatchAsciiUint c gate, bs)
  | 6 => do
    let (token, bs) ← takeBytes8 bs
    let (delimiter, bs) ← takeByte bs
    let (maxDigits, bs) ← takeByte bs
    let (gate, bs) ← takeGate bs
    return (.csMatchParam c token delimiter maxDigits gate, bs)
  | 7 => .ok (.csCount c, bs)
  | _ => .error .unknownOp

/-- Requests at a DLC's application port (R97); `DLC.ON_INTERRUPT` is refused there (R112). -/
def decodeDlc (k : LinkId) (fn : Nat) (bs : List Byte) : Except Reject (Instr × List Byte) :=
  match fn with
  | 0x0 => do
    let (config, bs) ← takePeriphConfig bs
    let (txBacking, bs) ← takeRef bs
    let (txCapacity, bs) ← takeWord32 bs
    let (rxBacking, bs) ← takeRef bs
    let (rxCapacity, bs) ← takeWord32 bs
    return (.dlcInit k config txBacking txCapacity rxBacking rxCapacity, bs)
  | 0x1 => .ok (.dlcDeinit k, bs)
  | 0x3 => do
    let (value, bs) ← takeByte bs
    return (.dlcTransmit k value, bs)
  | 0x4 => .ok (.dlcReceive k, bs)
  | 0x5 => do
    let (data, bs) ← takeBytes32 bs
    return (.dlcTransmitPacket k data, bs)
  | 0x6 => do
    let (data, bs) ← takeBytes32 bs
    return (.dlcTransmitString k data, bs)
  | 0x7 => do
    let (value, bs) ← takeWord32 bs
    return (.dlcTransmitUint k value, bs)
  | 0x8 => do
    let (token, bs) ← takeBytes8 bs
    let (shift, bs) ← takeByte bs
    let (moveCursor, bs) ← takeBool bs
    return (.dlcMatchToken k token shift moveCursor, bs)
  | 0x9 => .ok (.dlcMatchAsciiUint k, bs)
  | 0xA => do
    let (token, bs) ← takeBytes8 bs
    let (delimiter, bs) ← takeByte bs
    let (maxDigits, bs) ← takeByte bs
    return (.dlcMatchParam k token delimiter maxDigits, bs)
  | 0xB => do
    let (out, bs) ← takeBytes32 bs
    let (numRead, bs) ← takeWord32 bs
    return (.dlcHostTransaction k out numRead, bs)
  | 0xC => .ok (.dlcStatus k, bs)
  | 0xD => .ok (.dlcAckError k, bs)
  | 0xE => .ok (.dlcAckTxIrq k, bs)
  | 0xF => .ok (.dlcAckRxIrq k, bs)
  | _ => .error .unknownOp

/-- Requests at a DLC's interrupt port: `DLC.ON_INTERRUPT` and nothing else (R91, R112). -/
def decodeIrq (k : LinkId) (fn : Nat) (bs : List Byte) : Except Reject (Instr × List Byte) :=
  if fn = 2 then .ok (.dlcOnInterrupt k, bs) else .error .unknownOp

/-- Requests at the radio's port (R98). -/
def decodeRadio (fn : Nat) (bs : List Byte) : Except Reject (Instr × List Byte) :=
  match fn with
  | 0 => do
    let (config, bs) ← takeRadioConfig bs
    let (backing, bs) ← takeRef bs
    let (capacity, bs) ← takeWord32 bs
    return (.rcInit config backing capacity, bs)
  | 1 => do
    let (payload, bs) ← takeBytes32 bs
    let (timeout, bs) ← takeWord32 bs
    return (.rcTransmit payload timeout, bs)
  | 2 => do
    let (timeout, bs) ← takeWord32 bs
    return (.rcReceive timeout, bs)
  | 3 => .ok (.rcReadByte, bs)
  | 4 => do
    let (token, bs) ← takeBytes8 bs
    let (shift, bs) ← takeByte bs
    let (moveCursor, bs) ← takeBool bs
    return (.rcMatchToken token shift moveCursor, bs)
  | 5 => .ok (.rcMatchAsciiUint, bs)
  | 6 => do
    let (token, bs) ← takeBytes8 bs
    let (delimiter, bs) ← takeByte bs
    let (maxDigits, bs) ← takeByte bs
    return (.rcMatchParam token delimiter maxDigits, bs)
  | 7 => .ok (.rcAvailableCount, bs)
  | _ => .error .unknownOp

/-- The frame an opcode byte names under `e`. -/
def FrameOp.ofOpcode? (e : Enc) (b : Byte) : Option FrameOp := FrameOp.all.find? fun f => e.opcode f = b

/-- A one-bit field of a frame. -/
def flagOf (b : Byte) : Except Reject Bool :=
  if b = 0 then .ok false else if b = 1 then .ok true else .error .badFrame

/-- The frame whose bytes after the opcode are `bs`, fillers included: the bit patterns of R321 to R338. -/
def decodeFrame (e : Enc) (f : FrameOp) (bs : List Byte) : Except Reject Instr :=
  match f, bs with
  | .standbyMode, [c] => .ok (.spiStandbyMode c)
  | .setPacketType, [t] => .ok (.spiSetPacketType t)
  | .setRfFrequency, [b3, b2, b1, b0] => .ok (.spiSetRfFrequency (b3 ++ b2 ++ b1 ++ b0))
  | .setPowerAmplifierConfig, [d, h, s, l] => .ok (.spiSetPowerAmplifierConfig d h s l)
  | .setTxParams, [p, r] => .ok (.spiSetTxParams p r)
  | .writeRegister, [a1, a0, d0] => .ok (.spiWriteRegister (a1 ++ a0) [d0])
  | .writeRegister, [a1, a0, d0, d1] => .ok (.spiWriteRegister (a1 ++ a0) [d0, d1])
  | .readRegister, [a1, a0, n0, n1] =>
    if n0 = e.nop ∧ n1 = e.nop then .ok (.spiReadRegister (a1 ++ a0)) else .error .badFrame
  | .setBufferBaseAddress, [t, r] => .ok (.spiSetBufferBaseAddress t r)
  | .setModulationParams, [s, b, c, l] => do
    let l ← flagOf l
    return .spiSetModulationParams s b c l
  | .setPacketParams, [p1, p0, h, n, c, i] => do
    let c ← flagOf c
    return .spiSetPacketParams (p1 ++ p0) h n c i
  | .setDioIrqParams, [m1, m0, d1, d0, z3, z2, z1, z0] =>
    if z3 = 0 ∧ z2 = 0 ∧ z1 = 0 ∧ z0 = 0 then .ok (.spiSetDioIrqParams (m1 ++ m0) (d1 ++ d0)) else .error .badFrame
  | .writeBuffer, o :: data => if data.length < 256 then .ok (.spiWriteBuffer o data) else .error .badFrame
  | .setTxMode, [t2, t1, t0] => .ok (.spiSetTxMode (t2 ++ t1 ++ t0))
  | .setRxMode, [t2, t1, t0] =>
    if t2 ++ t1 ++ t0 = 0xFFFFFF#24 then .error .outOfRange else .ok (.spiSetRxMode (t2 ++ t1 ++ t0))
  | .getIrqStatus, [n2, n1, n0] =>
    if n2 = e.nop ∧ n1 = e.nop ∧ n0 = e.nop then .ok .spiGetIrqStatus else .error .badFrame
  | .clearIrq, [m1, m0] => if m1 = 0xFF ∧ m0 = 0xFF then .ok .spiClearIrq else .error .badFrame
  | .getRxBufferStatus, [n2, n1, n0] =>
    if n2 = e.nop ∧ n1 = e.nop ∧ n0 = e.nop then .ok .spiGetRxBufferStatus else .error .badFrame
  | .readBuffer, o :: w :: fill =>
    if w = e.nop ∧ fill = List.replicate fill.length e.nop ∧ fill.length < 256 then
      .ok (.spiReadBuffer o (BitVec.ofNat 8 fill.length))
    else .error .badFrame
  | _, _ => .error .badFrame

/-- The whole frame some bytes are (R100). -/
def decodeSpi (e : Enc) : List Byte → Except Reject Instr
  | [] => .error .truncated
  | b :: bs =>
    match FrameOp.ofOpcode? e b with
    | some f => decodeFrame e f bs
    | none => .error .unknownFrame

/-- A request for the unit type `unit`: `op[7:4]` must be its number (R90, R112). -/
def decodeUnit (unit : Nat) (body : Nat → List Byte → Except Reject (Instr × List Byte)) :
    List Byte → Except Reject (Instr × List Byte)
  | [] => .error .truncated
  | op :: bs => if op.toNat / 16 = unit then body (op.toNat % 16) bs else .error .unknownOp

/-- The request or frame that bytes at a port stand for, and the bytes after it. A frame is all of its bytes. -/
def decode (ps : Params) (port : Port) (bs : List Byte) : Except Reject (Instr × List Byte) :=
  match port with
  | .rb p => decodeUnit 0 (decodeRb ps p) bs
  | .cs c => decodeUnit 1 (decodeCs c) bs
  | .dlc k => decodeUnit 2 (decodeDlc k) bs
  | .irq k => decodeUnit 2 (decodeIrq k) bs
  | .radio => decodeUnit 3 decodeRadio bs
  | .spi => do
    let i ← decodeSpi ps.enc bs
    return (i, [])

/-! ### The encoder -/

def encodeRef : Option Ref → List Byte
  | none => [0]
  | some r => 1 :: be32 r

def encodeBytes8 (bs : List Byte) : List Byte := BitVec.ofNat 8 bs.length :: bs

def encodeBytes32 (bs : List Byte) : List Byte := be32 (BitVec.ofNat 32 bs.length) ++ bs

/-- A member's position in its list. -/
def encodeMember {α : Type} [DecidableEq α] (members : List α) (m : α) : Byte :=
  BitVec.ofNat 8 (members.findIdx fun x => x = m)

def encodeGate (g : Gate) : Byte := encodeMember Gate.all g

def encodePeriphConfig (c : PeriphConfig) : List Byte := boolByte c.errEn :: encodeBytes32 c.settings

def encodeRadioConfig (c : RadioConfig) : List Byte :=
  be32 c.freqHz
    ++ [encodeMember PowerClass.all c.powerClass, encodeMember RampTime.all c.rampTime,
        encodeMember SpreadingFactor.all c.spreadingFactor, encodeMember Bandwidth.all c.bandwidth,
        encodeMember CodingRate.all c.codingRate, boolByte c.lowDataRate]
    ++ be16 c.preambleLength ++ [boolByte c.crcEnabled, boolByte c.publicNetwork]

/-- The bytes of a request, `op` first (R95 to R98), or of a frame, fillers included (R321 to R338). -/
def encode (ps : Params) : Instr → List Byte
  | .rbReset _ b c => 0x00 :: (encodeRef b ++ be32 c)
  | .rbClear _ => [0x01]
  | .rbPut p v => 0x02 :: natBytes (slotBytes (slotWidthOf ps p)) v
  | .rbGet _ => [0x03]
  | .rbPeek _ => [0x04]
  | .rbRawView _ => [0x05]
  | .rbShiftReadPointer _ n fwd => 0x06 :: (be32 n ++ [boolByte fwd])
  | .rbCount _ => [0x07]
  | .rbState _ => [0x08]
  | .csReset _ b c => 0x10 :: (encodeRef b ++ be32 c)
  | .csClear _ => [0x11]
  | .csPutByte _ v g => [0x12, v, encodeGate g]
  | .csGetByte _ g => [0x13, encodeGate g]
  | .csMatchToken _ t sh mv g => 0x14 :: (encodeBytes8 t ++ [sh, boolByte mv, encodeGate g])
  | .csMatchAsciiUint _ g => [0x15, encodeGate g]
  | .csMatchParam _ t d n g => 0x16 :: (encodeBytes8 t ++ [d, n, encodeGate g])
  | .csCount _ => [0x17]
  | .dlcInit _ cfg tb tc rb rc =>
    0x20 :: (encodePeriphConfig cfg ++ encodeRef tb ++ be32 tc ++ encodeRef rb ++ be32 rc)
  | .dlcDeinit _ => [0x21]
  | .dlcOnInterrupt _ => [0x22]
  | .dlcTransmit _ v => [0x23, v]
  | .dlcReceive _ => [0x24]
  | .dlcTransmitPacket _ d => 0x25 :: encodeBytes32 d
  | .dlcTransmitString _ d => 0x26 :: encodeBytes32 d
  | .dlcTransmitUint _ v => 0x27 :: be32 v
  | .dlcMatchToken _ t sh mv => 0x28 :: (encodeBytes8 t ++ [sh, boolByte mv])
  | .dlcMatchAsciiUint _ => [0x29]
  | .dlcMatchParam _ t d n => 0x2A :: (encodeBytes8 t ++ [d, n])
  | .dlcHostTransaction _ out n => 0x2B :: (encodeBytes32 out ++ be32 n)
  | .dlcStatus _ => [0x2C]
  | .dlcAckError _ => [0x2D]
  | .dlcAckTxIrq _ => [0x2E]
  | .dlcAckRxIrq _ => [0x2F]
  | .rcInit cfg b c => 0x30 :: (encodeRadioConfig cfg ++ encodeRef b ++ be32 c)
  | .rcTransmit d t => 0x31 :: (encodeBytes32 d ++ be32 t)
  | .rcReceive t => 0x32 :: be32 t
  | .rcReadByte => [0x33]
  | .rcMatchToken t sh mv => 0x34 :: (encodeBytes8 t ++ [sh, boolByte mv])
  | .rcMatchAsciiUint => [0x35]
  | .rcMatchParam t d n => 0x36 :: (encodeBytes8 t ++ [d, n])
  | .rcAvailableCount => [0x37]
  | .spiStandbyMode c => (Frame.standbyMode ps.enc c).wire ps.enc
  | .spiSetPacketType t => (Frame.setPacketType ps.enc t).wire ps.enc
  | .spiSetRfFrequency rf => (Frame.setRfFrequency ps.enc rf).wire ps.enc
  | .spiSetPowerAmplifierConfig d h s l => (Frame.setPowerAmplifierConfig ps.enc d h s l).wire ps.enc
  | .spiSetTxParams p r => (Frame.setTxParams ps.enc p r).wire ps.enc
  | .spiWriteRegister a d => (Frame.writeRegister ps.enc a d).wire ps.enc
  | .spiReadRegister a => (Frame.readRegister ps.enc a).wire ps.enc
  | .spiSetBufferBaseAddress t r => (Frame.setBufferBaseAddress ps.enc t r).wire ps.enc
  | .spiSetModulationParams s b c l => (Frame.setModulationParams ps.enc s b c l).wire ps.enc
  | .spiSetPacketParams p h n c i => (Frame.setPacketParams ps.enc p h n c i).wire ps.enc
  | .spiSetDioIrqParams m d => (Frame.setDioIrqParams ps.enc m d).wire ps.enc
  | .spiWriteBuffer o d => (Frame.writeBuffer ps.enc o d).wire ps.enc
  | .spiSetTxMode t => (Frame.setTxMode ps.enc t).wire ps.enc
  | .spiSetRxMode t => (Frame.setRxMode ps.enc t).wire ps.enc
  | .spiGetIrqStatus => (Frame.getIrqStatus ps.enc).wire ps.enc
  | .spiClearIrq => (Frame.clearIrq ps.enc).wire ps.enc
  | .spiGetRxBufferStatus => (Frame.getRxBufferStatus ps.enc).wire ps.enc
  | .spiReadBuffer o n => (Frame.readBuffer ps.enc o n).wire ps.enc

/-- The port an instruction arrives at (R91). -/
def Instr.port : Instr → Port
  | .rbReset p _ _ => .rb p
  | .rbClear p => .rb p
  | .rbPut p _ => .rb p
  | .rbGet p => .rb p
  | .rbPeek p => .rb p
  | .rbRawView p => .rb p
  | .rbShiftReadPointer p _ _ => .rb p
  | .rbCount p => .rb p
  | .rbState p => .rb p
  | .csReset c _ _ => .cs c
  | .csClear c => .cs c
  | .csPutByte c _ _ => .cs c
  | .csGetByte c _ => .cs c
  | .csMatchToken c _ _ _ _ => .cs c
  | .csMatchAsciiUint c _ => .cs c
  | .csMatchParam c _ _ _ _ => .cs c
  | .csCount c => .cs c
  | .dlcInit k _ _ _ _ _ => .dlc k
  | .dlcDeinit k => .dlc k
  | .dlcOnInterrupt k => .irq k
  | .dlcTransmit k _ => .dlc k
  | .dlcReceive k => .dlc k
  | .dlcTransmitPacket k _ => .dlc k
  | .dlcTransmitString k _ => .dlc k
  | .dlcTransmitUint k _ => .dlc k
  | .dlcMatchToken k _ _ _ => .dlc k
  | .dlcMatchAsciiUint k => .dlc k
  | .dlcMatchParam k _ _ _ => .dlc k
  | .dlcHostTransaction k _ _ => .dlc k
  | .dlcStatus k => .dlc k
  | .dlcAckError k => .dlc k
  | .dlcAckTxIrq k => .dlc k
  | .dlcAckRxIrq k => .dlc k
  | .rcInit _ _ _ => .radio
  | .rcTransmit _ _ => .radio
  | .rcReceive _ => .radio
  | .rcReadByte => .radio
  | .rcMatchToken _ _ _ => .radio
  | .rcMatchAsciiUint => .radio
  | .rcMatchParam _ _ _ => .radio
  | .rcAvailableCount => .radio
  | .spiStandbyMode _ => .spi
  | .spiSetPacketType _ => .spi
  | .spiSetRfFrequency _ => .spi
  | .spiSetPowerAmplifierConfig _ _ _ _ => .spi
  | .spiSetTxParams _ _ => .spi
  | .spiWriteRegister _ _ => .spi
  | .spiReadRegister _ => .spi
  | .spiSetBufferBaseAddress _ _ => .spi
  | .spiSetModulationParams _ _ _ _ => .spi
  | .spiSetPacketParams _ _ _ _ _ => .spi
  | .spiSetDioIrqParams _ _ => .spi
  | .spiWriteBuffer _ _ => .spi
  | .spiSetTxMode _ => .spi
  | .spiSetRxMode _ => .spi
  | .spiGetIrqStatus => .spi
  | .spiClearIrq => .spi
  | .spiGetRxBufferStatus => .spi
  | .spiReadBuffer _ _ => .spi

/-! ### Words of the opcode table -/

/-- The low `n` bytes of a number, least significant first: the order in which the table numbers a row's bits. -/
def lowBytes : Nat → Nat → List Byte
  | 0, _ => []
  | n + 1, w => BitVec.ofNat 8 w :: lowBytes n (w / 256)

/-- The length of a frame's shortest form, fillers included (R321 to R338). -/
def FrameOp.shortest : FrameOp → Nat
  | .standbyMode => 2
  | .setPacketType => 2
  | .setRfFrequency => 5
  | .setPowerAmplifierConfig => 5
  | .setTxParams => 3
  | .writeRegister => 4
  | .readRegister => 5
  | .setBufferBaseAddress => 3
  | .setModulationParams => 5
  | .setPacketParams => 7
  | .setDioIrqParams => 9
  | .writeBuffer => 2
  | .setTxMode => 4
  | .setRxMode => 4
  | .getIrqStatus => 4
  | .clearIrq => 3
  | .getRxBufferStatus => 4
  | .readBuffer => 3

/-- The port a one-byte row's `op` belongs to, an instance of the model's choosing (log 15). -/
def tableRequestPort (op : Nat) : Option Port :=
  if op ≤ 0x08 then some (.rb (.tx .a))
  else if op / 16 = 1 ∧ op % 16 ≤ 7 then some (.cs .bench)
  else if op = 0x22 then some (.irq .s)
  else if op / 16 = 2 then some (.dlc .s)
  else if op / 16 = 3 ∧ op % 16 ≤ 7 then some .radio
  else none

/-- A table word as a frame, all bits above `nbits` zero. -/
def tableFrame (nbits w : Nat) : Option (Port × List Byte) :=
  match FrameOp.ofOpcode? Enc.sx1262 (BitVec.ofNat 8 w) with
  | some f => some (.spi, lowBytes (max f.shortest (nbits / 8)) w)
  | none => none

/-- Where a table word arrives, and as which bytes. A row of one byte is read as a request first: the two spaces of the
table share the values 0x02, 0x08, 0x12 and 0x13 (log 15). -/
def tableWord (nbits w : Nat) : Option (Port × List Byte) :=
  if nbits ≤ 8 then
    match tableRequestPort (w % 256) with
    | some p => some (p, lowBytes 32 w)
    | none => tableFrame nbits w
  else tableFrame nbits w

/-- The instruction the decoder reads from a word of the opcode table, its operand bits above `nbits` zero. -/
def decodeTableWord (nbits w : Nat) : Option Instr :=
  match tableWord nbits w with
  | some (p, bs) =>
    match decode Params.initial p bs with
    | .ok (i, _) => some i
    | .error _ => none
  | none => none


end Sys2Proof
end

