-- ==== Sys2Proof/Machine/State.lean ====
section
/-! DEFINITION. The state of the block as plain data (10_state.md), what the outside world drives (R40 to R43), the model's
own schedule, and the state after power-on reset (R50). -/

namespace Sys2Proof.Machine

/-- A RingBuffer instance (R22). Counts and indices are naturals; `Rb.Ok` in Safety.lean says they are below 2^32. -/
structure Rb where
  backing : Option Ref
  capacity : Nat
  readIndex : Nat
  writeIndex : Nat
  count : Nat
deriving DecidableEq, Repr

/-- An unbound RB (R24), which is also its power-on state (R50). -/
def Rb.unbound : Rb := { backing := none, capacity := 0, readIndex := 0, writeIndex := 0, count := 0 }

/-- A CommandStream instance: one RB of bytes and the lockout counter (R26). -/
structure Cs where
  rb : Rb
  lockout : Nat
deriving DecidableEq, Repr

/-- A CS at power-on: unbound, `lockout = 1` (R50). -/
def Cs.unbound : Cs := { rb := Rb.unbound, lockout := 1 }

/-- Last transmit-interrupt class (R29). -/
inductive TxClass where
  | none | complete | progressed
deriving DecidableEq, Repr

/-- Last receive-interrupt class (R29). -/
inductive RxClass where
  | none | error | bufferFull | progressed
deriving DecidableEq, Repr

/-- Error kinds of a link (R29, R382). -/
inductive LinkError where
  | none | overflow | frame | parity | sync
deriving DecidableEq, Repr

/-- LinkStatus (R29). -/
structure LinkStatus where
  txClass : TxClass
  rxClass : RxClass
  lastError : LinkError
  enabled : Bool
deriving DecidableEq, Repr

/-- A DLC instance (R28). Its `kind` is a constant of its name (`linkKind` in Flags.lean); `select_n`, which only
`LINK_S` has, is `State.selectN`. -/
structure Link where
  tx : Rb
  rx : Cs
  status : LinkStatus
  errEn : Bool
  txie : Bool
  rxie : Bool
deriving DecidableEq, Repr

/-- A DLC at power-on (R50). -/
def Link.powerOn : Link :=
  { tx := Rb.unbound, rx := Cs.unbound
    status := { txClass := .none, rxClass := .none, lastError := .none, enabled := false }
    errEn := false, txie := false, rxie := false }

/-- The ghost mode of the RC (R36). -/
inductive RadioMode where
  | uninitialized | standby | transmitting | receiving
deriving DecidableEq, Repr

/-- The RC instance `RADIO` (R34); its `link` is `LINK_S`. -/
structure Radio where
  sink : Cs
  preambleLength : Word16
  crcEnabled : Bool
  resetN : Bool
  mode : RadioMode
deriving DecidableEq, Repr

/-- The signals `PERIPH[k]` drives (R41), as last driven. -/
structure PeriphIn where
  txReady : Bool
  rxReady : Bool
  errOvr : Bool
  errFrame : Bool
  errParity : Bool
  errSync : Bool
  rxData : Byte
deriving DecidableEq, Repr

/-- Every signal low. DESIGN CHOICE for reset: R50 leaves the peripherals unspecified; unsafe (log 8). -/
def PeriphIn.low : PeriphIn :=
  { txReady := false, rxReady := false, errOvr := false, errFrame := false, errParity := false, errSync := false
    rxData := 0 }

/-- What the block drives outward (R42, R43): a strobe, or an edge of `select_n` or `reset_n`. -/
inductive BusEvent where
  /-- `tx_data` with the strobe `tx_wr` of link `k` -/
  | txWr (k : LinkId) (b : Byte)
  /-- the strobe `rx_rd` of link `k` -/
  | rxRd (k : LinkId)
  /-- the strobe `cfg_program` with the `peripheral_config` record -/
  | cfgProgram (k : LinkId) (config : PeriphConfig)
  /-- the strobe `cfg_teardown` -/
  | cfgTeardown (k : LinkId)
  /-- the strobe `flag_clear` -/
  | flagClear (k : LinkId)
  /-- `LINK_S.select_n` takes this level -/
  | select (level : Bool)
  /-- `RADIO.reset_n` takes this level -/
  | radioReset (level : Bool)
deriving DecidableEq, Repr

/-- The condition of an RB (R25). -/
inductive RbCondition where
  | empty | full | partly
deriving DecidableEq, Repr

/-- A result record (30_encoding.md R93). `zeros` is the all-zero record of a request that R112 refuses and whose format is
unknown. -/
inductive Result where
  | none
  | ok (ok : Bool)
  | slotOption (value : Option Nat)
  | byteOption (value : Option Byte)
  | slot (value : Nat)
  | condition (c : RbCondition)
  | view (readIndex writeIndex : Nat) (backing : Option Ref) (capacity : Nat)
  | count (n : Nat)
  | uintOption (value : Option Word32)
  | byte (status : Byte)
  | linkStatus (status : LinkStatus)
  | received (ok timedOut : Bool)
  | zeros
deriving DecidableEq, Repr

/-- A request as it arrives (R90, R91): the port and its bytes. -/
structure Request where
  port : Port
  bytes : List Byte
deriving DecidableEq, Repr

/-- One entry of the schedule (R75): a step of an agent other than APP, or `app`, at which APP goes on. -/
inductive Event where
  /-- APP takes its next atomic unit -/
  | app
  /-- `PERIPH[k]` drives its signals (R41) -/
  | periph (k : LinkId) (signals : PeriphIn)
  /-- `XCVR` drives `busy` and `irq` (R43) -/
  | lines (busy irq : Bool)
  /-- the interrupt controller looks at link `k` (R386) -/
  | isr (k : LinkId)
  /-- the application stores into a byte array of its own (R82), between two of its operations (log 22) -/
  | store (r : Ref) (slot : Word32) (value : Byte)
  /-- the same, into an array of `W`-bit slots -/
  | storeWide (r : Ref) (slot : Word32) (value : Nat)
deriving DecidableEq, Repr

/-- The busy-waits of R395. -/
inductive Wait where
  | txReady | rxReady | busyLow | irqHigh
deriving DecidableEq, Repr

/-- Whether APP can go on: `waiting w` says that it hangs in the busy-wait `w` (R15, R395; log 4). -/
inductive Phase where
  | ready
  | waiting (w : Wait)
deriving DecidableEq, Repr

/-- Backing memory: (key, value) pairs, keys strictly rising, no value that an unlisted key reads as (`Memory.wf`). -/
abbrev Memory := List Host.Cell

/-- The same for arrays whose slots have `W` bits, `W` not 8: the stand-alone ring's (R10). -/
abbrev WideMemory := List (Nat × Nat)

/-- The whole machine. -/
structure State where
  /-- the parameters of R10, which no step changes -/
  params : Params
  /-- the byte arrays (R60(a)) -/
  mem : Memory
  /-- the arrays of the stand-alone ring where `W` is not 8; where it is, they are byte arrays (log 16) -/
  wide : WideMemory
  /-- arrays whose contents are `any value` (U3) -/
  tainted : List Ref
  /-- the counter free slot contents are drawn by (U3) -/
  freeTick : Nat
  /-- the stand-alone ring (R10, R430) -/
  ring : Rb
  /-- the stand-alone stream (R430) -/
  stream : Cs
  linkS : Link
  linkA : Link
  /-- `LINK_S.select_n` (R33) -/
  selectN : Bool
  radio : Radio
  /-- signals of `PERIPH[LINK_S]` (R41) -/
  periphS : PeriphIn
  /-- signals of `PERIPH[LINK_A]` (R41) -/
  periphA : PeriphIn
  /-- the transceiver's `busy` (R43) -/
  busy : Bool
  /-- the transceiver's `irq` (R43) -/
  irq : Bool
  /-- requests still to be presented, oldest first -/
  requests : List Request
  /-- what the other agents will do, and when APP goes on -/
  agenda : List Event
  phase : Phase
  /-- the last result record presented -/
  result : Result
  /-- everything driven outward, oldest first -/
  trace : List BusEvent
deriving DecidableEq, Repr

/-- Why a step stops with a fault: never. R380: "No operation raises a synchronous exception", and every failure is a value
in a result record or in LinkStatus, so the type has no constructor. -/
inductive Fault where
deriving DecidableEq, Repr

/-- Why the model refuses. -/
inductive Refusal where
  /-- an instruction that has no meaning yet; raised by no arm of `exec`. Safe. -/
  | notModelled (mnemonic : String)
  /-- `RC.TRANSMIT` or `RC.RECEIVE` before an `RC.INIT` has completed; raised by these two. R261(c): "a model refuses the
  operation". Safe: the hardware would send unspecified values (log 11). -/
  | radioNotInitialised
deriving DecidableEq, Repr

/-- The block after power-on (R50). The values R50 does not give are named in logs 2, 3, 5 to 9, 12, 17 and 26. -/
def State.reset : State :=
  { params := Params.initial
    mem := []
    wide := []
    tainted := []
    freeTick := 0
    ring := Rb.unbound
    stream := Cs.unbound
    linkS := Link.powerOn
    linkA := Link.powerOn
    selectN := true
    radio := { sink := Cs.unbound, preambleLength := 0, crcEnabled := false, resetN := true, mode := .uninitialized }
    periphS := PeriphIn.low
    periphA := PeriphIn.low
    busy := false
    irq := false
    requests := []
    agenda := []
    phase := .ready
    result := .none
    trace := [] }

end Sys2Proof.Machine
end

