-- ==== Sys2Proof/Machine/Flags.lean ====
section
/-! DEFINITION. Every condition and flag the spec computes: codes of the enumerations (10_state.md R25, R29), the condition of
an RB (R140), the pending condition of a link (R45), the classification of link errors (R211), the bits of the IRQ status
(R346) and the decision over them (R277). -/

namespace Sys2Proof.Machine

/-- `LINK_S` is the synchronous transport, `LINK_A` the asynchronous one (R3, R10). -/
def linkKind : LinkId → LinkKind
  | .s => .sync
  | .a => .async

/-! ### Numeric codes on the result port (R25, R29) -/

def RbCondition.code : RbCondition → BitVec 2
  | .empty => 0
  | .full => 1
  | .partly => 2

def TxClass.code : TxClass → BitVec 2
  | .none => 0
  | .complete => 1
  | .progressed => 2

def RxClass.code : RxClass → BitVec 2
  | .none => 0
  | .error => 1
  | .bufferFull => 2
  | .progressed => 3

def LinkError.code : LinkError → BitVec 3
  | .none => 0
  | .overflow => 1
  | .frame => 2
  | .parity => 3
  | .sync => 4

/-- The four codes of `DLC.STATUS` (R93: widths 2, 2, 3, 1). -/
def LinkStatus.codes (st : LinkStatus) : BitVec 2 × BitVec 2 × BitVec 3 × BitVec 1 :=
  (st.txClass.code, st.rxClass.code, st.lastError.code, BitVec.ofBool st.enabled)

/-! ### Conditions -/

/-- `RB.STATE`: the empty test comes first (R140). -/
def Rb.condition (rb : Rb) : RbCondition :=
  if rb.count = 0 then .empty else if rb.count = rb.capacity then .full else .partly

/-- `available_count == capacity`, the test of every put (R133). -/
def Rb.isFull (rb : Rb) : Bool := rb.count == rb.capacity

/-- What the block samples of a link's peripheral: on a SYNC link the last three error flags read 0 (R41). -/
def PeriphIn.seenBy (kind : LinkKind) (sig : PeriphIn) : PeriphIn :=
  match kind with
  | .sync => { sig with errFrame := false, errParity := false, errSync := false }
  | .async => sig

/-- `any_err` of R45. -/
def PeriphIn.anyErr (sig : PeriphIn) : Bool := sig.errOvr || sig.errFrame || sig.errParity || sig.errSync

/-- The pending-interrupt condition of a link, of its sampled signals (R45). -/
def Link.pendingOn (l : Link) (sig : PeriphIn) : Bool :=
  (l.txie && sig.txReady) || (l.rxie && (sig.rxReady || (l.errEn && sig.anyErr)))

/-- `classify()`: overflow, frame, parity, sync, in that order (R211). -/
def PeriphIn.classify (sig : PeriphIn) : LinkError :=
  if sig.errOvr then .overflow else if sig.errFrame then .frame else if sig.errParity then .parity else .sync

/-! ### The IRQ status (R346) -/

/-- The bit of one event in the IRQ status. -/
def irqBit (status : Word16) (position : Fin 16) : Bool := status.getLsbD position

/-- `M`, the mask with exactly the four event bits set (R268). -/
def irqMask (e : Enc) : Word16 :=
  BitVec.twoPow 16 e.irqTimeout ||| BitVec.twoPow 16 e.irqCrcErr ||| BitVec.twoPow 16 e.irqRxDone
    ||| BitVec.twoPow 16 e.irqTxDone

/-- The four rows of the decision table of `RC.RECEIVE` (R277). -/
inductive RxOutcome where
  | crcFailure | payload | timedOut | nothing
deriving DecidableEq, Repr

/-- The tests in the order of R277: rx-done, under it CRC-error, without it timeout. -/
def rxOutcome (e : Enc) (status : Word16) : RxOutcome :=
  if irqBit status e.irqRxDone then
    if irqBit status e.irqCrcErr then .crcFailure else .payload
  else if irqBit status e.irqTimeout then .timedOut
  else .nothing

end Sys2Proof.Machine
end

