-- ==== Sys2Proof/Machine/Operands.lean ====
section
/-! DEFINITION. Every operand form: assembly of the numeric fields on the SPI wire (30_encoding.md R103 to R108), decimal text
(R109), the members of RadioConfig through the tables of `ENC` (44_radio_opcodes.md R340 to R345), the operand ranges R112
answers for, and the index arithmetic of the rings and of the token window (40_ringbuffer.md, 41_commandstream.md R167). -/

namespace Sys2Proof.Machine

/-! ### Ranges (R112) -/

/-- `capacity >= 1` with `backing = NONE` is refused (R131). -/
def bindable (backing : Option Ref) (capacity : Word32) : Bool := capacity.toNat == 0 || backing.isSome

/-- The largest frequency whose word fits four bytes (R103). -/
def maxFreqHz : Nat := 4095999999

/-- A larger `freq_hz` is refused (R103, U9). -/
def freqFits (freqHz : Word32) : Bool := freqHz.toNat ≤ maxFreqHz

/-- No byte of a text is 0x00 (R92, format `K`). -/
def isText (data : List Byte) : Bool := data.all fun b => b != 0

/-! ### Numeric fields of the frames -/

/-- `rf = (freq_hz * 2^25 + 16,000,000) div 32,000,000`, exactly (R103). -/
def rfValue (freqHz : Nat) : Nat := (freqHz * 2 ^ 25 + 16000000) / 32000000

/-- The frequency word. -/
def rfWord (freqHz : Word32) : Word32 := BitVec.ofNat 32 (rfValue freqHz.toNat)

/-- Bits 31 to 24 of a transmit timeout are dropped without a clamp (R104). -/
def txTimeout (t : Word32) : Word24 := t.extractLsb' 0 24

/-- A receive timeout is `min(timeout, 0x00FFFFFE)` (R105). -/
def rxTimeout (t : Word32) : Word24 := BitVec.ofNat 24 (min t.toNat 0x00FFFFFE)

/-- The IRQ status of the two data bytes (R107). -/
def irqStatusOf (b1 b2 : Byte) : Word16 := (b1.setWidth 16 <<< 8) ||| b2.setWidth 16

/-! ### Decimal text (R109) -/

/-- An ASCII digit byte, 0x30 to 0x39. -/
def isDigit (b : Byte) : Bool := 0x30 ≤ b.toNat && b.toNat ≤ 0x39

/-- `v <- (v * 10 + d) mod 2^32`. -/
def pushDigit (v : Word32) (b : Byte) : Word32 := v * 10 + BitVec.ofNat 32 (b.toNat - 0x30)

/-- The ASCII byte of one decimal digit. -/
def digitByte (d : Nat) : Byte := BitVec.ofNat 8 (0x30 + d)

/-- The decimal digits of `v`, most significant first, at most `fuel` of them. -/
def decimalFuel : Nat → Nat → List Byte
  | 0, _ => []
  | fuel + 1, v => if v < 10 then [digitByte v] else decimalFuel fuel (v / 10) ++ [digitByte (v % 10)]

/-- The text `DLC.TRANSMIT_UINT` sends: 1 to 10 digits, no leading zeros, `'0'` for zero. -/
def decimalText (v : Word32) : List Byte := decimalFuel 10 v.toNat

/-! ### RadioConfig members through `ENC` -/

/-- R340. -/
def paPair (t : PaTable) : PowerClass → PaPair
  | .p14 => t.p14
  | .p17 => t.p17
  | .p20 => t.p20
  | .p22 => t.p22

/-- R341. -/
def rampCode (t : RampTable) : RampTime → Byte
  | .us10 => t.us10
  | .us20 => t.us20
  | .us40 => t.us40
  | .us80 => t.us80
  | .us200 => t.us200
  | .us800 => t.us800
  | .us1700 => t.us1700
  | .us3400 => t.us3400

/-- R342. -/
def sfCode (t : SfTable) : SpreadingFactor → Byte
  | .sf5 => t.sf5
  | .sf6 => t.sf6
  | .sf7 => t.sf7
  | .sf8 => t.sf8
  | .sf9 => t.sf9
  | .sf10 => t.sf10
  | .sf11 => t.sf11
  | .sf12 => t.sf12

/-- R343. -/
def bwCode (t : BwTable) : Bandwidth → Byte
  | .khz7 => t.khz7
  | .khz10 => t.khz10
  | .khz15 => t.khz15
  | .khz20 => t.khz20
  | .khz31 => t.khz31
  | .khz41 => t.khz41
  | .khz62 => t.khz62
  | .khz125 => t.khz125
  | .khz250 => t.khz250
  | .khz500 => t.khz500

/-- R344. -/
def crCode (t : CrTable) : CodingRate → Byte
  | .cr45 => t.cr45
  | .cr46 => t.cr46
  | .cr47 => t.cr47
  | .cr48 => t.cr48

/-- The frame of `RC.INIT` step 2, and of R272. -/
def standbyFrame (e : Enc) : Frame := Frame.standbyMode e e.standbyCfg

/-- Step 3. -/
def packetTypeFrame (e : Enc) : Frame := Frame.setPacketType e e.packetTypeLora

/-- Step 4. -/
def frequencyFrame (e : Enc) (c : RadioConfig) : Frame := Frame.setRfFrequency e (rfWord c.freqHz)

/-- Step 5: the pair comes from the table, keyed by the power class (R324). -/
def paFrame (e : Enc) (c : RadioConfig) : Frame :=
  Frame.setPowerAmplifierConfig e (paPair e.paTable c.powerClass).dutyCycle
    (paPair e.paTable c.powerClass).hpMax e.paDeviceSel e.paLut

/-- Step 6: a fixed power byte and the ramp code (R325). -/
def txParamsFrame (e : Enc) (c : RadioConfig) : Frame :=
  Frame.setTxParams e e.txPowerByte (rampCode e.rampCode c.rampTime)

/-- Step 8: both pointers 0 (R328). -/
def bufferBaseFrame (e : Enc) : Frame := Frame.setBufferBaseAddress e 0 0

/-- Step 9 (R329). -/
def modulationFrame (e : Enc) (c : RadioConfig) : Frame :=
  Frame.setModulationParams e (sfCode e.sfCode c.spreadingFactor) (bwCode e.bwCode c.bandwidth)
    (crCode e.crCode c.codingRate) c.lowDataRate

/-- The and-mask of step 10: the bit is cleared for the widest bandwidth (R267). -/
def modQualityAnd (e : Enc) (c : RadioConfig) : Byte :=
  if c.bandwidth = e.bwWidest then 0xFF ^^^ e.modQualityBit else 0xFF

/-- The or-mask of step 10: the bit is set for every other bandwidth (R267). -/
def modQualityOr (e : Enc) (c : RadioConfig) : Byte :=
  if c.bandwidth = e.bwWidest then 0x00 else e.modQualityBit

/-- set-packet-params with the RC's stored fields and a payload length (R271, R330). -/
def packetParamsFrame (e : Enc) (rc : Radio) (len : Byte) : Frame :=
  Frame.setPacketParams e rc.preambleLength e.headerExplicit len rc.crcEnabled e.iqStandard

/-- Step 12: the same mask on the IRQ register and on DIO1 (R268, R331). -/
def dioIrqFrame (e : Enc) : Frame := Frame.setDioIrqParams e (irqMask e) (irqMask e)

/-- Step 13: the sync word the network flag selects, most significant byte first, in one write (R269). -/
def syncWordFrame (e : Enc) (c : RadioConfig) : Frame :=
  Frame.writeRegister e e.regSyncWord (be16 (if c.publicNetwork then e.syncPublic else e.syncPrivate))

/-! ### Index arithmetic -/

/-- `(i - k) mod c`, the least non-negative remainder (R11). -/
def subMod (i k c : Nat) : Nat := (((i : Int) - (k : Int)) % (c : Int)).toNat

/-- After `RB.RESET(backing, capacity)`: NONE when the capacity is 0 (R131). -/
def Rb.bound (backing : Option Ref) (capacity : Nat) : Rb :=
  { backing := if capacity = 0 then none else backing, capacity := capacity, readIndex := 0, writeIndex := 0, count := 0 }

/-- After `RB.CLEAR` (R132). -/
def Rb.cleared (rb : Rb) : Rb := { rb with readIndex := 0, writeIndex := 0, count := 0 }

/-- The indices after a successful put (R133). -/
def Rb.afterPut (rb : Rb) : Rb :=
  { rb with writeIndex := (rb.writeIndex + 1) % rb.capacity, count := rb.count + 1 }

/-- The indices after a successful get (R134). -/
def Rb.afterGet (rb : Rb) : Rb :=
  { rb with readIndex := (rb.readIndex + 1) % rb.capacity, count := rb.count - 1 }

/-- How far `RB.SHIFT_READ_POINTER` moves: clamped, never wrapped past the logical bounds (R137). -/
def Rb.shiftBy (rb : Rb) (amount : Nat) (forward : Bool) : Nat :=
  if forward then min amount rb.count else min amount (rb.capacity - rb.count)

/-- The indices after `RB.SHIFT_READ_POINTER` (R137). -/
def Rb.shifted (rb : Rb) (amount : Nat) (forward : Bool) : Rb :=
  let k := rb.shiftBy amount forward
  if k = 0 then rb
  else if forward then { rb with readIndex := (rb.readIndex + k) % rb.capacity, count := rb.count - k }
  else { rb with readIndex := subMod rb.readIndex k rb.capacity, count := rb.count + k }

/-- The slot of a token's first byte: `(w - shift - L) mod c` (R166, R167). -/
def windowStart (rb : Rb) (shift len : Nat) : Nat := subMod rb.writeIndex (shift + len) rb.capacity

/-- The key of slot `i` of array `r` in the memory (log 16). -/
def slotAddress (r : Ref) (i : Nat) : Nat := r.toNat * 2 ^ 32 + i

end Sys2Proof.Machine
end

