-- ==== Sys2Proof/Machine/Ops.lean ====
section
/-! DEFINITION. The named operations over the state: memory (20_memory.md), access to the unit instances, the ring and stream
primitives (40_ringbuffer.md, 41_commandstream.md), the gate (R78), taking an interrupt and returning from it (R206, R386,
R388, R389), and how a result is presented (R90, R112). Each ring, stream and link operation here is one atomic unit or part
of one (R76, R77). -/

namespace Sys2Proof.Machine

/-! ### Memory (R60, R61, R66)

A sparse store: (key, value) pairs, keys strictly rising, none with the value an unlisted key reads as. -/

/-- What a key holds; `d` where it is not listed. -/
def cellsRead {α : Type} (d : α) : List (Nat × α) → Nat → α
  | [], _ => d
  | (k, v) :: m, a => if a = k then v else cellsRead d m a

/-- Store `v` at `a`; storing `d` removes the entry. -/
def cellsWrite {α : Type} [DecidableEq α] (d : α) : List (Nat × α) → Nat → α → List (Nat × α)
  | [], a, v => if v = d then [] else [(a, v)]
  | (k, w) :: m, a, v =>
    if a < k then (if v = d then (k, w) :: m else (a, v) :: (k, w) :: m)
    else if a = k then (if v = d then m else (a, v) :: m)
    else (k, w) :: cellsWrite d m a v

/-- The canonical form. -/
abbrev CellsWf {α : Type} (d : α) (m : List (Nat × α)) : Prop :=
  m.Pairwise (fun x y => x.1 < y.1) ∧ ∀ c ∈ m, c.2 ≠ d

/-- What an unlisted slot reads as. DESIGN CHOICE: R50 leaves the contents to the caller's memory; unsafe (log 7). -/
def unlistedByte : Byte := 0

/-- The same for arrays of wider or narrower slots (log 7). -/
def unlistedSlot : Nat := 0

def Memory.read (m : Memory) (a : Nat) : Byte := cellsRead unlistedByte m a

def Memory.write (m : Memory) (a : Nat) (v : Byte) : Memory := cellsWrite unlistedByte m a v

/-- The canonical form of the byte memory. -/
abbrev Memory.wf (m : Memory) : Prop := CellsWf unlistedByte m

def WideMemory.read (m : WideMemory) (a : Nat) : Nat := cellsRead unlistedSlot m a

def WideMemory.write (m : WideMemory) (a : Nat) (v : Nat) : WideMemory := cellsWrite unlistedSlot m a v

abbrev WideMemory.wf (m : WideMemory) : Prop := CellsWf unlistedSlot m

/-! ### Fields that no unit owns -/

def State.setMem (s : State) (m : Memory) : State := { s with mem := m }

def State.setWide (s : State) (m : WideMemory) : State := { s with wide := m }

def State.setTainted (s : State) (rs : List Ref) : State := { s with tainted := rs }

def State.setFreeTick (s : State) (n : Nat) : State := { s with freeTick := n }

def State.setRequests (s : State) (rs : List Request) : State := { s with requests := rs }

def State.setAgenda (s : State) (es : List Event) : State := { s with agenda := es }

def State.setPhase (s : State) (p : Phase) : State := { s with phase := p }

def State.setResult (s : State) (r : Result) : State := { s with result := r }

/-- `XCVR` drives its two lines (R43). -/
def State.setLines (s : State) (busy irq : Bool) : State := { s with busy := busy, irq := irq }

/-- `LINK_S.select_n` (R33). -/
def State.setSelect (s : State) (level : Bool) : State := { s with selectN := level }

/-- Drive a strobe or an edge outward (R42, R43). -/
def State.emit (s : State) (e : BusEvent) : State := { s with trace := s.trace ++ [e] }

/-! ### The RC's own fields (R34, R36) -/

def State.setResetN (s : State) (level : Bool) : State := { s with radio := { s.radio with resetN := level } }

/-- The ghost mode. -/
def State.setMode (s : State) (m : RadioMode) : State := { s with radio := { s.radio with mode := m } }

/-- The two fields kept of a RadioConfig (R35). -/
def State.setRadioConfig (s : State) (preamble : Word16) (crc : Bool) : State :=
  { s with radio := { s.radio with preambleLength := preamble, crcEnabled := crc } }

/-! ### Unit instances (R3, R91) -/

def State.link (s : State) : LinkId → Link
  | .s => s.linkS
  | .a => s.linkA

def State.setLink (s : State) (k : LinkId) (l : Link) : State :=
  match k with
  | .s => { s with linkS := l }
  | .a => { s with linkA := l }

def State.periph (s : State) : LinkId → PeriphIn
  | .s => s.periphS
  | .a => s.periphA

def State.setPeriph (s : State) (k : LinkId) (sig : PeriphIn) : State :=
  match k with
  | .s => { s with periphS := sig }
  | .a => { s with periphA := sig }

/-- The signals of link `k` as the block samples them (R41). -/
def State.sample (s : State) (k : LinkId) : PeriphIn := (s.periph k).seenBy (linkKind k)

/-- `pending[k]` (R45). -/
def State.pending (s : State) (k : LinkId) : Bool := (s.link k).pendingOn (s.sample k)

def State.cs (s : State) : CsPort → Cs
  | .bench => s.stream
  | .rx k => (s.link k).rx
  | .sink => s.radio.sink

def State.setCs (s : State) (c : CsPort) (v : Cs) : State :=
  match c with
  | .bench => { s with stream := v }
  | .rx k => s.setLink k { s.link k with rx := v }
  | .sink => { s with radio := { s.radio with sink := v } }

def State.rb (s : State) : RbPort → Rb
  | .bench => s.ring
  | .tx k => (s.link k).tx
  | .inner c => (s.cs c).rb

def State.setRb (s : State) (p : RbPort) (r : Rb) : State :=
  match p with
  | .bench => { s with ring := r }
  | .tx k => s.setLink k { s.link k with tx := r }
  | .inner c => s.setCs c { s.cs c with rb := r }

/-- Every RB of the machine. -/
def RbPort.all : List RbPort :=
  [.bench, .tx .s, .tx .a, .inner .bench, .inner (.rx .s), .inner (.rx .a), .inner .sink]

def State.setTxie (s : State) (k : LinkId) (b : Bool) : State := s.setLink k { s.link k with txie := b }

def State.setRxie (s : State) (k : LinkId) (b : Bool) : State := s.setLink k { s.link k with rxie := b }

def State.setErrEn (s : State) (k : LinkId) (b : Bool) : State := s.setLink k { s.link k with errEn := b }

def State.setStatus (s : State) (k : LinkId) (st : LinkStatus) : State := s.setLink k { s.link k with status := st }

def State.setTxClass (s : State) (k : LinkId) (c : TxClass) : State :=
  s.setStatus k { (s.link k).status with txClass := c }

def State.setRxClass (s : State) (k : LinkId) (c : RxClass) : State :=
  s.setStatus k { (s.link k).status with rxClass := c }

def State.setLastError (s : State) (k : LinkId) (e : LinkError) : State :=
  s.setStatus k { (s.link k).status with lastError := e }

def State.setEnabled (s : State) (k : LinkId) (b : Bool) : State :=
  s.setStatus k { (s.link k).status with enabled := b }

def State.setLockout (s : State) (c : CsPort) (n : Nat) : State := s.setCs c { s.cs c with lockout := n }

/-! ### Slots of a backing array (R13, R62)

The contents of an array whose ownership was broken are `any value` (93_implementation_defined.md U3; log 12). -/

/-- Whether an RB other than `p` is bound to array `r`. -/
def State.boundElsewhere (s : State) (p : RbPort) (r : Ref) : Bool :=
  RbPort.all.any fun q => q != p && (s.rb q).backing == some r

/-- Whether any RB is bound to array `r`. -/
def State.isBound (s : State) (r : Ref) : Bool := RbPort.all.any fun q => (s.rb q).backing == some r

/-- From now on the contents of `r` are any value (U3). -/
def State.taint (s : State) (r : Ref) : State :=
  if s.tainted.contains r then s else (s.setTainted (r :: s.tainted)).setFreeTick (s.freeTick + 1)

/-- The content of slot `i` of a byte array. -/
def State.byteAt (s : State) (r : Ref) (i : Nat) : Byte :=
  if s.tainted.contains r then Config.anyByte s.freeTick (slotAddress r i) else s.mem.read (slotAddress r i)

/-- The content of slot `i` of an array of `W`-bit slots, `W` not 8 (R10). -/
def State.wideAt (s : State) (r : Ref) (i : Nat) : Nat :=
  if s.tainted.contains r then Config.anySlot s.freeTick (slotAddress r i) % 2 ^ s.params.slotWidth
  else s.wide.read (slotAddress r i)

/-- A disturbance of a tainted array draws new free contents. -/
def State.disturb (s : State) (r : Ref) : State :=
  if s.tainted.contains r then s.setFreeTick (s.freeTick + 1) else s

/-- Whether the slots behind RB `p` are bytes: those of every RB but the stand-alone ring, and its own where `W = 8`. Then its
arrays are the byte arrays, and what one RB left in an array is what the next one bound to it finds (R63; log 16). -/
def State.byteSlots (s : State) (p : RbPort) : Bool := slotWidthOf s.params p == 8

/-- `MemRead(B:i, 1)` on the array behind RB `p`. No unbound RB is ever read in a state of R23 (log 21). -/
def State.readSlot (s : State) (p : RbPort) (i : Nat) : Nat :=
  match (s.rb p).backing with
  | none => 0
  | some r => if s.byteSlots p then (s.byteAt r i).toNat else s.wideAt r i

/-- `MemWrite(B:i, 1, v)` on the array behind RB `p`. -/
def State.writeSlot (s : State) (p : RbPort) (i v : Nat) : State :=
  match (s.rb p).backing with
  | none => s
  | some r =>
    if s.byteSlots p then (s.disturb r).setMem (s.mem.write (slotAddress r i) (BitVec.ofNat 8 v))
    else (s.disturb r).setWide (s.wide.write (slotAddress r i) v)

/-! ### RingBuffer (40_ringbuffer.md) -/

/-- The array gets a second owner (U3: the block checks nothing). -/
def State.claim (s : State) (p : RbPort) (backing : Option Ref) : State :=
  match backing with
  | none => s
  | some r => if s.boundElsewhere p r then s.taint r else s

/-- `RB.RESET` (R131). -/
def rbBind (p : RbPort) (backing : Option Ref) (capacity : Nat) (s : State) : State :=
  (s.claim p (Rb.bound backing capacity).backing).setRb p (Rb.bound backing capacity)

/-- `RB.CLEAR` (R132). -/
def rbClear (p : RbPort) (s : State) : State := s.setRb p (s.rb p).cleared

/-- `RB.PUT` (R133). -/
def rbPut (p : RbPort) (v : Nat) (s : State) : Bool × State :=
  if (s.rb p).isFull then (false, s)
  else (true, (s.writeSlot p (s.rb p).writeIndex v).setRb p (s.rb p).afterPut)

/-- `RB.GET` (R134). -/
def rbGet (p : RbPort) (s : State) : Option Nat × State :=
  if (s.rb p).count = 0 then (none, s)
  else (some (s.readSlot p (s.rb p).readIndex), s.setRb p (s.rb p).afterGet)

/-- `RB.PEEK` (R135). -/
def rbPeek (p : RbPort) (s : State) : Nat := if (s.rb p).count = 0 then 0 else s.readSlot p (s.rb p).readIndex

/-- `RB.SHIFT_READ_POINTER` (R137). -/
def rbShift (p : RbPort) (amount : Nat) (forward : Bool) (s : State) : State :=
  s.setRb p ((s.rb p).shifted amount forward)

/-! ### The gate (R16, R78) -/

def gateDisable (g : Gate) (s : State) : State :=
  match g with
  | .noop => s
  | .rxGate k => s.setRxie k false
  | .txGate k => s.setTxie k false

/-- Sets the enable to 1 whatever it was before (R78, 90_conflicts.md C4). -/
def gateEnable (g : Gate) (s : State) : State :=
  match g with
  | .noop => s
  | .rxGate k => s.setRxie k true
  | .txGate k => s.setTxie k true

/-- One atomic unit between `gate(DISABLE)` and `gate(ENABLE)` (R78). -/
def underGate {α : Type} (g : Gate) (unit : State → α × State) (s : State) : α × State :=
  ((unit (gateDisable g s)).1, gateEnable g (unit (gateDisable g s)).2)

/-! ### CommandStream (41_commandstream.md) -/

/-- `CS.RESET` (R161). -/
def csBind (c : CsPort) (backing : Option Ref) (capacity : Nat) (s : State) : State :=
  (rbBind (.inner c) backing capacity s).setLockout c 1

/-- `CS.CLEAR` (R162). -/
def csClear (c : CsPort) (s : State) : State := (rbClear (.inner c) s).setLockout c 1

/-- `get_core()`: a byte returned lowers the lockout, floor 0 (R165). -/
def csGet (c : CsPort) (s : State) : Option Byte × State :=
  match rbGet (.inner c) s with
  | (none, s') => (none, s')
  | (some v, s') => (some (BitVec.ofNat 8 v), s'.setLockout c ((s'.cs c).lockout - 1))

/-- `put_core(v)` (R165). -/
def csPut (c : CsPort) (b : Byte) (s : State) : Bool × State := rbPut (.inner c) b.toNat s

/-- `get_core` `n` times. -/
def csGetMany (c : CsPort) : Nat → State → State
  | 0, s => s
  | n + 1, s => csGetMany c n (csGet c s).2

/-- The drain of R166: a successful get lowers the count by one, so the count itself bounds the loop (R177). -/
def csDrain (c : CsPort) (s : State) : State := csGetMany c (s.rb (.inner c)).count s

/-- The byte in slot `i` of a stream's array. -/
def csSlot (c : CsPort) (s : State) (i : Nat) : Byte := BitVec.ofNat 8 (s.readSlot (.inner c) i)

/-- Slot `(start + i) mod c` equals `token[i]` for every `i` (R166, R167). -/
def csWindowFrom (c : CsPort) (s : State) : Nat → List Byte → Bool
  | _, [] => true
  | i, b :: token => csSlot c s (i % (s.rb (.inner c)).capacity) == b && csWindowFrom c s (i + 1) token

/-- The comparison of R166 on a drained stream: where the token starts, if it matches. -/
def csFindToken (c : CsPort) (token : List Byte) (shift : Nat) (s : State) : Option Nat :=
  if (s.cs c).lockout = 0 ∧ 1 ≤ (s.rb (.inner c)).capacity then
    if csWindowFrom c s (windowStart (s.rb (.inner c)) shift token.length) token then
      some (windowStart (s.rb (.inner c)) shift token.length)
    else none
  else none

/-- What a match does: the lockout, and the `shift` bytes put back (R166). -/
def csAccept (c : CsPort) (shift : Nat) (moveCursor : Bool) (s : State) : State :=
  if moveCursor && decide (0 < shift) then rbShift (.inner c) shift false (s.setLockout c (1 + shift))
  else s.setLockout c (1 + shift)

/-- `CS.MATCH_TOKEN` without its gate: `start` of the match, if any (R166). -/
def csMatchToken (c : CsPort) (token : List Byte) (shift : Nat) (moveCursor : Bool) (s : State) : Option Nat × State :=
  match csFindToken c token shift (csDrain c s) with
  | none => (none, csDrain c s)
  | some start => (some start, csAccept c shift moveCursor (csDrain c s))

/-- The front byte of a stream, if it has one. -/
def csFront (c : CsPort) (s : State) : Option Byte :=
  if (s.rb (.inner c)).count = 0 then none else some (csSlot c s (s.rb (.inner c)).readIndex)

/-- The digit loop of R170 with its `n` and `v`; the count bounds it (R177). -/
def csDigits (c : CsPort) : Nat → Nat → Word32 → State → (Nat × Word32) × State
  | 0, n, v, s => ((n, v), s)
  | fuel + 1, n, v, s =>
    match csFront c s with
    | none => ((n, v), s)
    | some b => if isDigit b then csDigits c fuel (n + 1) (pushDigit v b) (csGet c s).2 else ((n, v), s)

/-- `CS.MATCH_ASCII_UINT` without its gate (R170). -/
def csMatchUint (c : CsPort) (s : State) : Option Word32 × State :=
  let r := csDigits c (s.rb (.inner c)).count 0 0 s
  (if r.1.1 = 0 then none else some r.1.2, r.2)

/-- The delimiter step without its gate (R175); the null terminator goes to `pos` (R176). -/
def csDelimiter (c : CsPort) (delimiter : Byte) (value : Word32) (pos : Nat) (s : State) : Option Word32 × State :=
  if csFront c s = some delimiter then (some value, (csGet c s).2)
  else (none, s.writeSlot (.inner c) pos 0)

/-! ### Taking an interrupt (42_duplexlink.md R206, 60_exceptions.md R385 to R389)

Entry saves nothing and switches nothing (R388); the return restores nothing and re-enables nothing (R389). -/

/-- The transmit half (R207), on the signals sampled at entry. -/
def handlerTransmit (k : LinkId) (sig : PeriphIn) (s : State) : State :=
  if sig.txReady then
    match rbGet (.tx k) s with
    | (none, s') => (s'.setTxClass k .complete).setTxie k false
    | (some b, s') => (s'.emit (.txWr k (BitVec.ofNat 8 b))).setTxClass k .progressed
  else s

/-- The receive half (R208 to R210), on the signals sampled at entry. -/
def handlerReceive (k : LinkId) (sig : PeriphIn) (s : State) : State :=
  if (s.link k).errEn && sig.anyErr then (s.setLastError k sig.classify).setRxClass k .error
  else if sig.rxReady then
    if (s.rb (.inner (.rx k))).isFull then (s.setRxClass k .bufferFull).setRxie k false
    else (csPut (.rx k) sig.rxData (s.emit (.rxRd k))).2.setRxClass k .progressed
  else s

/-- The handler's return (R389): it restores nothing. -/
def returnFromInterrupt (_k : LinkId) (s : State) : State := s

/-- `DLC.ON_INTERRUPT` (R206): the signals are sampled once, then the transmit half, then the receive half. -/
def takeInterrupt (k : LinkId) (s : State) : State :=
  returnFromInterrupt k (handlerReceive k (s.sample k) (handlerTransmit k (s.sample k) s))

/-! ### Units of the links (42_duplexlink.md) -/

/-- `DLC.TRANSMIT` (R212). -/
def dlcTransmit (k : LinkId) (b : Byte) (s : State) : Bool × State :=
  if !(s.link k).status.enabled || (s.rb (.tx k)).isFull then (false, s)
  else underGate (.txGate k) (rbPut (.tx k) b.toNat) s

/-- `DLC.RECEIVE` (R213). -/
def dlcReceive (k : LinkId) (s : State) : Option Byte × State :=
  if (s.link k).status.enabled then underGate (.rxGate k) (csGet (.rx k)) s else (none, s)

/-! ### Results (R90, R93, R112) -/

/-- The outcome of a completed operation. -/
abbrev Out := Host.Outcome State Fault Refusal

/-- Present a result record. -/
def answer (r : Result) (s : State) : Out := .next (s.setResult r)

end Sys2Proof.Machine
end

