-- ==== Sys2Proof/Machine/Schedule.lean ====
section
/-! DEFINITION. How the agents interleave (20_memory.md R75 to R79, 60_exceptions.md R386) and how APP waits (00_scope.md R15,
R395).

`State.agenda` is the schedule: steps of the other agents, the application's stores between its operations, and `app` where APP
takes its next unit. Between two units of one
operation the machine serves the agenda up to the next `app` (`point`); in a busy-wait it serves it until the condition holds.
When the agenda is empty nothing else ever happens: APP runs on alone, and a wait whose condition does not hold is a hang. -/

namespace Sys2Proof.Machine

/-- A store by the application (R82): an array of its own changes, a bound one becomes `any value` (U3; logs 12 and 22). -/
def applyStore (r : Ref) (slot : Word32) (v : Byte) (s : State) : State :=
  if s.isBound r then (s.taint r).disturb r
  else (s.disturb r).setMem (s.mem.write (slotAddress r slot.toNat) v)

/-- The same for an array of `W`-bit slots; where `W = 8` it is a byte array. -/
def applyStoreWide (r : Ref) (slot : Word32) (v : Nat) (s : State) : State :=
  if s.byteSlots .bench then applyStore r slot (BitVec.ofNat 8 v) s
  else if s.isBound r then (s.taint r).disturb r
  else (s.disturb r).setWide (s.wide.write (slotAddress r slot.toNat) (v % 2 ^ s.params.slotWidth))

/-- One step of an agent other than APP. `ISR[k]` runs only where `pending[k]` (R386), and never on the link `excluded`
(R79, R232). The application's stores are APP's own: inside an operation of APP, or while APP hangs, such an entry takes no
step (R76, R232; log 22). -/
def applyEvent (excluded : Option LinkId) (e : Event) (s : State) : State :=
  match e with
  | .app => s
  | .periph k sig => s.setPeriph k sig
  | .lines busy irq => s.setLines busy irq
  | .isr k => if s.pending k && excluded != some k then takeInterrupt k s else s
  | .store _ _ _ => s
  | .storeWide _ _ _ => s

/-- What an entry does between two operations of APP, where the application's stores fall (R82; log 22). -/
def applyBetween (e : Event) (s : State) : State :=
  match e with
  | .app => s
  | .periph k sig => applyEvent none (.periph k sig) s
  | .lines busy irq => applyEvent none (.lines busy irq) s
  | .isr k => applyEvent none (.isr k) s
  | .store r slot v => applyStore r slot v s
  | .storeWide r slot v => applyStoreWide r slot v s

/-- Serve an agenda up to and including the next `app`; what is left of it stays. -/
def serve (excluded : Option LinkId) : List Event → State → State
  | [], s => s.setAgenda []
  | .app :: rest, s => s.setAgenda rest
  | e :: rest, s => serve excluded rest (applyEvent excluded e s)

/-- A point between two units of one operation (R76). -/
def pointExcluding (excluded : Option LinkId) (s : State) : State := serve excluded s.agenda s

/-- A point at which every other agent may step. -/
def point (s : State) : State := pointExcluding none s

/-! ### Waiting -/

/-- The condition a busy-wait of R395 waits for; `tx_ready` and `rx_ready` are those of `LINK_S` (R230, R262, R274). -/
def waitHolds (w : Wait) (s : State) : Bool :=
  match w with
  | .txReady => (s.sample .s).txReady
  | .rxReady => (s.sample .s).rxReady
  | .busyLow => !s.busy
  | .irqHigh => s.irq

/-- What a sequence of units that can wait comes to. A hang gives no result (R395): the state says where APP hangs. -/
inductive Res (α : Type) where
  | done (a : α) (s : State)
  | hung (s : State)

/-- Go on with the rest of a sequence; after a hang nothing follows. -/
def Res.bind {α β : Type} (r : Res α) (f : α → State → Res β) : Res β :=
  match r with
  | .done a s => f a s
  | .hung s => .hung s

/-- Serve an agenda until the condition holds. -/
def waitLoop (excluded : Option LinkId) (w : Wait) : List Event → State → Res Unit
  | [], s =>
    if waitHolds w s then .done () (s.setAgenda []) else .hung ((s.setAgenda []).setPhase (.waiting w))
  | e :: rest, s =>
    if waitHolds w s then .done () (s.setAgenda (e :: rest))
    else waitLoop excluded w rest (applyEvent excluded e s)

/-- `wait until <condition>` (R15): other agents may step before the condition is first sampled. -/
def waitUntil (excluded : Option LinkId) (w : Wait) (s : State) : Res Unit :=
  waitLoop excluded w (pointExcluding excluded s).agenda (pointExcluding excluded s)

/-- The outcome of a sequence of units: its result record, or the hanging state. -/
def Res.outcome {α : Type} (r : Res α) (f : α → Result) : Out :=
  match r with
  | .done a s => answer (f a) s
  | .hung s => .next s

/-! ### Whose turn it is (R75, R421) -/

/-- What the next step of the machine is. -/
inductive Turn where
  /-- another agent stepped, or nothing happened -/
  | other (s : State)
  /-- a request is presented -/
  | request (r : Request) (s : State)

/-- APP, or the interrupt port, presents the oldest request; without one the block is idle (R421). -/
def appTurn (s : State) : Turn :=
  match s.requests with
  | [] => .other s
  | r :: rest => .request r (s.setRequests rest)

/-- The link whose handler stays excluded while APP hangs in a wait: the waits inside a host transaction (R232, R395). -/
def hangExcludes : Wait → Option LinkId
  | .txReady => some .s
  | .rxReady => some .s
  | .busyLow => none
  | .irqHigh => none

/-- While APP hangs only the other agents step (R395); between two operations the application may store as well (R82). -/
def turn (s : State) : Turn :=
  match s.phase, s.agenda with
  | .waiting _, [] => .other s
  | .waiting w, e :: rest => .other (applyEvent (hangExcludes w) e (s.setAgenda rest))
  | .ready, [] => appTurn s
  | .ready, .app :: rest => appTurn (s.setAgenda rest)
  | .ready, e :: rest => .other (applyBetween e (s.setAgenda rest))

/-- The instruction a request stands for. -/
def fetch (s : State) (r : Request) : Except Reject Instr := (decode s.params r.port r.bytes).map fun x => x.1

/-- What the hardware answers to a request it refuses: no state change, the all-zero record (R112). -/
def answerRefused (s : State) : Out := answer .zeros s

end Sys2Proof.Machine
end

