-- ==== Sys2Proof/Machine/RingBuffer.lean ====
section
/-! DEFINITION. The meanings of the RB operations (40_ringbuffer.md). Each is one atomic unit (R76). -/

namespace Sys2Proof.Machine

/-- `RB.RESET` (R131). A capacity without an array is refused (R112): nothing changes. -/
def execRbReset (p : RbPort) (backing : Option Ref) (capacity : Word32) (s : State) : Out :=
  if bindable backing capacity then answer .none (rbBind p backing capacity.toNat s) else answer .none s

/-- `RB.CLEAR` (R132). -/
def execRbClear (p : RbPort) (s : State) : Out := answer .none (rbClear p s)

/-- `RB.PUT` (R133). A value wider than the slot is refused (R112). -/
def execRbPut (p : RbPort) (value : Nat) (s : State) : Out :=
  if value < 2 ^ slotWidthOf s.params p then answer (.ok (rbPut p value s).1) (rbPut p value s).2
  else answer (.ok false) s

/-- `RB.GET` (R134). -/
def execRbGet (p : RbPort) (s : State) : Out := answer (.slotOption (rbGet p s).1) (rbGet p s).2

/-- `RB.PEEK` (R135). -/
def execRbPeek (p : RbPort) (s : State) : Out := answer (.slot (rbPeek p s)) s

/-- `RB.RAW_VIEW` (R136). -/
def execRbRawView (p : RbPort) (s : State) : Out :=
  answer (.view (s.rb p).readIndex (s.rb p).writeIndex (s.rb p).backing (s.rb p).capacity) s

/-- `RB.SHIFT_READ_POINTER` (R137). -/
def execRbShiftReadPointer (p : RbPort) (amount : Word32) (forward : Bool) (s : State) : Out :=
  answer .none (rbShift p amount.toNat forward s)

/-- `RB.COUNT` (R139). -/
def execRbCount (p : RbPort) (s : State) : Out := answer (.count (s.rb p).count) s

/-- `RB.STATE` (R140). -/
def execRbState (p : RbPort) (s : State) : Out := answer (.condition (s.rb p).condition) s

end Sys2Proof.Machine
end

