-- ==== Sys2Proof/Machine/CommandStream.lean ====
section
/-! DEFINITION. The meanings of the CS operations (41_commandstream.md). Each is one atomic unit but `CS.MATCH_PARAM`, a
sequence of units with points between them (R76, R174). -/

namespace Sys2Proof.Machine

/-! ### The composed operation -/

/-- The attempts of R174: shifts `shift`, `shift + 1`, ..., `n` of them, each a unit; the first is not preceded by a point. -/
def paramAttempts (c : CsPort) (token : List Byte) (g : Gate) : Nat → Nat → State → Option Nat × State
  | 0, _, s => (none, s)
  | n + 1, shift, s =>
    let r := underGate g (csMatchToken c token shift true) (if shift = 1 then s else point s)
    match r.1 with
    | some pos => (some pos, r.2)
    | none => paramAttempts c token g n (shift + 1) r.2

/-- After the token was found at `pos`: the digits, then the delimiter step if a delimiter is configured (R174, R175). -/
def paramRest (c : CsPort) (delimiter : Byte) (g : Gate) (pos : Nat) (s : State) : Option Word32 × State :=
  let r := underGate g (csMatchUint c) (point s)
  match r.1 with
  | none => (none, r.2)
  | some v => if delimiter = 0 then (some v, r.2) else underGate g (csDelimiter c delimiter v pos) (point r.2)

/-- `match_param` (R174). -/
def csMatchParam (c : CsPort) (token : List Byte) (delimiter : Byte) (maxDigits : Nat) (g : Gate) (s : State) :
    Option Word32 × State :=
  let r := paramAttempts c token g maxDigits 1 s
  match r.1 with
  | none => (none, r.2)
  | some pos => paramRest c delimiter g pos r.2

/-! ### The meanings -/

/-- `CS.RESET` (R161). A capacity without an array is refused (R112). -/
def execCsReset (c : CsPort) (backing : Option Ref) (capacity : Word32) (s : State) : Out :=
  if bindable backing capacity then answer .none (csBind c backing capacity.toNat s) else answer .none s

/-- `CS.CLEAR` (R162). -/
def execCsClear (c : CsPort) (s : State) : Out := answer .none (csClear c s)

/-- `CS.PUT_BYTE` (R163). -/
def execCsPutByte (c : CsPort) (value : Byte) (g : Gate) (s : State) : Out :=
  let r := underGate g (csPut c value) s
  answer (.ok r.1) r.2

/-- `CS.GET_BYTE` (R164). -/
def execCsGetByte (c : CsPort) (g : Gate) (s : State) : Out :=
  let r := underGate g (csGet c) s
  answer (.byteOption r.1) r.2

/-- `CS.MATCH_TOKEN` (R166). -/
def execCsMatchToken (c : CsPort) (token : List Byte) (shift : Byte) (moveCursor : Bool) (g : Gate) (s : State) : Out :=
  let r := underGate g (csMatchToken c token shift.toNat moveCursor) s
  answer (.ok r.1.isSome) r.2

/-- `CS.MATCH_ASCII_UINT` (R170). -/
def execCsMatchAsciiUint (c : CsPort) (g : Gate) (s : State) : Out :=
  let r := underGate g (csMatchUint c) s
  answer (.uintOption r.1) r.2

/-- `CS.MATCH_PARAM` (R174). -/
def execCsMatchParam (c : CsPort) (token : List Byte) (delimiter maxDigits : Byte) (g : Gate) (s : State) : Out :=
  let r := csMatchParam c token delimiter maxDigits.toNat g s
  answer (.uintOption r.1) r.2

/-- `CS.COUNT` (R178). -/
def execCsCount (c : CsPort) (s : State) : Out := answer (.count (s.rb (.inner c)).count) s

end Sys2Proof.Machine
end

