-- ==== Sys2Proof/Machine/DuplexLink.lean ====
section
/-! DEFINITION. The meanings of the DLC operations (42_duplexlink.md). Only `DLC.HOST_TRANSACTION` can wait (R235); the
composed transmits and `DLC.MATCH_PARAM` are sequences of units (R76). -/

namespace Sys2Proof.Machine

/-! ### The composed transmits -/

/-- `DLC.TRANSMIT` of each byte, a unit each, until one fails; how many were queued (R214, R215). The first is not preceded
by a point. -/
def transmitAll (k : LinkId) : Bool → List Byte → State → Nat × State
  | _, [], s => (0, s)
  | first, b :: data, s =>
    let r := dlcTransmit k b (if first then s else point s)
    if r.1 then ((transmitAll k false data r.2).1 + 1, (transmitAll k false data r.2).2) else (0, r.2)

/-! ### The host transaction (R230 to R232)

`LINK_S` is the only SYNC link. Its handler takes no step from the select-assert to the `flag_clear` pulse (R232). -/

/-- `select_n` takes a level (R33). -/
def driveSelect (level : Bool) (s : State) : State := (s.setSelect level).emit (.select level)

/-- One byte out and the byte it is paired with in (R69): wait, `tx_wr`, wait, `rx_rd`. -/
def clockByte (b : Byte) (s : State) : Res Byte :=
  (waitUntil (some .s) .txReady s).bind fun _ s =>
  (waitUntil (some .s) .rxReady (s.emit (.txWr .s b))).bind fun _ s =>
  .done (s.sample .s).rxData (s.emit (.rxRd .s))

/-- The command phase: the responses, in order. -/
def commandPhase : List Byte → State → Res (List Byte)
  | [], s => .done [] s
  | b :: out, s =>
    (clockByte b s).bind fun r s =>
    (commandPhase out s).bind fun rs s =>
    .done (r :: rs) s

/-- The response phase: a filler for each byte, stopping early where `rx` is full (R231). -/
def responsePhase : Nat → State → Res Unit
  | 0, s => .done () s
  | n + 1, s =>
    if (s.rb (.inner (.rx .s))).isFull then .done () s
    else
      (clockByte s.params.enc.nop s).bind fun b s =>
      responsePhase n (csPut (.rx .s) b s).2

/-- `host_transaction` on `LINK_S` (R230): the first status byte captured, 0x00 where there was none. R76 calls it a sequence
without naming its units. DESIGN CHOICE (log 27): other agents step at its waits only, so what lies between two waits is one
unit: the select-assert; a `tx_wr`; an `rx_rd` with the put after it; the last `rx_rd` with its put, `select_n <- 1` and
`flag_clear`. -/
def hostTransaction (out : List Byte) (numRead : Nat) (s : State) : Res Byte :=
  if (s.link .s).status.enabled then
    (commandPhase out (driveSelect false s)).bind fun responses s =>
    (responsePhase numRead s).bind fun _ s =>
    .done (responses.headD 0) ((driveSelect true s).emit (.flagClear .s))
  else .done 0 s

/-! ### The meanings -/

/-- What `DLC.INIT` does to a disabled link (R203). -/
def linkUp (k : LinkId) (config : PeriphConfig) (txBacking : Option Ref) (txCapacity : Nat) (rxBacking : Option Ref)
    (rxCapacity : Nat) (s : State) : State :=
  let s := s.emit (.cfgProgram k config)
  let s := rbBind (.tx k) txBacking txCapacity s
  let s := csBind (.rx k) rxBacking rxCapacity s
  let s := (s.setErrEn k config.errEn).setRxie k true
  s.setStatus k { txClass := .none, rxClass := .none, lastError := .none, enabled := true }

/-- `DLC.INIT` (R203): nothing on an enabled link, its operands ignored; a capacity without an array is refused (R112). -/
def execDlcInit (k : LinkId) (config : PeriphConfig) (txBacking : Option Ref) (txCapacity : Word32)
    (rxBacking : Option Ref) (rxCapacity : Word32) (s : State) : Out :=
  if (s.link k).status.enabled then answer .none s
  else if bindable txBacking txCapacity && bindable rxBacking rxCapacity then
    answer .none (linkUp k config txBacking txCapacity.toNat rxBacking rxCapacity.toNat s)
  else answer .none s

/-- What `DLC.DEINIT` does to an enabled link (R204). -/
def linkDown (k : LinkId) (s : State) : State :=
  let s := csClear (.rx k) (rbClear (.tx k) s)
  let s := (s.setTxie k false).setRxie k false
  let s := s.emit (.cfgTeardown k)
  let s := csBind (.rx k) none 0 (rbBind (.tx k) none 0 s)
  s.setEnabled k false

/-- `DLC.DEINIT` (R204). -/
def execDlcDeinit (k : LinkId) (s : State) : Out :=
  if (s.link k).status.enabled then answer .none (linkDown k s) else answer .none s

/-- `DLC.ON_INTERRUPT` (R206), invoked at the interrupt port; the body tests the peripheral's flags, not the enables. A
spurious invocation is admitted here (R386, U13; log 13). -/
def execDlcOnInterrupt (k : LinkId) (s : State) : Out := answer .none (takeInterrupt k s)

/-- `DLC.TRANSMIT` (R212). -/
def execDlcTransmit (k : LinkId) (value : Byte) (s : State) : Out :=
  answer (.ok (dlcTransmit k value s).1) (dlcTransmit k value s).2

/-- `DLC.RECEIVE` (R213). -/
def execDlcReceive (k : LinkId) (s : State) : Out :=
  answer (.byteOption (dlcReceive k s).1) (dlcReceive k s).2

/-- `DLC.TRANSMIT_PACKET` (R214). -/
def execDlcTransmitPacket (k : LinkId) (data : List Byte) (s : State) : Out :=
  answer .none (transmitAll k true data s).2

/-- `DLC.TRANSMIT_STRING` (R215). A text with a zero byte is refused (R92, R112). -/
def execDlcTransmitString (k : LinkId) (data : List Byte) (s : State) : Out :=
  if isText data then answer (.count (transmitAll k true data s).1) (transmitAll k true data s).2
  else answer (.count 0) s

/-- `DLC.TRANSMIT_UINT` (R216). -/
def execDlcTransmitUint (k : LinkId) (value : Word32) (s : State) : Out :=
  answer .none (transmitAll k true (decimalText value) s).2

/-- `DLC.MATCH_TOKEN` (R218). -/
def execDlcMatchToken (k : LinkId) (token : List Byte) (shift : Byte) (moveCursor : Bool) (s : State) : Out :=
  if (s.link k).status.enabled then
    let r := underGate (.rxGate k) (csMatchToken (.rx k) token shift.toNat moveCursor) s
    answer (.ok r.1.isSome) r.2
  else answer (.ok false) s

/-- `DLC.MATCH_ASCII_UINT` (R219). -/
def execDlcMatchAsciiUint (k : LinkId) (s : State) : Out :=
  if (s.link k).status.enabled then
    let r := underGate (.rxGate k) (csMatchUint (.rx k)) s
    answer (.uintOption r.1) r.2
  else answer (.uintOption none) s

/-- `DLC.MATCH_PARAM` (R220). -/
def execDlcMatchParam (k : LinkId) (token : List Byte) (delimiter maxDigits : Byte) (s : State) : Out :=
  if (s.link k).status.enabled then
    let r := csMatchParam (.rx k) token delimiter maxDigits.toNat (.rxGate k) s
    answer (.uintOption r.1) r.2
  else answer (.uintOption none) s

/-- `DLC.HOST_TRANSACTION` (R230); on an ASYNC link it is refused (R112): nothing changes, status 0x00. -/
def execDlcHostTransaction (k : LinkId) (out : List Byte) (numRead : Word32) (s : State) : Out :=
  match linkKind k with
  | .sync => (hostTransaction out numRead.toNat s).outcome .byte
  | .async => answer (.byte 0) s

/-- `DLC.STATUS` (R221). -/
def execDlcStatus (k : LinkId) (s : State) : Out := answer (.linkStatus (s.link k).status) s

/-- `DLC.ACK_ERROR` (R222). -/
def execDlcAckError (k : LinkId) (s : State) : Out := answer .none (s.setLastError k .none)

/-- `DLC.ACK_TX_IRQ` (R223). -/
def execDlcAckTxIrq (k : LinkId) (s : State) : Out := answer .none (s.setTxClass k .none)

/-- `DLC.ACK_RX_IRQ` (R224). -/
def execDlcAckRxIrq (k : LinkId) (s : State) : Out := answer .none (s.setRxClass k .none)

end Sys2Proof.Machine
end

