-- ==== Sys2Proof/Machine/Radio.lean ====
section
/-! DEFINITION. The RadioController's sequencer (43_radio_sequencer.md): its building blocks and the meanings of the RC
operations. The transceiver's answers are what `PERIPH[LINK_S]` shows in `rx_data` (R44, R350(d)). -/

namespace Sys2Proof.Machine

/-! ### Building blocks -/

/-- `exchange` (R262): wait for `busy` low, then one host transaction. -/
def exchange (f : Frame) (s : State) : Res Byte :=
  (waitUntil none .busyLow s).bind fun _ s => hostTransaction f.out f.numRead s

/-- Exchanges strictly in the order written (R262). -/
def exchangeAll : List Frame → State → Res Unit
  | [], s => .done () s
  | f :: fs, s => (exchange f s).bind fun _ s => exchangeAll fs s

/-- `take(n)` (R263): one `DLC.RECEIVE` unit per byte, a missing byte reads 0x00. -/
def takeResponses : Nat → State → List Byte × State
  | 0, s => ([], s)
  | n + 1, s =>
    let r := dlcReceive .s (point s)
    let rest := takeResponses n r.2
    (r.1.getD 0 :: rest.1, rest.2)

/-- One edge of `reset_n`. -/
def driveReset (level : Bool) (s : State) : State :=
  (s.setResetN level).emit (.radioReset level)

/-- `delay T_SETTLE`: the model has no time (R265, U14; log 19). -/
def settle (_length : Nat) (s : State) : State := s

/-- `hard_reset()` (R265). -/
def hardReset (s : State) : State :=
  settle Config.tSettle (driveReset true (point (settle Config.tSettle (driveReset false s))))

/-- `patch(addr, and, or)`: read-modify-write of one transceiver register (R266). -/
def patchRegister (addr : Word16) (andMask orMask : Byte) (s : State) : Res Unit :=
  (exchange (Frame.readRegister s.params.enc addr) s).bind fun _ s =>
  let r := takeResponses 1 s
  (exchange (Frame.writeRegister r.2.params.enc addr [(r.1.headD 0 &&& andMask) ||| orMask]) r.2).bind fun _ s =>
  .done () s

/-- `read_and_clear_irq()`: the read is followed, unconditionally, by the clear-all (R270). -/
def readAndClearIrq (s : State) : Res Word16 :=
  (exchange (Frame.getIrqStatus s.params.enc) s).bind fun _ s =>
  let r := takeResponses 3 s
  (exchange (Frame.clearIrq r.2.params.enc) r.2).bind fun _ s =>
  .done (irqStatusOf (r.1.getD 1 0) (r.1.getD 2 0)) s

/-- The standby exchange of R272, where `RC_STANDBY_FIRST`. -/
def standbyFirst (s : State) : Res Unit :=
  if s.params.rcStandbyFirst then exchangeAll [standbyFrame s.params.enc] s else .done () s

/-- `set_packet_length(n)` (R271). -/
def setPacketLength (len : Byte) (s : State) : Res Byte := exchange (packetParamsFrame s.params.enc s.radio len) s

/-- One payload byte from `link.rx` to the sink (R278); a byte the sink has no room for is dropped. -/
def moveByte (s : State) : State :=
  let r := dlcReceive .s (point s)
  match r.1 with
  | some b => (csPut .sink b (point r.2)).2
  | none => r.2

/-- `moveByte` `n` times. -/
def moveBytes : Nat → State → State
  | 0, s => s
  | n + 1, s => moveBytes n (moveByte s)

/-- `stream_payload(off, len)` (R278): what was captured is moved. DESIGN CHOICE (log 28): the reading of `link.rx`'s count is a
unit of its own, as `CS.COUNT` is (R76), so that the handler of `LINK_S` may append a byte before it. -/
def streamPayload (offset len : Byte) (s : State) : Res Unit :=
  (exchange (Frame.readBuffer s.params.enc offset len) s).bind fun _ s =>
  let s := point s
  .done () (moveBytes (s.rb (.inner (.rx .s))).count s)

/-- Steps 2 to 13 of `RC.INIT` (R264). -/
def configureRadio (c : RadioConfig) (s : State) : Res Unit :=
  let e := s.params.enc
  (exchangeAll [standbyFrame e, packetTypeFrame e, frequencyFrame e c, paFrame e c, txParamsFrame e c] s).bind fun _ s =>
  (patchRegister e.regTxClamp 0xFF e.txClampOr s).bind fun _ s =>
  (exchangeAll [bufferBaseFrame e, modulationFrame e c] s).bind fun _ s =>
  (patchRegister e.regModQuality (modQualityAnd e c) (modQualityOr e c) s).bind fun _ s =>
  (exchangeAll [packetParamsFrame e s.radio 0xFF, dioIrqFrame e, syncWordFrame e c] s).bind fun _ s =>
  .done () (s.setMode .standby)

/-- Step 0 of `RC.INIT`: the sink is bound, the two kept fields are stored. -/
def radioStart (c : RadioConfig) (sinkBacking : Option Ref) (sinkCapacity : Nat) (s : State) : State :=
  (csBind .sink sinkBacking sinkCapacity s).setRadioConfig c.preambleLength c.crcEnabled

/-- The wait of `RC.TRANSMIT` and `RC.RECEIVE` on the `irq` line, and the reading of the status (R274, R276). The ghost mode
is `m` from the exchange that starts the radio until the wait ends (R36). -/
def runRadio (m : RadioMode) (start : Frame) (s : State) : Res Word16 :=
  (exchange start (s.setMode m)).bind fun _ s =>
  (waitUntil none .irqHigh s).bind fun _ s =>
  readAndClearIrq (s.setMode .standby)

/-- The sequence of `RC.TRANSMIT` (R274): success iff the tx-done bit is set. -/
def radioTransmit (payload : List Byte) (timeout : Word32) (s : State) : Res Bool :=
  (standbyFirst s).bind fun _ s =>
  (setPacketLength (BitVec.ofNat 8 payload.length) s).bind fun _ s =>
  (exchange (Frame.writeBuffer s.params.enc 0 payload) s).bind fun _ s =>
  (runRadio .transmitting (Frame.setTxMode s.params.enc (txTimeout timeout)) s).bind fun status s =>
  .done (irqBit status s.params.enc.irqTxDone) s

/-- What `RC.RECEIVE` does on rx-done without CRC error: the length and offset, then the payload (R276). -/
def fetchPayload (s : State) : Res Unit :=
  (exchange (Frame.getRxBufferStatus s.params.enc) s).bind fun _ s =>
  let r := takeResponses 3 s
  streamPayload (r.1.getD 2 0) (r.1.getD 1 0) r.2

/-- The results of R277, and the buffer read of its second row. -/
def receiveResult (status : Word16) (s : State) : Res (Bool × Bool) :=
  match rxOutcome s.params.enc status with
  | .crcFailure => .done (false, false) s
  | .payload => (fetchPayload s).bind fun _ s => .done (true, false) s
  | .timedOut => .done (false, true) s
  | .nothing => .done (false, false) s

/-- The sequence of `RC.RECEIVE` (R276). -/
def radioReceive (timeout : Word32) (s : State) : Res (Bool × Bool) :=
  (standbyFirst s).bind fun _ s =>
  (setPacketLength 0xFF s).bind fun _ s =>
  (runRadio .receiving (Frame.setRxMode s.params.enc (rxTimeout timeout)) s).bind fun status s =>
  receiveResult status s

/-! ### The meanings -/

/-- `RC.INIT` (R264). Nothing on a disabled link (R261(a)); a frequency that does not fit, or a capacity without an array, is
refused (R103, R112): nothing changes. -/
def execRcInit (config : RadioConfig) (sinkBacking : Option Ref) (sinkCapacity : Word32) (s : State) : Out :=
  if (s.link .s).status.enabled && freqFits config.freqHz && bindable sinkBacking sinkCapacity then
    (configureRadio config (hardReset (point (radioStart config sinkBacking sinkCapacity.toNat s)))).outcome
      fun _ => .none
  else answer .none s

/-- `RC.TRANSMIT` (R274). Failure on a disabled link (R261(a)); refused before an `RC.INIT` (R261(c)); failure without a
frame where the payload is longer than 255 bytes. -/
def execRcTransmit (payload : List Byte) (timeout : Word32) (s : State) : Out :=
  if (s.link .s).status.enabled then
    if s.radio.mode = .uninitialized then .refused .radioNotInitialised
    else if payload.length ≤ 255 then (radioTransmit payload timeout s).outcome .ok
    else answer (.ok false) s
  else answer (.ok false) s

/-- `RC.RECEIVE` (R276); guards as `RC.TRANSMIT`. -/
def execRcReceive (timeout : Word32) (s : State) : Out :=
  if (s.link .s).status.enabled then
    if s.radio.mode = .uninitialized then .refused .radioNotInitialised
    else (radioReceive timeout s).outcome fun r => .received r.1 r.2
  else answer (.received false false) s

/-- `RC.READ_BYTE` (R282). -/
def execRcReadByte (s : State) : Out :=
  let r := underGate .noop (csGet .sink) s
  answer (.byteOption r.1) r.2

/-- `RC.MATCH_TOKEN` (R283). -/
def execRcMatchToken (token : List Byte) (shift : Byte) (moveCursor : Bool) (s : State) : Out :=
  let r := underGate .noop (csMatchToken .sink token shift.toNat moveCursor) s
  answer (.ok r.1.isSome) r.2

/-- `RC.MATCH_ASCII_UINT` (R284). -/
def execRcMatchAsciiUint (s : State) : Out :=
  let r := underGate .noop (csMatchUint .sink) s
  answer (.uintOption r.1) r.2

/-- `RC.MATCH_PARAM` (R285). -/
def execRcMatchParam (token : List Byte) (delimiter maxDigits : Byte) (s : State) : Out :=
  let r := csMatchParam .sink token delimiter maxDigits.toNat .noop s
  answer (.uintOption r.1) r.2

/-- `RC.AVAILABLE_COUNT` (R286). -/
def execRcAvailableCount (s : State) : Out := answer (.count (s.rb (.inner .sink)).count) s

end Sys2Proof.Machine
end

