-- ==== Sys2Proof/Machine/Frames.lean ====
section
/-! DEFINITION. The meanings of the SPI frames (44_radio_opcodes.md R321 to R338), one exchange each (43_radio_sequencer.md
R262): wait for `busy` low, then one host transaction on `LINK_S`, whose first status byte is the result. Response bytes stay
in `LINK_S.rx`, where the sequencer's `take` finds them (R263). The sequences of Radio.lean send the same frames. get-IRQ-status
is "Always followed by" clear-IRQ (R335, R448), here as in the sequences, so no request reads the status alone. -/

namespace Sys2Proof.Machine

/-- R321. -/
def execSpiStandbyMode (cfg : Byte) (s : State) : Out :=
  (exchange (Frame.standbyMode s.params.enc cfg) s).outcome .byte

/-- R322. -/
def execSpiSetPacketType (packetType : Byte) (s : State) : Out :=
  (exchange (Frame.setPacketType s.params.enc packetType) s).outcome .byte

/-- R323. -/
def execSpiSetRfFrequency (rf : Word32) (s : State) : Out :=
  (exchange (Frame.setRfFrequency s.params.enc rf) s).outcome .byte

/-- R324. -/
def execSpiSetPowerAmplifierConfig (dutyCycle hpMax deviceSel lut : Byte) (s : State) : Out :=
  (exchange (Frame.setPowerAmplifierConfig s.params.enc dutyCycle hpMax deviceSel lut) s).outcome .byte

/-- R325. -/
def execSpiSetTxParams (power ramp : Byte) (s : State) : Out :=
  (exchange (Frame.setTxParams s.params.enc power ramp) s).outcome .byte

/-- R326. -/
def execSpiWriteRegister (addr : Word16) (data : List Byte) (s : State) : Out :=
  (exchange (Frame.writeRegister s.params.enc addr data) s).outcome .byte

/-- R327. -/
def execSpiReadRegister (addr : Word16) (s : State) : Out :=
  (exchange (Frame.readRegister s.params.enc addr) s).outcome .byte

/-- R328. -/
def execSpiSetBufferBaseAddress (txBase rxBase : Byte) (s : State) : Out :=
  (exchange (Frame.setBufferBaseAddress s.params.enc txBase rxBase) s).outcome .byte

/-- R329. -/
def execSpiSetModulationParams (sf bw cr : Byte) (lowDataRate : Bool) (s : State) : Out :=
  (exchange (Frame.setModulationParams s.params.enc sf bw cr lowDataRate) s).outcome .byte

/-- R330. -/
def execSpiSetPacketParams (preamble : Word16) (header len : Byte) (crc : Bool) (iq : Byte) (s : State) : Out :=
  (exchange (Frame.setPacketParams s.params.enc preamble header len crc iq) s).outcome .byte

/-- R331. -/
def execSpiSetDioIrqParams (irqMask dio1Mask : Word16) (s : State) : Out :=
  (exchange (Frame.setDioIrqParams s.params.enc irqMask dio1Mask) s).outcome .byte

/-- R332. -/
def execSpiWriteBuffer (offset : Byte) (data : List Byte) (s : State) : Out :=
  (exchange (Frame.writeBuffer s.params.enc offset data) s).outcome .byte

/-- R333. -/
def execSpiSetTxMode (timeout : Word24) (s : State) : Out :=
  (exchange (Frame.setTxMode s.params.enc timeout) s).outcome .byte

/-- R334: `FF FF FF` is outside the stated range and never goes out (R105, R112). -/
def execSpiSetRxMode (timeout : Word24) (s : State) : Out :=
  if timeout = 0xFFFFFF#24 then answer (.byte 0) s
  else (exchange (Frame.setRxMode s.params.enc timeout) s).outcome .byte

/-- R335, and the clear-all that always follows the read (R270, R336, R448); the result is the read's status byte. -/
def execSpiGetIrqStatus (s : State) : Out :=
  ((exchange (Frame.getIrqStatus s.params.enc) s).bind fun status s =>
    (exchange (Frame.clearIrq s.params.enc) s).bind fun _ s => .done status s).outcome .byte

/-- R336. -/
def execSpiClearIrq (s : State) : Out :=
  (exchange (Frame.clearIrq s.params.enc) s).outcome .byte

/-- R337. -/
def execSpiGetRxBufferStatus (s : State) : Out :=
  (exchange (Frame.getRxBufferStatus s.params.enc) s).outcome .byte

/-- R338. -/
def execSpiReadBuffer (offset len : Byte) (s : State) : Out :=
  (exchange (Frame.readBuffer s.params.enc offset len) s).outcome .byte

end Sys2Proof.Machine
end

