-- ==== Sys2Proof/Machine/Dispatch.lean ====
section
/-! DEFINITION. `exec`: one arm per constructor of `Instr`, each one direct call of its meaning. -/

namespace Sys2Proof.Machine

def exec (i : Instr) (s : State) : Host.Outcome State Fault Refusal :=
  match i with
  | .rbReset p backing capacity => Sys2Proof.Machine.execRbReset p backing capacity s
  | .rbClear p => Sys2Proof.Machine.execRbClear p s
  | .rbPut p value => Sys2Proof.Machine.execRbPut p value s
  | .rbGet p => Sys2Proof.Machine.execRbGet p s
  | .rbPeek p => Sys2Proof.Machine.execRbPeek p s
  | .rbRawView p => Sys2Proof.Machine.execRbRawView p s
  | .rbShiftReadPointer p amount forward => Sys2Proof.Machine.execRbShiftReadPointer p amount forward s
  | .rbCount p => Sys2Proof.Machine.execRbCount p s
  | .rbState p => Sys2Proof.Machine.execRbState p s
  | .csReset c backing capacity => Sys2Proof.Machine.execCsReset c backing capacity s
  | .csClear c => Sys2Proof.Machine.execCsClear c s
  | .csPutByte c value gate => Sys2Proof.Machine.execCsPutByte c value gate s
  | .csGetByte c gate => Sys2Proof.Machine.execCsGetByte c gate s
  | .csMatchToken c token shift moveCursor gate => Sys2Proof.Machine.execCsMatchToken c token shift moveCursor gate s
  | .csMatchAsciiUint c gate => Sys2Proof.Machine.execCsMatchAsciiUint c gate s
  | .csMatchParam c token delimiter maxDigits gate => Sys2Proof.Machine.execCsMatchParam c token delimiter maxDigits gate s
  | .csCount c => Sys2Proof.Machine.execCsCount c s
  | .dlcInit k config txBacking txCapacity rxBacking rxCapacity => Sys2Proof.Machine.execDlcInit k config txBacking txCapacity rxBacking rxCapacity s
  | .dlcDeinit k => Sys2Proof.Machine.execDlcDeinit k s
  | .dlcOnInterrupt k => Sys2Proof.Machine.execDlcOnInterrupt k s
  | .dlcTransmit k value => Sys2Proof.Machine.execDlcTransmit k value s
  | .dlcReceive k => Sys2Proof.Machine.execDlcReceive k s
  | .dlcTransmitPacket k data => Sys2Proof.Machine.execDlcTransmitPacket k data s
  | .dlcTransmitString k data => Sys2Proof.Machine.execDlcTransmitString k data s
  | .dlcTransmitUint k value => Sys2Proof.Machine.execDlcTransmitUint k value s
  | .dlcMatchToken k token shift moveCursor => Sys2Proof.Machine.execDlcMatchToken k token shift moveCursor s
  | .dlcMatchAsciiUint k => Sys2Proof.Machine.execDlcMatchAsciiUint k s
  | .dlcMatchParam k token delimiter maxDigits => Sys2Proof.Machine.execDlcMatchParam k token delimiter maxDigits s
  | .dlcHostTransaction k out numRead => Sys2Proof.Machine.execDlcHostTransaction k out numRead s
  | .dlcStatus k => Sys2Proof.Machine.execDlcStatus k s
  | .dlcAckError k => Sys2Proof.Machine.execDlcAckError k s
  | .dlcAckTxIrq k => Sys2Proof.Machine.execDlcAckTxIrq k s
  | .dlcAckRxIrq k => Sys2Proof.Machine.execDlcAckRxIrq k s
  | .rcInit config sinkBacking sinkCapacity => Sys2Proof.Machine.execRcInit config sinkBacking sinkCapacity s
  | .rcTransmit payload timeout => Sys2Proof.Machine.execRcTransmit payload timeout s
  | .rcReceive timeout => Sys2Proof.Machine.execRcReceive timeout s
  | .rcReadByte => Sys2Proof.Machine.execRcReadByte s
  | .rcMatchToken token shift moveCursor => Sys2Proof.Machine.execRcMatchToken token shift moveCursor s
  | .rcMatchAsciiUint => Sys2Proof.Machine.execRcMatchAsciiUint s
  | .rcMatchParam token delimiter maxDigits => Sys2Proof.Machine.execRcMatchParam token delimiter maxDigits s
  | .rcAvailableCount => Sys2Proof.Machine.execRcAvailableCount s
  | .spiStandbyMode cfg => Sys2Proof.Machine.execSpiStandbyMode cfg s
  | .spiSetPacketType packetType => Sys2Proof.Machine.execSpiSetPacketType packetType s
  | .spiSetRfFrequency rf => Sys2Proof.Machine.execSpiSetRfFrequency rf s
  | .spiSetPowerAmplifierConfig dutyCycle hpMax deviceSel lut => Sys2Proof.Machine.execSpiSetPowerAmplifierConfig dutyCycle hpMax deviceSel lut s
  | .spiSetTxParams power ramp => Sys2Proof.Machine.execSpiSetTxParams power ramp s
  | .spiWriteRegister addr data => Sys2Proof.Machine.execSpiWriteRegister addr data s
  | .spiReadRegister addr => Sys2Proof.Machine.execSpiReadRegister addr s
  | .spiSetBufferBaseAddress txBase rxBase => Sys2Proof.Machine.execSpiSetBufferBaseAddress txBase rxBase s
  | .spiSetModulationParams sf bw cr lowDataRate => Sys2Proof.Machine.execSpiSetModulationParams sf bw cr lowDataRate s
  | .spiSetPacketParams preamble header len crc iq => Sys2Proof.Machine.execSpiSetPacketParams preamble header len crc iq s
  | .spiSetDioIrqParams irqMask dio1Mask => Sys2Proof.Machine.execSpiSetDioIrqParams irqMask dio1Mask s
  | .spiWriteBuffer offset data => Sys2Proof.Machine.execSpiWriteBuffer offset data s
  | .spiSetTxMode timeout => Sys2Proof.Machine.execSpiSetTxMode timeout s
  | .spiSetRxMode timeout => Sys2Proof.Machine.execSpiSetRxMode timeout s
  | .spiGetIrqStatus => Sys2Proof.Machine.execSpiGetIrqStatus s
  | .spiClearIrq => Sys2Proof.Machine.execSpiClearIrq s
  | .spiGetRxBufferStatus => Sys2Proof.Machine.execSpiGetRxBufferStatus s
  | .spiReadBuffer offset len => Sys2Proof.Machine.execSpiReadBuffer offset len s

end Sys2Proof.Machine
end

