-- ==== Sys2Proof/Machine/Step.lean ====
section
/-! DEFINITION. One step of the machine, and how a word is placed where the next step fetches. -/

namespace Sys2Proof.Machine

/-- One step: another agent's step, or the oldest request, decoded and run. A request that decodes to nothing is answered
as R112 says. -/
def step (s : State) : Host.Outcome State Fault Refusal :=
  match turn s with
  | .other s' => .next s'
  | .request r s' =>
    match fetch s' r with
    | .ok i => exec i s'
    | .error _ => answerRefused s'

/-- `s` with the table word as the oldest request, and APP's turn next (log 2). A word that is no row's is placed at the
frame port, which refuses it. -/
def State.withFetchWord (s : State) (nbits w : Nat) : State :=
  let request : Request :=
    match tableWord nbits w with
    | some (port, bytes) => { port := port, bytes := bytes }
    | none => { port := .spi, bytes := lowBytes 32 w }
  { s with requests := request :: s.requests, agenda := .app :: s.agenda, phase := .ready }

end Sys2Proof.Machine
end

