-- ==== Sys2Proof/Safety.lean ====
section
/-! DEFINITION. What holds of a safe machine, in the terms the claims use: the invariant of every RB (10_state.md R23), the
bound of every lockout (R27), the canonical memory, exclusive arrays (R47), and the lines and modes between operations (R33,
R36, R265). -/

namespace Sys2Proof.Machine

/-- The invariant of R23, with the widths of R22 and the lifecycle of R24: unbound with `capacity = 0`, or bound with
`capacity >= 1`. -/
abbrev Rb.Ok (rb : Rb) : Prop :=
  rb.capacity < 2 ^ 32 ∧ rb.count ≤ rb.capacity
    ∧ (rb.capacity = 0 → rb.backing = none ∧ rb.readIndex = 0 ∧ rb.writeIndex = 0)
    ∧ (1 ≤ rb.capacity →
        rb.backing.isSome ∧ rb.readIndex < rb.capacity ∧ rb.writeIndex < rb.capacity
          ∧ rb.writeIndex = (rb.readIndex + rb.count) % rb.capacity)

/-- R23 of every RB. -/
def RingsOk (s : State) : Prop := ∀ p, (s.rb p).Ok

/-- R27, R179: no lockout passes `1 + 255`. -/
def LockoutsOk (s : State) : Prop := ∀ c, (s.cs c).lockout ≤ 256

/-- Both memories have the canonical form. -/
def MemoryOk (s : State) : Prop := s.mem.wf ∧ s.wide.wf

/-- R47: an array bound to two RBs is one whose contents are any value (U3). -/
def OwnershipOk (s : State) : Prop :=
  ∀ p q r, p ≠ q → (s.rb p).backing = some r → (s.rb q).backing = some r → r ∈ s.tainted

/-- R29: on the SYNC link only `ERR_NONE` and `ERR_OVERFLOW` occur. -/
def SyncErrorsOk (s : State) : Prop := (s.link .s).status.lastError = .none ∨ (s.link .s).status.lastError = .overflow

/-- R33: `select_n` is 1 except inside a host transaction, where a hang can leave it 0. -/
def SelectOk (s : State) : Prop := s.selectN = true ∨ s.phase = .waiting .txReady ∨ s.phase = .waiting .rxReady

/-- R36: Uninitialized or Standby between operations. -/
def ModeOk (s : State) : Prop :=
  s.phase = .ready → s.radio.mode = .uninitialized ∨ s.radio.mode = .standby

/-- R265: the transceiver is in reset only inside `hard_reset()`. -/
def ResetLineOk (s : State) : Prop := s.radio.resetN = true

/-- Log 4: APP hangs only when the agenda is served to its end. -/
def HangOk (s : State) : Prop := s.phase = .ready ∨ s.agenda = []

/-- All of it. -/
structure Inv (s : State) : Prop where
  rings : RingsOk s
  lockouts : LockoutsOk s
  memory : MemoryOk s
  ownership : OwnershipOk s
  syncErrors : SyncErrorsOk s
  select : SelectOk s
  mode : ModeOk s
  resetLine : ResetLineOk s
  hang : HangOk s

/-! ### What an operation changed -/

/-- The keys the next `n` puts through RB `p` store at: `n` slots from `write_index` on, modulo the capacity (R133). -/
def State.nextKeys (s : State) (p : RbPort) (n : Nat) : List Nat :=
  match (s.rb p).backing with
  | none => []
  | some r => (List.range n).map fun i => slotAddress r (((s.rb p).writeIndex + i) % (s.rb p).capacity)

/-- Everything an operation may change, beside its result record. What it names may change; nothing else does. -/
structure Footprint where
  /-- these RBs: `backing`, `capacity`, the indices and the count -/
  rings : List RbPort := []
  /-- these CSs' lockouts -/
  lockouts : List CsPort := []
  /-- these links' `txie` -/
  txie : List LinkId := []
  /-- these links' `rxie` -/
  rxie : List LinkId := []
  /-- these links' LinkStatus -/
  status : List LinkId := []
  /-- these links' `err_en` -/
  errEn : List LinkId := []
  /-- these places of the byte memory -/
  bytes : List Nat := []
  /-- these places of the memory of `W`-bit slots -/
  wides : List Nat := []
  /-- the contents of these arrays may become any value (U3) -/
  claims : List Ref := []
  /-- the RC's `preamble_length` and `crc_enabled` -/
  radioConfig : Bool := false
  /-- the RC's ghost mode -/
  mode : Bool := false

/-- From `s` to `t` nothing changed that is not in the footprint. -/
structure ChangesOnly (f : Footprint) (s t : State) : Prop where
  rings : ∀ q, q ∉ f.rings → t.rb q = s.rb q
  lockouts : ∀ c, c ∉ f.lockouts → (t.cs c).lockout = (s.cs c).lockout
  txie : ∀ k, k ∉ f.txie → (t.link k).txie = (s.link k).txie
  rxie : ∀ k, k ∉ f.rxie → (t.link k).rxie = (s.link k).rxie
  status : ∀ k, k ∉ f.status → (t.link k).status = (s.link k).status
  errEn : ∀ k, k ∉ f.errEn → (t.link k).errEn = (s.link k).errEn
  bytes : ∀ a, a ∉ f.bytes → t.mem.read a = s.mem.read a
  wides : ∀ a, a ∉ f.wides → t.wide.read a = s.wide.read a
  tainted : ∀ r, r ∉ f.claims → (r ∈ t.tainted ↔ r ∈ s.tainted)
  freeTick : f.bytes = [] → f.wides = [] → f.claims = [] → t.freeTick = s.freeTick
  radioConfig : f.radioConfig = false →
    t.radio.preambleLength = s.radio.preambleLength ∧ t.radio.crcEnabled = s.radio.crcEnabled
  mode : f.mode = false → t.radio.mode = s.radio.mode
  params : t.params = s.params

/-- The external agents, the schedule and the output lines are as before, and these events were driven outward. -/
structure SameWorld (out : List BusEvent) (s t : State) : Prop where
  selectN : t.selectN = s.selectN
  resetN : t.radio.resetN = s.radio.resetN
  periph : ∀ k, t.periph k = s.periph k
  busy : t.busy = s.busy
  irq : t.irq = s.irq
  requests : t.requests = s.requests
  agenda : t.agenda = s.agenda
  phase : t.phase = s.phase
  trace : t.trace = s.trace ++ out

/-- The links whose receive enable a gate writes (R78). -/
def gateRxLinks : Gate → List LinkId
  | .noop => []
  | .rxGate k => [k]
  | .txGate _ => []

/-- The links whose transmit enable a gate writes (R78). -/
def gateTxLinks : Gate → List LinkId
  | .noop => []
  | .rxGate _ => []
  | .txGate k => [k]

/-- `gate(ENABLE)` was the last call: the enable is 1 (R78). -/
def GateReleased (g : Gate) (t : State) : Prop :=
  (∀ k ∈ gateRxLinks g, (t.link k).rxie = true) ∧ ∀ k ∈ gateTxLinks g, (t.link k).txie = true

/-- The places of the byte memory that RB `p` stores to: none where its slots are no bytes. -/
def State.storedBytes (s : State) (p : RbPort) (keys : List Nat) : List Nat := if s.byteSlots p then keys else []

/-- The same in the memory of `W`-bit slots. -/
def State.storedWides (s : State) (p : RbPort) (keys : List Nat) : List Nat := if s.byteSlots p then [] else keys

/-! ### Queues -/

/-- The unread values of RB `p`, oldest first (R144). -/
def State.contents (s : State) (p : RbPort) : List Nat :=
  (List.range (s.rb p).count).map fun i => s.readSlot p (((s.rb p).readIndex + i) % (s.rb p).capacity)

/-- The unread bytes of a stream, oldest first. -/
def State.unread (s : State) (c : CsPort) : List Byte := (s.contents (.inner c)).map (BitVec.ofNat 8)

/-- The array behind RB `p` is not one whose contents are any value (U3). -/
def State.Untainted (s : State) (p : RbPort) : Prop := ∀ r, (s.rb p).backing = some r → r ∉ s.tainted

/-- The RBs `p` and `q` are not bound to one array (R47). -/
def State.Apart (s : State) (p q : RbPort) : Prop := ∀ r, (s.rb p).backing = some r → (s.rb q).backing ≠ some r

/-- Instructions in order, without anything between them. -/
def runAll : List Instr → State → Out
  | [], s => .next s
  | i :: is, s =>
    match exec i s with
    | .next t => runAll is t
    | .fault r => .fault r
    | .refused r => .refused r

/-- Instructions in order as the units of one composed operation: a point before each but the first (R76). -/
def runUnits : Bool → List Instr → State → Out
  | _, [], s => .next s
  | first, i :: is, s =>
    match exec i (if first then s else point s) with
    | .next t => runUnits false is t
    | .fault r => .fault r
    | .refused r => .refused r

/-- The `L` slots that end `shift` slots before the write cursor hold the token (R167). -/
def TokenInWindow (s : State) (c : CsPort) (token : List Byte) (shift : Nat) : Prop :=
  ∀ (i : Nat) (h : i < token.length),
    csSlot c s
        ((((((s.rb (.inner c)).writeIndex : Int) - shift - token.length) % (s.rb (.inner c)).capacity).toNat + i)
          % (s.rb (.inner c)).capacity)
      = token[i]

/-- The first `m` attempts of `CS.MATCH_PARAM`: shifts 1 to `m`, ascending, each with `move_cursor` (R174). -/
def attempts (c : CsPort) (token : List Byte) (g : Gate) (m : Nat) : List Instr :=
  (List.range' 1 m).map fun j => .csMatchToken c token (BitVec.ofNat 8 j) true g

/-- What a composed transmit did: the first `n` bytes of `data` that fit were queued, in order (R214). -/
structure Queued (k : LinkId) (data : List Byte) (n : Nat) (s t : State) : Prop where
  ring : t.rb (.tx k) = { s.rb (.tx k) with
    writeIndex := if n = 0 then (s.rb (.tx k)).writeIndex else ((s.rb (.tx k)).writeIndex + n) % (s.rb (.tx k)).capacity
    count := (s.rb (.tx k)).count + n }
  contents : s.Untainted (.tx k) → MemoryOk s → t.contents (.tx k) = s.contents (.tx k) ++ (data.take n).map (·.toNat)
  txie : (t.link k).txie = if n = 0 then (s.link k).txie else true
  only : ChangesOnly { rings := [.tx k], txie := [k], bytes := s.nextKeys (.tx k) n } s t
  world : SameWorld [] s t

/-! ### The wire, and a transceiver that answers (R101, R350)

A script is an agenda under which the transceiver answers given bytes; any bytes may be given (U11). -/

/-- What a frame of these bytes does on the SPI signals of `LINK_S` (R100, R230). -/
def frameEvents (bytes : List Byte) : List BusEvent :=
  .select false :: (bytes.flatMap fun b => [.txWr .s b, .rxRd .s]) ++ [.select true, .flagClear .s]

/-- The peripheral is ready in both directions and holds this byte. -/
def readyWith (d : Byte) : PeriphIn :=
  { txReady := true, rxReady := true, errOvr := false, errFrame := false, errParity := false, errSync := false
    rxData := d }

/-- The peripheral answers each byte clocked out with one of these, in order. -/
def bytesScript (answers : List Byte) : List Event := answers.flatMap fun d => [.periph .s (readyWith d), .app, .app]

/-- `busy` falls, `irq` shows this level, and a frame is answered. -/
def exchangeScript (irq : Bool) (answers : List Byte) : List Event :=
  .lines false irq :: .app :: bytesScript answers

/-- APP goes on at `n` points at which nobody else steps. -/
def quietScript (n : Nat) : List Event := List.replicate n .app

/-- The standby exchange of R272, where the parameter asks for it. -/
def standbyScript (ps : Params) (irq : Bool) (answers : List Byte) : List Event :=
  if ps.rcStandbyFirst then exchangeScript irq answers else []

/-- The transceiver raises `irq`, then answers get-IRQ-status with `a0`, `b0`, `b1`, `b2` and clear-IRQ with `ack` (R270). -/
def irqScript (a0 b0 b1 b2 : Byte) (ack : List Byte) : List Event :=
  .lines false true :: .app :: (exchangeScript true [a0, b0, b1, b2] ++ quietScript 3 ++ exchangeScript false ack)

/-- A register patch: the register holds `v` (R266). -/
def patchScript (a0 a1 a2 a3 v : Byte) (ack : List Byte) : List Event :=
  exchangeScript false [a0, a1, a2, a3, v] ++ quietScript 1 ++ exchangeScript false ack

/-- The payload of `RC.RECEIVE`: get-rx-buffer-status answered with `len` and `off`, then the bytes `data` (R276, R278). -/
def payloadScript (a0 b0 len off : Byte) (lead data : List Byte) : List Event :=
  exchangeScript false [a0, b0, len, off] ++ quietScript 3 ++ exchangeScript false (lead ++ data)
    ++ quietScript (1 + 2 * data.length)

/-- What a run under a script leaves of the world: the strobes and edges `out`, the agenda `rest`. -/
structure AfterScript (out : List BusEvent) (rest : List Event) (s t : State) : Prop where
  trace : t.trace = s.trace ++ out
  agenda : t.agenda = rest
  selectN : t.selectN = true
  resetN : t.radio.resetN = s.radio.resetN
  requests : t.requests = s.requests
  phase : t.phase = s.phase
  periphA : t.periph .a = s.periph .a

/-- The filler bytes of a frame (R321 to R338). -/
def frameFillers : Instr → Nat
  | .spiReadRegister _ => 1
  | .spiGetIrqStatus => 3
  | .spiGetRxBufferStatus => 3
  | .spiReadBuffer _ len => len.toNat
  | _ => 0

/-- An RB after `n` more puts (R133). -/
def Rb.advancedBy (rb : Rb) (n : Nat) : Rb :=
  { rb with writeIndex := (rb.writeIndex + n) % rb.capacity, count := rb.count + n }

/-- An RB through which `n` values have passed, all of them taken again (R133, R134). -/
def Rb.passed (rb : Rb) (n : Nat) : Rb :=
  { rb with readIndex := (rb.readIndex + n) % rb.capacity, writeIndex := (rb.writeIndex + n) % rb.capacity }

/-- What the RC asks of `LINK_S` before it starts (R261): enabled, `rx` empty with room for `n` response bytes, and its array
its own. -/
structure LinkFree (s : State) (n : Nat) : Prop where
  enabled : (s.link .s).status.enabled = true
  ring : (s.rb (.inner (.rx .s))).Ok
  empty : (s.rb (.inner (.rx .s))).count = 0
  room : n ≤ (s.rb (.inner (.rx .s))).capacity
  untainted : s.Untainted (.inner (.rx .s))
  memory : MemoryOk s

end Sys2Proof.Machine
end

