-- ==== Sys2Proof/Certificates/Slice0/Obligations.lean ====
section
/-! DEFINITION. The statements for the provers, in the order of OBLIGATIONS.json: reset, steps and encodings; invariants of every
step; RB; CS; DLC; the SPI frames; RC; waiting. What a statement says is unchanged is said by `ChangesOnly` and `SameWorld`
(Safety.lean): every ring, lockout, enable, status, register and byte of memory that the footprint does not name. -/

open Sys2Proof Sys2Proof.Machine

/-! ### Reset, steps, encodings -/

/-- R50, R421: the table of values after power-on reset; no interrupt is pending. -/
def Obligations.ResetGivesThePowerOnValues : Prop :=
  (∀ p, State.reset.rb p = { backing := none, capacity := 0, readIndex := 0, writeIndex := 0, count := 0 })
    ∧ (∀ c, (State.reset.cs c).lockout = 1)
    ∧ (∀ k, (State.reset.link k).status = { txClass := .none, rxClass := .none, lastError := .none, enabled := false }
        ∧ (State.reset.link k).errEn = false ∧ (State.reset.link k).txie = false ∧ (State.reset.link k).rxie = false
        ∧ State.reset.pending k = false)
    ∧ State.reset.selectN = true ∧ State.reset.radio.resetN = true ∧ State.reset.radio.mode = .uninitialized
    ∧ State.reset.trace = []

/-- The invariant of Safety.lean holds at reset. -/
def Obligations.ResetHasTheInvariant : Prop := Inv State.reset

/-- When APP's turn has come, a step presents the oldest request and runs the instruction its bytes decode to. That requests
wait in a list taken oldest first, their bytes, and the agenda's turns are the model's choices (logs 1, 2, 3). -/
def Obligations.StepRunsTheDecodedRequest : Prop :=
  ∀ (s : State) (r : Request) (rest : List Request) (i : Instr) (more : List Byte),
    s.phase = .ready → (s.agenda = [] ∨ ∃ es, s.agenda = .app :: es) → s.requests = r :: rest →
    decode s.params r.port r.bytes = .ok (i, more) →
    step s = exec i { s with requests := rest, agenda := s.agenda.tail }

/-- R112: a request that decodes to nothing changes no state and drives nothing; its result record is all zeros. -/
def Obligations.UndecodableRequestChangesNothing : Prop :=
  ∀ (s : State) (r : Request) (rest : List Request) (e : Reject),
    s.phase = .ready → (s.agenda = [] ∨ ∃ es, s.agenda = .app :: es) → s.requests = r :: rest →
    decode s.params r.port r.bytes = .error e →
    step s = .next { s with requests := rest, agenda := s.agenda.tail, result := .zeros }

/-- R386: the interrupt controller's turn runs `DLC.ON_INTERRUPT` exactly when the link's condition is pending. -/
def Obligations.HandlerStepsExactlyWhenPending : Prop :=
  ∀ (s : State) (k : LinkId) (es : List Event), s.phase = .ready → s.agenda = .isr k :: es →
    (s.pending k = true →
      ∃ u, exec (.dlcOnInterrupt k) { s with agenda := es } = .next u ∧ step s = .next { u with result := s.result })
    ∧ (s.pending k = false → step s = .next { s with agenda := es })

/-- R90 to R98, R112: at each port only the operation codes of its unit decode, `DLC.ON_INTERRUPT` at the interrupt port
only; and the instruction acts on the instance of that port. (That every such code does decode is
`DecodeOfEncodeIsTheInstruction`.) -/
def Obligations.OnlyListedCodesDecode : Prop :=
  ∀ (ps : Params) (op : Byte) (bs : List Byte) (i : Instr) (more : List Byte),
    (∀ p, decode ps (.rb p) (op :: bs) = .ok (i, more) → op.toNat ≤ 0x08 ∧ i.port = .rb p)
    ∧ (∀ c, decode ps (.cs c) (op :: bs) = .ok (i, more) → 0x10 ≤ op.toNat ∧ op.toNat ≤ 0x17 ∧ i.port = .cs c)
    ∧ (∀ k, decode ps (.dlc k) (op :: bs) = .ok (i, more) →
        0x20 ≤ op.toNat ∧ op.toNat ≤ 0x2F ∧ op.toNat ≠ 0x22 ∧ i.port = .dlc k)
    ∧ (∀ k, decode ps (.irq k) (op :: bs) = .ok (i, more) → op.toNat = 0x22 ∧ i.port = .irq k)
    ∧ (decode ps .radio (op :: bs) = .ok (i, more) → 0x30 ≤ op.toNat ∧ op.toNat ≤ 0x37 ∧ i.port = .radio)

/-- What the decoder gives is well-formed; and a frame has one spelling: what decodes as a frame is what the encoder writes
for it. -/
def Obligations.DecodedInstructionsAreWellFormed : Prop :=
  (∀ (ps : Params) (port : Port) (bs : List Byte) (i : Instr) (more : List Byte),
    decode ps port bs = .ok (i, more) → i.wf ps = true)
  ∧ ∀ (ps : Params) (bs : List Byte) (i : Instr) (more : List Byte),
    decode ps .spi bs = .ok (i, more) → encode ps i = bs ∧ more = []

/-- Decoding what the encoder writes for a well-formed instruction gives that instruction, with every operand, under every
`ENC` that R320 allows. -/
def Obligations.DecodeOfEncodeIsTheInstruction : Prop :=
  ∀ (ps : Params) (i : Instr), ps.enc.wf = true → i.wf ps = true → decode ps i.port (encode ps i) = .ok (i, [])

/-- A word of each family, as the opcode table numbers its bits, and what it stands for. -/
def Obligations.TableWordsDecode : Prop :=
  decodeTableWord 8 0x03 = some (.rbGet (.tx .a))
    ∧ decodeTableWord 8 0x17 = some (.csCount .bench)
    ∧ decodeTableWord 8 0x22 = some (.dlcOnInterrupt .s)
    ∧ decodeTableWord 8 0x2C = some (.dlcStatus .s)
    ∧ decodeTableWord 8 0x33 = some .rcReadByte
    ∧ decodeTableWord 40 0x0000303986 = some (.spiSetRfFrequency 0x39300000)
    ∧ decodeTableWord 24 0xFFFF02 = some .spiClearIrq
    ∧ decodeTableWord 8 0x40 = none

/-! ### Invariants of every step -/

/-- R23: every RB keeps `0 <= available_count <= capacity`, `write_index = (read_index + available_count) mod capacity`. -/
def Obligations.StepKeepsEveryRing : Prop := ∀ s t : State, RingsOk s → step s = .next t → RingsOk t

/-- R27: no lockout ever passes 256. -/
def Obligations.StepKeepsEveryLockout : Prop := ∀ s t : State, LockoutsOk s → step s = .next t → LockoutsOk t

/-- The memories keep their canonical form. -/
def Obligations.StepKeepsTheMemoryForm : Prop := ∀ s t : State, MemoryOk s → step s = .next t → MemoryOk t

/-- R47, U3: an array that two RBs are bound to is always one whose contents are any value. -/
def Obligations.StepKeepsOwnership : Prop := ∀ s t : State, OwnershipOk s → step s = .next t → OwnershipOk t

/-- R29, R211: the SYNC link never records an error other than overflow. -/
def Obligations.SyncLinkRecordsOnlyOverflow : Prop := ∀ s t : State, SyncErrorsOk s → step s = .next t → SyncErrorsOk t

/-- R33, R36, R265, R395: between operations the select line and `reset_n` are high and the mode is Uninitialized or Standby;
APP hangs only when nobody else will ever step. -/
def Obligations.StepKeepsTheLines : Prop :=
  ∀ s t : State, SelectOk s → ModeOk s → ResetLineOk s → HangOk s → step s = .next t →
    SelectOk t ∧ ModeOk t ∧ ResetLineOk t ∧ HangOk t

/-- R81: the `ENC` tables and the other parameters are constants. -/
def Obligations.StepKeepsTheParameters : Prop := ∀ s t : State, step s = .next t → t.params = s.params

/-- R380, R261: no operation is refused but `RC.TRANSMIT` and `RC.RECEIVE` on an enabled link before any `RC.INIT` has
completed. R112 and U4, U6 to U8 let a model refuse in more cases; that this one answers there is the model's choice (logs 10,
14), and so is its reading the ghost mode to refuse here (log 11). -/
def Obligations.OnlyTheRadioRefuses : Prop :=
  ∀ (i : Instr) (s : State) (r : Refusal), exec i s = .refused r →
    r = .radioNotInitialised ∧ s.radio.mode = .uninitialized ∧ (s.link .s).status.enabled = true
      ∧ ((∃ payload timeout, i = .rcTransmit payload timeout) ∨ ∃ timeout, i = .rcReceive timeout)

/-! ### RingBuffer -/

/-- R131: the new binding, the counters 0, no slot touched; a capacity without an array is refused (R112). An array that
another RB is bound to may have any contents from now on (U3); otherwise memory is as it was. -/
def Obligations.RbResetBindsTheArray : Prop :=
  ∀ (p : RbPort) (b : Option Ref) (c : Word32) (s : State),
    (c.toNat = 0 ∨ b ≠ none →
      ∃ t, exec (.rbReset p b c) s = .next t ∧ t.result = .none
        ∧ t.rb p = { backing := if c.toNat = 0 then none else b, capacity := c.toNat, readIndex := 0, writeIndex := 0
                     count := 0 }
        ∧ ChangesOnly { rings := [p], claims := if c.toNat = 0 then [] else b.toList } s t ∧ SameWorld [] s t
        ∧ ((∀ q r, q ≠ p → b = some r → (s.rb q).backing ≠ some r) → t.tainted = s.tainted ∧ t.freeTick = s.freeTick))
    ∧ (c.toNat ≠ 0 → b = none → exec (.rbReset p b c) s = .next { s with result := .none })

/-- R132: the three counters 0, the binding kept, no slot touched. -/
def Obligations.RbClearEmpties : Prop :=
  ∀ (p : RbPort) (s : State),
    ∃ t, exec (.rbClear p) s = .next t ∧ t.result = .none
      ∧ t.rb p = { backing := (s.rb p).backing, capacity := (s.rb p).capacity, readIndex := 0, writeIndex := 0
                   count := 0 }
      ∧ ChangesOnly { rings := [p] } s t ∧ SameWorld [] s t

/-- R133: a put fails, changing nothing, iff the buffer is full; otherwise it stores the value at `write_index` and moves on
by one. A value wider than a slot is refused (R112). -/
def Obligations.RbPutStoresTheValue : Prop :=
  ∀ (p : RbPort) (v : Nat) (s : State),
    ((s.rb p).count = (s.rb p).capacity → exec (.rbPut p v) s = .next { s with result := .ok false })
    ∧ (2 ^ slotWidthOf s.params p ≤ v → exec (.rbPut p v) s = .next { s with result := .ok false })
    ∧ ((s.rb p).count ≠ (s.rb p).capacity → v < 2 ^ slotWidthOf s.params p → (s.rb p).Ok →
        ∃ t, exec (.rbPut p v) s = .next t ∧ t.result = .ok true
          ∧ t.rb p = { s.rb p with
                writeIndex := ((s.rb p).writeIndex + 1) % (s.rb p).capacity
                count := (s.rb p).count + 1 }
          ∧ (s.Untainted p → MemoryOk s → t.readSlot p (s.rb p).writeIndex = v)
          ∧ ChangesOnly { rings := [p], bytes := s.storedBytes p (s.nextKeys p 1)
                          wides := s.storedWides p (s.nextKeys p 1) } s t
          ∧ SameWorld [] s t)

/-- R134: a get fails, changing nothing, iff the buffer is empty; otherwise it returns the value at `read_index`, which
moves on by one. -/
def Obligations.RbGetTakesTheOldest : Prop :=
  ∀ (p : RbPort) (s : State),
    ((s.rb p).count = 0 → exec (.rbGet p) s = .next { s with result := .slotOption none })
    ∧ ((s.rb p).count ≠ 0 →
        ∃ t, exec (.rbGet p) s = .next t ∧ t.result = .slotOption (some (s.readSlot p (s.rb p).readIndex))
          ∧ t.rb p = { s.rb p with
                readIndex := ((s.rb p).readIndex + 1) % (s.rb p).capacity
                count := (s.rb p).count - 1 }
          ∧ ChangesOnly { rings := [p] } s t ∧ SameWorld [] s t)

/-- R135, R136, R139, R140: what the four readers answer; they change nothing. -/
def Obligations.RbReadersChangeNothing : Prop :=
  ∀ (p : RbPort) (s : State),
    exec (.rbPeek p) s
        = .next { s with result := .slot (if (s.rb p).count = 0 then 0 else s.readSlot p (s.rb p).readIndex) }
    ∧ exec (.rbRawView p) s
        = .next { s with result := .view (s.rb p).readIndex (s.rb p).writeIndex (s.rb p).backing (s.rb p).capacity }
    ∧ exec (.rbCount p) s = .next { s with result := .count (s.rb p).count }
    ∧ exec (.rbState p) s
        = .next { s with
            result := .condition
              (if (s.rb p).count = 0 then .empty else if (s.rb p).count = (s.rb p).capacity then .full else .partly) }

/-- R137: the read cursor moves by `k`, clamped by what is there (forward) or by the free space (backward); `write_index` and
memory stay. -/
def Obligations.RbShiftMovesTheReadCursor : Prop :=
  ∀ (p : RbPort) (amount : Word32) (s : State),
    (∃ t, exec (.rbShiftReadPointer p amount true) s = .next t ∧ t.result = .none
      ∧ t.rb p = (if min amount.toNat (s.rb p).count = 0 then s.rb p
          else { s.rb p with
            readIndex := ((s.rb p).readIndex + min amount.toNat (s.rb p).count) % (s.rb p).capacity
            count := (s.rb p).count - min amount.toNat (s.rb p).count })
      ∧ ChangesOnly { rings := [p] } s t ∧ SameWorld [] s t)
    ∧ (∃ t, exec (.rbShiftReadPointer p amount false) s = .next t ∧ t.result = .none
      ∧ t.rb p = (if min amount.toNat ((s.rb p).capacity - (s.rb p).count) = 0 then s.rb p
          else { s.rb p with
            readIndex := (((s.rb p).readIndex - min amount.toNat ((s.rb p).capacity - (s.rb p).count) : Int)
              % (s.rb p).capacity).toNat
            count := (s.rb p).count + min amount.toNat ((s.rb p).capacity - (s.rb p).count) })
      ∧ ChangesOnly { rings := [p] } s t ∧ SameWorld [] s t)

/-- R144: a put appends to the queue of unread values, a get takes its front. -/
def Obligations.RbIsAQueue : Prop :=
  ∀ (p : RbPort) (s : State), (s.rb p).Ok → s.Untainted p → MemoryOk s →
    (s.contents p).length = (s.rb p).count
    ∧ (∀ v, v < 2 ^ slotWidthOf s.params p → (s.rb p).count ≠ (s.rb p).capacity →
        ∃ t, exec (.rbPut p v) s = .next t ∧ t.result = .ok true ∧ t.contents p = s.contents p ++ [v])
    ∧ (∀ v vs, s.contents p = v :: vs →
        ∃ t, exec (.rbGet p) s = .next t ∧ t.result = .slotOption (some v) ∧ t.contents p = vs)
    ∧ (s.contents p = [] → exec (.rbGet p) s = .next { s with result := .slotOption none })

/-- R143: from an empty buffer of capacity `N >= 1`, `N` consecutive puts succeed and the next fails with no state change. -/
def Obligations.RbTakesCapacityManyPuts : Prop :=
  ∀ (p : RbPort) (s : State) (vs : List Nat) (v : Nat),
    (s.rb p).Ok → (s.rb p).count = 0 → 1 ≤ (s.rb p).capacity → vs.length = (s.rb p).capacity →
    (∀ x ∈ vs, x < 2 ^ slotWidthOf s.params p) →
    (∀ n, 1 ≤ n → n ≤ vs.length →
      ∃ t, runAll ((vs.take n).map fun x => .rbPut p x) s = .next t ∧ t.result = .ok true ∧ (t.rb p).count = n)
    ∧ ∃ t, runAll (vs.map fun x => .rbPut p x) s = .next t
        ∧ exec (.rbPut p v) t = .next { t with result := .ok false }

/-! ### CommandStream -/

/-- R161, R162, R178: the stream's RB is bound afresh and the lockout is 1; clearing empties the stream and sets the lockout
to 1; counting reads the count. An array that another RB is bound to may have any contents from now on (U3; log 12); otherwise
memory is as it was. -/
def Obligations.CsResetClearAndCount : Prop :=
  ∀ (c : CsPort) (b : Option Ref) (n : Word32) (s : State),
    (n.toNat = 0 ∨ b ≠ none →
      ∃ t, exec (.csReset c b n) s = .next t ∧ t.result = .none
        ∧ t.rb (.inner c) = { backing := if n.toNat = 0 then none else b, capacity := n.toNat, readIndex := 0
                              writeIndex := 0, count := 0 }
        ∧ (t.cs c).lockout = 1
        ∧ ChangesOnly { rings := [.inner c], lockouts := [c], claims := if n.toNat = 0 then [] else b.toList } s t
        ∧ SameWorld [] s t
        ∧ ((∀ q r, q ≠ .inner c → b = some r → (s.rb q).backing ≠ some r) →
            t.tainted = s.tainted ∧ t.freeTick = s.freeTick))
    ∧ (n.toNat ≠ 0 → b = none → exec (.csReset c b n) s = .next { s with result := .none })
    ∧ (∃ t, exec (.csClear c) s = .next t ∧ t.result = .none
      ∧ t.rb (.inner c) = { backing := (s.rb (.inner c)).backing, capacity := (s.rb (.inner c)).capacity, readIndex := 0
                            writeIndex := 0, count := 0 }
      ∧ (t.cs c).lockout = 1
      ∧ ChangesOnly { rings := [.inner c], lockouts := [c] } s t ∧ SameWorld [] s t)
    ∧ exec (.csCount c) s = .next { s with result := .count (s.rb (.inner c)).count }

/-- R163: under the gate, the byte is stored unless the stream is full; the lockout is unchanged. -/
def Obligations.CsPutByteStores : Prop :=
  ∀ (c : CsPort) (b : Byte) (g : Gate) (s : State), (s.rb (.inner c)).Ok →
    ((s.rb (.inner c)).count = (s.rb (.inner c)).capacity →
      ∃ t, exec (.csPutByte c b g) s = .next t ∧ t.result = .ok false
        ∧ ChangesOnly { rxie := gateRxLinks g, txie := gateTxLinks g } s t ∧ SameWorld [] s t ∧ GateReleased g t)
    ∧ ((s.rb (.inner c)).count ≠ (s.rb (.inner c)).capacity →
      ∃ t, exec (.csPutByte c b g) s = .next t ∧ t.result = .ok true
        ∧ t.rb (.inner c) = (s.rb (.inner c)).advancedBy 1
        ∧ (s.Untainted (.inner c) → MemoryOk s → t.unread c = s.unread c ++ [b])
        ∧ ChangesOnly { rings := [.inner c], rxie := gateRxLinks g, txie := gateTxLinks g
                        bytes := s.nextKeys (.inner c) 1 } s t
        ∧ SameWorld [] s t ∧ GateReleased g t)

/-- R164, R165: under the gate, the oldest byte is taken, and exactly then the lockout falls by one, not below 0. -/
def Obligations.CsGetByteTakes : Prop :=
  ∀ (c : CsPort) (g : Gate) (s : State),
    ((s.rb (.inner c)).count = 0 →
      ∃ t, exec (.csGetByte c g) s = .next t ∧ t.result = .byteOption none
        ∧ ChangesOnly { rxie := gateRxLinks g, txie := gateTxLinks g } s t ∧ SameWorld [] s t ∧ GateReleased g t)
    ∧ ((s.rb (.inner c)).count ≠ 0 →
      ∃ t, exec (.csGetByte c g) s = .next t
        ∧ t.result = .byteOption (some (csSlot c s (s.rb (.inner c)).readIndex))
        ∧ t.rb (.inner c) = { s.rb (.inner c) with
              readIndex := ((s.rb (.inner c)).readIndex + 1) % (s.rb (.inner c)).capacity
              count := (s.rb (.inner c)).count - 1 }
        ∧ (t.cs c).lockout = (s.cs c).lockout - 1
        ∧ ChangesOnly { rings := [.inner c], lockouts := [c], rxie := gateRxLinks g, txie := gateTxLinks g } s t
        ∧ SameWorld [] s t ∧ GateReleased g t)

/-- R166, R167, R168: every unread byte is drained, lowering the lockout; then, if the lockout is 0 and the stream is bound,
the token is compared with the `L` slots that end `shift` slots before the write cursor. On a match the lockout is
`1 + shift` and, with `move_cursor`, the last `shift` bytes are unread again. -/
def Obligations.CsMatchTokenComparesTheWindow : Prop :=
  ∀ (c : CsPort) (token : List Byte) (shift : Byte) (mv : Bool) (g : Gate) (s : State), (s.rb (.inner c)).Ok →
    ∃ t, exec (.csMatchToken c token shift mv g) s = .next t
      ∧ ((s.cs c).lockout ≤ (s.rb (.inner c)).count ∧ 1 ≤ (s.rb (.inner c)).capacity
            ∧ TokenInWindow s c token shift.toNat →
          t.result = .ok true ∧ (t.cs c).lockout = 1 + shift.toNat
            ∧ t.rb (.inner c) = { s.rb (.inner c) with
                  readIndex := ((((s.rb (.inner c)).writeIndex : Int)
                      - (if mv then min shift.toNat (s.rb (.inner c)).capacity else 0 : Nat))
                    % (s.rb (.inner c)).capacity).toNat
                  count := if mv then min shift.toNat (s.rb (.inner c)).capacity else 0 })
      ∧ (¬((s.cs c).lockout ≤ (s.rb (.inner c)).count ∧ 1 ≤ (s.rb (.inner c)).capacity
            ∧ TokenInWindow s c token shift.toNat) →
          t.result = .ok false ∧ (t.cs c).lockout = (s.cs c).lockout - (s.rb (.inner c)).count
            ∧ t.rb (.inner c) = { s.rb (.inner c) with readIndex := (s.rb (.inner c)).writeIndex, count := 0 })
      ∧ ChangesOnly { rings := [.inner c], lockouts := [c], rxie := gateRxLinks g, txie := gateTxLinks g } s t
      ∧ SameWorld [] s t ∧ GateReleased g t

/-- R169: an immediate second `CS.MATCH_TOKEN` after a match fails, whatever its token and shift: the bytes it can consume are
the `shift` trailing ones at most. -/
def Obligations.NoTokenMatchesTwice : Prop :=
  ∀ (c : CsPort) (token token' : List Byte) (shift shift' : Byte) (mv mv' : Bool) (g g' : Gate) (s t : State),
    (s.rb (.inner c)).Ok → exec (.csMatchToken c token shift mv g) s = .next t → t.result = .ok true →
    ∃ u, exec (.csMatchToken c token' shift' mv' g') t = .next u ∧ u.result = .ok false
      ∧ 1 ≤ (u.cs c).lockout ∧ (mv = false → (u.cs c).lockout = 1 + shift.toNat)

/-- R170: the digit bytes at the front are consumed, most significant first, modulo 2^32; without one, nothing changes but
the gate's enable. -/
def Obligations.CsMatchAsciiUintReadsTheDigits : Prop :=
  ∀ (c : CsPort) (g : Gate) (s : State) (digits rest : List Byte), (s.rb (.inner c)).Ok →
    s.unread c = digits ++ rest → (∀ b ∈ digits, 0x30 ≤ b.toNat ∧ b.toNat ≤ 0x39) →
    (∀ b, rest.head? = some b → ¬(0x30 ≤ b.toNat ∧ b.toNat ≤ 0x39)) →
    ∃ t, exec (.csMatchAsciiUint c g) s = .next t
      ∧ t.result = .uintOption (if digits = [] then none
          else some (BitVec.ofNat 32 (digits.foldl (fun v b => v * 10 + (b.toNat - 0x30)) 0)))
      ∧ t.unread c = rest
      ∧ t.rb (.inner c) = { s.rb (.inner c) with
            readIndex := if digits = [] then (s.rb (.inner c)).readIndex
              else ((s.rb (.inner c)).readIndex + digits.length) % (s.rb (.inner c)).capacity
            count := (s.rb (.inner c)).count - digits.length }
      ∧ (t.cs c).lockout = (s.cs c).lockout - digits.length
      ∧ ChangesOnly { rings := [.inner c], lockouts := [c], rxie := gateRxLinks g, txie := gateTxLinks g } s t
      ∧ SameWorld [] s t ∧ GateReleased g t

/-- R109: the text of a number is its decimal digits, most significant first, without leading zeros, `'0'` for 0. -/
def Obligations.DecimalTextIsTheDigits : Prop :=
  ∀ v : Word32,
    decimalText v = (if v = 0 then [0x30] else (Nat.digits 10 v.toNat).reverse.map fun d => BitVec.ofNat 8 (0x30 + d))
      ∧ 1 ≤ (decimalText v).length ∧ (decimalText v).length ≤ 10

/-- R109: what `DLC.TRANSMIT_UINT` writes, `CS.MATCH_ASCII_UINT` reads back, for every number below 2^32. -/
def Obligations.DecimalTextRoundTrip : Prop :=
  ∀ (c : CsPort) (g : Gate) (s : State) (v : Word32) (rest : List Byte), (s.rb (.inner c)).Ok →
    s.unread c = decimalText v ++ rest → (∀ b, rest.head? = some b → ¬(0x30 ≤ b.toNat ∧ b.toNat ≤ 0x39)) →
    ∃ t, exec (.csMatchAsciiUint c g) s = .next t ∧ t.result = .uintOption (some v) ∧ t.unread c = rest

/-- R174, R116: `CS.MATCH_PARAM` answers on every state; with `max_digits = 0`, or where every attempt fails, the result is
`None` and the state is the one the attempts leave, other agents stepping between them under any schedule. -/
def Obligations.MatchParamTriesEveryShift : Prop :=
  ∀ (c : CsPort) (token : List Byte) (delimiter n : Byte) (g : Gate) (s : State),
    (∃ t v, exec (.csMatchParam c token delimiter n g) s = .next t ∧ t.result = .uintOption v)
    ∧ (n = 0 → exec (.csMatchParam c token delimiter n g) s = .next { s with result := .uintOption none })
    ∧ (∀ u, 1 ≤ n.toNat →
        (∀ m, 1 ≤ m → m ≤ n.toNat → ∃ w, runUnits true (attempts c token g m) s = .next w ∧ w.result = .ok false) →
        runUnits true (attempts c token g n.toNat) s = .next u →
        exec (.csMatchParam c token delimiter n g) s = .next { u with result := .uintOption none })

/-- R174, R175, R176, R116: the first attempt that matches ends the search; then the digits; then, with a delimiter, one more
unit: the delimiter is consumed, or a zero is stored at the slot of the token's first byte and nothing else changes. The points
between the units are the model's form of the interleaving (logs 3, 4). -/
def Obligations.MatchParamReadsTheNumber : Prop :=
  ∀ (c : CsPort) (token : List Byte) (delimiter n : Byte) (g : Gate) (s u v : State) (m : Nat) (r : Option Word32),
    RingsOk s → 1 ≤ m → m ≤ n.toNat →
    (∀ j, 1 ≤ j → j < m → ∃ w, runUnits true (attempts c token g j) s = .next w ∧ w.result = .ok false) →
    runUnits true (attempts c token g m) s = .next u → u.result = .ok true →
    exec (.csMatchAsciiUint c g) (point u) = .next v → v.result = .uintOption r →
    ((r = none ∨ delimiter = 0) → exec (.csMatchParam c token delimiter n g) s = .next v)
    ∧ (∀ x, r = some x → delimiter ≠ 0 → ((point v).unread c).head? = some delimiter →
        ∃ w, exec (.csGetByte c g) (point v) = .next w
          ∧ exec (.csMatchParam c token delimiter n g) s = .next { w with result := .uintOption (some x) })
    ∧ (∀ x, r = some x → delimiter ≠ 0 → ((point v).unread c).head? ≠ some delimiter →
        ∃ t, exec (.csMatchParam c token delimiter n g) s = .next t ∧ t.result = .uintOption none
          ∧ GateReleased g t ∧ SameWorld [] (point v) t
          ∧ (∀ pos, pos = ((((u.rb (.inner c)).writeIndex : Int) - m - token.length)
                % (u.rb (.inner c)).capacity).toNat →
              ((point v).Untainted (.inner c) → MemoryOk (point v) → ((point v).rb (.inner c)).backing ≠ none →
                t.readSlot (.inner c) pos = 0)
              ∧ ChangesOnly
                  { rxie := gateRxLinks g, txie := gateTxLinks g
                    bytes := ((point v).rb (.inner c)).backing.toList.map fun a => slotAddress a pos } (point v) t))

/-! ### DuplexLinkController -/

/-- R203: on a disabled link, the transport is programmed, both buffers are bound afresh, the receive interrupt is armed and
the status cleared and enabled; `txie` is not written. On an enabled link nothing happens. A capacity without an array is
refused (R112; log 10). An array that another RB is bound to may have any contents from now on (U3; log 12); otherwise memory is
as it was. -/
def Obligations.DlcInitEnablesTheLink : Prop :=
  ∀ (k : LinkId) (cfg : PeriphConfig) (tb rb : Option Ref) (tc rc : Word32) (s : State),
    ((s.link k).status.enabled = true → exec (.dlcInit k cfg tb tc rb rc) s = .next { s with result := .none })
    ∧ ((tc.toNat ≠ 0 ∧ tb = none) ∨ (rc.toNat ≠ 0 ∧ rb = none) →
        exec (.dlcInit k cfg tb tc rb rc) s = .next { s with result := .none })
    ∧ ((s.link k).status.enabled = false → (tc.toNat = 0 ∨ tb ≠ none) → (rc.toNat = 0 ∨ rb ≠ none) →
        ∃ t, exec (.dlcInit k cfg tb tc rb rc) s = .next t ∧ t.result = .none
          ∧ t.rb (.tx k) = { backing := if tc.toNat = 0 then none else tb, capacity := tc.toNat, readIndex := 0
                             writeIndex := 0, count := 0 }
          ∧ t.rb (.inner (.rx k)) = { backing := if rc.toNat = 0 then none else rb, capacity := rc.toNat, readIndex := 0
                                      writeIndex := 0, count := 0 }
          ∧ (t.cs (.rx k)).lockout = 1
          ∧ (t.link k).errEn = cfg.errEn ∧ (t.link k).rxie = true
          ∧ (t.link k).status = { txClass := .none, rxClass := .none, lastError := .none, enabled := true }
          ∧ ChangesOnly { rings := [.tx k, .inner (.rx k)], lockouts := [.rx k], rxie := [k], status := [k], errEn := [k]
                          claims := (if tc.toNat = 0 then [] else tb.toList)
                            ++ (if rc.toNat = 0 then [] else rb.toList) } s t
          ∧ SameWorld [.cfgProgram k cfg] s t
          ∧ ((∀ q r, q ≠ .tx k → tc.toNat ≠ 0 → tb = some r → (s.rb q).backing ≠ some r) →
              (∀ q r, q ≠ .tx k → q ≠ .inner (.rx k) → rc.toNat ≠ 0 → rb = some r → (s.rb q).backing ≠ some r) →
              (tc.toNat ≠ 0 → rc.toNat ≠ 0 → tb ≠ rb) → t.tainted = s.tainted ∧ t.freeTick = s.freeTick))

/-- R204: on an enabled link, both buffers end unbound, both interrupts disarmed, the transport torn down and the link
disabled; the classes, the error and `err_en` stay; no slot is touched. On a disabled link nothing happens. -/
def Obligations.DlcDeinitDisablesTheLink : Prop :=
  ∀ (k : LinkId) (s : State),
    ((s.link k).status.enabled = false → exec (.dlcDeinit k) s = .next { s with result := .none })
    ∧ ((s.link k).status.enabled = true →
        ∃ t, exec (.dlcDeinit k) s = .next t ∧ t.result = .none
          ∧ t.rb (.tx k) = { backing := none, capacity := 0, readIndex := 0, writeIndex := 0, count := 0 }
          ∧ t.rb (.inner (.rx k)) = { backing := none, capacity := 0, readIndex := 0, writeIndex := 0, count := 0 }
          ∧ (t.cs (.rx k)).lockout = 1 ∧ (t.link k).txie = false ∧ (t.link k).rxie = false
          ∧ (t.link k).status = { (s.link k).status with enabled := false }
          ∧ ChangesOnly { rings := [.tx k, .inner (.rx k)], lockouts := [.rx k], txie := [k], rxie := [k], status := [k] }
              s t
          ∧ SameWorld [.cfgTeardown k] s t)

/-- R206, R207: the transmit half: with `tx_ready`, an empty `tx` gives TX_COMPLETE and disarms `txie`; otherwise one byte is
strobed, the oldest, and TX_PROGRESSED recorded. It is followed by the receive half, of which this statement says only what
it leaves alone. -/
def Obligations.HandlerTransmitHalf : Prop :=
  ∀ (k : LinkId) (s : State), (s.rb (.tx k)).Ok →
    ∃ t, exec (.dlcOnInterrupt k) s = .next t ∧ t.result = .none
      ∧ ((s.sample k).txReady = false →
          t.rb (.tx k) = s.rb (.tx k) ∧ (t.link k).txie = (s.link k).txie
            ∧ (t.link k).status.txClass = (s.link k).status.txClass
            ∧ ∀ b, .txWr k b ∈ t.trace.drop s.trace.length → False)
      ∧ ((s.sample k).txReady = true → (s.rb (.tx k)).count = 0 →
          t.rb (.tx k) = s.rb (.tx k) ∧ (t.link k).txie = false ∧ (t.link k).status.txClass = .complete
            ∧ ∀ b, .txWr k b ∈ t.trace.drop s.trace.length → False)
      ∧ ((s.sample k).txReady = true → (s.rb (.tx k)).count ≠ 0 →
          t.rb (.tx k) = { s.rb (.tx k) with
              readIndex := ((s.rb (.tx k)).readIndex + 1) % (s.rb (.tx k)).capacity
              count := (s.rb (.tx k)).count - 1 }
            ∧ (t.link k).txie = (s.link k).txie ∧ (t.link k).status.txClass = .progressed
            ∧ ∃ more, t.trace = s.trace
                  ++ .txWr k (BitVec.ofNat 8 (s.readSlot (.tx k) (s.rb (.tx k)).readIndex)) :: more
                ∧ ∀ b, .txWr k b ∉ more)
      ∧ (t.link k).status.enabled = (s.link k).status.enabled

/-- R206, R208 to R211: the receive half: an error, where reporting is enabled, is classified in the order overflow, frame,
parity, sync, and wins over data; otherwise, with `rx_ready`, a full `rx` gives RX_BUFFER_FULL and disarms `rxie`, and
otherwise the byte is taken with one `rx_rd` and stored. -/
def Obligations.HandlerReceiveHalf : Prop :=
  ∀ (k : LinkId) (s : State), (s.rb (.inner (.rx k))).Ok →
    ∃ t, exec (.dlcOnInterrupt k) s = .next t ∧ t.result = .none
      ∧ ((s.link k).errEn = true → (s.sample k).anyErr = true →
          t.rb (.inner (.rx k)) = s.rb (.inner (.rx k)) ∧ (t.link k).rxie = (s.link k).rxie
            ∧ (t.link k).status.rxClass = .error
            ∧ (t.link k).status.lastError
                = (if (s.sample k).errOvr then .overflow else if (s.sample k).errFrame then .frame
                    else if (s.sample k).errParity then .parity else .sync)
            ∧ .rxRd k ∉ t.trace.drop s.trace.length
            ∧ ∀ a, t.mem.read a = s.mem.read a)
      ∧ (((s.link k).errEn && (s.sample k).anyErr) = false →
          (t.link k).status.lastError = (s.link k).status.lastError
          ∧ ((s.sample k).rxReady = false →
              t.rb (.inner (.rx k)) = s.rb (.inner (.rx k)) ∧ (t.link k).rxie = (s.link k).rxie
                ∧ (t.link k).status.rxClass = (s.link k).status.rxClass ∧ .rxRd k ∉ t.trace.drop s.trace.length
                ∧ ∀ a, t.mem.read a = s.mem.read a)
          ∧ ((s.sample k).rxReady = true → (s.rb (.inner (.rx k))).count = (s.rb (.inner (.rx k))).capacity →
              t.rb (.inner (.rx k)) = s.rb (.inner (.rx k)) ∧ (t.link k).rxie = false
                ∧ (t.link k).status.rxClass = .bufferFull ∧ .rxRd k ∉ t.trace.drop s.trace.length
                ∧ ∀ a, t.mem.read a = s.mem.read a)
          ∧ ((s.sample k).rxReady = true → (s.rb (.inner (.rx k))).count ≠ (s.rb (.inner (.rx k))).capacity →
              t.rb (.inner (.rx k)) = (s.rb (.inner (.rx k))).advancedBy 1 ∧ (t.link k).rxie = (s.link k).rxie
                ∧ (t.link k).status.rxClass = .progressed
                ∧ (∃ more, t.trace = s.trace ++ more ++ [.rxRd k] ∧ .rxRd k ∉ more)
                ∧ (s.Untainted (.inner (.rx k)) → MemoryOk s →
                    t.unread (.rx k) = s.unread (.rx k) ++ [(s.sample k).rxData])
                ∧ ∀ a, a ∉ s.nextKeys (.inner (.rx k)) 1 → t.mem.read a = s.mem.read a))

/-- R206 to R210, R387, R400: what the handler of link `k` never touches: the other units, the other link, the lockout, `err_en`,
memory outside the slot of `rx` it stores to, and the world but for its strobes: `tx_wr` with the oldest byte of `tx` iff it
sends, then `rx_rd` iff it takes a byte. -/
def Obligations.HandlerTouchesItsLinkOnly : Prop :=
  ∀ (k : LinkId) (s : State) (sends takes : Bool), RingsOk s →
    sends = ((s.sample k).txReady && (s.rb (.tx k)).count != 0) →
    takes = (!((s.link k).errEn && (s.sample k).anyErr) && (s.sample k).rxReady
      && (s.rb (.inner (.rx k))).count != (s.rb (.inner (.rx k))).capacity) →
    ∃ t, exec (.dlcOnInterrupt k) s = .next t
      ∧ ChangesOnly { rings := [.tx k, .inner (.rx k)], txie := [k], rxie := [k], status := [k]
                      bytes := if takes then s.nextKeys (.inner (.rx k)) 1 else [] } s t
      ∧ SameWorld
          ((if sends then [.txWr k (BitVec.ofNat 8 (s.readSlot (.tx k) (s.rb (.tx k)).readIndex))] else [])
            ++ (if takes then [.rxRd k] else [])) s t

/-- R212: a transmit fails, changing nothing, iff the link is disabled or `tx` is full; otherwise the byte is queued and the
send-ready interrupt armed. -/
def Obligations.DlcTransmitQueuesTheByte : Prop :=
  ∀ (k : LinkId) (b : Byte) (s : State), (s.rb (.tx k)).Ok →
    ((s.link k).status.enabled = false ∨ (s.rb (.tx k)).count = (s.rb (.tx k)).capacity →
      exec (.dlcTransmit k b) s = .next { s with result := .ok false })
    ∧ ((s.link k).status.enabled = true → (s.rb (.tx k)).count ≠ (s.rb (.tx k)).capacity →
        ∃ t, exec (.dlcTransmit k b) s = .next t ∧ t.result = .ok true ∧ Queued k [b] 1 s t)

/-- R213, R218 to R220, R116: on an enabled link the receive-side operations are those of its `rx` stream under
`RXGATE(k)`. -/
def Obligations.DlcDelegatesToItsStream : Prop :=
  ∀ (k : LinkId) (s : State), (s.link k).status.enabled = true →
    (∃ t, exec (.dlcReceive k) s = .next t ∧ exec (.csGetByte (.rx k) (.rxGate k)) s = .next t)
    ∧ (∀ token shift mv, ∃ t, exec (.dlcMatchToken k token shift mv) s = .next t
        ∧ exec (.csMatchToken (.rx k) token shift mv (.rxGate k)) s = .next t)
    ∧ (∃ t, exec (.dlcMatchAsciiUint k) s = .next t ∧ exec (.csMatchAsciiUint (.rx k) (.rxGate k)) s = .next t)
    ∧ (∀ token delimiter n, ∃ t, exec (.dlcMatchParam k token delimiter n) s = .next t
        ∧ exec (.csMatchParam (.rx k) token delimiter n (.rxGate k)) s = .next t)

/-- R202: on a disabled link every application operation but `DLC.INIT`, `DLC.STATUS` and the three acknowledgements fails and
changes nothing, the enables included; and R112: a host transaction on the ASYNC link is refused. -/
def Obligations.DisabledLinkDoesNothing : Prop :=
  (∀ (s : State) out n, exec (.dlcHostTransaction .a out n) s = .next { s with result := .byte 0 }) ∧
  ∀ (k : LinkId) (s : State), (s.link k).status.enabled = false →
    (∀ b, exec (.dlcTransmit k b) s = .next { s with result := .ok false })
    ∧ exec (.dlcReceive k) s = .next { s with result := .byteOption none }
    ∧ (∀ token shift mv, exec (.dlcMatchToken k token shift mv) s = .next { s with result := .ok false })
    ∧ exec (.dlcMatchAsciiUint k) s = .next { s with result := .uintOption none }
    ∧ (∀ token delimiter n, exec (.dlcMatchParam k token delimiter n) s = .next { s with result := .uintOption none })
    ∧ (∀ data, exec (.dlcTransmitPacket k data) s = .next { s with result := .none })
    ∧ (∀ data, exec (.dlcTransmitString k data) s = .next { s with result := .count 0 })
    ∧ (∀ v, exec (.dlcTransmitUint k v) s = .next { s with result := .none })
    ∧ (∀ out n, exec (.dlcHostTransaction k out n) s = .next { s with result := .byte 0 })
    ∧ exec (.dlcDeinit k) s = .next { s with result := .none }

/-- R214, R215, R216: with nobody stepping in between, a composed transmit queues the bytes that fit, in order, and stops;
`DLC.TRANSMIT_STRING` counts them; `DLC.TRANSMIT_UINT` queues the decimal text. A text with a zero byte is refused (R92,
R112). -/
def Obligations.ComposedTransmitsQueueWhatFits : Prop :=
  ∀ (k : LinkId) (s : State), (s.link k).status.enabled = true → (s.rb (.tx k)).Ok → s.agenda = [] →
    (∀ data, ∃ t, exec (.dlcTransmitPacket k data) s = .next t ∧ t.result = .none
        ∧ Queued k data (min data.length ((s.rb (.tx k)).capacity - (s.rb (.tx k)).count)) s t)
    ∧ (∀ data, (∀ b ∈ data, b ≠ 0) → ∃ t, exec (.dlcTransmitString k data) s = .next t
        ∧ t.result = .count (min data.length ((s.rb (.tx k)).capacity - (s.rb (.tx k)).count))
        ∧ Queued k data (min data.length ((s.rb (.tx k)).capacity - (s.rb (.tx k)).count)) s t)
    ∧ (∀ data, 0 ∈ data → exec (.dlcTransmitString k data) s = .next { s with result := .count 0 })
    ∧ (∀ v, ∃ t, exec (.dlcTransmitUint k v) s = .next t ∧ t.result = .none
        ∧ Queued k (decimalText v)
            (min (decimalText v).length ((s.rb (.tx k)).capacity - (s.rb (.tx k)).count)) s t)

/-- R214, R215, R216, R116, R451: under any schedule `DLC.TRANSMIT_PACKET` is one `DLC.TRANSMIT` per byte, others stepping in
between, ending at the first that fails; `DLC.TRANSMIT_STRING` is the same and counts the bytes queued, and with a zero byte in
it is refused (R92, R112); `DLC.TRANSMIT_UINT` is the packet of the digits. The points are the model's form of the interleaving
(logs 3, 4). -/
def Obligations.ComposedTransmitsAreTheirExpansion : Prop :=
  ∀ (k : LinkId) (s : State),
    (∀ v, ∃ t, exec (.dlcTransmitUint k v) s = .next t ∧ exec (.dlcTransmitPacket k (decimalText v)) s = .next t)
    ∧ exec (.dlcTransmitPacket k []) s = .next { s with result := .none }
    ∧ exec (.dlcTransmitString k []) s = .next { s with result := .count 0 }
    ∧ (∀ data, 0 ∈ data → exec (.dlcTransmitString k data) s = .next { s with result := .count 0 })
    ∧ (∀ (data : List Byte) (m : Nat) (u : State), 1 ≤ m → m ≤ data.length →
        (∀ j, 1 ≤ j → j < m →
          ∃ w, runUnits true ((data.take j).map fun b => .dlcTransmit k b) s = .next w ∧ w.result = .ok true) →
        runUnits true ((data.take m).map fun b => .dlcTransmit k b) s = .next u →
        (m = data.length ∨ u.result = .ok false) →
        exec (.dlcTransmitPacket k data) s = .next { u with result := .none }
          ∧ ((∀ b ∈ data, b ≠ 0) →
              exec (.dlcTransmitString k data) s
                = .next { u with result := .count (if u.result = .ok true then m else m - 1) }))

/-- R221 to R224: the status is read without a change; each acknowledgement clears its one field and nothing else. -/
def Obligations.StatusAndAcknowledgements : Prop :=
  ∀ (k : LinkId) (s : State),
    exec (.dlcStatus k) s = .next { s with result := .linkStatus (s.link k).status }
    ∧ (∃ t, exec (.dlcAckError k) s = .next t ∧ t.result = .none
        ∧ (t.link k).status = { (s.link k).status with lastError := .none }
        ∧ ChangesOnly { status := [k] } s t ∧ SameWorld [] s t)
    ∧ (∃ t, exec (.dlcAckTxIrq k) s = .next t ∧ t.result = .none
        ∧ (t.link k).status = { (s.link k).status with txClass := .none }
        ∧ ChangesOnly { status := [k] } s t ∧ SameWorld [] s t)
    ∧ (∃ t, exec (.dlcAckRxIrq k) s = .next t ∧ t.result = .none
        ∧ (t.link k).status = { (s.link k).status with rxClass := .none }
        ∧ ChangesOnly { status := [k] } s t ∧ SameWorld [] s t)

/-- R230, R231, R101: under a peripheral that answers with any bytes, a host transaction sends the command bytes and one
filler for each response byte that `rx` has room for, inside one select window; the first answer is the result, the answers to
the fillers are appended to `rx`, the others dropped. -/
def Obligations.HostTransactionClocksTheFrame : Prop :=
  ∀ (s : State) (out : List Byte) (n : Word32) (as ds : List Byte) (rest : List Event),
    (s.link .s).status.enabled = true → (s.rb (.inner (.rx .s))).Ok →
    as.length = out.length →
    ds.length = min n.toNat ((s.rb (.inner (.rx .s))).capacity - (s.rb (.inner (.rx .s))).count) →
    s.agenda = bytesScript (as ++ ds) ++ rest →
    ∃ t, exec (.dlcHostTransaction .s out n) s = .next t ∧ t.result = .byte (as.headD 0)
      ∧ AfterScript (frameEvents (out ++ List.replicate ds.length s.params.enc.nop)) rest s t
      ∧ t.busy = s.busy ∧ t.irq = s.irq
      ∧ (ds ≠ [] → t.rb (.inner (.rx .s)) = (s.rb (.inner (.rx .s))).advancedBy ds.length)
      ∧ (s.Untainted (.inner (.rx .s)) → MemoryOk s → t.unread (.rx .s) = s.unread (.rx .s) ++ ds)
      ∧ ChangesOnly { rings := if ds = [] then [] else [.inner (.rx .s)]
                      bytes := s.nextKeys (.inner (.rx .s)) ds.length } s t

/-- R230, R232: whatever the other agents do, a host transaction changes neither LinkStatus, `txie`, `rxie` and `err_en` of its
link, nor its `tx`, nor the lockout of `rx`: the link's own handler takes no step inside it. -/
def Obligations.HostTransactionExcludesItsHandler : Prop :=
  ∀ (s t : State) (out : List Byte) (n : Word32), exec (.dlcHostTransaction .s out n) s = .next t →
    (t.link .s).status = (s.link .s).status ∧ (t.link .s).txie = (s.link .s).txie ∧ (t.link .s).rxie = (s.link .s).rxie
      ∧ (t.link .s).errEn = (s.link .s).errEn ∧ t.rb (.tx .s) = s.rb (.tx .s)
      ∧ (t.cs (.rx .s)).lockout = (s.cs (.rx .s)).lockout

/-! ### The SPI frames -/

/-- R262, R321 to R338: under a transceiver that answers with any bytes, every frame goes out whole, as the encoder writes it,
inside one select window after `busy` fell; its first answer is the result, and the answers to its fillers are appended to
`LINK_S.rx`. get-IRQ-status is followed by clear-IRQ, always (R335, R448). -/
def Obligations.EveryFrameGoesOutWhole : Prop :=
  (∀ (i : Instr) (s : State) (answers : List Byte) (irq : Bool) (rest : List Event),
    i.port = .spi → i ≠ .spiGetIrqStatus → i.wf s.params = true → (s.link .s).status.enabled = true →
    (s.rb (.inner (.rx .s))).Ok →
    frameFillers i ≤ (s.rb (.inner (.rx .s))).capacity - (s.rb (.inner (.rx .s))).count →
    answers.length = (encode s.params i).length →
    s.agenda = exchangeScript irq answers ++ rest →
    ∃ t, exec i s = .next t ∧ t.result = .byte (answers.headD 0)
      ∧ AfterScript (frameEvents (encode s.params i)) rest s t ∧ t.busy = false ∧ t.irq = irq
      ∧ (frameFillers i ≠ 0 → t.rb (.inner (.rx .s)) = (s.rb (.inner (.rx .s))).advancedBy (frameFillers i))
      ∧ (s.Untainted (.inner (.rx .s)) → MemoryOk s →
          t.unread (.rx .s) = s.unread (.rx .s) ++ answers.drop (answers.length - frameFillers i))
      ∧ ChangesOnly { rings := if frameFillers i = 0 then [] else [.inner (.rx .s)]
                      bytes := s.nextKeys (.inner (.rx .s)) (frameFillers i) } s t)
  ∧ ∀ (s : State) (x0 b0 b1 b2 : Byte) (ack : List Byte) (irq irq' : Bool) (rest : List Event),
    (s.link .s).status.enabled = true → (s.rb (.inner (.rx .s))).Ok →
    3 ≤ (s.rb (.inner (.rx .s))).capacity - (s.rb (.inner (.rx .s))).count → ack.length = 3 →
    s.agenda = exchangeScript irq [x0, b0, b1, b2] ++ exchangeScript irq' ack ++ rest →
    ∃ t, exec .spiGetIrqStatus s = .next t ∧ t.result = .byte x0
      ∧ AfterScript
          (frameEvents (encode s.params .spiGetIrqStatus) ++ frameEvents (encode s.params .spiClearIrq)) rest s t
      ∧ t.busy = false ∧ t.irq = irq'
      ∧ t.rb (.inner (.rx .s)) = (s.rb (.inner (.rx .s))).advancedBy 3
      ∧ (s.Untainted (.inner (.rx .s)) → MemoryOk s → t.unread (.rx .s) = s.unread (.rx .s) ++ [b0, b1, b2])
      ∧ ChangesOnly { rings := [.inner (.rx .s)], bytes := s.nextKeys (.inner (.rx .s)) 3 } s t

/-- R105: the receive timeout is `min(timeout, 0x00FFFFFE)`, so `FF FF FF` never goes out, and a set-rx-mode frame with it is
refused. -/
def Obligations.ContinuousReceiveIsNeverAsked : Prop :=
  (∀ t : Word32, (rxTimeout t).toNat = min t.toNat 0x00FFFFFE ∧ rxTimeout t ≠ 0xFFFFFF)
    ∧ ∀ s : State, exec (.spiSetRxMode 0xFFFFFF) s = .next { s with result := .byte 0 }

/-- R103: the frequency word is the nearest integer to `freq_hz * 2^25 / 32,000,000`, it fits four bytes exactly up to
4,095,999,999 Hz, and it does not fall as the frequency rises. -/
def Obligations.FrequencyWordIsTheNearest : Prop :=
  (∀ f : Word32, f.toNat ≤ 4095999999 →
      2 * (rfWord f).toNat * 32000000 ≤ 2 * (f.toNat * 2 ^ 25) + 32000000
      ∧ 2 * (f.toNat * 2 ^ 25) < 2 * (rfWord f).toNat * 32000000 + 32000000)
    ∧ (∀ f : Nat, (f * 2 ^ 25 + 16000000) / 32000000 < 2 ^ 32 ↔ f ≤ 4095999999)
    ∧ ∀ f g : Word32, f.toNat ≤ g.toNat → g.toNat ≤ 4095999999 → (rfWord f).toNat ≤ (rfWord g).toNat

/-- R268: the mask has exactly the four event bits. -/
def Obligations.IrqMaskHasTheFourBits : Prop :=
  ∀ (e : Enc) (j : Fin 16),
    (irqMask e).getLsbD j = true ↔ j = e.irqTimeout ∨ j = e.irqCrcErr ∨ j = e.irqRxDone ∨ j = e.irqTxDone

/-! ### RadioController -/

/-- R264 to R269: `RC.INIT` under a transceiver that answers with any bytes, its patched registers holding `v` and `w`: the sink
is bound, the two fields kept, `reset_n` pulsed, and the fourteen frames go out in order, the patched values computed from what
was read. An array that another RB is bound to may have any contents from now on (U3; log 12); otherwise the sink's array is as
it was. -/
def Obligations.RcInitSendsTheConfiguration : Prop :=
  ∀ (s : State) (c : RadioConfig) (b : Option Ref) (n : Word32) (rest : List Event) (e : Enc)
    (x0 x1 x2 x3 y0 y1 y2 y3 v w : Byte) (a2 a3 a4 a5 a6 a7 a8 a9 a10 a11 a12 a13 : List Byte),
    e = s.params.enc → LinkFree s 1 → c.freqHz.toNat ≤ 4095999999 → (n.toNat = 0 ∨ b ≠ none) →
    (∀ r, b = some r → (s.rb (.inner (.rx .s))).backing ≠ some r) →
    a2.length = 2 → a3.length = 2 → a4.length = 5 → a5.length = 5 → a6.length = 3 → a7.length = 4 → a8.length = 3 →
    a9.length = 5 → a10.length = 4 → a11.length = 7 → a12.length = 9 → a13.length = 5 →
    s.agenda = quietScript 2 ++ exchangeScript false a2 ++ exchangeScript false a3 ++ exchangeScript false a4
      ++ exchangeScript false a5 ++ exchangeScript false a6 ++ patchScript x0 x1 x2 x3 v a7 ++ exchangeScript false a8
      ++ exchangeScript false a9 ++ patchScript y0 y1 y2 y3 w a10 ++ exchangeScript false a11
      ++ exchangeScript false a12 ++ exchangeScript false a13 ++ rest →
    ∃ t, exec (.rcInit c b n) s = .next t ∧ t.result = .none
      ∧ AfterScript
          ([.radioReset false, .radioReset true]
            ++ frameEvents [e.opStandby, e.standbyCfg]
            ++ frameEvents [e.opSetPacketType, e.packetTypeLora]
            ++ frameEvents (e.opSetRfFrequency :: be32 (rfWord c.freqHz))
            ++ frameEvents [e.opSetPaConfig, (paPair e.paTable c.powerClass).dutyCycle,
                (paPair e.paTable c.powerClass).hpMax, e.paDeviceSel, e.paLut]
            ++ frameEvents [e.opSetTxParams, e.txPowerByte, rampCode e.rampCode c.rampTime]
            ++ frameEvents ([e.opReadRegister] ++ be16 e.regTxClamp ++ [e.nop, e.nop])
            ++ frameEvents ([e.opWriteRegister] ++ be16 e.regTxClamp ++ [v ||| e.txClampOr])
            ++ frameEvents [e.opSetBufferBase, 0x00, 0x00]
            ++ frameEvents [e.opSetModulationParams, sfCode e.sfCode c.spreadingFactor, bwCode e.bwCode c.bandwidth,
                crCode e.crCode c.codingRate, if c.lowDataRate then 0x01 else 0x00]
            ++ frameEvents ([e.opReadRegister] ++ be16 e.regModQuality ++ [e.nop, e.nop])
            ++ frameEvents ([e.opWriteRegister] ++ be16 e.regModQuality
                ++ [if c.bandwidth = e.bwWidest then w &&& (0xFF ^^^ e.modQualityBit) else w ||| e.modQualityBit])
            ++ frameEvents ([e.opSetPacketParams] ++ be16 c.preambleLength
                ++ [e.headerExplicit, 0xFF, if c.crcEnabled then 0x01 else 0x00, e.iqStandard])
            ++ frameEvents ([e.opSetDioIrqParams] ++ be16 (irqMask e) ++ be16 (irqMask e) ++ [0x00, 0x00, 0x00, 0x00])
            ++ frameEvents ([e.opWriteRegister] ++ be16 e.regSyncWord
                ++ be16 (if c.publicNetwork then e.syncPublic else e.syncPrivate)))
          rest { s with radio := { s.radio with resetN := true } } t
      ∧ t.rb (.inner .sink) = { backing := if n.toNat = 0 then none else b, capacity := n.toNat, readIndex := 0
                                writeIndex := 0, count := 0 }
      ∧ (t.cs .sink).lockout = 1
      ∧ t.radio.preambleLength = c.preambleLength ∧ t.radio.crcEnabled = c.crcEnabled ∧ t.radio.mode = .standby
      ∧ t.rb (.inner (.rx .s)) = (s.rb (.inner (.rx .s))).passed 2
      ∧ (t.cs (.rx .s)).lockout = (s.cs (.rx .s)).lockout - 2 ∧ (t.link .s).rxie = true
      ∧ ChangesOnly { rings := [.inner (.rx .s), .inner .sink], lockouts := [.rx .s, .sink], rxie := [.s]
                      bytes := s.nextKeys (.inner (.rx .s)) 2, claims := if n.toNat = 0 then [] else b.toList
                      radioConfig := true, mode := true } s t
      ∧ ((∀ q r, q ≠ .inner .sink → b = some r → (s.rb q).backing ≠ some r) →
          t.tainted = s.tainted ∧ t.freeTick = s.freeTick)

/-- R274, R270 to R272: `RC.TRANSMIT` under a transceiver that answers with any bytes: the frames, the wait for `irq`, the
status read and cleared once; the result is the tx-done bit of the status `b1 b2`. -/
def Obligations.RcTransmitSendsThePayload : Prop :=
  ∀ (s : State) (payload : List Byte) (timeout : Word32) (rest : List Event) (e : Enc) (x0 b0 b1 b2 : Byte)
    (a1 a2 a3 a4 a5 : List Byte),
    e = s.params.enc → LinkFree s 3 → s.radio.mode ≠ .uninitialized → payload.length ≤ 255 →
    a1.length = 2 → a2.length = 7 → a3.length = 2 + payload.length → a4.length = 4 → a5.length = 3 →
    s.agenda = standbyScript s.params false a1 ++ exchangeScript false a2 ++ exchangeScript false a3
      ++ exchangeScript false a4 ++ irqScript x0 b0 b1 b2 a5 ++ rest →
    ∃ t, exec (.rcTransmit payload timeout) s = .next t ∧ t.result = .ok (irqBit (b1 ++ b2) e.irqTxDone)
      ∧ AfterScript
          ((if s.params.rcStandbyFirst then frameEvents [e.opStandby, e.standbyCfg] else [])
            ++ frameEvents ([e.opSetPacketParams] ++ be16 s.radio.preambleLength
                ++ [e.headerExplicit, BitVec.ofNat 8 payload.length, if s.radio.crcEnabled then 0x01 else 0x00,
                    e.iqStandard])
            ++ frameEvents ([e.opWriteBuffer, 0x00] ++ payload)
            ++ frameEvents ([e.opSetTx, timeout.extractLsb' 16 8, timeout.extractLsb' 8 8, timeout.extractLsb' 0 8])
            ++ frameEvents [e.opGetIrqStatus, e.nop, e.nop, e.nop]
            ++ frameEvents [e.opClearIrq, 0xFF, 0xFF])
          rest s t
      ∧ t.radio.mode = .standby
      ∧ t.rb (.inner (.rx .s)) = (s.rb (.inner (.rx .s))).passed 3
      ∧ (t.cs (.rx .s)).lockout = (s.cs (.rx .s)).lockout - 3 ∧ (t.link .s).rxie = true
      ∧ ChangesOnly { rings := [.inner (.rx .s)], lockouts := [.rx .s], rxie := [.s]
                      bytes := s.nextKeys (.inner (.rx .s)) 3, mode := true } s t

/-- R276, R277: `RC.RECEIVE` where the status reports no good packet: the frames, no buffer access; a CRC failure and the
absence of every event give `(false, false)`, a timeout without rx-done gives `(false, true)`. -/
def Obligations.RcReceiveReportsFailures : Prop :=
  ∀ (s : State) (timeout : Word32) (rest : List Event) (e : Enc) (x0 b0 b1 b2 : Byte) (a1 a2 a3 a4 : List Byte),
    e = s.params.enc → LinkFree s 3 → s.radio.mode ≠ .uninitialized →
    a1.length = 2 → a2.length = 7 → a3.length = 4 → a4.length = 3 →
    (irqBit (b1 ++ b2) e.irqRxDone = true → irqBit (b1 ++ b2) e.irqCrcErr = true) →
    s.agenda = standbyScript s.params false a1 ++ exchangeScript false a2 ++ exchangeScript false a3
      ++ irqScript x0 b0 b1 b2 a4 ++ rest →
    ∃ t, exec (.rcReceive timeout) s = .next t
      ∧ t.result = .received false (!irqBit (b1 ++ b2) e.irqRxDone && irqBit (b1 ++ b2) e.irqTimeout)
      ∧ AfterScript
          ((if s.params.rcStandbyFirst then frameEvents [e.opStandby, e.standbyCfg] else [])
            ++ frameEvents ([e.opSetPacketParams] ++ be16 s.radio.preambleLength
                ++ [e.headerExplicit, 0xFF, if s.radio.crcEnabled then 0x01 else 0x00, e.iqStandard])
            ++ frameEvents (e.opSetRx :: be24 (BitVec.ofNat 24 (min timeout.toNat 0x00FFFFFE)))
            ++ frameEvents [e.opGetIrqStatus, e.nop, e.nop, e.nop]
            ++ frameEvents [e.opClearIrq, 0xFF, 0xFF])
          rest s t
      ∧ t.radio.mode = .standby
      ∧ t.rb (.inner (.rx .s)) = (s.rb (.inner (.rx .s))).passed 3
      ∧ (t.cs (.rx .s)).lockout = (s.cs (.rx .s)).lockout - 3 ∧ (t.link .s).rxie = true
      ∧ ChangesOnly { rings := [.inner (.rx .s)], lockouts := [.rx .s], rxie := [.s]
                      bytes := s.nextKeys (.inner (.rx .s)) 3, mode := true } s t

/-- R276 to R278: `RC.RECEIVE` where the status has rx-done and no CRC error: the length and offset the transceiver reports are
used to read the payload, and exactly those bytes, as far as the sink has room, are appended to it. -/
def Obligations.RcReceiveDeliversThePayload : Prop :=
  ∀ (s : State) (timeout : Word32) (rest : List Event) (e : Enc) (x0 b0 b1 b2 x1 c0 len off : Byte)
    (a1 a2 a3 a4 lead data : List Byte),
    e = s.params.enc → LinkFree s (max 3 len.toNat) → s.radio.mode ≠ .uninitialized →
    (s.rb (.inner .sink)).Ok → s.Untainted (.inner .sink) → s.Apart (.inner (.rx .s)) (.inner .sink) →
    a1.length = 2 → a2.length = 7 → a3.length = 4 → a4.length = 3 → lead.length = 3 → data.length = len.toNat →
    irqBit (b1 ++ b2) e.irqRxDone = true → irqBit (b1 ++ b2) e.irqCrcErr = false →
    s.agenda = standbyScript s.params false a1 ++ exchangeScript false a2 ++ exchangeScript false a3
      ++ irqScript x0 b0 b1 b2 a4 ++ payloadScript x1 c0 len off lead data ++ rest →
    ∃ t, exec (.rcReceive timeout) s = .next t ∧ t.result = .received true false
      ∧ AfterScript
          ((if s.params.rcStandbyFirst then frameEvents [e.opStandby, e.standbyCfg] else [])
            ++ frameEvents ([e.opSetPacketParams] ++ be16 s.radio.preambleLength
                ++ [e.headerExplicit, 0xFF, if s.radio.crcEnabled then 0x01 else 0x00, e.iqStandard])
            ++ frameEvents (e.opSetRx :: be24 (BitVec.ofNat 24 (min timeout.toNat 0x00FFFFFE)))
            ++ frameEvents [e.opGetIrqStatus, e.nop, e.nop, e.nop]
            ++ frameEvents [e.opClearIrq, 0xFF, 0xFF]
            ++ frameEvents [e.opGetRxBufferStatus, e.nop, e.nop, e.nop]
            ++ frameEvents ([e.opReadBuffer, off, e.nop] ++ List.replicate len.toNat e.nop))
          rest s t
      ∧ t.radio.mode = .standby
      ∧ t.unread .sink = s.unread .sink
          ++ data.take ((s.rb (.inner .sink)).capacity - (s.rb (.inner .sink)).count)
      ∧ t.rb (.inner .sink) = (s.rb (.inner .sink)).advancedBy
          (min len.toNat ((s.rb (.inner .sink)).capacity - (s.rb (.inner .sink)).count))
      ∧ t.rb (.inner (.rx .s)) = (s.rb (.inner (.rx .s))).passed (6 + len.toNat)
      ∧ (t.cs (.rx .s)).lockout = (s.cs (.rx .s)).lockout - (6 + len.toNat) ∧ (t.link .s).rxie = true
      ∧ ChangesOnly { rings := [.inner (.rx .s), .inner .sink], lockouts := [.rx .s], rxie := [.s], mode := true
                      bytes := s.nextKeys (.inner (.rx .s)) (6 + len.toNat)
                        ++ s.nextKeys (.inner .sink)
                            (min len.toNat ((s.rb (.inner .sink)).capacity - (s.rb (.inner .sink)).count)) } s t

/-- R261, R103, R274: what the RC operations answer without sending a frame: on a disabled link; for a frequency that does not
fit or a sink capacity without an array; for a payload longer than 255 bytes; and the refusal before `RC.INIT`. -/
def Obligations.RcGuards : Prop :=
  ∀ s : State,
    ((s.link .s).status.enabled = false →
      (∀ c b n, exec (.rcInit c b n) s = .next { s with result := .none })
      ∧ (∀ payload timeout, exec (.rcTransmit payload timeout) s = .next { s with result := .ok false })
      ∧ ∀ timeout, exec (.rcReceive timeout) s = .next { s with result := .received false false })
    ∧ (∀ c b n, 4095999999 < c.freqHz.toNat → exec (.rcInit c b n) s = .next { s with result := .none })
    ∧ (∀ c n, n.toNat ≠ 0 → exec (.rcInit c none n) s = .next { s with result := .none })
    ∧ ((s.link .s).status.enabled = true → s.radio.mode = .uninitialized →
        (∀ payload timeout, exec (.rcTransmit payload timeout) s = .refused .radioNotInitialised)
        ∧ ∀ timeout, exec (.rcReceive timeout) s = .refused .radioNotInitialised)
    ∧ (s.radio.mode ≠ .uninitialized →
        ∀ payload timeout, 255 < payload.length →
          exec (.rcTransmit payload timeout) s = .next { s with result := .ok false })

/-- R282 to R286, R116: the accessors of the received data are the operations of the sink, with no gate. -/
def Obligations.RcDelegatesToItsSink : Prop :=
  ∀ s : State,
    (∃ t, exec .rcReadByte s = .next t ∧ exec (.csGetByte .sink .noop) s = .next t)
    ∧ (∀ token shift mv, ∃ t, exec (.rcMatchToken token shift mv) s = .next t
        ∧ exec (.csMatchToken .sink token shift mv .noop) s = .next t)
    ∧ (∃ t, exec .rcMatchAsciiUint s = .next t ∧ exec (.csMatchAsciiUint .sink .noop) s = .next t)
    ∧ (∀ token delimiter n, ∃ t, exec (.rcMatchParam token delimiter n) s = .next t
        ∧ exec (.csMatchParam .sink token delimiter n .noop) s = .next t)
    ∧ exec .rcAvailableCount s = .next { s with result := .count (s.rb (.inner .sink)).count }

/-! ### Waiting -/

/-- R15, R230, R262, R274, R276, R395, R446: an operation whose wait never ends has no result: a frame where `busy` stays high; a
host transaction where `tx_ready` or `rx_ready` of `LINK_S` stays low; `RC.TRANSMIT` and `RC.RECEIVE` where `irq` stays low,
which hang in its wait where the transceiver answers every frame before it. A machine that waits where nobody is left to step
stays as it is. That the agenda is the whole future, and how a hang is shown, is the model's (logs 3, 4). -/
def Obligations.WaitsThatNeverEndHang : Prop :=
  (∀ (i : Instr) (s : State), i.port = .spi → i.wf s.params = true → s.busy = true → s.agenda = [] →
    exec i s = .next { s with phase := .waiting .busyLow })
  ∧ (∀ (s : State) (w : Wait), s.phase = .waiting w → s.agenda = [] → step s = .next s)
  ∧ (∀ (s : State) (out : List Byte) (n : Word32), (s.link .s).status.enabled = true →
      (out ≠ [] ∨ (n ≠ 0 ∧ (s.rb (.inner (.rx .s))).count ≠ (s.rb (.inner (.rx .s))).capacity)) →
      ((s.periph .s).txReady = false → (∀ sig, .periph .s sig ∈ s.agenda → sig.txReady = false) →
        ∃ t, exec (.dlcHostTransaction .s out n) s = .next t ∧ t.phase = .waiting .txReady ∧ t.agenda = []
          ∧ t.selectN = false ∧ t.result = s.result ∧ ∀ b, .txWr .s b ∉ t.trace.drop s.trace.length)
      ∧ ((s.periph .s).rxReady = false → (∀ sig, .periph .s sig ∈ s.agenda → sig.rxReady = false) →
        ∃ t, exec (.dlcHostTransaction .s out n) s = .next t
          ∧ (t.phase = .waiting .txReady ∨ t.phase = .waiting .rxReady) ∧ t.agenda = [] ∧ t.selectN = false
          ∧ t.result = s.result ∧ .rxRd .s ∉ t.trace.drop s.trace.length))
  ∧ (∀ (s : State) (payload : List Byte) (timeout : Word32), (s.link .s).status.enabled = true →
      s.radio.mode ≠ .uninitialized → payload.length ≤ 255 → s.irq = false →
      (∀ busy irq, .lines busy irq ∈ s.agenda → irq = false) →
      (∃ t w, exec (.rcTransmit payload timeout) s = .next t ∧ t.phase = .waiting w ∧ t.agenda = []
        ∧ t.result = s.result)
      ∧ (∃ t w, exec (.rcReceive timeout) s = .next t ∧ t.phase = .waiting w ∧ t.agenda = [] ∧ t.result = s.result)
      ∧ (∀ a1 a2 a3 a4 : List Byte, a1.length = 2 → a2.length = 7 → a3.length = 2 + payload.length → a4.length = 4 →
        s.agenda = standbyScript s.params false a1 ++ exchangeScript false a2 ++ exchangeScript false a3
          ++ exchangeScript false a4 →
        ∃ t, exec (.rcTransmit payload timeout) s = .next t ∧ t.phase = .waiting .irqHigh
          ∧ t.radio.mode = .transmitting)
      ∧ (∀ a1 a2 a3 : List Byte, a1.length = 2 → a2.length = 7 → a3.length = 4 →
        s.agenda = standbyScript s.params false a1 ++ exchangeScript false a2 ++ exchangeScript false a3 →
        ∃ t, exec (.rcReceive timeout) s = .next t ∧ t.phase = .waiting .irqHigh ∧ t.radio.mode = .receiving))

/-- R395: while APP hangs no request is presented, and the handlers still run, but that of `LINK_S` inside a host
transaction. Every hang of the model leaves the agenda empty (`HangOk`), so the handlers' clause speaks of entries placed in it
afterwards. -/
def Obligations.HangingAppPresentsNothing : Prop :=
  (∀ (s t : State) (w : Wait), s.phase = .waiting w → step s = .next t →
    t.phase = .waiting w ∧ t.requests = s.requests ∧ t.result = s.result ∧ t.selectN = s.selectN
      ∧ ((w = .txReady ∨ w = .rxReady) →
          (t.link .s).status = (s.link .s).status ∧ t.rb (.tx .s) = s.rb (.tx .s)
            ∧ t.rb (.inner (.rx .s)) = s.rb (.inner (.rx .s))))
  ∧ ∀ (s : State) (w : Wait) (k : LinkId) (es : List Event), s.phase = .waiting w → s.agenda = .isr k :: es →
    (s.pending k = true → k = .a ∨ w = .busyLow ∨ w = .irqHigh →
      ∃ u, exec (.dlcOnInterrupt k) { s with agenda := es } = .next u ∧ step s = .next { u with result := s.result })
    ∧ (s.pending k = false ∨ (k = .s ∧ (w = .txReady ∨ w = .rxReady)) → step s = .next { s with agenda := es })
end

