-- ==== Sys2Proof/Laws/Codec.lean ====
section
/-! SUPPORT. The operand fields: what each parser reads from what the encoder writes for it, and which bytes a parser has
read when it answers. -/

namespace Sys2Proof

/-! ### Bytes of a word -/

theorem be16_join (w : Word16) : w.extractLsb' 8 8 ++ w.extractLsb' 0 8 = w := by
  rw [BitVec.extractLsb'_append_extractLsb'_eq_extractLsb' (by rfl)]
  exact BitVec.extractLsb'_eq_self

theorem be24_join (w : Word24) : w.extractLsb' 16 8 ++ w.extractLsb' 8 8 ++ w.extractLsb' 0 8 = w := by
  iterate 2 rw [BitVec.extractLsb'_append_extractLsb'_eq_extractLsb' (by rfl)]
  exact BitVec.extractLsb'_eq_self

theorem be32_join (w : Word32) :
    w.extractLsb' 24 8 ++ w.extractLsb' 16 8 ++ w.extractLsb' 8 8 ++ w.extractLsb' 0 8 = w := by
  iterate 3 rw [BitVec.extractLsb'_append_extractLsb'_eq_extractLsb' (by rfl)]
  exact BitVec.extractLsb'_eq_self

/-- The low byte of a word that ends in `b`. -/
theorem extract_low {n : Nat} (a : BitVec n) (b : Byte) : (a ++ b).extractLsb' 0 8 = b := by
  ext i hi
  simp [BitVec.getLsbD_append, hi]

/-- A byte above the low one. -/
theorem extract_high {n : Nat} (a : BitVec n) (b : Byte) (k : Nat) :
    (a ++ b).extractLsb' (k + 8) 8 = a.extractLsb' k 8 := by
  ext i hi
  simp only [BitVec.getElem_extractLsb', BitVec.getLsbD_append]
  have h : ¬k + 8 + i < 8 := by omega
  have e : k + 8 + i - 8 = k + i := by omega
  simp [h, e]

theorem be16_append (a b : Byte) : be16 (a ++ b) = [a, b] := by
  have h := extract_high a b 0
  rw [BitVec.extractLsb'_eq_self] at h
  exact congrArg₂ (fun x y => [x, y]) h (extract_low a b)

theorem be24_append (a b c : Byte) : be24 (a ++ b ++ c) = [a, b, c] := by
  have h1 := (extract_high (a ++ b) c 8).trans ((extract_high a b 0).trans BitVec.extractLsb'_eq_self)
  have h2 := (extract_high (a ++ b) c 0).trans (extract_low a b)
  exact List.ext_get rfl fun n h _ => match n, h with
    | 0, _ => h1
    | 1, _ => h2
    | 2, _ => extract_low (a ++ b) c

theorem be32_append (a b c d : Byte) : be32 (a ++ b ++ c ++ d) = [a, b, c, d] := by
  have h1 := (extract_high (a ++ b ++ c) d 16).trans
    ((extract_high (a ++ b) c 8).trans ((extract_high a b 0).trans BitVec.extractLsb'_eq_self))
  have h2 := (extract_high (a ++ b ++ c) d 8).trans ((extract_high (a ++ b) c 0).trans (extract_low a b))
  have h3 := (extract_high (a ++ b ++ c) d 0).trans (extract_low (a ++ b) c)
  exact List.ext_get rfl fun n h _ => match n, h with
    | 0, _ => h1
    | 1, _ => h2
    | 2, _ => h3
    | 3, _ => extract_low (a ++ b ++ c) d

/-! ### What a parser reads back -/

theorem takeByte_cons (b : Byte) (bs : List Byte) : takeByte (b :: bs) = .ok (b, bs) := rfl

theorem takeWord16_be16 (w : Word16) (bs : List Byte) : takeWord16 (be16 w ++ bs) = .ok (w, bs) := by
  simp only [be16, List.cons_append, List.nil_append, takeWord16, be16_join]

theorem takeWord32_be32 (w : Word32) (bs : List Byte) : takeWord32 (be32 w ++ bs) = .ok (w, bs) := by
  simp only [be32, List.cons_append, List.nil_append, takeWord32, be32_join]

theorem takeWord32_be32' (w : Word32) : takeWord32 (be32 w) = .ok (w, []) := by
  simpa using takeWord32_be32 w []

theorem takeBool_boolByte (b : Bool) (bs : List Byte) : takeBool (boolByte b :: bs) = .ok (b, bs) := by
  cases b <;> rfl

theorem takeRef_encodeRef (r : Option Ref) (bs : List Byte) : takeRef (encodeRef r ++ bs) = .ok (r, bs) := by
  cases r with
  | none => rfl
  | some r => simp only [encodeRef, List.cons_append, takeRef]; rw [takeWord32_be32]; rfl

theorem takeBytes_append (l bs : List Byte) : takeBytes l.length (l ++ bs) = .ok (l, bs) := by
  induction l with
  | nil => rfl
  | cons b l ih =>
    show (takeBytes (l.length + 1) (b :: (l ++ bs))) = _
    simp only [takeBytes, takeByte_cons]
    show (do let (rest, bs) ← takeBytes l.length (l ++ bs); Except.ok (b :: rest, bs)) = _
    rw [ih]; rfl

theorem takeBytes8_encode (l bs : List Byte) (h : fits8 l.length = true) : takeBytes8 (encodeBytes8 l ++ bs) = .ok (l, bs) := by
  simp only [fits8, decide_eq_true_eq] at h
  have hn : (BitVec.ofNat 8 l.length).toNat = l.length := by rw [BitVec.toNat_ofNat]; exact Nat.mod_eq_of_lt h
  simp only [takeBytes8, encodeBytes8, List.cons_append, takeByte_cons]
  show takeBytes (BitVec.ofNat 8 l.length).toNat (l ++ bs) = _
  rw [hn, takeBytes_append]

theorem takeBytes32_encode (l bs : List Byte) (h : fits32 l.length = true) :
    takeBytes32 (encodeBytes32 l ++ bs) = .ok (l, bs) := by
  simp only [fits32, decide_eq_true_eq] at h
  have hn : (BitVec.ofNat 32 l.length).toNat = l.length := by rw [BitVec.toNat_ofNat]; exact Nat.mod_eq_of_lt h
  simp only [takeBytes32, encodeBytes32, List.append_assoc, takeWord32_be32]
  show takeBytes (BitVec.ofNat 32 l.length).toNat (l ++ bs) = _
  rw [hn, takeBytes_append]

theorem takeMember_encode {α : Type} [DecidableEq α] (members : List α) (m : α) (bs : List Byte) (h : m ∈ members)
    (hl : members.length ≤ 256) : takeMember members (encodeMember members m :: bs) = .ok (m, bs) := by
  have hi : members.findIdx (fun x => x = m) < members.length := by
    rw [List.findIdx_lt_length]
    exact ⟨m, h, decide_eq_true rfl⟩
  have hn : (encodeMember members m).toNat = members.findIdx (fun x => x = m) := by
    simp only [encodeMember, BitVec.toNat_ofNat]; exact Nat.mod_eq_of_lt (by omega)
  have hm : members[members.findIdx fun x => x = m]? = some m := by
    rw [List.getElem?_eq_getElem hi]
    have := List.findIdx_getElem (xs := members) (p := fun x => decide (x = m)) (w := hi)
    simpa using this
  simp only [takeMember, hn, hm]

theorem takeGate_encode (g : Gate) (bs : List Byte) : takeGate (encodeGate g :: bs) = .ok (g, bs) := by
  rcases g with _ | (_ | _) | (_ | _) <;> rfl

theorem PowerClass.mem_all (m : PowerClass) : m ∈ PowerClass.all := by cases m <;> decide
theorem RampTime.mem_all (m : RampTime) : m ∈ RampTime.all := by cases m <;> decide
theorem SpreadingFactor.mem_all (m : SpreadingFactor) : m ∈ SpreadingFactor.all := by cases m <;> decide
theorem Bandwidth.mem_all (m : Bandwidth) : m ∈ Bandwidth.all := by cases m <;> decide
theorem CodingRate.mem_all (m : CodingRate) : m ∈ CodingRate.all := by cases m <;> decide
theorem FrameOp.mem_all (f : FrameOp) : f ∈ FrameOp.all := by cases f <;> decide

theorem takePeriphConfig_encode (c : PeriphConfig) (bs : List Byte) (h : fits32 c.settings.length = true) :
    takePeriphConfig (encodePeriphConfig c ++ bs) = .ok (c, bs) := by
  simp only [takePeriphConfig, encodePeriphConfig, List.cons_append, takeBool_boolByte, bind, Except.bind,
    takeBytes32_encode _ _ h, pure, Except.pure]

theorem takeRadioConfig_encode (c : RadioConfig) (bs : List Byte) :
    takeRadioConfig (encodeRadioConfig c ++ bs) = .ok (c, bs) := by
  simp only [takeRadioConfig, encodeRadioConfig, List.append_assoc, takeWord32_be32, List.cons_append, List.nil_append,
    bind, Except.bind, takeMember_encode PowerClass.all c.powerClass _ (PowerClass.mem_all _) (by decide),
    takeMember_encode RampTime.all c.rampTime _ (RampTime.mem_all _) (by decide),
    takeMember_encode SpreadingFactor.all c.spreadingFactor _ (SpreadingFactor.mem_all _) (by decide),
    takeMember_encode Bandwidth.all c.bandwidth _ (Bandwidth.mem_all _) (by decide),
    takeMember_encode CodingRate.all c.codingRate _ (CodingRate.mem_all _) (by decide), takeBool_boolByte,
    takeWord16_be16, pure, Except.pure]

theorem bytesNat_natBytes (n v acc : Nat) : bytesNat acc (natBytes n v) = acc * 256 ^ n + v % 256 ^ n := by
  induction n generalizing acc with
  | zero => simp [natBytes, bytesNat, Nat.mod_one]
  | succ n ih =>
    simp only [natBytes, bytesNat, ih, BitVec.toNat_ofNat]
    have h1 : v % 256 ^ (n + 1) = 256 ^ n * (v / 256 ^ n % 256) + v % 256 ^ n := by
      rw [Nat.pow_succ, Nat.mod_mul]; ring
    rw [h1, Nat.pow_succ]
    ring

theorem natBytes_length (n v : Nat) : (natBytes n v).length = n := by
  induction n with
  | zero => rfl
  | succ n ih => simp [natBytes, ih]

theorem takeSlot_natBytes (w v : Nat) (bs : List Byte) (h : v < 2 ^ w) :
    takeSlot w (natBytes (slotBytes w) v ++ bs) = .ok (v, bs) := by
  have hb := takeBytes_append (natBytes (slotBytes w) v) bs
  rw [natBytes_length] at hb
  have hv : v < 256 ^ slotBytes w := by
    refine lt_of_lt_of_le h ?_
    rw [show (256 : Nat) = 2 ^ 8 from rfl, ← pow_mul]
    exact Nat.pow_le_pow_right (by decide) (by unfold slotBytes; omega)
  have hn : bytesNat 0 (natBytes (slotBytes w) v) = v := by
    rw [bytesNat_natBytes, Nat.mod_eq_of_lt hv]; simp
  simp only [takeSlot, hb, bind, Except.bind, hn, h, if_true, pure, Except.pure]

/-- An `ENC` that R320 allows names every frame by its own opcode. -/
theorem FrameOp.ofOpcode_opcode (e : Enc) (h : e.wf = true) (f : FrameOp) : FrameOp.ofOpcode? e (e.opcode f) = some f := by
  have hn : (FrameOp.all.map e.opcode).Nodup := by
    simp only [Enc.wf, Bool.and_eq_true, decide_eq_true_eq] at h
    exact h.1.1.1.1.1.1
  have hinj := List.inj_on_of_nodup_map hn
  cases hf : FrameOp.ofOpcode? e (e.opcode f) with
  | none =>
    have := List.find?_eq_none.mp hf f (FrameOp.mem_all f)
    simp at this
  | some g =>
    have h1 := List.find?_some hf
    have h2 := List.mem_of_find?_eq_some hf
    simp only [decide_eq_true_eq] at h1
    rw [hinj h2 (FrameOp.mem_all f) h1]

theorem flagOf_boolByte (b : Bool) : flagOf (boolByte b) = .ok b := by cases b <;> rfl

end Sys2Proof
end

