-- ==== Sys2Proof/Laws/State.lean ====
section
/-! SUPPORT. One lemma for each setter of the state and each thing that can be read of it, so that no proof unfolds a record
update. What can be read of a state is: its rings (`rb`), the lockouts, status, `err_en`, `txie` and `rxie` of its links, the
RC's own fields, and the fields that no unit owns; `State.ext_views` says that nothing else can. -/

namespace Sys2Proof.Machine

variable (s : State)

@[simp] theorem State.link_setLink (k : LinkId) (l : Link) (j : LinkId) :
    (s.setLink k l).link j = if j = k then l else s.link j := by cases k <;> cases j <;> rfl

@[simp] theorem State.cs_rb (c : CsPort) : (s.cs c).rb = s.rb (.inner c) := rfl

@[simp] theorem State.link_tx (k : LinkId) : (s.link k).tx = s.rb (.tx k) := rfl

@[simp] theorem State.link_rx (k : LinkId) : (s.link k).rx = s.cs (.rx k) := rfl

/-! ### `setMem` -/

@[simp] theorem State.setMem_params (m : Memory) : (s.setMem m).params = s.params := rfl
@[simp] theorem State.setMem_mem (m : Memory) : (s.setMem m).mem = m := rfl
@[simp] theorem State.setMem_wide (m : Memory) : (s.setMem m).wide = s.wide := rfl
@[simp] theorem State.setMem_tainted (m : Memory) : (s.setMem m).tainted = s.tainted := rfl
@[simp] theorem State.setMem_freeTick (m : Memory) : (s.setMem m).freeTick = s.freeTick := rfl
@[simp] theorem State.setMem_rb (m : Memory) (q : RbPort) : (s.setMem m).rb q = s.rb q := rfl
@[simp] theorem State.setMem_lockout (m : Memory) (d : CsPort) : ((s.setMem m).cs d).lockout = (s.cs d).lockout := rfl
@[simp] theorem State.setMem_status (m : Memory) (j : LinkId) :
    ((s.setMem m).link j).status = (s.link j).status := rfl
@[simp] theorem State.setMem_errEn (m : Memory) (j : LinkId) : ((s.setMem m).link j).errEn = (s.link j).errEn := rfl
@[simp] theorem State.setMem_txie (m : Memory) (j : LinkId) : ((s.setMem m).link j).txie = (s.link j).txie := rfl
@[simp] theorem State.setMem_rxie (m : Memory) (j : LinkId) : ((s.setMem m).link j).rxie = (s.link j).rxie := rfl
@[simp] theorem State.setMem_selectN (m : Memory) : (s.setMem m).selectN = s.selectN := rfl
@[simp] theorem State.setMem_preamble (m : Memory) : (s.setMem m).radio.preambleLength = s.radio.preambleLength := rfl
@[simp] theorem State.setMem_crc (m : Memory) : (s.setMem m).radio.crcEnabled = s.radio.crcEnabled := rfl
@[simp] theorem State.setMem_resetN (m : Memory) : (s.setMem m).radio.resetN = s.radio.resetN := rfl
@[simp] theorem State.setMem_mode (m : Memory) : (s.setMem m).radio.mode = s.radio.mode := rfl
@[simp] theorem State.setMem_periph (m : Memory) (j : LinkId) : (s.setMem m).periph j = s.periph j := rfl
@[simp] theorem State.setMem_busy (m : Memory) : (s.setMem m).busy = s.busy := rfl
@[simp] theorem State.setMem_irq (m : Memory) : (s.setMem m).irq = s.irq := rfl
@[simp] theorem State.setMem_requests (m : Memory) : (s.setMem m).requests = s.requests := rfl
@[simp] theorem State.setMem_agenda (m : Memory) : (s.setMem m).agenda = s.agenda := rfl
@[simp] theorem State.setMem_phase (m : Memory) : (s.setMem m).phase = s.phase := rfl
@[simp] theorem State.setMem_result (m : Memory) : (s.setMem m).result = s.result := rfl
@[simp] theorem State.setMem_trace (m : Memory) : (s.setMem m).trace = s.trace := rfl

/-! ### `setWide` -/

@[simp] theorem State.setWide_params (m : WideMemory) : (s.setWide m).params = s.params := rfl
@[simp] theorem State.setWide_mem (m : WideMemory) : (s.setWide m).mem = s.mem := rfl
@[simp] theorem State.setWide_wide (m : WideMemory) : (s.setWide m).wide = m := rfl
@[simp] theorem State.setWide_tainted (m : WideMemory) : (s.setWide m).tainted = s.tainted := rfl
@[simp] theorem State.setWide_freeTick (m : WideMemory) : (s.setWide m).freeTick = s.freeTick := rfl
@[simp] theorem State.setWide_rb (m : WideMemory) (q : RbPort) : (s.setWide m).rb q = s.rb q := rfl
@[simp] theorem State.setWide_lockout (m : WideMemory) (d : CsPort) :
    ((s.setWide m).cs d).lockout = (s.cs d).lockout := rfl
@[simp] theorem State.setWide_status (m : WideMemory) (j : LinkId) :
    ((s.setWide m).link j).status = (s.link j).status := rfl
@[simp] theorem State.setWide_errEn (m : WideMemory) (j : LinkId) :
    ((s.setWide m).link j).errEn = (s.link j).errEn := rfl
@[simp] theorem State.setWide_txie (m : WideMemory) (j : LinkId) :
    ((s.setWide m).link j).txie = (s.link j).txie := rfl
@[simp] theorem State.setWide_rxie (m : WideMemory) (j : LinkId) :
    ((s.setWide m).link j).rxie = (s.link j).rxie := rfl
@[simp] theorem State.setWide_selectN (m : WideMemory) : (s.setWide m).selectN = s.selectN := rfl
@[simp] theorem State.setWide_preamble (m : WideMemory) :
    (s.setWide m).radio.preambleLength = s.radio.preambleLength := rfl
@[simp] theorem State.setWide_crc (m : WideMemory) : (s.setWide m).radio.crcEnabled = s.radio.crcEnabled := rfl
@[simp] theorem State.setWide_resetN (m : WideMemory) : (s.setWide m).radio.resetN = s.radio.resetN := rfl
@[simp] theorem State.setWide_mode (m : WideMemory) : (s.setWide m).radio.mode = s.radio.mode := rfl
@[simp] theorem State.setWide_periph (m : WideMemory) (j : LinkId) : (s.setWide m).periph j = s.periph j := rfl
@[simp] theorem State.setWide_busy (m : WideMemory) : (s.setWide m).busy = s.busy := rfl
@[simp] theorem State.setWide_irq (m : WideMemory) : (s.setWide m).irq = s.irq := rfl
@[simp] theorem State.setWide_requests (m : WideMemory) : (s.setWide m).requests = s.requests := rfl
@[simp] theorem State.setWide_agenda (m : WideMemory) : (s.setWide m).agenda = s.agenda := rfl
@[simp] theorem State.setWide_phase (m : WideMemory) : (s.setWide m).phase = s.phase := rfl
@[simp] theorem State.setWide_result (m : WideMemory) : (s.setWide m).result = s.result := rfl
@[simp] theorem State.setWide_trace (m : WideMemory) : (s.setWide m).trace = s.trace := rfl

/-! ### `setTainted` -/

@[simp] theorem State.setTainted_params (rs : List Ref) : (s.setTainted rs).params = s.params := rfl
@[simp] theorem State.setTainted_mem (rs : List Ref) : (s.setTainted rs).mem = s.mem := rfl
@[simp] theorem State.setTainted_wide (rs : List Ref) : (s.setTainted rs).wide = s.wide := rfl
@[simp] theorem State.setTainted_tainted (rs : List Ref) : (s.setTainted rs).tainted = rs := rfl
@[simp] theorem State.setTainted_freeTick (rs : List Ref) : (s.setTainted rs).freeTick = s.freeTick := rfl
@[simp] theorem State.setTainted_rb (rs : List Ref) (q : RbPort) : (s.setTainted rs).rb q = s.rb q := rfl
@[simp] theorem State.setTainted_lockout (rs : List Ref) (d : CsPort) :
    ((s.setTainted rs).cs d).lockout = (s.cs d).lockout := rfl
@[simp] theorem State.setTainted_status (rs : List Ref) (j : LinkId) :
    ((s.setTainted rs).link j).status = (s.link j).status := rfl
@[simp] theorem State.setTainted_errEn (rs : List Ref) (j : LinkId) :
    ((s.setTainted rs).link j).errEn = (s.link j).errEn := rfl
@[simp] theorem State.setTainted_txie (rs : List Ref) (j : LinkId) :
    ((s.setTainted rs).link j).txie = (s.link j).txie := rfl
@[simp] theorem State.setTainted_rxie (rs : List Ref) (j : LinkId) :
    ((s.setTainted rs).link j).rxie = (s.link j).rxie := rfl
@[simp] theorem State.setTainted_selectN (rs : List Ref) : (s.setTainted rs).selectN = s.selectN := rfl
@[simp] theorem State.setTainted_preamble (rs : List Ref) :
    (s.setTainted rs).radio.preambleLength = s.radio.preambleLength := rfl
@[simp] theorem State.setTainted_crc (rs : List Ref) : (s.setTainted rs).radio.crcEnabled = s.radio.crcEnabled := rfl
@[simp] theorem State.setTainted_resetN (rs : List Ref) : (s.setTainted rs).radio.resetN = s.radio.resetN := rfl
@[simp] theorem State.setTainted_mode (rs : List Ref) : (s.setTainted rs).radio.mode = s.radio.mode := rfl
@[simp] theorem State.setTainted_periph (rs : List Ref) (j : LinkId) : (s.setTainted rs).periph j = s.periph j := rfl
@[simp] theorem State.setTainted_busy (rs : List Ref) : (s.setTainted rs).busy = s.busy := rfl
@[simp] theorem State.setTainted_irq (rs : List Ref) : (s.setTainted rs).irq = s.irq := rfl
@[simp] theorem State.setTainted_requests (rs : List Ref) : (s.setTainted rs).requests = s.requests := rfl
@[simp] theorem State.setTainted_agenda (rs : List Ref) : (s.setTainted rs).agenda = s.agenda := rfl
@[simp] theorem State.setTainted_phase (rs : List Ref) : (s.setTainted rs).phase = s.phase := rfl
@[simp] theorem State.setTainted_result (rs : List Ref) : (s.setTainted rs).result = s.result := rfl
@[simp] theorem State.setTainted_trace (rs : List Ref) : (s.setTainted rs).trace = s.trace := rfl

/-! ### `setFreeTick` -/

@[simp] theorem State.setFreeTick_params (n : Nat) : (s.setFreeTick n).params = s.params := rfl
@[simp] theorem State.setFreeTick_mem (n : Nat) : (s.setFreeTick n).mem = s.mem := rfl
@[simp] theorem State.setFreeTick_wide (n : Nat) : (s.setFreeTick n).wide = s.wide := rfl
@[simp] theorem State.setFreeTick_tainted (n : Nat) : (s.setFreeTick n).tainted = s.tainted := rfl
@[simp] theorem State.setFreeTick_freeTick (n : Nat) : (s.setFreeTick n).freeTick = n := rfl
@[simp] theorem State.setFreeTick_rb (n : Nat) (q : RbPort) : (s.setFreeTick n).rb q = s.rb q := rfl
@[simp] theorem State.setFreeTick_lockout (n : Nat) (d : CsPort) :
    ((s.setFreeTick n).cs d).lockout = (s.cs d).lockout := rfl
@[simp] theorem State.setFreeTick_status (n : Nat) (j : LinkId) :
    ((s.setFreeTick n).link j).status = (s.link j).status := rfl
@[simp] theorem State.setFreeTick_errEn (n : Nat) (j : LinkId) :
    ((s.setFreeTick n).link j).errEn = (s.link j).errEn := rfl
@[simp] theorem State.setFreeTick_txie (n : Nat) (j : LinkId) :
    ((s.setFreeTick n).link j).txie = (s.link j).txie := rfl
@[simp] theorem State.setFreeTick_rxie (n : Nat) (j : LinkId) :
    ((s.setFreeTick n).link j).rxie = (s.link j).rxie := rfl
@[simp] theorem State.setFreeTick_selectN (n : Nat) : (s.setFreeTick n).selectN = s.selectN := rfl
@[simp] theorem State.setFreeTick_preamble (n : Nat) :
    (s.setFreeTick n).radio.preambleLength = s.radio.preambleLength := rfl
@[simp] theorem State.setFreeTick_crc (n : Nat) : (s.setFreeTick n).radio.crcEnabled = s.radio.crcEnabled := rfl
@[simp] theorem State.setFreeTick_resetN (n : Nat) : (s.setFreeTick n).radio.resetN = s.radio.resetN := rfl
@[simp] theorem State.setFreeTick_mode (n : Nat) : (s.setFreeTick n).radio.mode = s.radio.mode := rfl
@[simp] theorem State.setFreeTick_periph (n : Nat) (j : LinkId) : (s.setFreeTick n).periph j = s.periph j := rfl
@[simp] theorem State.setFreeTick_busy (n : Nat) : (s.setFreeTick n).busy = s.busy := rfl
@[simp] theorem State.setFreeTick_irq (n : Nat) : (s.setFreeTick n).irq = s.irq := rfl
@[simp] theorem State.setFreeTick_requests (n : Nat) : (s.setFreeTick n).requests = s.requests := rfl
@[simp] theorem State.setFreeTick_agenda (n : Nat) : (s.setFreeTick n).agenda = s.agenda := rfl
@[simp] theorem State.setFreeTick_phase (n : Nat) : (s.setFreeTick n).phase = s.phase := rfl
@[simp] theorem State.setFreeTick_result (n : Nat) : (s.setFreeTick n).result = s.result := rfl
@[simp] theorem State.setFreeTick_trace (n : Nat) : (s.setFreeTick n).trace = s.trace := rfl

/-! ### `setRequests` -/

@[simp] theorem State.setRequests_params (rs : List Request) : (s.setRequests rs).params = s.params := rfl
@[simp] theorem State.setRequests_mem (rs : List Request) : (s.setRequests rs).mem = s.mem := rfl
@[simp] theorem State.setRequests_wide (rs : List Request) : (s.setRequests rs).wide = s.wide := rfl
@[simp] theorem State.setRequests_tainted (rs : List Request) : (s.setRequests rs).tainted = s.tainted := rfl
@[simp] theorem State.setRequests_freeTick (rs : List Request) : (s.setRequests rs).freeTick = s.freeTick := rfl
@[simp] theorem State.setRequests_rb (rs : List Request) (q : RbPort) : (s.setRequests rs).rb q = s.rb q := rfl
@[simp] theorem State.setRequests_lockout (rs : List Request) (d : CsPort) :
    ((s.setRequests rs).cs d).lockout = (s.cs d).lockout := rfl
@[simp] theorem State.setRequests_status (rs : List Request) (j : LinkId) :
    ((s.setRequests rs).link j).status = (s.link j).status := rfl
@[simp] theorem State.setRequests_errEn (rs : List Request) (j : LinkId) :
    ((s.setRequests rs).link j).errEn = (s.link j).errEn := rfl
@[simp] theorem State.setRequests_txie (rs : List Request) (j : LinkId) :
    ((s.setRequests rs).link j).txie = (s.link j).txie := rfl
@[simp] theorem State.setRequests_rxie (rs : List Request) (j : LinkId) :
    ((s.setRequests rs).link j).rxie = (s.link j).rxie := rfl
@[simp] theorem State.setRequests_selectN (rs : List Request) : (s.setRequests rs).selectN = s.selectN := rfl
@[simp] theorem State.setRequests_preamble (rs : List Request) :
    (s.setRequests rs).radio.preambleLength = s.radio.preambleLength := rfl
@[simp] theorem State.setRequests_crc (rs : List Request) :
    (s.setRequests rs).radio.crcEnabled = s.radio.crcEnabled := rfl
@[simp] theorem State.setRequests_resetN (rs : List Request) : (s.setRequests rs).radio.resetN = s.radio.resetN := rfl
@[simp] theorem State.setRequests_mode (rs : List Request) : (s.setRequests rs).radio.mode = s.radio.mode := rfl
@[simp] theorem State.setRequests_periph (rs : List Request) (j : LinkId) :
    (s.setRequests rs).periph j = s.periph j := rfl
@[simp] theorem State.setRequests_busy (rs : List Request) : (s.setRequests rs).busy = s.busy := rfl
@[simp] theorem State.setRequests_irq (rs : List Request) : (s.setRequests rs).irq = s.irq := rfl
@[simp] theorem State.setRequests_requests (rs : List Request) : (s.setRequests rs).requests = rs := rfl
@[simp] theorem State.setRequests_agenda (rs : List Request) : (s.setRequests rs).agenda = s.agenda := rfl
@[simp] theorem State.setRequests_phase (rs : List Request) : (s.setRequests rs).phase = s.phase := rfl
@[simp] theorem State.setRequests_result (rs : List Request) : (s.setRequests rs).result = s.result := rfl
@[simp] theorem State.setRequests_trace (rs : List Request) : (s.setRequests rs).trace = s.trace := rfl

/-! ### `setAgenda` -/

@[simp] theorem State.setAgenda_params (es : List Event) : (s.setAgenda es).params = s.params := rfl
@[simp] theorem State.setAgenda_mem (es : List Event) : (s.setAgenda es).mem = s.mem := rfl
@[simp] theorem State.setAgenda_wide (es : List Event) : (s.setAgenda es).wide = s.wide := rfl
@[simp] theorem State.setAgenda_tainted (es : List Event) : (s.setAgenda es).tainted = s.tainted := rfl
@[simp] theorem State.setAgenda_freeTick (es : List Event) : (s.setAgenda es).freeTick = s.freeTick := rfl
@[simp] theorem State.setAgenda_rb (es : List Event) (q : RbPort) : (s.setAgenda es).rb q = s.rb q := rfl
@[simp] theorem State.setAgenda_lockout (es : List Event) (d : CsPort) :
    ((s.setAgenda es).cs d).lockout = (s.cs d).lockout := rfl
@[simp] theorem State.setAgenda_status (es : List Event) (j : LinkId) :
    ((s.setAgenda es).link j).status = (s.link j).status := rfl
@[simp] theorem State.setAgenda_errEn (es : List Event) (j : LinkId) :
    ((s.setAgenda es).link j).errEn = (s.link j).errEn := rfl
@[simp] theorem State.setAgenda_txie (es : List Event) (j : LinkId) :
    ((s.setAgenda es).link j).txie = (s.link j).txie := rfl
@[simp] theorem State.setAgenda_rxie (es : List Event) (j : LinkId) :
    ((s.setAgenda es).link j).rxie = (s.link j).rxie := rfl
@[simp] theorem State.setAgenda_selectN (es : List Event) : (s.setAgenda es).selectN = s.selectN := rfl
@[simp] theorem State.setAgenda_preamble (es : List Event) :
    (s.setAgenda es).radio.preambleLength = s.radio.preambleLength := rfl
@[simp] theorem State.setAgenda_crc (es : List Event) : (s.setAgenda es).radio.crcEnabled = s.radio.crcEnabled := rfl
@[simp] theorem State.setAgenda_resetN (es : List Event) : (s.setAgenda es).radio.resetN = s.radio.resetN := rfl
@[simp] theorem State.setAgenda_mode (es : List Event) : (s.setAgenda es).radio.mode = s.radio.mode := rfl
@[simp] theorem State.setAgenda_periph (es : List Event) (j : LinkId) : (s.setAgenda es).periph j = s.periph j := rfl
@[simp] theorem State.setAgenda_busy (es : List Event) : (s.setAgenda es).busy = s.busy := rfl
@[simp] theorem State.setAgenda_irq (es : List Event) : (s.setAgenda es).irq = s.irq := rfl
@[simp] theorem State.setAgenda_requests (es : List Event) : (s.setAgenda es).requests = s.requests := rfl
@[simp] theorem State.setAgenda_agenda (es : List Event) : (s.setAgenda es).agenda = es := rfl
@[simp] theorem State.setAgenda_phase (es : List Event) : (s.setAgenda es).phase = s.phase := rfl
@[simp] theorem State.setAgenda_result (es : List Event) : (s.setAgenda es).result = s.result := rfl
@[simp] theorem State.setAgenda_trace (es : List Event) : (s.setAgenda es).trace = s.trace := rfl

/-! ### `setPhase` -/

@[simp] theorem State.setPhase_params (p : Phase) : (s.setPhase p).params = s.params := rfl
@[simp] theorem State.setPhase_mem (p : Phase) : (s.setPhase p).mem = s.mem := rfl
@[simp] theorem State.setPhase_wide (p : Phase) : (s.setPhase p).wide = s.wide := rfl
@[simp] theorem State.setPhase_tainted (p : Phase) : (s.setPhase p).tainted = s.tainted := rfl
@[simp] theorem State.setPhase_freeTick (p : Phase) : (s.setPhase p).freeTick = s.freeTick := rfl
@[simp] theorem State.setPhase_rb (p : Phase) (q : RbPort) : (s.setPhase p).rb q = s.rb q := rfl
@[simp] theorem State.setPhase_lockout (p : Phase) (d : CsPort) :
    ((s.setPhase p).cs d).lockout = (s.cs d).lockout := rfl
@[simp] theorem State.setPhase_status (p : Phase) (j : LinkId) :
    ((s.setPhase p).link j).status = (s.link j).status := rfl
@[simp] theorem State.setPhase_errEn (p : Phase) (j : LinkId) :
    ((s.setPhase p).link j).errEn = (s.link j).errEn := rfl
@[simp] theorem State.setPhase_txie (p : Phase) (j : LinkId) : ((s.setPhase p).link j).txie = (s.link j).txie := rfl
@[simp] theorem State.setPhase_rxie (p : Phase) (j : LinkId) : ((s.setPhase p).link j).rxie = (s.link j).rxie := rfl
@[simp] theorem State.setPhase_selectN (p : Phase) : (s.setPhase p).selectN = s.selectN := rfl
@[simp] theorem State.setPhase_preamble (p : Phase) :
    (s.setPhase p).radio.preambleLength = s.radio.preambleLength := rfl
@[simp] theorem State.setPhase_crc (p : Phase) : (s.setPhase p).radio.crcEnabled = s.radio.crcEnabled := rfl
@[simp] theorem State.setPhase_resetN (p : Phase) : (s.setPhase p).radio.resetN = s.radio.resetN := rfl
@[simp] theorem State.setPhase_mode (p : Phase) : (s.setPhase p).radio.mode = s.radio.mode := rfl
@[simp] theorem State.setPhase_periph (p : Phase) (j : LinkId) : (s.setPhase p).periph j = s.periph j := rfl
@[simp] theorem State.setPhase_busy (p : Phase) : (s.setPhase p).busy = s.busy := rfl
@[simp] theorem State.setPhase_irq (p : Phase) : (s.setPhase p).irq = s.irq := rfl
@[simp] theorem State.setPhase_requests (p : Phase) : (s.setPhase p).requests = s.requests := rfl
@[simp] theorem State.setPhase_agenda (p : Phase) : (s.setPhase p).agenda = s.agenda := rfl
@[simp] theorem State.setPhase_phase (p : Phase) : (s.setPhase p).phase = p := rfl
@[simp] theorem State.setPhase_result (p : Phase) : (s.setPhase p).result = s.result := rfl
@[simp] theorem State.setPhase_trace (p : Phase) : (s.setPhase p).trace = s.trace := rfl

/-! ### `setResult` -/

@[simp] theorem State.setResult_params (r : Result) : (s.setResult r).params = s.params := rfl
@[simp] theorem State.setResult_mem (r : Result) : (s.setResult r).mem = s.mem := rfl
@[simp] theorem State.setResult_wide (r : Result) : (s.setResult r).wide = s.wide := rfl
@[simp] theorem State.setResult_tainted (r : Result) : (s.setResult r).tainted = s.tainted := rfl
@[simp] theorem State.setResult_freeTick (r : Result) : (s.setResult r).freeTick = s.freeTick := rfl
@[simp] theorem State.setResult_rb (r : Result) (q : RbPort) : (s.setResult r).rb q = s.rb q := rfl
@[simp] theorem State.setResult_lockout (r : Result) (d : CsPort) :
    ((s.setResult r).cs d).lockout = (s.cs d).lockout := rfl
@[simp] theorem State.setResult_status (r : Result) (j : LinkId) :
    ((s.setResult r).link j).status = (s.link j).status := rfl
@[simp] theorem State.setResult_errEn (r : Result) (j : LinkId) :
    ((s.setResult r).link j).errEn = (s.link j).errEn := rfl
@[simp] theorem State.setResult_txie (r : Result) (j : LinkId) :
    ((s.setResult r).link j).txie = (s.link j).txie := rfl
@[simp] theorem State.setResult_rxie (r : Result) (j : LinkId) :
    ((s.setResult r).link j).rxie = (s.link j).rxie := rfl
@[simp] theorem State.setResult_selectN (r : Result) : (s.setResult r).selectN = s.selectN := rfl
@[simp] theorem State.setResult_preamble (r : Result) :
    (s.setResult r).radio.preambleLength = s.radio.preambleLength := rfl
@[simp] theorem State.setResult_crc (r : Result) : (s.setResult r).radio.crcEnabled = s.radio.crcEnabled := rfl
@[simp] theorem State.setResult_resetN (r : Result) : (s.setResult r).radio.resetN = s.radio.resetN := rfl
@[simp] theorem State.setResult_mode (r : Result) : (s.setResult r).radio.mode = s.radio.mode := rfl
@[simp] theorem State.setResult_periph (r : Result) (j : LinkId) : (s.setResult r).periph j = s.periph j := rfl
@[simp] theorem State.setResult_busy (r : Result) : (s.setResult r).busy = s.busy := rfl
@[simp] theorem State.setResult_irq (r : Result) : (s.setResult r).irq = s.irq := rfl
@[simp] theorem State.setResult_requests (r : Result) : (s.setResult r).requests = s.requests := rfl
@[simp] theorem State.setResult_agenda (r : Result) : (s.setResult r).agenda = s.agenda := rfl
@[simp] theorem State.setResult_phase (r : Result) : (s.setResult r).phase = s.phase := rfl
@[simp] theorem State.setResult_result (r : Result) : (s.setResult r).result = r := rfl
@[simp] theorem State.setResult_trace (r : Result) : (s.setResult r).trace = s.trace := rfl

/-! ### `setLines` -/

@[simp] theorem State.setLines_params (b i : Bool) : (s.setLines b i).params = s.params := rfl
@[simp] theorem State.setLines_mem (b i : Bool) : (s.setLines b i).mem = s.mem := rfl
@[simp] theorem State.setLines_wide (b i : Bool) : (s.setLines b i).wide = s.wide := rfl
@[simp] theorem State.setLines_tainted (b i : Bool) : (s.setLines b i).tainted = s.tainted := rfl
@[simp] theorem State.setLines_freeTick (b i : Bool) : (s.setLines b i).freeTick = s.freeTick := rfl
@[simp] theorem State.setLines_rb (b i : Bool) (q : RbPort) : (s.setLines b i).rb q = s.rb q := rfl
@[simp] theorem State.setLines_lockout (b i : Bool) (d : CsPort) :
    ((s.setLines b i).cs d).lockout = (s.cs d).lockout := rfl
@[simp] theorem State.setLines_status (b i : Bool) (j : LinkId) :
    ((s.setLines b i).link j).status = (s.link j).status := rfl
@[simp] theorem State.setLines_errEn (b i : Bool) (j : LinkId) :
    ((s.setLines b i).link j).errEn = (s.link j).errEn := rfl
@[simp] theorem State.setLines_txie (b i : Bool) (j : LinkId) :
    ((s.setLines b i).link j).txie = (s.link j).txie := rfl
@[simp] theorem State.setLines_rxie (b i : Bool) (j : LinkId) :
    ((s.setLines b i).link j).rxie = (s.link j).rxie := rfl
@[simp] theorem State.setLines_selectN (b i : Bool) : (s.setLines b i).selectN = s.selectN := rfl
@[simp] theorem State.setLines_preamble (b i : Bool) :
    (s.setLines b i).radio.preambleLength = s.radio.preambleLength := rfl
@[simp] theorem State.setLines_crc (b i : Bool) : (s.setLines b i).radio.crcEnabled = s.radio.crcEnabled := rfl
@[simp] theorem State.setLines_resetN (b i : Bool) : (s.setLines b i).radio.resetN = s.radio.resetN := rfl
@[simp] theorem State.setLines_mode (b i : Bool) : (s.setLines b i).radio.mode = s.radio.mode := rfl
@[simp] theorem State.setLines_periph (b i : Bool) (j : LinkId) : (s.setLines b i).periph j = s.periph j := rfl
@[simp] theorem State.setLines_busy (b i : Bool) : (s.setLines b i).busy = b := rfl
@[simp] theorem State.setLines_irq (b i : Bool) : (s.setLines b i).irq = i := rfl
@[simp] theorem State.setLines_requests (b i : Bool) : (s.setLines b i).requests = s.requests := rfl
@[simp] theorem State.setLines_agenda (b i : Bool) : (s.setLines b i).agenda = s.agenda := rfl
@[simp] theorem State.setLines_phase (b i : Bool) : (s.setLines b i).phase = s.phase := rfl
@[simp] theorem State.setLines_result (b i : Bool) : (s.setLines b i).result = s.result := rfl
@[simp] theorem State.setLines_trace (b i : Bool) : (s.setLines b i).trace = s.trace := rfl

/-! ### `setSelect` -/

@[simp] theorem State.setSelect_params (b : Bool) : (s.setSelect b).params = s.params := rfl
@[simp] theorem State.setSelect_mem (b : Bool) : (s.setSelect b).mem = s.mem := rfl
@[simp] theorem State.setSelect_wide (b : Bool) : (s.setSelect b).wide = s.wide := rfl
@[simp] theorem State.setSelect_tainted (b : Bool) : (s.setSelect b).tainted = s.tainted := rfl
@[simp] theorem State.setSelect_freeTick (b : Bool) : (s.setSelect b).freeTick = s.freeTick := rfl
@[simp] theorem State.setSelect_rb (b : Bool) (q : RbPort) : (s.setSelect b).rb q = s.rb q := rfl
@[simp] theorem State.setSelect_lockout (b : Bool) (d : CsPort) :
    ((s.setSelect b).cs d).lockout = (s.cs d).lockout := rfl
@[simp] theorem State.setSelect_status (b : Bool) (j : LinkId) :
    ((s.setSelect b).link j).status = (s.link j).status := rfl
@[simp] theorem State.setSelect_errEn (b : Bool) (j : LinkId) :
    ((s.setSelect b).link j).errEn = (s.link j).errEn := rfl
@[simp] theorem State.setSelect_txie (b : Bool) (j : LinkId) : ((s.setSelect b).link j).txie = (s.link j).txie := rfl
@[simp] theorem State.setSelect_rxie (b : Bool) (j : LinkId) : ((s.setSelect b).link j).rxie = (s.link j).rxie := rfl
@[simp] theorem State.setSelect_selectN (b : Bool) : (s.setSelect b).selectN = b := rfl
@[simp] theorem State.setSelect_preamble (b : Bool) :
    (s.setSelect b).radio.preambleLength = s.radio.preambleLength := rfl
@[simp] theorem State.setSelect_crc (b : Bool) : (s.setSelect b).radio.crcEnabled = s.radio.crcEnabled := rfl
@[simp] theorem State.setSelect_resetN (b : Bool) : (s.setSelect b).radio.resetN = s.radio.resetN := rfl
@[simp] theorem State.setSelect_mode (b : Bool) : (s.setSelect b).radio.mode = s.radio.mode := rfl
@[simp] theorem State.setSelect_periph (b : Bool) (j : LinkId) : (s.setSelect b).periph j = s.periph j := rfl
@[simp] theorem State.setSelect_busy (b : Bool) : (s.setSelect b).busy = s.busy := rfl
@[simp] theorem State.setSelect_irq (b : Bool) : (s.setSelect b).irq = s.irq := rfl
@[simp] theorem State.setSelect_requests (b : Bool) : (s.setSelect b).requests = s.requests := rfl
@[simp] theorem State.setSelect_agenda (b : Bool) : (s.setSelect b).agenda = s.agenda := rfl
@[simp] theorem State.setSelect_phase (b : Bool) : (s.setSelect b).phase = s.phase := rfl
@[simp] theorem State.setSelect_result (b : Bool) : (s.setSelect b).result = s.result := rfl
@[simp] theorem State.setSelect_trace (b : Bool) : (s.setSelect b).trace = s.trace := rfl

/-! ### `emit` -/

@[simp] theorem State.emit_params (e : BusEvent) : (s.emit e).params = s.params := rfl
@[simp] theorem State.emit_mem (e : BusEvent) : (s.emit e).mem = s.mem := rfl
@[simp] theorem State.emit_wide (e : BusEvent) : (s.emit e).wide = s.wide := rfl
@[simp] theorem State.emit_tainted (e : BusEvent) : (s.emit e).tainted = s.tainted := rfl
@[simp] theorem State.emit_freeTick (e : BusEvent) : (s.emit e).freeTick = s.freeTick := rfl
@[simp] theorem State.emit_rb (e : BusEvent) (q : RbPort) : (s.emit e).rb q = s.rb q := rfl
@[simp] theorem State.emit_lockout (e : BusEvent) (d : CsPort) : ((s.emit e).cs d).lockout = (s.cs d).lockout := rfl
@[simp] theorem State.emit_status (e : BusEvent) (j : LinkId) : ((s.emit e).link j).status = (s.link j).status := rfl
@[simp] theorem State.emit_errEn (e : BusEvent) (j : LinkId) : ((s.emit e).link j).errEn = (s.link j).errEn := rfl
@[simp] theorem State.emit_txie (e : BusEvent) (j : LinkId) : ((s.emit e).link j).txie = (s.link j).txie := rfl
@[simp] theorem State.emit_rxie (e : BusEvent) (j : LinkId) : ((s.emit e).link j).rxie = (s.link j).rxie := rfl
@[simp] theorem State.emit_selectN (e : BusEvent) : (s.emit e).selectN = s.selectN := rfl
@[simp] theorem State.emit_preamble (e : BusEvent) : (s.emit e).radio.preambleLength = s.radio.preambleLength := rfl
@[simp] theorem State.emit_crc (e : BusEvent) : (s.emit e).radio.crcEnabled = s.radio.crcEnabled := rfl
@[simp] theorem State.emit_resetN (e : BusEvent) : (s.emit e).radio.resetN = s.radio.resetN := rfl
@[simp] theorem State.emit_mode (e : BusEvent) : (s.emit e).radio.mode = s.radio.mode := rfl
@[simp] theorem State.emit_periph (e : BusEvent) (j : LinkId) : (s.emit e).periph j = s.periph j := rfl
@[simp] theorem State.emit_busy (e : BusEvent) : (s.emit e).busy = s.busy := rfl
@[simp] theorem State.emit_irq (e : BusEvent) : (s.emit e).irq = s.irq := rfl
@[simp] theorem State.emit_requests (e : BusEvent) : (s.emit e).requests = s.requests := rfl
@[simp] theorem State.emit_agenda (e : BusEvent) : (s.emit e).agenda = s.agenda := rfl
@[simp] theorem State.emit_phase (e : BusEvent) : (s.emit e).phase = s.phase := rfl
@[simp] theorem State.emit_result (e : BusEvent) : (s.emit e).result = s.result := rfl
@[simp] theorem State.emit_trace (e : BusEvent) : (s.emit e).trace = s.trace ++ [e] := rfl

/-! ### `setResetN` -/

@[simp] theorem State.setResetN_params (b : Bool) : (s.setResetN b).params = s.params := rfl
@[simp] theorem State.setResetN_mem (b : Bool) : (s.setResetN b).mem = s.mem := rfl
@[simp] theorem State.setResetN_wide (b : Bool) : (s.setResetN b).wide = s.wide := rfl
@[simp] theorem State.setResetN_tainted (b : Bool) : (s.setResetN b).tainted = s.tainted := rfl
@[simp] theorem State.setResetN_freeTick (b : Bool) : (s.setResetN b).freeTick = s.freeTick := rfl
@[simp] theorem State.setResetN_rb (b : Bool) (q : RbPort) : (s.setResetN b).rb q = s.rb q := rfl
@[simp] theorem State.setResetN_lockout (b : Bool) (d : CsPort) :
    ((s.setResetN b).cs d).lockout = (s.cs d).lockout := rfl
@[simp] theorem State.setResetN_status (b : Bool) (j : LinkId) :
    ((s.setResetN b).link j).status = (s.link j).status := rfl
@[simp] theorem State.setResetN_errEn (b : Bool) (j : LinkId) :
    ((s.setResetN b).link j).errEn = (s.link j).errEn := rfl
@[simp] theorem State.setResetN_txie (b : Bool) (j : LinkId) : ((s.setResetN b).link j).txie = (s.link j).txie := rfl
@[simp] theorem State.setResetN_rxie (b : Bool) (j : LinkId) : ((s.setResetN b).link j).rxie = (s.link j).rxie := rfl
@[simp] theorem State.setResetN_selectN (b : Bool) : (s.setResetN b).selectN = s.selectN := rfl
@[simp] theorem State.setResetN_preamble (b : Bool) :
    (s.setResetN b).radio.preambleLength = s.radio.preambleLength := rfl
@[simp] theorem State.setResetN_crc (b : Bool) : (s.setResetN b).radio.crcEnabled = s.radio.crcEnabled := rfl
@[simp] theorem State.setResetN_resetN (b : Bool) : (s.setResetN b).radio.resetN = b := rfl
@[simp] theorem State.setResetN_mode (b : Bool) : (s.setResetN b).radio.mode = s.radio.mode := rfl
@[simp] theorem State.setResetN_periph (b : Bool) (j : LinkId) : (s.setResetN b).periph j = s.periph j := rfl
@[simp] theorem State.setResetN_busy (b : Bool) : (s.setResetN b).busy = s.busy := rfl
@[simp] theorem State.setResetN_irq (b : Bool) : (s.setResetN b).irq = s.irq := rfl
@[simp] theorem State.setResetN_requests (b : Bool) : (s.setResetN b).requests = s.requests := rfl
@[simp] theorem State.setResetN_agenda (b : Bool) : (s.setResetN b).agenda = s.agenda := rfl
@[simp] theorem State.setResetN_phase (b : Bool) : (s.setResetN b).phase = s.phase := rfl
@[simp] theorem State.setResetN_result (b : Bool) : (s.setResetN b).result = s.result := rfl
@[simp] theorem State.setResetN_trace (b : Bool) : (s.setResetN b).trace = s.trace := rfl

/-! ### `setMode` -/

@[simp] theorem State.setMode_params (m : RadioMode) : (s.setMode m).params = s.params := rfl
@[simp] theorem State.setMode_mem (m : RadioMode) : (s.setMode m).mem = s.mem := rfl
@[simp] theorem State.setMode_wide (m : RadioMode) : (s.setMode m).wide = s.wide := rfl
@[simp] theorem State.setMode_tainted (m : RadioMode) : (s.setMode m).tainted = s.tainted := rfl
@[simp] theorem State.setMode_freeTick (m : RadioMode) : (s.setMode m).freeTick = s.freeTick := rfl
@[simp] theorem State.setMode_rb (m : RadioMode) (q : RbPort) : (s.setMode m).rb q = s.rb q := rfl
@[simp] theorem State.setMode_lockout (m : RadioMode) (d : CsPort) :
    ((s.setMode m).cs d).lockout = (s.cs d).lockout := rfl
@[simp] theorem State.setMode_status (m : RadioMode) (j : LinkId) :
    ((s.setMode m).link j).status = (s.link j).status := rfl
@[simp] theorem State.setMode_errEn (m : RadioMode) (j : LinkId) :
    ((s.setMode m).link j).errEn = (s.link j).errEn := rfl
@[simp] theorem State.setMode_txie (m : RadioMode) (j : LinkId) : ((s.setMode m).link j).txie = (s.link j).txie := rfl
@[simp] theorem State.setMode_rxie (m : RadioMode) (j : LinkId) : ((s.setMode m).link j).rxie = (s.link j).rxie := rfl
@[simp] theorem State.setMode_selectN (m : RadioMode) : (s.setMode m).selectN = s.selectN := rfl
@[simp] theorem State.setMode_preamble (m : RadioMode) :
    (s.setMode m).radio.preambleLength = s.radio.preambleLength := rfl
@[simp] theorem State.setMode_crc (m : RadioMode) : (s.setMode m).radio.crcEnabled = s.radio.crcEnabled := rfl
@[simp] theorem State.setMode_resetN (m : RadioMode) : (s.setMode m).radio.resetN = s.radio.resetN := rfl
@[simp] theorem State.setMode_mode (m : RadioMode) : (s.setMode m).radio.mode = m := rfl
@[simp] theorem State.setMode_periph (m : RadioMode) (j : LinkId) : (s.setMode m).periph j = s.periph j := rfl
@[simp] theorem State.setMode_busy (m : RadioMode) : (s.setMode m).busy = s.busy := rfl
@[simp] theorem State.setMode_irq (m : RadioMode) : (s.setMode m).irq = s.irq := rfl
@[simp] theorem State.setMode_requests (m : RadioMode) : (s.setMode m).requests = s.requests := rfl
@[simp] theorem State.setMode_agenda (m : RadioMode) : (s.setMode m).agenda = s.agenda := rfl
@[simp] theorem State.setMode_phase (m : RadioMode) : (s.setMode m).phase = s.phase := rfl
@[simp] theorem State.setMode_result (m : RadioMode) : (s.setMode m).result = s.result := rfl
@[simp] theorem State.setMode_trace (m : RadioMode) : (s.setMode m).trace = s.trace := rfl

/-! ### `setRadioConfig` -/

@[simp] theorem State.setRadioConfig_params (w : Word16) (b : Bool) : (s.setRadioConfig w b).params = s.params := rfl
@[simp] theorem State.setRadioConfig_mem (w : Word16) (b : Bool) : (s.setRadioConfig w b).mem = s.mem := rfl
@[simp] theorem State.setRadioConfig_wide (w : Word16) (b : Bool) : (s.setRadioConfig w b).wide = s.wide := rfl
@[simp] theorem State.setRadioConfig_tainted (w : Word16) (b : Bool) :
    (s.setRadioConfig w b).tainted = s.tainted := rfl
@[simp] theorem State.setRadioConfig_freeTick (w : Word16) (b : Bool) :
    (s.setRadioConfig w b).freeTick = s.freeTick := rfl
@[simp] theorem State.setRadioConfig_rb (w : Word16) (b : Bool) (q : RbPort) :
    (s.setRadioConfig w b).rb q = s.rb q := rfl
@[simp] theorem State.setRadioConfig_lockout (w : Word16) (b : Bool) (d : CsPort) :
    ((s.setRadioConfig w b).cs d).lockout = (s.cs d).lockout := rfl
@[simp] theorem State.setRadioConfig_status (w : Word16) (b : Bool) (j : LinkId) :
    ((s.setRadioConfig w b).link j).status = (s.link j).status := rfl
@[simp] theorem State.setRadioConfig_errEn (w : Word16) (b : Bool) (j : LinkId) :
    ((s.setRadioConfig w b).link j).errEn = (s.link j).errEn := rfl
@[simp] theorem State.setRadioConfig_txie (w : Word16) (b : Bool) (j : LinkId) :
    ((s.setRadioConfig w b).link j).txie = (s.link j).txie := rfl
@[simp] theorem State.setRadioConfig_rxie (w : Word16) (b : Bool) (j : LinkId) :
    ((s.setRadioConfig w b).link j).rxie = (s.link j).rxie := rfl
@[simp] theorem State.setRadioConfig_selectN (w : Word16) (b : Bool) :
    (s.setRadioConfig w b).selectN = s.selectN := rfl
@[simp] theorem State.setRadioConfig_preamble (w : Word16) (b : Bool) :
    (s.setRadioConfig w b).radio.preambleLength = w := rfl
@[simp] theorem State.setRadioConfig_crc (w : Word16) (b : Bool) : (s.setRadioConfig w b).radio.crcEnabled = b := rfl
@[simp] theorem State.setRadioConfig_resetN (w : Word16) (b : Bool) :
    (s.setRadioConfig w b).radio.resetN = s.radio.resetN := rfl
@[simp] theorem State.setRadioConfig_mode (w : Word16) (b : Bool) :
    (s.setRadioConfig w b).radio.mode = s.radio.mode := rfl
@[simp] theorem State.setRadioConfig_periph (w : Word16) (b : Bool) (j : LinkId) :
    (s.setRadioConfig w b).periph j = s.periph j := rfl
@[simp] theorem State.setRadioConfig_busy (w : Word16) (b : Bool) : (s.setRadioConfig w b).busy = s.busy := rfl
@[simp] theorem State.setRadioConfig_irq (w : Word16) (b : Bool) : (s.setRadioConfig w b).irq = s.irq := rfl
@[simp] theorem State.setRadioConfig_requests (w : Word16) (b : Bool) :
    (s.setRadioConfig w b).requests = s.requests := rfl
@[simp] theorem State.setRadioConfig_agenda (w : Word16) (b : Bool) : (s.setRadioConfig w b).agenda = s.agenda := rfl
@[simp] theorem State.setRadioConfig_phase (w : Word16) (b : Bool) : (s.setRadioConfig w b).phase = s.phase := rfl
@[simp] theorem State.setRadioConfig_result (w : Word16) (b : Bool) : (s.setRadioConfig w b).result = s.result := rfl
@[simp] theorem State.setRadioConfig_trace (w : Word16) (b : Bool) : (s.setRadioConfig w b).trace = s.trace := rfl

/-! ### `setPeriph` -/

@[simp] theorem State.setPeriph_params (k : LinkId) (sig : PeriphIn) :
    (s.setPeriph k sig).params = s.params := by cases k <;> rfl
@[simp] theorem State.setPeriph_mem (k : LinkId) (sig : PeriphIn) :
    (s.setPeriph k sig).mem = s.mem := by cases k <;> rfl
@[simp] theorem State.setPeriph_wide (k : LinkId) (sig : PeriphIn) :
    (s.setPeriph k sig).wide = s.wide := by cases k <;> rfl
@[simp] theorem State.setPeriph_tainted (k : LinkId) (sig : PeriphIn) :
    (s.setPeriph k sig).tainted = s.tainted := by cases k <;> rfl
@[simp] theorem State.setPeriph_freeTick (k : LinkId) (sig : PeriphIn) :
    (s.setPeriph k sig).freeTick = s.freeTick := by cases k <;> rfl
@[simp] theorem State.setPeriph_rb (k : LinkId) (sig : PeriphIn) (q : RbPort) :
    (s.setPeriph k sig).rb q = s.rb q := by cases k <;> rcases q with _ | (_ | _) | (_ | (_ | _) | _) <;> rfl
@[simp] theorem State.setPeriph_lockout (k : LinkId) (sig : PeriphIn) (d : CsPort) :
    ((s.setPeriph k sig).cs d).lockout = (s.cs d).lockout := by cases k <;> rcases d with _ | (_ | _) | _ <;> rfl
@[simp] theorem State.setPeriph_status (k : LinkId) (sig : PeriphIn) (j : LinkId) :
    ((s.setPeriph k sig).link j).status = (s.link j).status := by cases k <;> cases j <;> rfl
@[simp] theorem State.setPeriph_errEn (k : LinkId) (sig : PeriphIn) (j : LinkId) :
    ((s.setPeriph k sig).link j).errEn = (s.link j).errEn := by cases k <;> cases j <;> rfl
@[simp] theorem State.setPeriph_txie (k : LinkId) (sig : PeriphIn) (j : LinkId) :
    ((s.setPeriph k sig).link j).txie = (s.link j).txie := by cases k <;> cases j <;> rfl
@[simp] theorem State.setPeriph_rxie (k : LinkId) (sig : PeriphIn) (j : LinkId) :
    ((s.setPeriph k sig).link j).rxie = (s.link j).rxie := by cases k <;> cases j <;> rfl
@[simp] theorem State.setPeriph_selectN (k : LinkId) (sig : PeriphIn) :
    (s.setPeriph k sig).selectN = s.selectN := by cases k <;> rfl
@[simp] theorem State.setPeriph_preamble (k : LinkId) (sig : PeriphIn) :
    (s.setPeriph k sig).radio.preambleLength = s.radio.preambleLength := by cases k <;> rfl
@[simp] theorem State.setPeriph_crc (k : LinkId) (sig : PeriphIn) :
    (s.setPeriph k sig).radio.crcEnabled = s.radio.crcEnabled := by cases k <;> rfl
@[simp] theorem State.setPeriph_resetN (k : LinkId) (sig : PeriphIn) :
    (s.setPeriph k sig).radio.resetN = s.radio.resetN := by cases k <;> rfl
@[simp] theorem State.setPeriph_mode (k : LinkId) (sig : PeriphIn) :
    (s.setPeriph k sig).radio.mode = s.radio.mode := by cases k <;> rfl
@[simp] theorem State.setPeriph_periph (k : LinkId) (sig : PeriphIn) (j : LinkId) :
    (s.setPeriph k sig).periph j = if j = k then sig else s.periph j := by cases k <;> cases j <;> rfl
@[simp] theorem State.setPeriph_busy (k : LinkId) (sig : PeriphIn) :
    (s.setPeriph k sig).busy = s.busy := by cases k <;> rfl
@[simp] theorem State.setPeriph_irq (k : LinkId) (sig : PeriphIn) :
    (s.setPeriph k sig).irq = s.irq := by cases k <;> rfl
@[simp] theorem State.setPeriph_requests (k : LinkId) (sig : PeriphIn) :
    (s.setPeriph k sig).requests = s.requests := by cases k <;> rfl
@[simp] theorem State.setPeriph_agenda (k : LinkId) (sig : PeriphIn) :
    (s.setPeriph k sig).agenda = s.agenda := by cases k <;> rfl
@[simp] theorem State.setPeriph_phase (k : LinkId) (sig : PeriphIn) :
    (s.setPeriph k sig).phase = s.phase := by cases k <;> rfl
@[simp] theorem State.setPeriph_result (k : LinkId) (sig : PeriphIn) :
    (s.setPeriph k sig).result = s.result := by cases k <;> rfl
@[simp] theorem State.setPeriph_trace (k : LinkId) (sig : PeriphIn) :
    (s.setPeriph k sig).trace = s.trace := by cases k <;> rfl

/-! ### `setCs` -/

@[simp] theorem State.setCs_params (c : CsPort) (v : Cs) :
    (s.setCs c v).params = s.params := by rcases c with _ | (_ | _) | _ <;> rfl
@[simp] theorem State.setCs_mem (c : CsPort) (v : Cs) :
    (s.setCs c v).mem = s.mem := by rcases c with _ | (_ | _) | _ <;> rfl
@[simp] theorem State.setCs_wide (c : CsPort) (v : Cs) :
    (s.setCs c v).wide = s.wide := by rcases c with _ | (_ | _) | _ <;> rfl
@[simp] theorem State.setCs_tainted (c : CsPort) (v : Cs) :
    (s.setCs c v).tainted = s.tainted := by rcases c with _ | (_ | _) | _ <;> rfl
@[simp] theorem State.setCs_freeTick (c : CsPort) (v : Cs) :
    (s.setCs c v).freeTick = s.freeTick := by rcases c with _ | (_ | _) | _ <;> rfl
@[simp] theorem State.setCs_rb (c : CsPort) (v : Cs) (q : RbPort) :
    (s.setCs c v).rb q = if q = .inner c then v.rb else s.rb q := by
  rcases c with _ | (_ | _) | _ <;> rcases q with _ | (_ | _) | (_ | (_ | _) | _) <;> rfl
@[simp] theorem State.setCs_lockout (c : CsPort) (v : Cs) (d : CsPort) :
    ((s.setCs c v).cs d).lockout = if d = c then v.lockout else (s.cs d).lockout := by
  rcases c with _ | (_ | _) | _ <;> rcases d with _ | (_ | _) | _ <;> rfl
@[simp] theorem State.setCs_status (c : CsPort) (v : Cs) (j : LinkId) :
    ((s.setCs c v).link j).status = (s.link j).status := by rcases c with _ | (_ | _) | _ <;> cases j <;> rfl
@[simp] theorem State.setCs_errEn (c : CsPort) (v : Cs) (j : LinkId) :
    ((s.setCs c v).link j).errEn = (s.link j).errEn := by rcases c with _ | (_ | _) | _ <;> cases j <;> rfl
@[simp] theorem State.setCs_txie (c : CsPort) (v : Cs) (j : LinkId) :
    ((s.setCs c v).link j).txie = (s.link j).txie := by rcases c with _ | (_ | _) | _ <;> cases j <;> rfl
@[simp] theorem State.setCs_rxie (c : CsPort) (v : Cs) (j : LinkId) :
    ((s.setCs c v).link j).rxie = (s.link j).rxie := by rcases c with _ | (_ | _) | _ <;> cases j <;> rfl
@[simp] theorem State.setCs_selectN (c : CsPort) (v : Cs) :
    (s.setCs c v).selectN = s.selectN := by rcases c with _ | (_ | _) | _ <;> rfl
@[simp] theorem State.setCs_preamble (c : CsPort) (v : Cs) :
    (s.setCs c v).radio.preambleLength = s.radio.preambleLength := by rcases c with _ | (_ | _) | _ <;> rfl
@[simp] theorem State.setCs_crc (c : CsPort) (v : Cs) :
    (s.setCs c v).radio.crcEnabled = s.radio.crcEnabled := by rcases c with _ | (_ | _) | _ <;> rfl
@[simp] theorem State.setCs_resetN (c : CsPort) (v : Cs) :
    (s.setCs c v).radio.resetN = s.radio.resetN := by rcases c with _ | (_ | _) | _ <;> rfl
@[simp] theorem State.setCs_mode (c : CsPort) (v : Cs) :
    (s.setCs c v).radio.mode = s.radio.mode := by rcases c with _ | (_ | _) | _ <;> rfl
@[simp] theorem State.setCs_periph (c : CsPort) (v : Cs) (j : LinkId) :
    (s.setCs c v).periph j = s.periph j := by rcases c with _ | (_ | _) | _ <;> cases j <;> rfl
@[simp] theorem State.setCs_busy (c : CsPort) (v : Cs) :
    (s.setCs c v).busy = s.busy := by rcases c with _ | (_ | _) | _ <;> rfl
@[simp] theorem State.setCs_irq (c : CsPort) (v : Cs) :
    (s.setCs c v).irq = s.irq := by rcases c with _ | (_ | _) | _ <;> rfl
@[simp] theorem State.setCs_requests (c : CsPort) (v : Cs) :
    (s.setCs c v).requests = s.requests := by rcases c with _ | (_ | _) | _ <;> rfl
@[simp] theorem State.setCs_agenda (c : CsPort) (v : Cs) :
    (s.setCs c v).agenda = s.agenda := by rcases c with _ | (_ | _) | _ <;> rfl
@[simp] theorem State.setCs_phase (c : CsPort) (v : Cs) :
    (s.setCs c v).phase = s.phase := by rcases c with _ | (_ | _) | _ <;> rfl
@[simp] theorem State.setCs_result (c : CsPort) (v : Cs) :
    (s.setCs c v).result = s.result := by rcases c with _ | (_ | _) | _ <;> rfl
@[simp] theorem State.setCs_trace (c : CsPort) (v : Cs) :
    (s.setCs c v).trace = s.trace := by rcases c with _ | (_ | _) | _ <;> rfl

/-! ### `setRb` -/

@[simp] theorem State.setRb_params (p : RbPort) (r : Rb) :
    (s.setRb p r).params = s.params := by rcases p with _ | (_ | _) | (_ | (_ | _) | _) <;> rfl
@[simp] theorem State.setRb_mem (p : RbPort) (r : Rb) :
    (s.setRb p r).mem = s.mem := by rcases p with _ | (_ | _) | (_ | (_ | _) | _) <;> rfl
@[simp] theorem State.setRb_wide (p : RbPort) (r : Rb) :
    (s.setRb p r).wide = s.wide := by rcases p with _ | (_ | _) | (_ | (_ | _) | _) <;> rfl
@[simp] theorem State.setRb_tainted (p : RbPort) (r : Rb) :
    (s.setRb p r).tainted = s.tainted := by rcases p with _ | (_ | _) | (_ | (_ | _) | _) <;> rfl
@[simp] theorem State.setRb_freeTick (p : RbPort) (r : Rb) :
    (s.setRb p r).freeTick = s.freeTick := by rcases p with _ | (_ | _) | (_ | (_ | _) | _) <;> rfl
@[simp] theorem State.setRb_rb (p : RbPort) (r : Rb) (q : RbPort) :
    (s.setRb p r).rb q = if q = p then r else s.rb q := by
  rcases p with _ | (_ | _) | (_ | (_ | _) | _) <;> rcases q with _ | (_ | _) | (_ | (_ | _) | _) <;> rfl
@[simp] theorem State.setRb_lockout (p : RbPort) (r : Rb) (d : CsPort) :
    ((s.setRb p r).cs d).lockout = (s.cs d).lockout := by
  rcases p with _ | (_ | _) | (_ | (_ | _) | _) <;> rcases d with _ | (_ | _) | _ <;> rfl
@[simp] theorem State.setRb_status (p : RbPort) (r : Rb) (j : LinkId) :
    ((s.setRb p r).link j).status = (s.link j).status := by
  rcases p with _ | (_ | _) | (_ | (_ | _) | _) <;> cases j <;> rfl
@[simp] theorem State.setRb_errEn (p : RbPort) (r : Rb) (j : LinkId) :
    ((s.setRb p r).link j).errEn = (s.link j).errEn := by
  rcases p with _ | (_ | _) | (_ | (_ | _) | _) <;> cases j <;> rfl
@[simp] theorem State.setRb_txie (p : RbPort) (r : Rb) (j : LinkId) :
    ((s.setRb p r).link j).txie = (s.link j).txie := by
  rcases p with _ | (_ | _) | (_ | (_ | _) | _) <;> cases j <;> rfl
@[simp] theorem State.setRb_rxie (p : RbPort) (r : Rb) (j : LinkId) :
    ((s.setRb p r).link j).rxie = (s.link j).rxie := by
  rcases p with _ | (_ | _) | (_ | (_ | _) | _) <;> cases j <;> rfl
@[simp] theorem State.setRb_selectN (p : RbPort) (r : Rb) :
    (s.setRb p r).selectN = s.selectN := by rcases p with _ | (_ | _) | (_ | (_ | _) | _) <;> rfl
@[simp] theorem State.setRb_preamble (p : RbPort) (r : Rb) :
    (s.setRb p r).radio.preambleLength = s.radio.preambleLength := by
  rcases p with _ | (_ | _) | (_ | (_ | _) | _) <;> rfl
@[simp] theorem State.setRb_crc (p : RbPort) (r : Rb) :
    (s.setRb p r).radio.crcEnabled = s.radio.crcEnabled := by rcases p with _ | (_ | _) | (_ | (_ | _) | _) <;> rfl
@[simp] theorem State.setRb_resetN (p : RbPort) (r : Rb) :
    (s.setRb p r).radio.resetN = s.radio.resetN := by rcases p with _ | (_ | _) | (_ | (_ | _) | _) <;> rfl
@[simp] theorem State.setRb_mode (p : RbPort) (r : Rb) :
    (s.setRb p r).radio.mode = s.radio.mode := by rcases p with _ | (_ | _) | (_ | (_ | _) | _) <;> rfl
@[simp] theorem State.setRb_periph (p : RbPort) (r : Rb) (j : LinkId) :
    (s.setRb p r).periph j = s.periph j := by rcases p with _ | (_ | _) | (_ | (_ | _) | _) <;> cases j <;> rfl
@[simp] theorem State.setRb_busy (p : RbPort) (r : Rb) :
    (s.setRb p r).busy = s.busy := by rcases p with _ | (_ | _) | (_ | (_ | _) | _) <;> rfl
@[simp] theorem State.setRb_irq (p : RbPort) (r : Rb) :
    (s.setRb p r).irq = s.irq := by rcases p with _ | (_ | _) | (_ | (_ | _) | _) <;> rfl
@[simp] theorem State.setRb_requests (p : RbPort) (r : Rb) :
    (s.setRb p r).requests = s.requests := by rcases p with _ | (_ | _) | (_ | (_ | _) | _) <;> rfl
@[simp] theorem State.setRb_agenda (p : RbPort) (r : Rb) :
    (s.setRb p r).agenda = s.agenda := by rcases p with _ | (_ | _) | (_ | (_ | _) | _) <;> rfl
@[simp] theorem State.setRb_phase (p : RbPort) (r : Rb) :
    (s.setRb p r).phase = s.phase := by rcases p with _ | (_ | _) | (_ | (_ | _) | _) <;> rfl
@[simp] theorem State.setRb_result (p : RbPort) (r : Rb) :
    (s.setRb p r).result = s.result := by rcases p with _ | (_ | _) | (_ | (_ | _) | _) <;> rfl
@[simp] theorem State.setRb_trace (p : RbPort) (r : Rb) :
    (s.setRb p r).trace = s.trace := by rcases p with _ | (_ | _) | (_ | (_ | _) | _) <;> rfl

/-! ### `setTxie` -/

@[simp] theorem State.setTxie_params (k : LinkId) (b : Bool) : (s.setTxie k b).params = s.params := by cases k <;> rfl
@[simp] theorem State.setTxie_mem (k : LinkId) (b : Bool) : (s.setTxie k b).mem = s.mem := by cases k <;> rfl
@[simp] theorem State.setTxie_wide (k : LinkId) (b : Bool) : (s.setTxie k b).wide = s.wide := by cases k <;> rfl
@[simp] theorem State.setTxie_tainted (k : LinkId) (b : Bool) :
    (s.setTxie k b).tainted = s.tainted := by cases k <;> rfl
@[simp] theorem State.setTxie_freeTick (k : LinkId) (b : Bool) :
    (s.setTxie k b).freeTick = s.freeTick := by cases k <;> rfl
@[simp] theorem State.setTxie_rb (k : LinkId) (b : Bool) (q : RbPort) :
    (s.setTxie k b).rb q = s.rb q := by cases k <;> rcases q with _ | (_ | _) | (_ | (_ | _) | _) <;> rfl
@[simp] theorem State.setTxie_lockout (k : LinkId) (b : Bool) (d : CsPort) :
    ((s.setTxie k b).cs d).lockout = (s.cs d).lockout := by cases k <;> rcases d with _ | (_ | _) | _ <;> rfl
@[simp] theorem State.setTxie_status (k : LinkId) (b : Bool) (j : LinkId) :
    ((s.setTxie k b).link j).status = (s.link j).status := by cases k <;> cases j <;> rfl
@[simp] theorem State.setTxie_errEn (k : LinkId) (b : Bool) (j : LinkId) :
    ((s.setTxie k b).link j).errEn = (s.link j).errEn := by cases k <;> cases j <;> rfl
@[simp] theorem State.setTxie_txie (k : LinkId) (b : Bool) (j : LinkId) :
    ((s.setTxie k b).link j).txie = if j = k then b else (s.link j).txie := by cases k <;> cases j <;> rfl
@[simp] theorem State.setTxie_rxie (k : LinkId) (b : Bool) (j : LinkId) :
    ((s.setTxie k b).link j).rxie = (s.link j).rxie := by cases k <;> cases j <;> rfl
@[simp] theorem State.setTxie_selectN (k : LinkId) (b : Bool) :
    (s.setTxie k b).selectN = s.selectN := by cases k <;> rfl
@[simp] theorem State.setTxie_preamble (k : LinkId) (b : Bool) :
    (s.setTxie k b).radio.preambleLength = s.radio.preambleLength := by cases k <;> rfl
@[simp] theorem State.setTxie_crc (k : LinkId) (b : Bool) :
    (s.setTxie k b).radio.crcEnabled = s.radio.crcEnabled := by cases k <;> rfl
@[simp] theorem State.setTxie_resetN (k : LinkId) (b : Bool) :
    (s.setTxie k b).radio.resetN = s.radio.resetN := by cases k <;> rfl
@[simp] theorem State.setTxie_mode (k : LinkId) (b : Bool) :
    (s.setTxie k b).radio.mode = s.radio.mode := by cases k <;> rfl
@[simp] theorem State.setTxie_periph (k : LinkId) (b : Bool) (j : LinkId) :
    (s.setTxie k b).periph j = s.periph j := by cases k <;> cases j <;> rfl
@[simp] theorem State.setTxie_busy (k : LinkId) (b : Bool) : (s.setTxie k b).busy = s.busy := by cases k <;> rfl
@[simp] theorem State.setTxie_irq (k : LinkId) (b : Bool) : (s.setTxie k b).irq = s.irq := by cases k <;> rfl
@[simp] theorem State.setTxie_requests (k : LinkId) (b : Bool) :
    (s.setTxie k b).requests = s.requests := by cases k <;> rfl
@[simp] theorem State.setTxie_agenda (k : LinkId) (b : Bool) : (s.setTxie k b).agenda = s.agenda := by cases k <;> rfl
@[simp] theorem State.setTxie_phase (k : LinkId) (b : Bool) : (s.setTxie k b).phase = s.phase := by cases k <;> rfl
@[simp] theorem State.setTxie_result (k : LinkId) (b : Bool) : (s.setTxie k b).result = s.result := by cases k <;> rfl
@[simp] theorem State.setTxie_trace (k : LinkId) (b : Bool) : (s.setTxie k b).trace = s.trace := by cases k <;> rfl

/-! ### `setRxie` -/

@[simp] theorem State.setRxie_params (k : LinkId) (b : Bool) : (s.setRxie k b).params = s.params := by cases k <;> rfl
@[simp] theorem State.setRxie_mem (k : LinkId) (b : Bool) : (s.setRxie k b).mem = s.mem := by cases k <;> rfl
@[simp] theorem State.setRxie_wide (k : LinkId) (b : Bool) : (s.setRxie k b).wide = s.wide := by cases k <;> rfl
@[simp] theorem State.setRxie_tainted (k : LinkId) (b : Bool) :
    (s.setRxie k b).tainted = s.tainted := by cases k <;> rfl
@[simp] theorem State.setRxie_freeTick (k : LinkId) (b : Bool) :
    (s.setRxie k b).freeTick = s.freeTick := by cases k <;> rfl
@[simp] theorem State.setRxie_rb (k : LinkId) (b : Bool) (q : RbPort) :
    (s.setRxie k b).rb q = s.rb q := by cases k <;> rcases q with _ | (_ | _) | (_ | (_ | _) | _) <;> rfl
@[simp] theorem State.setRxie_lockout (k : LinkId) (b : Bool) (d : CsPort) :
    ((s.setRxie k b).cs d).lockout = (s.cs d).lockout := by cases k <;> rcases d with _ | (_ | _) | _ <;> rfl
@[simp] theorem State.setRxie_status (k : LinkId) (b : Bool) (j : LinkId) :
    ((s.setRxie k b).link j).status = (s.link j).status := by cases k <;> cases j <;> rfl
@[simp] theorem State.setRxie_errEn (k : LinkId) (b : Bool) (j : LinkId) :
    ((s.setRxie k b).link j).errEn = (s.link j).errEn := by cases k <;> cases j <;> rfl
@[simp] theorem State.setRxie_txie (k : LinkId) (b : Bool) (j : LinkId) :
    ((s.setRxie k b).link j).txie = (s.link j).txie := by cases k <;> cases j <;> rfl
@[simp] theorem State.setRxie_rxie (k : LinkId) (b : Bool) (j : LinkId) :
    ((s.setRxie k b).link j).rxie = if j = k then b else (s.link j).rxie := by cases k <;> cases j <;> rfl
@[simp] theorem State.setRxie_selectN (k : LinkId) (b : Bool) :
    (s.setRxie k b).selectN = s.selectN := by cases k <;> rfl
@[simp] theorem State.setRxie_preamble (k : LinkId) (b : Bool) :
    (s.setRxie k b).radio.preambleLength = s.radio.preambleLength := by cases k <;> rfl
@[simp] theorem State.setRxie_crc (k : LinkId) (b : Bool) :
    (s.setRxie k b).radio.crcEnabled = s.radio.crcEnabled := by cases k <;> rfl
@[simp] theorem State.setRxie_resetN (k : LinkId) (b : Bool) :
    (s.setRxie k b).radio.resetN = s.radio.resetN := by cases k <;> rfl
@[simp] theorem State.setRxie_mode (k : LinkId) (b : Bool) :
    (s.setRxie k b).radio.mode = s.radio.mode := by cases k <;> rfl
@[simp] theorem State.setRxie_periph (k : LinkId) (b : Bool) (j : LinkId) :
    (s.setRxie k b).periph j = s.periph j := by cases k <;> cases j <;> rfl
@[simp] theorem State.setRxie_busy (k : LinkId) (b : Bool) : (s.setRxie k b).busy = s.busy := by cases k <;> rfl
@[simp] theorem State.setRxie_irq (k : LinkId) (b : Bool) : (s.setRxie k b).irq = s.irq := by cases k <;> rfl
@[simp] theorem State.setRxie_requests (k : LinkId) (b : Bool) :
    (s.setRxie k b).requests = s.requests := by cases k <;> rfl
@[simp] theorem State.setRxie_agenda (k : LinkId) (b : Bool) : (s.setRxie k b).agenda = s.agenda := by cases k <;> rfl
@[simp] theorem State.setRxie_phase (k : LinkId) (b : Bool) : (s.setRxie k b).phase = s.phase := by cases k <;> rfl
@[simp] theorem State.setRxie_result (k : LinkId) (b : Bool) : (s.setRxie k b).result = s.result := by cases k <;> rfl
@[simp] theorem State.setRxie_trace (k : LinkId) (b : Bool) : (s.setRxie k b).trace = s.trace := by cases k <;> rfl

/-! ### `setErrEn` -/

@[simp] theorem State.setErrEn_params (k : LinkId) (b : Bool) :
    (s.setErrEn k b).params = s.params := by cases k <;> rfl
@[simp] theorem State.setErrEn_mem (k : LinkId) (b : Bool) : (s.setErrEn k b).mem = s.mem := by cases k <;> rfl
@[simp] theorem State.setErrEn_wide (k : LinkId) (b : Bool) : (s.setErrEn k b).wide = s.wide := by cases k <;> rfl
@[simp] theorem State.setErrEn_tainted (k : LinkId) (b : Bool) :
    (s.setErrEn k b).tainted = s.tainted := by cases k <;> rfl
@[simp] theorem State.setErrEn_freeTick (k : LinkId) (b : Bool) :
    (s.setErrEn k b).freeTick = s.freeTick := by cases k <;> rfl
@[simp] theorem State.setErrEn_rb (k : LinkId) (b : Bool) (q : RbPort) :
    (s.setErrEn k b).rb q = s.rb q := by cases k <;> rcases q with _ | (_ | _) | (_ | (_ | _) | _) <;> rfl
@[simp] theorem State.setErrEn_lockout (k : LinkId) (b : Bool) (d : CsPort) :
    ((s.setErrEn k b).cs d).lockout = (s.cs d).lockout := by cases k <;> rcases d with _ | (_ | _) | _ <;> rfl
@[simp] theorem State.setErrEn_status (k : LinkId) (b : Bool) (j : LinkId) :
    ((s.setErrEn k b).link j).status = (s.link j).status := by cases k <;> cases j <;> rfl
@[simp] theorem State.setErrEn_errEn (k : LinkId) (b : Bool) (j : LinkId) :
    ((s.setErrEn k b).link j).errEn = if j = k then b else (s.link j).errEn := by cases k <;> cases j <;> rfl
@[simp] theorem State.setErrEn_txie (k : LinkId) (b : Bool) (j : LinkId) :
    ((s.setErrEn k b).link j).txie = (s.link j).txie := by cases k <;> cases j <;> rfl
@[simp] theorem State.setErrEn_rxie (k : LinkId) (b : Bool) (j : LinkId) :
    ((s.setErrEn k b).link j).rxie = (s.link j).rxie := by cases k <;> cases j <;> rfl
@[simp] theorem State.setErrEn_selectN (k : LinkId) (b : Bool) :
    (s.setErrEn k b).selectN = s.selectN := by cases k <;> rfl
@[simp] theorem State.setErrEn_preamble (k : LinkId) (b : Bool) :
    (s.setErrEn k b).radio.preambleLength = s.radio.preambleLength := by cases k <;> rfl
@[simp] theorem State.setErrEn_crc (k : LinkId) (b : Bool) :
    (s.setErrEn k b).radio.crcEnabled = s.radio.crcEnabled := by cases k <;> rfl
@[simp] theorem State.setErrEn_resetN (k : LinkId) (b : Bool) :
    (s.setErrEn k b).radio.resetN = s.radio.resetN := by cases k <;> rfl
@[simp] theorem State.setErrEn_mode (k : LinkId) (b : Bool) :
    (s.setErrEn k b).radio.mode = s.radio.mode := by cases k <;> rfl
@[simp] theorem State.setErrEn_periph (k : LinkId) (b : Bool) (j : LinkId) :
    (s.setErrEn k b).periph j = s.periph j := by cases k <;> cases j <;> rfl
@[simp] theorem State.setErrEn_busy (k : LinkId) (b : Bool) : (s.setErrEn k b).busy = s.busy := by cases k <;> rfl
@[simp] theorem State.setErrEn_irq (k : LinkId) (b : Bool) : (s.setErrEn k b).irq = s.irq := by cases k <;> rfl
@[simp] theorem State.setErrEn_requests (k : LinkId) (b : Bool) :
    (s.setErrEn k b).requests = s.requests := by cases k <;> rfl
@[simp] theorem State.setErrEn_agenda (k : LinkId) (b : Bool) :
    (s.setErrEn k b).agenda = s.agenda := by cases k <;> rfl
@[simp] theorem State.setErrEn_phase (k : LinkId) (b : Bool) : (s.setErrEn k b).phase = s.phase := by cases k <;> rfl
@[simp] theorem State.setErrEn_result (k : LinkId) (b : Bool) :
    (s.setErrEn k b).result = s.result := by cases k <;> rfl
@[simp] theorem State.setErrEn_trace (k : LinkId) (b : Bool) : (s.setErrEn k b).trace = s.trace := by cases k <;> rfl

/-! ### `setStatus` -/

@[simp] theorem State.setStatus_params (k : LinkId) (st : LinkStatus) :
    (s.setStatus k st).params = s.params := by cases k <;> rfl
@[simp] theorem State.setStatus_mem (k : LinkId) (st : LinkStatus) :
    (s.setStatus k st).mem = s.mem := by cases k <;> rfl
@[simp] theorem State.setStatus_wide (k : LinkId) (st : LinkStatus) :
    (s.setStatus k st).wide = s.wide := by cases k <;> rfl
@[simp] theorem State.setStatus_tainted (k : LinkId) (st : LinkStatus) :
    (s.setStatus k st).tainted = s.tainted := by cases k <;> rfl
@[simp] theorem State.setStatus_freeTick (k : LinkId) (st : LinkStatus) :
    (s.setStatus k st).freeTick = s.freeTick := by cases k <;> rfl
@[simp] theorem State.setStatus_rb (k : LinkId) (st : LinkStatus) (q : RbPort) :
    (s.setStatus k st).rb q = s.rb q := by cases k <;> rcases q with _ | (_ | _) | (_ | (_ | _) | _) <;> rfl
@[simp] theorem State.setStatus_lockout (k : LinkId) (st : LinkStatus) (d : CsPort) :
    ((s.setStatus k st).cs d).lockout = (s.cs d).lockout := by cases k <;> rcases d with _ | (_ | _) | _ <;> rfl
@[simp] theorem State.setStatus_status (k : LinkId) (st : LinkStatus) (j : LinkId) :
    ((s.setStatus k st).link j).status = if j = k then st else (s.link j).status := by cases k <;> cases j <;> rfl
@[simp] theorem State.setStatus_errEn (k : LinkId) (st : LinkStatus) (j : LinkId) :
    ((s.setStatus k st).link j).errEn = (s.link j).errEn := by cases k <;> cases j <;> rfl
@[simp] theorem State.setStatus_txie (k : LinkId) (st : LinkStatus) (j : LinkId) :
    ((s.setStatus k st).link j).txie = (s.link j).txie := by cases k <;> cases j <;> rfl
@[simp] theorem State.setStatus_rxie (k : LinkId) (st : LinkStatus) (j : LinkId) :
    ((s.setStatus k st).link j).rxie = (s.link j).rxie := by cases k <;> cases j <;> rfl
@[simp] theorem State.setStatus_selectN (k : LinkId) (st : LinkStatus) :
    (s.setStatus k st).selectN = s.selectN := by cases k <;> rfl
@[simp] theorem State.setStatus_preamble (k : LinkId) (st : LinkStatus) :
    (s.setStatus k st).radio.preambleLength = s.radio.preambleLength := by cases k <;> rfl
@[simp] theorem State.setStatus_crc (k : LinkId) (st : LinkStatus) :
    (s.setStatus k st).radio.crcEnabled = s.radio.crcEnabled := by cases k <;> rfl
@[simp] theorem State.setStatus_resetN (k : LinkId) (st : LinkStatus) :
    (s.setStatus k st).radio.resetN = s.radio.resetN := by cases k <;> rfl
@[simp] theorem State.setStatus_mode (k : LinkId) (st : LinkStatus) :
    (s.setStatus k st).radio.mode = s.radio.mode := by cases k <;> rfl
@[simp] theorem State.setStatus_periph (k : LinkId) (st : LinkStatus) (j : LinkId) :
    (s.setStatus k st).periph j = s.periph j := by cases k <;> cases j <;> rfl
@[simp] theorem State.setStatus_busy (k : LinkId) (st : LinkStatus) :
    (s.setStatus k st).busy = s.busy := by cases k <;> rfl
@[simp] theorem State.setStatus_irq (k : LinkId) (st : LinkStatus) :
    (s.setStatus k st).irq = s.irq := by cases k <;> rfl
@[simp] theorem State.setStatus_requests (k : LinkId) (st : LinkStatus) :
    (s.setStatus k st).requests = s.requests := by cases k <;> rfl
@[simp] theorem State.setStatus_agenda (k : LinkId) (st : LinkStatus) :
    (s.setStatus k st).agenda = s.agenda := by cases k <;> rfl
@[simp] theorem State.setStatus_phase (k : LinkId) (st : LinkStatus) :
    (s.setStatus k st).phase = s.phase := by cases k <;> rfl
@[simp] theorem State.setStatus_result (k : LinkId) (st : LinkStatus) :
    (s.setStatus k st).result = s.result := by cases k <;> rfl
@[simp] theorem State.setStatus_trace (k : LinkId) (st : LinkStatus) :
    (s.setStatus k st).trace = s.trace := by cases k <;> rfl

/-! ### `setTxClass` -/

@[simp] theorem State.setTxClass_params (k : LinkId) (c : TxClass) :
    (s.setTxClass k c).params = s.params := by cases k <;> rfl
@[simp] theorem State.setTxClass_mem (k : LinkId) (c : TxClass) : (s.setTxClass k c).mem = s.mem := by cases k <;> rfl
@[simp] theorem State.setTxClass_wide (k : LinkId) (c : TxClass) :
    (s.setTxClass k c).wide = s.wide := by cases k <;> rfl
@[simp] theorem State.setTxClass_tainted (k : LinkId) (c : TxClass) :
    (s.setTxClass k c).tainted = s.tainted := by cases k <;> rfl
@[simp] theorem State.setTxClass_freeTick (k : LinkId) (c : TxClass) :
    (s.setTxClass k c).freeTick = s.freeTick := by cases k <;> rfl
@[simp] theorem State.setTxClass_rb (k : LinkId) (c : TxClass) (q : RbPort) :
    (s.setTxClass k c).rb q = s.rb q := by cases k <;> rcases q with _ | (_ | _) | (_ | (_ | _) | _) <;> rfl
@[simp] theorem State.setTxClass_lockout (k : LinkId) (c : TxClass) (d : CsPort) :
    ((s.setTxClass k c).cs d).lockout = (s.cs d).lockout := by cases k <;> rcases d with _ | (_ | _) | _ <;> rfl
@[simp] theorem State.setTxClass_status (k : LinkId) (c : TxClass) (j : LinkId) :
    ((s.setTxClass k c).link j).status = if j = k then { (s.link j).status with txClass := c } else (s.link j).status := by
  cases k <;> cases j <;> rfl
@[simp] theorem State.setTxClass_errEn (k : LinkId) (c : TxClass) (j : LinkId) :
    ((s.setTxClass k c).link j).errEn = (s.link j).errEn := by cases k <;> cases j <;> rfl
@[simp] theorem State.setTxClass_txie (k : LinkId) (c : TxClass) (j : LinkId) :
    ((s.setTxClass k c).link j).txie = (s.link j).txie := by cases k <;> cases j <;> rfl
@[simp] theorem State.setTxClass_rxie (k : LinkId) (c : TxClass) (j : LinkId) :
    ((s.setTxClass k c).link j).rxie = (s.link j).rxie := by cases k <;> cases j <;> rfl
@[simp] theorem State.setTxClass_selectN (k : LinkId) (c : TxClass) :
    (s.setTxClass k c).selectN = s.selectN := by cases k <;> rfl
@[simp] theorem State.setTxClass_preamble (k : LinkId) (c : TxClass) :
    (s.setTxClass k c).radio.preambleLength = s.radio.preambleLength := by cases k <;> rfl
@[simp] theorem State.setTxClass_crc (k : LinkId) (c : TxClass) :
    (s.setTxClass k c).radio.crcEnabled = s.radio.crcEnabled := by cases k <;> rfl
@[simp] theorem State.setTxClass_resetN (k : LinkId) (c : TxClass) :
    (s.setTxClass k c).radio.resetN = s.radio.resetN := by cases k <;> rfl
@[simp] theorem State.setTxClass_mode (k : LinkId) (c : TxClass) :
    (s.setTxClass k c).radio.mode = s.radio.mode := by cases k <;> rfl
@[simp] theorem State.setTxClass_periph (k : LinkId) (c : TxClass) (j : LinkId) :
    (s.setTxClass k c).periph j = s.periph j := by cases k <;> cases j <;> rfl
@[simp] theorem State.setTxClass_busy (k : LinkId) (c : TxClass) :
    (s.setTxClass k c).busy = s.busy := by cases k <;> rfl
@[simp] theorem State.setTxClass_irq (k : LinkId) (c : TxClass) : (s.setTxClass k c).irq = s.irq := by cases k <;> rfl
@[simp] theorem State.setTxClass_requests (k : LinkId) (c : TxClass) :
    (s.setTxClass k c).requests = s.requests := by cases k <;> rfl
@[simp] theorem State.setTxClass_agenda (k : LinkId) (c : TxClass) :
    (s.setTxClass k c).agenda = s.agenda := by cases k <;> rfl
@[simp] theorem State.setTxClass_phase (k : LinkId) (c : TxClass) :
    (s.setTxClass k c).phase = s.phase := by cases k <;> rfl
@[simp] theorem State.setTxClass_result (k : LinkId) (c : TxClass) :
    (s.setTxClass k c).result = s.result := by cases k <;> rfl
@[simp] theorem State.setTxClass_trace (k : LinkId) (c : TxClass) :
    (s.setTxClass k c).trace = s.trace := by cases k <;> rfl

/-! ### `setRxClass` -/

@[simp] theorem State.setRxClass_params (k : LinkId) (c : RxClass) :
    (s.setRxClass k c).params = s.params := by cases k <;> rfl
@[simp] theorem State.setRxClass_mem (k : LinkId) (c : RxClass) : (s.setRxClass k c).mem = s.mem := by cases k <;> rfl
@[simp] theorem State.setRxClass_wide (k : LinkId) (c : RxClass) :
    (s.setRxClass k c).wide = s.wide := by cases k <;> rfl
@[simp] theorem State.setRxClass_tainted (k : LinkId) (c : RxClass) :
    (s.setRxClass k c).tainted = s.tainted := by cases k <;> rfl
@[simp] theorem State.setRxClass_freeTick (k : LinkId) (c : RxClass) :
    (s.setRxClass k c).freeTick = s.freeTick := by cases k <;> rfl
@[simp] theorem State.setRxClass_rb (k : LinkId) (c : RxClass) (q : RbPort) :
    (s.setRxClass k c).rb q = s.rb q := by cases k <;> rcases q with _ | (_ | _) | (_ | (_ | _) | _) <;> rfl
@[simp] theorem State.setRxClass_lockout (k : LinkId) (c : RxClass) (d : CsPort) :
    ((s.setRxClass k c).cs d).lockout = (s.cs d).lockout := by cases k <;> rcases d with _ | (_ | _) | _ <;> rfl
@[simp] theorem State.setRxClass_status (k : LinkId) (c : RxClass) (j : LinkId) :
    ((s.setRxClass k c).link j).status = if j = k then { (s.link j).status with rxClass := c } else (s.link j).status := by
  cases k <;> cases j <;> rfl
@[simp] theorem State.setRxClass_errEn (k : LinkId) (c : RxClass) (j : LinkId) :
    ((s.setRxClass k c).link j).errEn = (s.link j).errEn := by cases k <;> cases j <;> rfl
@[simp] theorem State.setRxClass_txie (k : LinkId) (c : RxClass) (j : LinkId) :
    ((s.setRxClass k c).link j).txie = (s.link j).txie := by cases k <;> cases j <;> rfl
@[simp] theorem State.setRxClass_rxie (k : LinkId) (c : RxClass) (j : LinkId) :
    ((s.setRxClass k c).link j).rxie = (s.link j).rxie := by cases k <;> cases j <;> rfl
@[simp] theorem State.setRxClass_selectN (k : LinkId) (c : RxClass) :
    (s.setRxClass k c).selectN = s.selectN := by cases k <;> rfl
@[simp] theorem State.setRxClass_preamble (k : LinkId) (c : RxClass) :
    (s.setRxClass k c).radio.preambleLength = s.radio.preambleLength := by cases k <;> rfl
@[simp] theorem State.setRxClass_crc (k : LinkId) (c : RxClass) :
    (s.setRxClass k c).radio.crcEnabled = s.radio.crcEnabled := by cases k <;> rfl
@[simp] theorem State.setRxClass_resetN (k : LinkId) (c : RxClass) :
    (s.setRxClass k c).radio.resetN = s.radio.resetN := by cases k <;> rfl
@[simp] theorem State.setRxClass_mode (k : LinkId) (c : RxClass) :
    (s.setRxClass k c).radio.mode = s.radio.mode := by cases k <;> rfl
@[simp] theorem State.setRxClass_periph (k : LinkId) (c : RxClass) (j : LinkId) :
    (s.setRxClass k c).periph j = s.periph j := by cases k <;> cases j <;> rfl
@[simp] theorem State.setRxClass_busy (k : LinkId) (c : RxClass) :
    (s.setRxClass k c).busy = s.busy := by cases k <;> rfl
@[simp] theorem State.setRxClass_irq (k : LinkId) (c : RxClass) : (s.setRxClass k c).irq = s.irq := by cases k <;> rfl
@[simp] theorem State.setRxClass_requests (k : LinkId) (c : RxClass) :
    (s.setRxClass k c).requests = s.requests := by cases k <;> rfl
@[simp] theorem State.setRxClass_agenda (k : LinkId) (c : RxClass) :
    (s.setRxClass k c).agenda = s.agenda := by cases k <;> rfl
@[simp] theorem State.setRxClass_phase (k : LinkId) (c : RxClass) :
    (s.setRxClass k c).phase = s.phase := by cases k <;> rfl
@[simp] theorem State.setRxClass_result (k : LinkId) (c : RxClass) :
    (s.setRxClass k c).result = s.result := by cases k <;> rfl
@[simp] theorem State.setRxClass_trace (k : LinkId) (c : RxClass) :
    (s.setRxClass k c).trace = s.trace := by cases k <;> rfl

/-! ### `setLastError` -/

@[simp] theorem State.setLastError_params (k : LinkId) (e : LinkError) :
    (s.setLastError k e).params = s.params := by cases k <;> rfl
@[simp] theorem State.setLastError_mem (k : LinkId) (e : LinkError) :
    (s.setLastError k e).mem = s.mem := by cases k <;> rfl
@[simp] theorem State.setLastError_wide (k : LinkId) (e : LinkError) :
    (s.setLastError k e).wide = s.wide := by cases k <;> rfl
@[simp] theorem State.setLastError_tainted (k : LinkId) (e : LinkError) :
    (s.setLastError k e).tainted = s.tainted := by cases k <;> rfl
@[simp] theorem State.setLastError_freeTick (k : LinkId) (e : LinkError) :
    (s.setLastError k e).freeTick = s.freeTick := by cases k <;> rfl
@[simp] theorem State.setLastError_rb (k : LinkId) (e : LinkError) (q : RbPort) :
    (s.setLastError k e).rb q = s.rb q := by cases k <;> rcases q with _ | (_ | _) | (_ | (_ | _) | _) <;> rfl
@[simp] theorem State.setLastError_lockout (k : LinkId) (e : LinkError) (d : CsPort) :
    ((s.setLastError k e).cs d).lockout = (s.cs d).lockout := by cases k <;> rcases d with _ | (_ | _) | _ <;> rfl
@[simp] theorem State.setLastError_status (k : LinkId) (e : LinkError) (j : LinkId) :
    ((s.setLastError k e).link j).status = if j = k then { (s.link j).status with lastError := e } else (s.link j).status := by
  cases k <;> cases j <;> rfl
@[simp] theorem State.setLastError_errEn (k : LinkId) (e : LinkError) (j : LinkId) :
    ((s.setLastError k e).link j).errEn = (s.link j).errEn := by cases k <;> cases j <;> rfl
@[simp] theorem State.setLastError_txie (k : LinkId) (e : LinkError) (j : LinkId) :
    ((s.setLastError k e).link j).txie = (s.link j).txie := by cases k <;> cases j <;> rfl
@[simp] theorem State.setLastError_rxie (k : LinkId) (e : LinkError) (j : LinkId) :
    ((s.setLastError k e).link j).rxie = (s.link j).rxie := by cases k <;> cases j <;> rfl
@[simp] theorem State.setLastError_selectN (k : LinkId) (e : LinkError) :
    (s.setLastError k e).selectN = s.selectN := by cases k <;> rfl
@[simp] theorem State.setLastError_preamble (k : LinkId) (e : LinkError) :
    (s.setLastError k e).radio.preambleLength = s.radio.preambleLength := by cases k <;> rfl
@[simp] theorem State.setLastError_crc (k : LinkId) (e : LinkError) :
    (s.setLastError k e).radio.crcEnabled = s.radio.crcEnabled := by cases k <;> rfl
@[simp] theorem State.setLastError_resetN (k : LinkId) (e : LinkError) :
    (s.setLastError k e).radio.resetN = s.radio.resetN := by cases k <;> rfl
@[simp] theorem State.setLastError_mode (k : LinkId) (e : LinkError) :
    (s.setLastError k e).radio.mode = s.radio.mode := by cases k <;> rfl
@[simp] theorem State.setLastError_periph (k : LinkId) (e : LinkError) (j : LinkId) :
    (s.setLastError k e).periph j = s.periph j := by cases k <;> cases j <;> rfl
@[simp] theorem State.setLastError_busy (k : LinkId) (e : LinkError) :
    (s.setLastError k e).busy = s.busy := by cases k <;> rfl
@[simp] theorem State.setLastError_irq (k : LinkId) (e : LinkError) :
    (s.setLastError k e).irq = s.irq := by cases k <;> rfl
@[simp] theorem State.setLastError_requests (k : LinkId) (e : LinkError) :
    (s.setLastError k e).requests = s.requests := by cases k <;> rfl
@[simp] theorem State.setLastError_agenda (k : LinkId) (e : LinkError) :
    (s.setLastError k e).agenda = s.agenda := by cases k <;> rfl
@[simp] theorem State.setLastError_phase (k : LinkId) (e : LinkError) :
    (s.setLastError k e).phase = s.phase := by cases k <;> rfl
@[simp] theorem State.setLastError_result (k : LinkId) (e : LinkError) :
    (s.setLastError k e).result = s.result := by cases k <;> rfl
@[simp] theorem State.setLastError_trace (k : LinkId) (e : LinkError) :
    (s.setLastError k e).trace = s.trace := by cases k <;> rfl

/-! ### `setEnabled` -/

@[simp] theorem State.setEnabled_params (k : LinkId) (b : Bool) :
    (s.setEnabled k b).params = s.params := by cases k <;> rfl
@[simp] theorem State.setEnabled_mem (k : LinkId) (b : Bool) : (s.setEnabled k b).mem = s.mem := by cases k <;> rfl
@[simp] theorem State.setEnabled_wide (k : LinkId) (b : Bool) : (s.setEnabled k b).wide = s.wide := by cases k <;> rfl
@[simp] theorem State.setEnabled_tainted (k : LinkId) (b : Bool) :
    (s.setEnabled k b).tainted = s.tainted := by cases k <;> rfl
@[simp] theorem State.setEnabled_freeTick (k : LinkId) (b : Bool) :
    (s.setEnabled k b).freeTick = s.freeTick := by cases k <;> rfl
@[simp] theorem State.setEnabled_rb (k : LinkId) (b : Bool) (q : RbPort) :
    (s.setEnabled k b).rb q = s.rb q := by cases k <;> rcases q with _ | (_ | _) | (_ | (_ | _) | _) <;> rfl
@[simp] theorem State.setEnabled_lockout (k : LinkId) (b : Bool) (d : CsPort) :
    ((s.setEnabled k b).cs d).lockout = (s.cs d).lockout := by cases k <;> rcases d with _ | (_ | _) | _ <;> rfl
@[simp] theorem State.setEnabled_status (k : LinkId) (b : Bool) (j : LinkId) :
    ((s.setEnabled k b).link j).status = if j = k then { (s.link j).status with enabled := b } else (s.link j).status := by
  cases k <;> cases j <;> rfl
@[simp] theorem State.setEnabled_errEn (k : LinkId) (b : Bool) (j : LinkId) :
    ((s.setEnabled k b).link j).errEn = (s.link j).errEn := by cases k <;> cases j <;> rfl
@[simp] theorem State.setEnabled_txie (k : LinkId) (b : Bool) (j : LinkId) :
    ((s.setEnabled k b).link j).txie = (s.link j).txie := by cases k <;> cases j <;> rfl
@[simp] theorem State.setEnabled_rxie (k : LinkId) (b : Bool) (j : LinkId) :
    ((s.setEnabled k b).link j).rxie = (s.link j).rxie := by cases k <;> cases j <;> rfl
@[simp] theorem State.setEnabled_selectN (k : LinkId) (b : Bool) :
    (s.setEnabled k b).selectN = s.selectN := by cases k <;> rfl
@[simp] theorem State.setEnabled_preamble (k : LinkId) (b : Bool) :
    (s.setEnabled k b).radio.preambleLength = s.radio.preambleLength := by cases k <;> rfl
@[simp] theorem State.setEnabled_crc (k : LinkId) (b : Bool) :
    (s.setEnabled k b).radio.crcEnabled = s.radio.crcEnabled := by cases k <;> rfl
@[simp] theorem State.setEnabled_resetN (k : LinkId) (b : Bool) :
    (s.setEnabled k b).radio.resetN = s.radio.resetN := by cases k <;> rfl
@[simp] theorem State.setEnabled_mode (k : LinkId) (b : Bool) :
    (s.setEnabled k b).radio.mode = s.radio.mode := by cases k <;> rfl
@[simp] theorem State.setEnabled_periph (k : LinkId) (b : Bool) (j : LinkId) :
    (s.setEnabled k b).periph j = s.periph j := by cases k <;> cases j <;> rfl
@[simp] theorem State.setEnabled_busy (k : LinkId) (b : Bool) : (s.setEnabled k b).busy = s.busy := by cases k <;> rfl
@[simp] theorem State.setEnabled_irq (k : LinkId) (b : Bool) : (s.setEnabled k b).irq = s.irq := by cases k <;> rfl
@[simp] theorem State.setEnabled_requests (k : LinkId) (b : Bool) :
    (s.setEnabled k b).requests = s.requests := by cases k <;> rfl
@[simp] theorem State.setEnabled_agenda (k : LinkId) (b : Bool) :
    (s.setEnabled k b).agenda = s.agenda := by cases k <;> rfl
@[simp] theorem State.setEnabled_phase (k : LinkId) (b : Bool) :
    (s.setEnabled k b).phase = s.phase := by cases k <;> rfl
@[simp] theorem State.setEnabled_result (k : LinkId) (b : Bool) :
    (s.setEnabled k b).result = s.result := by cases k <;> rfl
@[simp] theorem State.setEnabled_trace (k : LinkId) (b : Bool) :
    (s.setEnabled k b).trace = s.trace := by cases k <;> rfl

/-! ### `setLockout` -/

@[simp] theorem State.setLockout_params (c : CsPort) (n : Nat) :
    (s.setLockout c n).params = s.params := by rcases c with _ | (_ | _) | _ <;> rfl
@[simp] theorem State.setLockout_mem (c : CsPort) (n : Nat) :
    (s.setLockout c n).mem = s.mem := by rcases c with _ | (_ | _) | _ <;> rfl
@[simp] theorem State.setLockout_wide (c : CsPort) (n : Nat) :
    (s.setLockout c n).wide = s.wide := by rcases c with _ | (_ | _) | _ <;> rfl
@[simp] theorem State.setLockout_tainted (c : CsPort) (n : Nat) :
    (s.setLockout c n).tainted = s.tainted := by rcases c with _ | (_ | _) | _ <;> rfl
@[simp] theorem State.setLockout_freeTick (c : CsPort) (n : Nat) :
    (s.setLockout c n).freeTick = s.freeTick := by rcases c with _ | (_ | _) | _ <;> rfl
@[simp] theorem State.setLockout_rb (c : CsPort) (n : Nat) (q : RbPort) :
    (s.setLockout c n).rb q = s.rb q := by
  rcases c with _ | (_ | _) | _ <;> rcases q with _ | (_ | _) | (_ | (_ | _) | _) <;> rfl
@[simp] theorem State.setLockout_lockout (c : CsPort) (n : Nat) (d : CsPort) :
    ((s.setLockout c n).cs d).lockout = if d = c then n else (s.cs d).lockout := by
  rcases c with _ | (_ | _) | _ <;> rcases d with _ | (_ | _) | _ <;> rfl
@[simp] theorem State.setLockout_status (c : CsPort) (n : Nat) (j : LinkId) :
    ((s.setLockout c n).link j).status = (s.link j).status := by rcases c with _ | (_ | _) | _ <;> cases j <;> rfl
@[simp] theorem State.setLockout_errEn (c : CsPort) (n : Nat) (j : LinkId) :
    ((s.setLockout c n).link j).errEn = (s.link j).errEn := by rcases c with _ | (_ | _) | _ <;> cases j <;> rfl
@[simp] theorem State.setLockout_txie (c : CsPort) (n : Nat) (j : LinkId) :
    ((s.setLockout c n).link j).txie = (s.link j).txie := by rcases c with _ | (_ | _) | _ <;> cases j <;> rfl
@[simp] theorem State.setLockout_rxie (c : CsPort) (n : Nat) (j : LinkId) :
    ((s.setLockout c n).link j).rxie = (s.link j).rxie := by rcases c with _ | (_ | _) | _ <;> cases j <;> rfl
@[simp] theorem State.setLockout_selectN (c : CsPort) (n : Nat) :
    (s.setLockout c n).selectN = s.selectN := by rcases c with _ | (_ | _) | _ <;> rfl
@[simp] theorem State.setLockout_preamble (c : CsPort) (n : Nat) :
    (s.setLockout c n).radio.preambleLength = s.radio.preambleLength := by rcases c with _ | (_ | _) | _ <;> rfl
@[simp] theorem State.setLockout_crc (c : CsPort) (n : Nat) :
    (s.setLockout c n).radio.crcEnabled = s.radio.crcEnabled := by rcases c with _ | (_ | _) | _ <;> rfl
@[simp] theorem State.setLockout_resetN (c : CsPort) (n : Nat) :
    (s.setLockout c n).radio.resetN = s.radio.resetN := by rcases c with _ | (_ | _) | _ <;> rfl
@[simp] theorem State.setLockout_mode (c : CsPort) (n : Nat) :
    (s.setLockout c n).radio.mode = s.radio.mode := by rcases c with _ | (_ | _) | _ <;> rfl
@[simp] theorem State.setLockout_periph (c : CsPort) (n : Nat) (j : LinkId) :
    (s.setLockout c n).periph j = s.periph j := by rcases c with _ | (_ | _) | _ <;> cases j <;> rfl
@[simp] theorem State.setLockout_busy (c : CsPort) (n : Nat) :
    (s.setLockout c n).busy = s.busy := by rcases c with _ | (_ | _) | _ <;> rfl
@[simp] theorem State.setLockout_irq (c : CsPort) (n : Nat) :
    (s.setLockout c n).irq = s.irq := by rcases c with _ | (_ | _) | _ <;> rfl
@[simp] theorem State.setLockout_requests (c : CsPort) (n : Nat) :
    (s.setLockout c n).requests = s.requests := by rcases c with _ | (_ | _) | _ <;> rfl
@[simp] theorem State.setLockout_agenda (c : CsPort) (n : Nat) :
    (s.setLockout c n).agenda = s.agenda := by rcases c with _ | (_ | _) | _ <;> rfl
@[simp] theorem State.setLockout_phase (c : CsPort) (n : Nat) :
    (s.setLockout c n).phase = s.phase := by rcases c with _ | (_ | _) | _ <;> rfl
@[simp] theorem State.setLockout_result (c : CsPort) (n : Nat) :
    (s.setLockout c n).result = s.result := by rcases c with _ | (_ | _) | _ <;> rfl
@[simp] theorem State.setLockout_trace (c : CsPort) (n : Nat) :
    (s.setLockout c n).trace = s.trace := by rcases c with _ | (_ | _) | _ <;> rfl

/-! ### `taint` -/

@[simp] theorem State.taint_params (r : Ref) : (s.taint r).params = s.params := by
  unfold State.taint; split <;> simp
@[simp] theorem State.taint_mem (r : Ref) : (s.taint r).mem = s.mem := by
  unfold State.taint; split <;> simp
@[simp] theorem State.taint_wide (r : Ref) : (s.taint r).wide = s.wide := by
  unfold State.taint; split <;> simp
@[simp] theorem State.taint_rb (r : Ref) (q : RbPort) : (s.taint r).rb q = s.rb q := by
  unfold State.taint; split <;> simp
@[simp] theorem State.taint_lockout (r : Ref) (d : CsPort) : ((s.taint r).cs d).lockout = (s.cs d).lockout := by
  unfold State.taint; split <;> simp
@[simp] theorem State.taint_status (r : Ref) (j : LinkId) : ((s.taint r).link j).status = (s.link j).status := by
  unfold State.taint; split <;> simp
@[simp] theorem State.taint_errEn (r : Ref) (j : LinkId) : ((s.taint r).link j).errEn = (s.link j).errEn := by
  unfold State.taint; split <;> simp
@[simp] theorem State.taint_txie (r : Ref) (j : LinkId) : ((s.taint r).link j).txie = (s.link j).txie := by
  unfold State.taint; split <;> simp
@[simp] theorem State.taint_rxie (r : Ref) (j : LinkId) : ((s.taint r).link j).rxie = (s.link j).rxie := by
  unfold State.taint; split <;> simp
@[simp] theorem State.taint_selectN (r : Ref) : (s.taint r).selectN = s.selectN := by
  unfold State.taint; split <;> simp
@[simp] theorem State.taint_preamble (r : Ref) : (s.taint r).radio.preambleLength = s.radio.preambleLength := by
  unfold State.taint; split <;> simp
@[simp] theorem State.taint_crc (r : Ref) : (s.taint r).radio.crcEnabled = s.radio.crcEnabled := by
  unfold State.taint; split <;> simp
@[simp] theorem State.taint_resetN (r : Ref) : (s.taint r).radio.resetN = s.radio.resetN := by
  unfold State.taint; split <;> simp
@[simp] theorem State.taint_mode (r : Ref) : (s.taint r).radio.mode = s.radio.mode := by
  unfold State.taint; split <;> simp
@[simp] theorem State.taint_periph (r : Ref) (j : LinkId) : (s.taint r).periph j = s.periph j := by
  unfold State.taint; split <;> simp
@[simp] theorem State.taint_busy (r : Ref) : (s.taint r).busy = s.busy := by
  unfold State.taint; split <;> simp
@[simp] theorem State.taint_irq (r : Ref) : (s.taint r).irq = s.irq := by
  unfold State.taint; split <;> simp
@[simp] theorem State.taint_requests (r : Ref) : (s.taint r).requests = s.requests := by
  unfold State.taint; split <;> simp
@[simp] theorem State.taint_agenda (r : Ref) : (s.taint r).agenda = s.agenda := by
  unfold State.taint; split <;> simp
@[simp] theorem State.taint_phase (r : Ref) : (s.taint r).phase = s.phase := by
  unfold State.taint; split <;> simp
@[simp] theorem State.taint_result (r : Ref) : (s.taint r).result = s.result := by
  unfold State.taint; split <;> simp
@[simp] theorem State.taint_trace (r : Ref) : (s.taint r).trace = s.trace := by
  unfold State.taint; split <;> simp

/-! ### `disturb` -/

@[simp] theorem State.disturb_params (r : Ref) : (s.disturb r).params = s.params := by
  unfold State.disturb; split <;> simp
@[simp] theorem State.disturb_mem (r : Ref) : (s.disturb r).mem = s.mem := by
  unfold State.disturb; split <;> simp
@[simp] theorem State.disturb_wide (r : Ref) : (s.disturb r).wide = s.wide := by
  unfold State.disturb; split <;> simp
@[simp] theorem State.disturb_tainted (r : Ref) : (s.disturb r).tainted = s.tainted := by
  unfold State.disturb; split <;> simp
@[simp] theorem State.disturb_rb (r : Ref) (q : RbPort) : (s.disturb r).rb q = s.rb q := by
  unfold State.disturb; split <;> simp
@[simp] theorem State.disturb_lockout (r : Ref) (d : CsPort) : ((s.disturb r).cs d).lockout = (s.cs d).lockout := by
  unfold State.disturb; split <;> simp
@[simp] theorem State.disturb_status (r : Ref) (j : LinkId) : ((s.disturb r).link j).status = (s.link j).status := by
  unfold State.disturb; split <;> simp
@[simp] theorem State.disturb_errEn (r : Ref) (j : LinkId) : ((s.disturb r).link j).errEn = (s.link j).errEn := by
  unfold State.disturb; split <;> simp
@[simp] theorem State.disturb_txie (r : Ref) (j : LinkId) : ((s.disturb r).link j).txie = (s.link j).txie := by
  unfold State.disturb; split <;> simp
@[simp] theorem State.disturb_rxie (r : Ref) (j : LinkId) : ((s.disturb r).link j).rxie = (s.link j).rxie := by
  unfold State.disturb; split <;> simp
@[simp] theorem State.disturb_selectN (r : Ref) : (s.disturb r).selectN = s.selectN := by
  unfold State.disturb; split <;> simp
@[simp] theorem State.disturb_preamble (r : Ref) : (s.disturb r).radio.preambleLength = s.radio.preambleLength := by
  unfold State.disturb; split <;> simp
@[simp] theorem State.disturb_crc (r : Ref) : (s.disturb r).radio.crcEnabled = s.radio.crcEnabled := by
  unfold State.disturb; split <;> simp
@[simp] theorem State.disturb_resetN (r : Ref) : (s.disturb r).radio.resetN = s.radio.resetN := by
  unfold State.disturb; split <;> simp
@[simp] theorem State.disturb_mode (r : Ref) : (s.disturb r).radio.mode = s.radio.mode := by
  unfold State.disturb; split <;> simp
@[simp] theorem State.disturb_periph (r : Ref) (j : LinkId) : (s.disturb r).periph j = s.periph j := by
  unfold State.disturb; split <;> simp
@[simp] theorem State.disturb_busy (r : Ref) : (s.disturb r).busy = s.busy := by
  unfold State.disturb; split <;> simp
@[simp] theorem State.disturb_irq (r : Ref) : (s.disturb r).irq = s.irq := by
  unfold State.disturb; split <;> simp
@[simp] theorem State.disturb_requests (r : Ref) : (s.disturb r).requests = s.requests := by
  unfold State.disturb; split <;> simp
@[simp] theorem State.disturb_agenda (r : Ref) : (s.disturb r).agenda = s.agenda := by
  unfold State.disturb; split <;> simp
@[simp] theorem State.disturb_phase (r : Ref) : (s.disturb r).phase = s.phase := by
  unfold State.disturb; split <;> simp
@[simp] theorem State.disturb_result (r : Ref) : (s.disturb r).result = s.result := by
  unfold State.disturb; split <;> simp
@[simp] theorem State.disturb_trace (r : Ref) : (s.disturb r).trace = s.trace := by
  unfold State.disturb; split <;> simp

/-! ### `writeSlot` -/

@[simp] theorem State.writeSlot_params (p : RbPort) (i v : Nat) : (s.writeSlot p i v).params = s.params := by
  unfold State.writeSlot; split <;> [rfl; (split <;> simp)]
@[simp] theorem State.writeSlot_tainted (p : RbPort) (i v : Nat) : (s.writeSlot p i v).tainted = s.tainted := by
  unfold State.writeSlot; split <;> [rfl; (split <;> simp)]
@[simp] theorem State.writeSlot_rb (p : RbPort) (i v : Nat) (q : RbPort) : (s.writeSlot p i v).rb q = s.rb q := by
  unfold State.writeSlot; split <;> [rfl; (split <;> simp)]
@[simp] theorem State.writeSlot_lockout (p : RbPort) (i v : Nat) (d : CsPort) : ((s.writeSlot p i v).cs d).lockout = (s.cs d).lockout := by
  unfold State.writeSlot; split <;> [rfl; (split <;> simp)]
@[simp] theorem State.writeSlot_status (p : RbPort) (i v : Nat) (j : LinkId) : ((s.writeSlot p i v).link j).status = (s.link j).status := by
  unfold State.writeSlot; split <;> [rfl; (split <;> simp)]
@[simp] theorem State.writeSlot_errEn (p : RbPort) (i v : Nat) (j : LinkId) : ((s.writeSlot p i v).link j).errEn = (s.link j).errEn := by
  unfold State.writeSlot; split <;> [rfl; (split <;> simp)]
@[simp] theorem State.writeSlot_txie (p : RbPort) (i v : Nat) (j : LinkId) : ((s.writeSlot p i v).link j).txie = (s.link j).txie := by
  unfold State.writeSlot; split <;> [rfl; (split <;> simp)]
@[simp] theorem State.writeSlot_rxie (p : RbPort) (i v : Nat) (j : LinkId) : ((s.writeSlot p i v).link j).rxie = (s.link j).rxie := by
  unfold State.writeSlot; split <;> [rfl; (split <;> simp)]
@[simp] theorem State.writeSlot_selectN (p : RbPort) (i v : Nat) : (s.writeSlot p i v).selectN = s.selectN := by
  unfold State.writeSlot; split <;> [rfl; (split <;> simp)]
@[simp] theorem State.writeSlot_preamble (p : RbPort) (i v : Nat) : (s.writeSlot p i v).radio.preambleLength = s.radio.preambleLength := by
  unfold State.writeSlot; split <;> [rfl; (split <;> simp)]
@[simp] theorem State.writeSlot_crc (p : RbPort) (i v : Nat) : (s.writeSlot p i v).radio.crcEnabled = s.radio.crcEnabled := by
  unfold State.writeSlot; split <;> [rfl; (split <;> simp)]
@[simp] theorem State.writeSlot_resetN (p : RbPort) (i v : Nat) : (s.writeSlot p i v).radio.resetN = s.radio.resetN := by
  unfold State.writeSlot; split <;> [rfl; (split <;> simp)]
@[simp] theorem State.writeSlot_mode (p : RbPort) (i v : Nat) : (s.writeSlot p i v).radio.mode = s.radio.mode := by
  unfold State.writeSlot; split <;> [rfl; (split <;> simp)]
@[simp] theorem State.writeSlot_periph (p : RbPort) (i v : Nat) (j : LinkId) : (s.writeSlot p i v).periph j = s.periph j := by
  unfold State.writeSlot; split <;> [rfl; (split <;> simp)]
@[simp] theorem State.writeSlot_busy (p : RbPort) (i v : Nat) : (s.writeSlot p i v).busy = s.busy := by
  unfold State.writeSlot; split <;> [rfl; (split <;> simp)]
@[simp] theorem State.writeSlot_irq (p : RbPort) (i v : Nat) : (s.writeSlot p i v).irq = s.irq := by
  unfold State.writeSlot; split <;> [rfl; (split <;> simp)]
@[simp] theorem State.writeSlot_requests (p : RbPort) (i v : Nat) : (s.writeSlot p i v).requests = s.requests := by
  unfold State.writeSlot; split <;> [rfl; (split <;> simp)]
@[simp] theorem State.writeSlot_agenda (p : RbPort) (i v : Nat) : (s.writeSlot p i v).agenda = s.agenda := by
  unfold State.writeSlot; split <;> [rfl; (split <;> simp)]
@[simp] theorem State.writeSlot_phase (p : RbPort) (i v : Nat) : (s.writeSlot p i v).phase = s.phase := by
  unfold State.writeSlot; split <;> [rfl; (split <;> simp)]
@[simp] theorem State.writeSlot_result (p : RbPort) (i v : Nat) : (s.writeSlot p i v).result = s.result := by
  unfold State.writeSlot; split <;> [rfl; (split <;> simp)]
@[simp] theorem State.writeSlot_trace (p : RbPort) (i v : Nat) : (s.writeSlot p i v).trace = s.trace := by
  unfold State.writeSlot; split <;> [rfl; (split <;> simp)]

/-! ### `claim` -/

@[simp] theorem State.claim_params (p : RbPort) (b : Option Ref) : (s.claim p b).params = s.params := by
  unfold State.claim; split <;> [rfl; (split <;> simp)]
@[simp] theorem State.claim_mem (p : RbPort) (b : Option Ref) : (s.claim p b).mem = s.mem := by
  unfold State.claim; split <;> [rfl; (split <;> simp)]
@[simp] theorem State.claim_wide (p : RbPort) (b : Option Ref) : (s.claim p b).wide = s.wide := by
  unfold State.claim; split <;> [rfl; (split <;> simp)]
@[simp] theorem State.claim_rb (p : RbPort) (b : Option Ref) (q : RbPort) : (s.claim p b).rb q = s.rb q := by
  unfold State.claim; split <;> [rfl; (split <;> simp)]
@[simp] theorem State.claim_lockout (p : RbPort) (b : Option Ref) (d : CsPort) : ((s.claim p b).cs d).lockout = (s.cs d).lockout := by
  unfold State.claim; split <;> [rfl; (split <;> simp)]
@[simp] theorem State.claim_status (p : RbPort) (b : Option Ref) (j : LinkId) : ((s.claim p b).link j).status = (s.link j).status := by
  unfold State.claim; split <;> [rfl; (split <;> simp)]
@[simp] theorem State.claim_errEn (p : RbPort) (b : Option Ref) (j : LinkId) : ((s.claim p b).link j).errEn = (s.link j).errEn := by
  unfold State.claim; split <;> [rfl; (split <;> simp)]
@[simp] theorem State.claim_txie (p : RbPort) (b : Option Ref) (j : LinkId) : ((s.claim p b).link j).txie = (s.link j).txie := by
  unfold State.claim; split <;> [rfl; (split <;> simp)]
@[simp] theorem State.claim_rxie (p : RbPort) (b : Option Ref) (j : LinkId) : ((s.claim p b).link j).rxie = (s.link j).rxie := by
  unfold State.claim; split <;> [rfl; (split <;> simp)]
@[simp] theorem State.claim_selectN (p : RbPort) (b : Option Ref) : (s.claim p b).selectN = s.selectN := by
  unfold State.claim; split <;> [rfl; (split <;> simp)]
@[simp] theorem State.claim_preamble (p : RbPort) (b : Option Ref) : (s.claim p b).radio.preambleLength = s.radio.preambleLength := by
  unfold State.claim; split <;> [rfl; (split <;> simp)]
@[simp] theorem State.claim_crc (p : RbPort) (b : Option Ref) : (s.claim p b).radio.crcEnabled = s.radio.crcEnabled := by
  unfold State.claim; split <;> [rfl; (split <;> simp)]
@[simp] theorem State.claim_resetN (p : RbPort) (b : Option Ref) : (s.claim p b).radio.resetN = s.radio.resetN := by
  unfold State.claim; split <;> [rfl; (split <;> simp)]
@[simp] theorem State.claim_mode (p : RbPort) (b : Option Ref) : (s.claim p b).radio.mode = s.radio.mode := by
  unfold State.claim; split <;> [rfl; (split <;> simp)]
@[simp] theorem State.claim_periph (p : RbPort) (b : Option Ref) (j : LinkId) : (s.claim p b).periph j = s.periph j := by
  unfold State.claim; split <;> [rfl; (split <;> simp)]
@[simp] theorem State.claim_busy (p : RbPort) (b : Option Ref) : (s.claim p b).busy = s.busy := by
  unfold State.claim; split <;> [rfl; (split <;> simp)]
@[simp] theorem State.claim_irq (p : RbPort) (b : Option Ref) : (s.claim p b).irq = s.irq := by
  unfold State.claim; split <;> [rfl; (split <;> simp)]
@[simp] theorem State.claim_requests (p : RbPort) (b : Option Ref) : (s.claim p b).requests = s.requests := by
  unfold State.claim; split <;> [rfl; (split <;> simp)]
@[simp] theorem State.claim_agenda (p : RbPort) (b : Option Ref) : (s.claim p b).agenda = s.agenda := by
  unfold State.claim; split <;> [rfl; (split <;> simp)]
@[simp] theorem State.claim_phase (p : RbPort) (b : Option Ref) : (s.claim p b).phase = s.phase := by
  unfold State.claim; split <;> [rfl; (split <;> simp)]
@[simp] theorem State.claim_result (p : RbPort) (b : Option Ref) : (s.claim p b).result = s.result := by
  unfold State.claim; split <;> [rfl; (split <;> simp)]
@[simp] theorem State.claim_trace (p : RbPort) (b : Option Ref) : (s.claim p b).trace = s.trace := by
  unfold State.claim; split <;> [rfl; (split <;> simp)]

/-! ### Whole states -/

theorem State.ext_views {s t : State} (h1 : t.params = s.params) (h2 : t.mem = s.mem) (h3 : t.wide = s.wide)
    (h4 : t.tainted = s.tainted) (h5 : t.freeTick = s.freeTick) (h6 : ∀ q, t.rb q = s.rb q)
    (h7 : ∀ d, (t.cs d).lockout = (s.cs d).lockout) (h8 : ∀ j, (t.link j).status = (s.link j).status)
    (h9 : ∀ j, (t.link j).errEn = (s.link j).errEn) (h10 : ∀ j, (t.link j).txie = (s.link j).txie)
    (h11 : ∀ j, (t.link j).rxie = (s.link j).rxie) (h12 : t.selectN = s.selectN)
    (h13 : t.radio.preambleLength = s.radio.preambleLength) (h14 : t.radio.crcEnabled = s.radio.crcEnabled)
    (h15 : t.radio.resetN = s.radio.resetN) (h16 : t.radio.mode = s.radio.mode) (h17 : ∀ j, t.periph j = s.periph j)
    (h18 : t.busy = s.busy) (h19 : t.irq = s.irq) (h20 : t.requests = s.requests) (h21 : t.agenda = s.agenda)
    (h22 : t.phase = s.phase) (h23 : t.result = s.result) (h24 : t.trace = s.trace) : t = s := by
  obtain ⟨_, _, _, _, _, _, ⟨_, _⟩, ⟨_, ⟨_, _⟩, _, _, _, _⟩, ⟨_, ⟨_, _⟩, _, _, _, _⟩, _, ⟨⟨_, _⟩, _, _, _, _⟩, _, _, _, _, _, _,
    _, _, _⟩ := s
  obtain ⟨_, _, _, _, _, _, ⟨_, _⟩, ⟨_, ⟨_, _⟩, _, _, _, _⟩, ⟨_, ⟨_, _⟩, _, _, _, _⟩, _, ⟨⟨_, _⟩, _, _, _, _⟩, _, _, _, _, _, _,
    _, _, _⟩ := t
  have a1 := h6 .bench
  have a2 := h6 (.tx .s)
  have a3 := h6 (.tx .a)
  have a4 := h6 (.inner .bench)
  have a5 := h6 (.inner (.rx .s))
  have a6 := h6 (.inner (.rx .a))
  have a7 := h6 (.inner .sink)
  have b1 := h7 .bench
  have b2 := h7 (.rx .s)
  have b3 := h7 (.rx .a)
  have b4 := h7 .sink
  have c1 := h8 .s
  have c2 := h8 .a
  have d1 := h9 .s
  have d2 := h9 .a
  have e1 := h10 .s
  have e2 := h10 .a
  have f1 := h11 .s
  have f2 := h11 .a
  have g1 := h17 .s
  have g2 := h17 .a
  clear h6 h7 h8 h9 h10 h11 h17
  simp only [State.rb, State.cs, State.link, State.periph] at *
  subst_vars
  rfl

@[simp] theorem State.setAgenda_self : s.setAgenda s.agenda = s := rfl

@[simp] theorem State.setResult_setResult (r r' : Result) : (s.setResult r).setResult r' = s.setResult r' := rfl

@[simp] theorem State.setRb_self (p : RbPort) : s.setRb p (s.rb p) = s := by
  rcases p with _ | (_ | _) | (_ | (_ | _) | _) <;> rfl

@[simp] theorem State.setRb_setRb (p : RbPort) (r r' : Rb) : (s.setRb p r).setRb p r' = s.setRb p r' := by
  rcases p with _ | (_ | _) | (_ | (_ | _) | _) <;> rfl

end Sys2Proof.Machine
end

