-- ==== Sys2Proof/Laws/Memory.lean ====
section
/-! SUPPORT. The sparse store: what a read after a write gives, and that a write keeps the canonical form. -/

namespace Sys2Proof.Machine

theorem cellsRead_of_all_gt {α : Type} {d : α} (m : List (Nat × α)) (a : Nat) (h : ∀ c ∈ m, a < c.1) : cellsRead d m a = d := by
  induction m with
  | nil => rfl
  | cons c m ih =>
    have h1 := h c (by simp)
    simp only [cellsRead]
    rw [if_neg (by omega)]
    exact ih fun c' hc => h c' (by simp [hc])

variable {α : Type} [DecidableEq α] {d : α}

/-- What a read gives after one write. -/
theorem cellsRead_cellsWrite (m : List (Nat × α)) (hm : m.Pairwise fun x y => x.1 < y.1) (a b : Nat) (v : α) :
    cellsRead d (cellsWrite d m a v) b = if b = a then v else cellsRead d m b := by
  induction m with
  | nil =>
    by_cases hv : v = d <;> by_cases hb : b = a <;> simp [cellsWrite, cellsRead, hv, hb]
  | cons c m ih =>
    obtain ⟨k, w⟩ := c
    rw [List.pairwise_cons] at hm
    obtain ⟨hk, hm⟩ := hm
    have hk' : ∀ x, x ≤ k → cellsRead d m x = d := fun x hx =>
      cellsRead_of_all_gt m x fun c hc => Nat.lt_of_le_of_lt hx (hk c hc)
    rcases Nat.lt_trichotomy a k with h | h | h
    · simp only [cellsWrite, if_pos h]
      by_cases hv : v = d
      · rw [if_pos hv]
        by_cases hb : b = a
        · have : b ≠ k := by omega
          simp only [cellsRead, if_neg this, if_pos hb, hv]
          exact hk' b (by omega)
        · rw [if_neg hb]
      · simp only [if_neg hv, cellsRead]
    · subst h
      simp only [cellsWrite, Nat.lt_irrefl, if_false, if_true]
      by_cases hv : v = d
      · rw [if_pos hv]
        by_cases hb : b = a
        · simp only [if_pos hb, hv, cellsRead]
          exact hk' b (by omega)
        · simp only [if_neg hb, cellsRead]
      · simp only [if_neg hv, cellsRead]
        by_cases hb : b = a <;> simp [hb]
    · have h1 : ¬ a < k := by omega
      have h2 : a ≠ k := by omega
      simp only [cellsWrite, if_neg h1, if_neg h2, cellsRead, ih hm]
      by_cases hb : b = k
      · have : b ≠ a := by omega
        simp [hb, h2.symm]
      · simp [hb]

theorem cellsWrite_keys (m : List (Nat × α)) (a : Nat) (v : α) :
    ∀ c ∈ cellsWrite d m a v, c.1 = a ∨ c ∈ m := by
  induction m with
  | nil => intro c; simp only [cellsWrite]; split <;> simp; rintro rfl; simp
  | cons x m ih =>
    obtain ⟨k, w⟩ := x
    intro c
    simp only [cellsWrite]
    split
    · split
      · exact fun h => .inr h
      · intro h; rcases List.mem_cons.1 h with rfl | h
        · exact .inl rfl
        · exact .inr h
    · split
      · split
        · exact fun h => .inr (List.mem_cons_of_mem _ h)
        · intro h; rcases List.mem_cons.1 h with rfl | h
          · exact .inl rfl
          · exact .inr (List.mem_cons_of_mem _ h)
      · intro h; rcases List.mem_cons.1 h with rfl | h
        · exact .inr (by simp)
        · rcases ih c h with h | h
          · exact .inl h
          · exact .inr (List.mem_cons_of_mem _ h)

/-- A write keeps the canonical form. -/
theorem cellsWrite_wf (m : List (Nat × α)) (a : Nat) (v : α) (h : CellsWf d m) : CellsWf d (cellsWrite d m a v) := by
  induction m with
  | nil =>
    simp only [cellsWrite]
    split
    · exact h
    · next hv => exact ⟨by simp, by simp [hv]⟩
  | cons c m ih =>
    obtain ⟨k, w⟩ := c
    obtain ⟨hp, hd⟩ := h
    have hp' := List.pairwise_cons.1 hp
    have hm : CellsWf d m := ⟨hp'.2, fun c hc => hd c (List.mem_cons_of_mem _ hc)⟩
    simp only [cellsWrite]
    split
    · next hak =>
      split
      · exact ⟨hp, hd⟩
      · next hv =>
        refine ⟨List.pairwise_cons.2 ⟨fun c hc => ?_, hp⟩, fun c hc => ?_⟩
        · rcases List.mem_cons.1 hc with rfl | hc
          · exact hak
          · exact Nat.lt_trans hak (hp'.1 c hc)
        · rcases List.mem_cons.1 hc with rfl | hc
          · exact hv
          · exact hd c hc
    · split
      · next hak =>
        split
        · exact hm
        · next hv =>
          refine ⟨List.pairwise_cons.2 ⟨fun c hc => ?_, hp'.2⟩, fun c hc => ?_⟩
          · simpa [hak] using hp'.1 c hc
          · rcases List.mem_cons.1 hc with rfl | hc
            · exact hv
            · exact hm.2 c hc
      · next h1 h2 =>
        have hi := ih hm
        refine ⟨List.pairwise_cons.2 ⟨fun c hc => ?_, hi.1⟩, fun c hc => ?_⟩
        · rcases cellsWrite_keys m a v c hc with h | h
          · show k < c.1
            omega
          · exact hp'.1 c h
        · rcases List.mem_cons.1 hc with rfl | hc
          · exact hd (k, w) (by simp)
          · exact hi.2 c hc

theorem Memory.read_write (m : Memory) (h : m.wf) (a b : Nat) (v : Byte) :
    (m.write a v).read b = if b = a then v else m.read b :=
  cellsRead_cellsWrite m h.1 a b v

theorem Memory.write_wf (m : Memory) (a : Nat) (v : Byte) (h : m.wf) : (m.write a v).wf := cellsWrite_wf m a v h

theorem WideMemory.read_write (m : WideMemory) (h : m.wf) (a b : Nat) (v : Nat) :
    (m.write a v).read b = if b = a then v else m.read b :=
  cellsRead_cellsWrite m h.1 a b v

theorem WideMemory.write_wf (m : WideMemory) (a : Nat) (v : Nat) (h : m.wf) : (m.write a v).wf :=
  cellsWrite_wf m a v h

theorem cellsRead_cellsWrite_of_ne (m : List (Nat × α)) (a b : Nat) (v : α) (h : b ≠ a) :
    cellsRead d (cellsWrite d m a v) b = cellsRead d m b := by
  induction m with
  | nil => by_cases hv : v = d <;> simp [cellsWrite, cellsRead, hv, h]
  | cons c m ih =>
    obtain ⟨k, w⟩ := c
    simp only [cellsWrite]
    split
    · split
      · rfl
      · simp [cellsRead, h]
    · split
      · next hk =>
        subst hk
        split <;> simp [cellsRead, h]
      · simp [cellsRead, ih]

/-- A write leaves every other place alone, in any memory. -/
theorem Memory.read_write_of_ne (m : Memory) (a b : Nat) (v : Byte) (h : b ≠ a) : (m.write a v).read b = m.read b :=
  cellsRead_cellsWrite_of_ne m a b v h

theorem WideMemory.read_write_of_ne (m : WideMemory) (a b : Nat) (v : Nat) (h : b ≠ a) :
    (m.write a v).read b = m.read b :=
  cellsRead_cellsWrite_of_ne m a b v h

/-! ### Every memory operation keeps both forms -/

theorem State.writeSlot_mem_wf (s : State) (p : RbPort) (i v : Nat) (h : s.mem.wf) : (s.writeSlot p i v).mem.wf := by
  unfold State.writeSlot
  split
  · exact h
  · split
    · simpa using Memory.write_wf _ _ _ h
    · simpa using h

theorem State.writeSlot_wide_wf (s : State) (p : RbPort) (i v : Nat) (h : s.wide.wf) : (s.writeSlot p i v).wide.wf := by
  unfold State.writeSlot
  split
  · exact h
  · split
    · simpa using h
    · simpa using WideMemory.write_wf _ _ _ h

theorem reset_memory_wf : State.reset.mem.wf ∧ State.reset.wide.wf := by
  refine ⟨⟨?_, ?_⟩, ⟨?_, ?_⟩⟩ <;> simp [State.reset]

/-! ### What `writeSlot` stores -/

/-- A slot of a byte array: the byte at its key, and nothing else. -/
theorem State.writeSlot_read_of_ne (s : State) (p : RbPort) (i v a : Nat)
    (h : ∀ r, (s.rb p).backing = some r → a ≠ slotAddress r i) :
    (s.writeSlot p i v).mem.read a = s.mem.read a ∧ (s.writeSlot p i v).wide.read a = s.wide.read a := by
  unfold State.writeSlot
  split
  · exact ⟨rfl, rfl⟩
  · next r hr =>
    split <;> simp [Memory.read_write_of_ne, WideMemory.read_write_of_ne, h r hr]

/-- Every RB but the stand-alone ring stands on bytes. -/
@[simp] theorem State.byteSlots_tx (s : State) (k : LinkId) : s.byteSlots (.tx k) = true := rfl

@[simp] theorem State.byteSlots_inner (s : State) (c : CsPort) : s.byteSlots (.inner c) = true := rfl

/-- The kind of a slot depends on nothing but the parameters. -/
theorem State.byteSlots_congr {s t : State} (p : RbPort) (h : t.params = s.params) : t.byteSlots p = s.byteSlots p := by
  simp only [State.byteSlots, h]

@[simp] theorem State.byteSlots_setMem (s : State) (m : Memory) (p : RbPort) :
    (s.setMem m).byteSlots p = s.byteSlots p := rfl

@[simp] theorem State.byteSlots_setWide (s : State) (m : WideMemory) (p : RbPort) :
    (s.setWide m).byteSlots p = s.byteSlots p := rfl

@[simp] theorem State.byteSlots_disturb (s : State) (r : Ref) (p : RbPort) :
    (s.disturb r).byteSlots p = s.byteSlots p := State.byteSlots_congr p (by simp)

/-- A write through one RB never touches the other kind of memory. -/
theorem State.writeSlot_other (s : State) (p : RbPort) (i v : Nat) :
    (s.byteSlots p = true → (s.writeSlot p i v).wide = s.wide)
      ∧ (s.byteSlots p = false → (s.writeSlot p i v).mem = s.mem) := by
  unfold State.writeSlot
  split
  · exact ⟨fun _ => rfl, fun _ => rfl⟩
  · split <;> simp_all

/-- The value stored is the value read, where the array's contents are not free. -/
theorem State.readSlot_writeSlot_same (s : State) (p : RbPort) (i v : Nat) (r : Ref) (hr : (s.rb p).backing = some r)
    (ht : r ∉ s.tainted) (hm : s.mem.wf) (hw : s.wide.wf) (hv : v < 2 ^ slotWidthOf s.params p) :
    (s.writeSlot p i v).readSlot p i = v := by
  cases h : s.byteSlots p with
  | false =>
    simp [State.writeSlot, State.readSlot, hr, State.wideAt, ht, h,
      WideMemory.read_write _ hw]
  | true =>
    have h8 : slotWidthOf s.params p = 8 := by simpa [State.byteSlots] using h
    have hv : v < 256 := by rwa [h8] at hv
    simp [State.writeSlot, State.readSlot, hr, State.byteAt, ht, h, Memory.read_write _ hm, Nat.mod_eq_of_lt hv]

theorem slotAddress_inj (r : Ref) (i j : Nat) (h : slotAddress r i = slotAddress r j) : i = j := by
  unfold slotAddress at h; omega

/-- The other slots of the array read as before. -/
theorem State.readSlot_writeSlot_of_ne (s : State) (p : RbPort) (i j v : Nat)
    (ht : ∀ r, (s.rb p).backing = some r → r ∉ s.tainted) (h : j ≠ i) :
    (s.writeSlot p i v).readSlot p j = s.readSlot p j := by
  cases hr : (s.rb p).backing with
  | none => simp [State.writeSlot, hr]
  | some r =>
    have ht' := ht r hr
    have hne : slotAddress r j ≠ slotAddress r i := fun e => h (slotAddress_inj r j i e)
    cases hb : s.byteSlots p <;>
      simp [State.writeSlot, State.readSlot, hr, hb, State.byteAt, State.wideAt, ht', Memory.read_write_of_ne _ _ _ _ hne,
        WideMemory.read_write_of_ne _ _ _ _ hne]

end Sys2Proof.Machine
end

