-- ==== Sys2Proof/Laws/Ring.lean ====
section
/-! SUPPORT. The ring operations: that each keeps the invariant of R23, what each does in one lemma, and the queue of values an
RB stands for. -/

namespace Sys2Proof.Machine

/-! ### The invariant of one RB -/

theorem Rb.unbound_ok : Rb.unbound.Ok := by decide

theorem Rb.bound_ok (b : Option Ref) (c : Word32) (h : bindable b c = true) : (Rb.bound b c.toNat).Ok := by
  have hc := c.isLt
  unfold Rb.Ok Rb.bound
  simp only [bindable, Bool.or_eq_true, beq_iff_eq] at h
  refine ⟨by simpa using hc, Nat.zero_le _, fun h0 => by simp_all, fun h1 => ?_⟩
  have h0 : c.toNat ≠ 0 := by simp only at h1; omega
  refine ⟨by simpa [h0] using h, ?_, ?_, ?_⟩ <;> simp only [Nat.zero_mod, Nat.add_zero] at * <;> omega

theorem Rb.cleared_ok (rb : Rb) (h : rb.Ok) : rb.cleared.Ok := by
  obtain ⟨h1, h2, h3, h4⟩ := h
  refine ⟨h1, Nat.zero_le _, fun h0 => ⟨(h3 h0).1, rfl, rfl⟩, fun h0 => ⟨(h4 h0).1, ?_, ?_, by simp [Rb.cleared]⟩⟩ <;>
    · simp only [Rb.cleared] at *; omega

theorem Rb.pos_of_not_full (rb : Rb) (h : rb.Ok) (hf : rb.isFull = false) : 1 ≤ rb.capacity := by
  have := h.2.1
  simp only [Rb.isFull, beq_eq_false_iff_ne] at hf
  omega

theorem Rb.pos_of_count (rb : Rb) (h : rb.Ok) (hc : rb.count ≠ 0) : 1 ≤ rb.capacity := by
  have := h.2.1
  omega

theorem Rb.afterPut_ok (rb : Rb) (h : rb.Ok) (hf : rb.isFull = false) : rb.afterPut.Ok := by
  have hp := rb.pos_of_not_full h hf
  obtain ⟨h1, h2, -, h4⟩ := h
  simp only [Rb.isFull, beq_eq_false_iff_ne] at hf
  obtain ⟨h5, h6, h7, h8⟩ := h4 hp
  refine ⟨h1, ?_, fun h0 => ?_, fun _ => ⟨h5, h6, Nat.mod_lt _ hp, ?_⟩⟩
  · simp only [Rb.afterPut]; omega
  · simp only [Rb.afterPut] at h0; omega
  · simp only [Rb.afterPut, h8, Nat.mod_add_mod, Nat.add_assoc]

theorem Rb.afterGet_ok (rb : Rb) (h : rb.Ok) (hc : rb.count ≠ 0) : rb.afterGet.Ok := by
  have hp := rb.pos_of_count h hc
  obtain ⟨h1, h2, -, h4⟩ := h
  obtain ⟨h5, h6, h7, h8⟩ := h4 hp
  refine ⟨h1, ?_, fun h0 => ?_, fun _ => ⟨h5, Nat.mod_lt _ hp, h7, ?_⟩⟩
  · simp only [Rb.afterGet]; omega
  · simp only [Rb.afterGet] at h0; omega
  · simp only [Rb.afterGet, h8, Nat.mod_add_mod]
    congr 1; omega

theorem subMod_lt (i k c : Nat) (hc : 1 ≤ c) : subMod i k c < c := by
  unfold subMod
  have h1 := Int.emod_nonneg ((i : Int) - k) (b := (c : Int)) (by omega)
  have h2 := Int.emod_lt_of_pos ((i : Int) - k) (b := (c : Int)) (by omega)
  omega

/-- Going back `k` slots and then on by `k` is where one was. -/
theorem subMod_add (i k n c : Nat) (hc : 1 ≤ c) : (subMod i k c + (n + k)) % c = (i + n) % c := by
  unfold subMod
  have h1 := Int.emod_nonneg ((i : Int) - k) (b := (c : Int)) (by omega)
  have h : ((((((i : Int) - k) % c).toNat + (n + k)) % c : Nat) : Int) = (((i + n) % c : Nat) : Int) := by
    push_cast
    rw [Int.toNat_of_nonneg h1, Int.emod_add_emod]
    congr 1; ring
  exact_mod_cast h

theorem Rb.shiftBy_forward (rb : Rb) (n : Nat) : rb.shiftBy n true = min n rb.count := rfl

theorem Rb.shiftBy_backward (rb : Rb) (n : Nat) : rb.shiftBy n false = min n (rb.capacity - rb.count) := rfl

theorem Rb.shifted_ok (rb : Rb) (h : rb.Ok) (n : Nat) (fwd : Bool) : (rb.shifted n fwd).Ok := by
  unfold Rb.shifted
  by_cases hk : rb.shiftBy n fwd = 0
  · simpa [hk] using h
  · simp only [hk, if_false]
    obtain ⟨h1, h2, -, h4⟩ := h
    cases fwd
    · rw [Rb.shiftBy_backward] at hk ⊢
      have hp : 1 ≤ rb.capacity := by omega
      obtain ⟨h5, h6, h7, h8⟩ := h4 hp
      refine ⟨h1, ?_, fun h0 => ?_, fun _ => ⟨h5, subMod_lt _ _ _ hp, h7, ?_⟩⟩
      · simp; omega
      · simp at h0; omega
      · simp only [Bool.false_eq_true, if_false]
        rw [subMod_add _ _ _ _ hp]; exact h8
    · rw [Rb.shiftBy_forward] at hk ⊢
      have hp : 1 ≤ rb.capacity := by omega
      obtain ⟨h5, h6, h7, h8⟩ := h4 hp
      refine ⟨h1, ?_, fun h0 => ?_, fun _ => ⟨h5, Nat.mod_lt _ hp, h7, ?_⟩⟩
      · simp; omega
      · simp at h0; omega
      · simp only [if_true, Nat.mod_add_mod]
        rw [h8]; congr 1; omega

/-! ### What each operation does -/

theorem rbPut_full (p : RbPort) (v : Nat) (s : State) (h : (s.rb p).isFull = true) : rbPut p v s = (false, s) := by
  simp [rbPut, h]

theorem rbPut_room (p : RbPort) (v : Nat) (s : State) (h : (s.rb p).isFull = false) :
    rbPut p v s = (true, (s.writeSlot p (s.rb p).writeIndex v).setRb p (s.rb p).afterPut) := by
  simp [rbPut, h]

theorem rbGet_empty (p : RbPort) (s : State) (h : (s.rb p).count = 0) : rbGet p s = (none, s) := by
  simp [rbGet, h]

theorem rbGet_some (p : RbPort) (s : State) (h : (s.rb p).count ≠ 0) :
    rbGet p s = (some (s.readSlot p (s.rb p).readIndex), s.setRb p (s.rb p).afterGet) := by
  simp [rbGet, h]

/-- Reading a slot depends on nothing but the binding, the memories and the disturbances. -/
theorem State.readSlot_congr {s t : State} (p : RbPort) (i : Nat) (h1 : (t.rb p).backing = (s.rb p).backing)
    (h2 : t.mem = s.mem) (h3 : t.wide = s.wide) (h4 : t.tainted = s.tainted) (h5 : t.freeTick = s.freeTick)
    (h6 : t.params = s.params) : t.readSlot p i = s.readSlot p i := by
  unfold State.readSlot State.byteAt State.wideAt
  rw [State.byteSlots_congr p h6, h1, h2, h3, h4, h5, h6]

@[simp] theorem State.readSlot_setRb (s : State) (p : RbPort) (r : Rb) (i : Nat)
    (h : r.backing = (s.rb p).backing) : (s.setRb p r).readSlot p i = s.readSlot p i :=
  State.readSlot_congr p i (by simp [h]) (by simp) (by simp) (by simp) (by simp) (by simp)

/-! ### The queue -/

theorem State.contents_length (s : State) (p : RbPort) : (s.contents p).length = (s.rb p).count := by
  simp [State.contents]

theorem State.contents_nil (s : State) (p : RbPort) (h : (s.rb p).count = 0) : s.contents p = [] := by
  simp [State.contents, h]

/-- Taking the front value. -/
theorem State.contents_get (s : State) (p : RbPort) (h : (s.rb p).count ≠ 0) (hok : (s.rb p).Ok) :
    s.contents p = s.readSlot p (s.rb p).readIndex :: (s.setRb p (s.rb p).afterGet).contents p := by
  obtain ⟨n, hn⟩ := Nat.exists_eq_succ_of_ne_zero h
  have hp := (s.rb p).pos_of_count hok h
  have hr := (hok.2.2.2 hp).2.1
  have e : (s.setRb p (s.rb p).afterGet).contents p
      = (List.range n).map fun i => s.readSlot p (((s.rb p).readIndex + (i + 1)) % (s.rb p).capacity) := by
    have hb : ∀ i, (s.setRb p (s.rb p).afterGet).readSlot p i = s.readSlot p i :=
      fun i => State.readSlot_setRb s p _ i rfl
    unfold State.contents
    simp only [State.setRb_rb, if_true, hb]
    simp only [Rb.afterGet, hn, Nat.succ_eq_add_one, Nat.add_sub_cancel, Nat.mod_add_mod]
    congr 1; funext i; congr 2; omega
  rw [e]
  unfold State.contents
  rw [hn, List.range_succ_eq_map]
  simp [Nat.mod_eq_of_lt hr, Function.comp_def]

/-- Putting a value behind the others. -/
theorem State.contents_put (s : State) (p : RbPort) (v : Nat) (h : (s.rb p).isFull = false) (hok : (s.rb p).Ok)
    (hu : s.Untainted p) (hm : s.mem.wf) (hw : s.wide.wf) (hv : v < 2 ^ slotWidthOf s.params p) :
    ((s.writeSlot p (s.rb p).writeIndex v).setRb p (s.rb p).afterPut).contents p = s.contents p ++ [v] := by
  have hp := (s.rb p).pos_of_not_full hok h
  obtain ⟨h1, h2, -, h4⟩ := hok
  obtain ⟨h5, h6, h7, h8⟩ := h4 hp
  obtain ⟨r, hr⟩ := Option.isSome_iff_exists.1 h5
  simp only [Rb.isFull, beq_eq_false_iff_ne] at h
  have hb : ∀ i, ((s.writeSlot p (s.rb p).writeIndex v).setRb p (s.rb p).afterPut).readSlot p i
      = (s.writeSlot p (s.rb p).writeIndex v).readSlot p i := fun i =>
    State.readSlot_setRb _ p _ i (by simp [Rb.afterPut])
  unfold State.contents
  simp only [State.setRb_rb, if_true, hb]
  simp only [Rb.afterPut, List.range_succ, List.map_append, List.map_cons, List.map_nil]
  congr 1
  · apply List.map_congr_left
    intro i hi
    have hi' : i < (s.rb p).count := List.mem_range.1 hi
    apply State.readSlot_writeSlot_of_ne s p _ _ v hu
    rw [h8]
    intro e
    have hlt : (s.rb p).count < (s.rb p).capacity := by omega
    have e' : i ≡ (s.rb p).count [MOD (s.rb p).capacity] := Nat.ModEq.add_left_cancel' (s.rb p).readIndex e
    have := Nat.ModEq.eq_of_lt_of_lt e' (by omega) hlt
    omega
  · rw [← h8]
    rw [State.readSlot_writeSlot_same s p _ v r hr (hu r hr) hm hw hv]

/-- The key of the next put. -/
theorem State.nextKeys_one (s : State) (p : RbPort) (hok : (s.rb p).Ok) (r : Ref) (hr : (s.rb p).backing = some r) :
    s.nextKeys p 1 = [slotAddress r (s.rb p).writeIndex] := by
  have h1 : 1 ≤ (s.rb p).capacity := by
    rcases Nat.eq_zero_or_pos (s.rb p).capacity with h | h
    · rw [(hok.2.2.1 h).1] at hr; simp at hr
    · exact h
  simp [State.nextKeys, hr, Nat.mod_eq_of_lt (hok.2.2.2 h1).2.2.1]

end Sys2Proof.Machine
end

