-- ==== Sys2Proof/Laws/Stream.lean ====
section
/-! SUPPORT. The stream operations: the drain, the token comparison and the digit loop in closed form. -/

namespace Sys2Proof.Machine

/-! ### Taking bytes -/

/-- A stream after `n` of its bytes were taken. -/
def State.taken (s : State) (c : CsPort) (n : Nat) : State :=
  (s.setRb (.inner c)
    { s.rb (.inner c) with
      readIndex := if n = 0 then (s.rb (.inner c)).readIndex
        else ((s.rb (.inner c)).readIndex + n) % (s.rb (.inner c)).capacity
      count := (s.rb (.inner c)).count - n }).setLockout c ((s.cs c).lockout - n)

@[simp] theorem State.setLockout_setLockout (s : State) (c : CsPort) (m n : Nat) :
    (s.setLockout c m).setLockout c n = s.setLockout c n := by rcases c with _ | (_ | _) | _ <;> rfl

theorem State.setLockout_setRb (s : State) (c : CsPort) (n : Nat) (r : Rb) :
    (s.setLockout c n).setRb (.inner c) r = (s.setRb (.inner c) r).setLockout c n := by
  rcases c with _ | (_ | _) | _ <;> rfl

@[simp] theorem State.setLockout_self (s : State) (c : CsPort) : s.setLockout c (s.cs c).lockout = s := by
  rcases c with _ | (_ | _) | _ <;> rfl

@[simp] theorem State.taken_zero (s : State) (c : CsPort) : s.taken c 0 = s := by
  rcases c with _ | (_ | _) | _ <;> rfl

theorem State.taken_taken (s : State) (c : CsPort) (m n : Nat) : (s.taken c m).taken c n = s.taken c (m + n) := by
  unfold State.taken
  simp only [State.setLockout_rb, State.setRb_rb, if_true, State.setLockout_lockout, State.setLockout_setRb,
    State.setLockout_setLockout, State.setRb_setRb]
  congr 1
  · congr 2
    · by_cases hm : m = 0 <;> by_cases hn : n = 0 <;> simp [hm, hn, Nat.add_assoc]
    · omega
  · omega

theorem csGet_empty (c : CsPort) (s : State) (h : (s.rb (.inner c)).count = 0) : csGet c s = (none, s) := by
  simp [csGet, rbGet, h]

theorem csGet_some (c : CsPort) (s : State) (h : (s.rb (.inner c)).count ≠ 0) :
    csGet c s = (some (csSlot c s (s.rb (.inner c)).readIndex), s.taken c 1) := by
  simp only [csGet, rbGet_some _ _ h, State.taken, csSlot, State.setRb_lockout]
  rfl

theorem csGet_state (c : CsPort) (s : State) : (csGet c s).2 = s.taken c (min 1 (s.rb (.inner c)).count) := by
  by_cases h : (s.rb (.inner c)).count = 0
  · rw [csGet_empty c s h, h]; simp
  · rw [csGet_some c s h]
    have : min 1 (s.rb (.inner c)).count = 1 := by omega
    rw [this]

@[simp] theorem State.taken_rb_count (s : State) (c : CsPort) (n : Nat) :
    ((s.taken c n).rb (.inner c)).count = (s.rb (.inner c)).count - n := by simp [State.taken]

theorem csGetMany_state (c : CsPort) (n : Nat) (s : State) :
    csGetMany c n s = s.taken c (min n (s.rb (.inner c)).count) := by
  induction n generalizing s with
  | zero => simp [csGetMany]
  | succ n ih =>
    simp only [csGetMany, ih, csGet_state, State.taken_taken, State.taken_rb_count]
    congr 1; omega

/-- The drain takes every unread byte. -/
theorem csDrain_state (c : CsPort) (s : State) : csDrain c s = s.taken c (s.rb (.inner c)).count := by
  simp [csDrain, csGetMany_state]

/-- The RB of a drained stream. -/
theorem csDrain_rb (c : CsPort) (s : State) (h : (s.rb (.inner c)).Ok) :
    (csDrain c s).rb (.inner c)
      = { s.rb (.inner c) with readIndex := (s.rb (.inner c)).writeIndex, count := 0 } := by
  rw [csDrain_state]
  simp only [State.taken, State.setLockout_rb, State.setRb_rb, if_true, Nat.sub_self]
  congr 1
  split
  · next h0 =>
    obtain ⟨h1, h2, h3, h4⟩ := h
    rcases Nat.eq_zero_or_pos (s.rb (.inner c)).capacity with hc | hc
    · rw [(h3 hc).2.1, (h3 hc).2.2]
    · obtain ⟨h5, h6, h7, h8⟩ := h4 hc
      rw [h8, h0, Nat.add_zero, Nat.mod_eq_of_lt h6]
  · next h0 =>
    have hp := (s.rb (.inner c)).pos_of_count h h0
    exact ((h.2.2.2 hp).2.2.2).symm

theorem State.taken_ok (s : State) (c : CsPort) (n : Nat) (h : (s.rb (.inner c)).Ok)
    (hn : n ≤ (s.rb (.inner c)).count) : ((s.taken c n).rb (.inner c)).Ok := by
  induction n generalizing s with
  | zero => simpa using h
  | succ n ih =>
    rw [Nat.add_comm, ← State.taken_taken]
    apply ih
    · have h0 : (s.rb (.inner c)).count ≠ 0 := by omega
      have := Rb.afterGet_ok _ h h0
      simpa [State.taken, Rb.afterGet] using this
    · simp; omega

/-- Reading a slot of the stream's array after bytes were taken. -/
@[simp] theorem csSlot_taken (c : CsPort) (s : State) (n i : Nat) : csSlot c (s.taken c n) i = csSlot c s i := by
  unfold csSlot
  rw [State.readSlot_congr (s := s) (t := s.taken c n) (.inner c) i (by simp [State.taken]) (by simp [State.taken])
    (by simp [State.taken]) (by simp [State.taken]) (by simp [State.taken]) (by simp [State.taken])]

theorem State.unread_length (s : State) (c : CsPort) : (s.unread c).length = (s.rb (.inner c)).count := by
  simp [State.unread, State.contents]

theorem State.unread_nil (s : State) (c : CsPort) (h : (s.rb (.inner c)).count = 0) : s.unread c = [] := by
  simp [State.unread, State.contents, h]

theorem State.unread_cons (s : State) (c : CsPort) (h : (s.rb (.inner c)).count ≠ 0) (hok : (s.rb (.inner c)).Ok) :
    s.unread c = csSlot c s (s.rb (.inner c)).readIndex :: (s.taken c 1).unread c := by
  unfold State.unread
  rw [State.contents_get s _ h hok]
  simp only [List.map_cons, csSlot]
  congr 2
  have hb : ∀ i, (s.taken c 1).readSlot (.inner c) i = (s.setRb (.inner c) (s.rb (.inner c)).afterGet).readSlot (.inner c) i :=
    fun i => State.readSlot_congr _ i (by simp [State.taken, Rb.afterGet]) (by simp [State.taken]) (by simp [State.taken])
      (by simp [State.taken]) (by simp [State.taken]) (by simp [State.taken])
  unfold State.contents
  simp only [hb]
  simp [State.taken, Rb.afterGet]

/-- What is left unread. -/
theorem State.unread_taken (s : State) (c : CsPort) (n : Nat) (h : (s.rb (.inner c)).Ok)
    (hn : n ≤ (s.rb (.inner c)).count) : (s.taken c n).unread c = (s.unread c).drop n := by
  induction n generalizing s with
  | zero => simp
  | succ n ih =>
    have h0 : (s.rb (.inner c)).count ≠ 0 := by omega
    rw [Nat.add_comm, ← State.taken_taken, ih _ (State.taken_ok s c 1 h (by omega)) (by simp; omega),
      State.unread_cons s c h0 h, Nat.add_comm, List.drop_succ_cons]

/-! ### The token comparison -/

theorem csWindowFrom_iff (c : CsPort) (s : State) (i : Nat) (token : List Byte) :
    csWindowFrom c s i token = true
      ↔ ∀ j (h : j < token.length), csSlot c s ((i + j) % (s.rb (.inner c)).capacity) = token[j] := by
  induction token generalizing i with
  | nil => simp [csWindowFrom]
  | cons b token ih =>
    simp only [csWindowFrom, Bool.and_eq_true, beq_iff_eq, ih]
    constructor
    · rintro ⟨h0, h1⟩ j hj
      cases j with
      | zero => simpa using h0
      | succ j =>
        have := h1 j (by simpa using hj)
        simpa [Nat.add_assoc, Nat.add_comm 1] using this
    · intro h
      refine ⟨h 0 (by simp), fun j hj => ?_⟩
      have := h (j + 1) (by simpa using hj)
      simpa [Nat.add_assoc, Nat.add_comm 1] using this

theorem csWindowFrom_congr {s t : State} (c : CsPort) (i : Nat) (token : List Byte)
    (h1 : (t.rb (.inner c)).capacity = (s.rb (.inner c)).capacity) (h2 : ∀ j, csSlot c t j = csSlot c s j) :
    csWindowFrom c t i token = csWindowFrom c s i token := by
  induction token generalizing i with
  | nil => rfl
  | cons b token ih => simp [csWindowFrom, ih, h1, h2]

/-- The comparison of a match, in terms of the state before the drain. -/
theorem csMatchToken_find (c : CsPort) (token : List Byte) (shift : Nat) (s : State) :
    csFindToken c token shift (csDrain c s)
      = if (s.cs c).lockout ≤ (s.rb (.inner c)).count ∧ 1 ≤ (s.rb (.inner c)).capacity
            ∧ csWindowFrom c s (windowStart (s.rb (.inner c)) shift token.length) token = true then
          some (windowStart (s.rb (.inner c)) shift token.length)
        else none := by
  rw [csDrain_state]
  have hw : windowStart ((s.taken c (s.rb (.inner c)).count).rb (.inner c)) shift token.length
      = windowStart (s.rb (.inner c)) shift token.length := by simp [windowStart, State.taken]
  have hc : ((s.taken c (s.rb (.inner c)).count).rb (.inner c)).capacity = (s.rb (.inner c)).capacity := by
    simp [State.taken]
  have hl : ((s.taken c (s.rb (.inner c)).count).cs c).lockout = (s.cs c).lockout - (s.rb (.inner c)).count := by
    simp [State.taken]
  unfold csFindToken
  rw [hw, hc, hl, csWindowFrom_congr (s := s) c _ token hc (fun j => csSlot_taken c s _ j)]
  by_cases h1 : (s.cs c).lockout ≤ (s.rb (.inner c)).count
  · by_cases h2 : 1 ≤ (s.rb (.inner c)).capacity
    · simp [h1, h2, Nat.sub_eq_zero_of_le h1]
    · simp [h2]
  · have : (s.cs c).lockout - (s.rb (.inner c)).count ≠ 0 := by omega
    simp [h1, this]

/-! ### The digit loop -/

theorem csFront_none (c : CsPort) (s : State) (h : (s.rb (.inner c)).count = 0) : csFront c s = none := by
  simp [csFront, h]

theorem csFront_unread (c : CsPort) (s : State) (h : (s.rb (.inner c)).Ok) : csFront c s = (s.unread c).head? := by
  by_cases h0 : (s.rb (.inner c)).count = 0
  · rw [csFront_none c s h0, State.unread_nil s c h0]; rfl
  · rw [State.unread_cons s c h0 h]; simp [csFront, h0]

/-- The digits at the front of the stream, all of them, and nothing more. -/
theorem csDigits_state (c : CsPort) (fuel n : Nat) (v : Word32) (s : State) (h : (s.rb (.inner c)).Ok)
    (hf : (s.rb (.inner c)).count ≤ fuel) :
    csDigits c fuel n v s
      = ((n + ((s.unread c).takeWhile isDigit).length, ((s.unread c).takeWhile isDigit).foldl pushDigit v),
         s.taken c ((s.unread c).takeWhile isDigit).length) := by
  induction fuel generalizing n v s with
  | zero =>
    have h0 : (s.rb (.inner c)).count = 0 := by omega
    simp [csDigits, State.unread_nil s c h0]
  | succ fuel ih =>
    by_cases h0 : (s.rb (.inner c)).count = 0
    · simp [csDigits, csFront_none c s h0, State.unread_nil s c h0]
    · rw [State.unread_cons s c h0 h]
      simp only [csDigits, csFront, h0, if_false, csGet_some c s h0]
      by_cases hd : isDigit (csSlot c s (s.rb (.inner c)).readIndex) = true
      · rw [if_pos hd, ih _ _ _ (State.taken_ok s c 1 h (by omega)) (by simp; omega)]
        simp only [List.takeWhile_cons, hd, if_true, List.length_cons, List.foldl_cons, State.taken_taken]
        simp [Nat.add_assoc, Nat.add_comm]
      · simp [hd]

/-- `CS.MATCH_ASCII_UINT` without its gate. -/
theorem csMatchUint_state (c : CsPort) (s : State) (h : (s.rb (.inner c)).Ok) :
    csMatchUint c s
      = (if (s.unread c).takeWhile isDigit = [] then none else some (((s.unread c).takeWhile isDigit).foldl pushDigit 0),
         s.taken c ((s.unread c).takeWhile isDigit).length) := by
  unfold csMatchUint
  rw [csDigits_state c _ 0 0 s h (Nat.le_refl _)]
  simp only [Nat.zero_add, List.length_eq_zero_iff]

end Sys2Proof.Machine
end

