-- ==== Sys2Proof/Laws/Keeps.lean ====
section
/-! SUPPORT. What every operation keeps: a property of states that each primitive change keeps is kept by every meaning and
every step. The primitives are listed once, in `Stable`, with what their callers guarantee. -/

namespace Sys2Proof.Machine

/-- A property that every primitive change of the state keeps. -/
structure Stable (P : State → Prop) : Prop where
  result : ∀ s r, P s → P (s.setResult r)
  requests : ∀ s rs, P s → P (s.setRequests rs)
  agenda : ∀ s es, P s → P (s.setAgenda es)
  phase : ∀ s p, P s → P (s.setPhase p)
  periph : ∀ s k sig, P s → P (s.setPeriph k sig)
  lines : ∀ s b i, P s → P (s.setLines b i)
  select : ∀ s b, P s → P (s.setSelect b)
  emit : ∀ s e, P s → P (s.emit e)
  resetN : ∀ s b, P s → P (s.setResetN b)
  mode : ∀ s m, P s → P (s.setMode m)
  radioConfig : ∀ s w b, P s → P (s.setRadioConfig w b)
  txie : ∀ s k b, P s → P (s.setTxie k b)
  rxie : ∀ s k b, P s → P (s.setRxie k b)
  errEn : ∀ s k b, P s → P (s.setErrEn k b)
  fresh : ∀ s k b, P s → P (s.setStatus k { txClass := .none, rxClass := .none, lastError := .none, enabled := b })
  txClass : ∀ s k c, P s → P (s.setTxClass k c)
  rxClass : ∀ s k c, P s → P (s.setRxClass k c)
  enabled : ∀ s k b, P s → P (s.setEnabled k b)
  ackError : ∀ s k, P s → P (s.setLastError k .none)
  error : ∀ s k (sig : PeriphIn), (sig.seenBy (linkKind k)).anyErr = true → P s →
    P (s.setLastError k (sig.seenBy (linkKind k)).classify)
  bind : ∀ s p b (c : Word32), bindable b c = true → P s → P (rbBind p b c.toNat s)
  clear : ∀ s p, P s → P (rbClear p s)
  put : ∀ s p v, P s → P (rbPut p v s).2
  get : ∀ s p, P s → P (rbGet p s).2
  shift : ∀ s p n fwd, P s → P (rbShift p n fwd s)
  lockoutOne : ∀ s c, P s → P (s.setLockout c 1)
  lockoutDown : ∀ s c, P s → P (s.setLockout c ((s.cs c).lockout - 1))
  lockoutMatch : ∀ s c n, n < 256 → P s → P (s.setLockout c (1 + n))
  erase : ∀ s c i, P s → P (s.writeSlot (.inner c) i 0)
  store : ∀ s r i v, P s → P (applyStore r i v s)
  storeWide : ∀ s r i v, P s → P (applyStoreWide r i v s)

/-- A property of where a sequence of units ends, done or hanging. -/
def Res.Holds {α : Type} (P : State → Prop) : Res α → Prop
  | .done _ s => P s
  | .hung s => P s

theorem Res.Holds.bind {α β : Type} {P : State → Prop} {r : Res α} {f : α → State → Res β} (h : r.Holds P)
    (hf : ∀ a s, P s → (f a s).Holds P) : (r.bind f).Holds P := by
  cases r with
  | done a s => exact hf a s h
  | hung s => exact h

/-- A property of the next state, where there is one. -/
def NextHolds (P : State → Prop) (o : Out) : Prop := ∀ t, o = .next t → P t

theorem NextHolds.answer {P : State → Prop} (hP : Stable P) (r : Result) (s : State) (h : P s) :
    NextHolds P (answer r s) := by
  intro t ht
  cases ht
  exact hP.result s r h

theorem NextHolds.outcome {α : Type} {P : State → Prop} (hP : Stable P) (r : Res α) (f : α → Result) (h : r.Holds P) :
    NextHolds P (r.outcome f) := by
  cases r with
  | done a s => exact NextHolds.answer hP _ s h
  | hung s => intro t ht; cases ht; exact h

namespace Stable

variable {P : State → Prop} (hP : Stable P)
include hP

theorem bindNone (s : State) (p : RbPort) (h : P s) : P (rbBind p none 0 s) := hP.bind s p none 0 rfl h

theorem gateDisable (g : Gate) (s : State) (h : P s) : P (gateDisable g s) := by
  cases g with
  | noop => exact h
  | rxGate k => exact hP.rxie s k _ h
  | txGate k => exact hP.txie s k _ h

theorem gateEnable (g : Gate) (s : State) (h : P s) : P (gateEnable g s) := by
  cases g with
  | noop => exact h
  | rxGate k => exact hP.rxie s k _ h
  | txGate k => exact hP.txie s k _ h

theorem underGate {α : Type} (g : Gate) (unit : State → α × State) (s : State) (hu : ∀ s, P s → P (unit s).2) (h : P s) :
    P (underGate g unit s).2 := hP.gateEnable g _ (hu _ (hP.gateDisable g s h))

theorem csBind (c : CsPort) (b : Option Ref) (n : Word32) (s : State) (hb : bindable b n = true) (h : P s) :
    P (csBind c b n.toNat s) := hP.lockoutOne _ c (hP.bind s _ b n hb h)

theorem csClear (c : CsPort) (s : State) (h : P s) : P (csClear c s) := hP.lockoutOne _ c (hP.clear s _ h)

theorem csGet (c : CsPort) (s : State) (h : P s) : P (csGet c s).2 := by
  have hg := hP.get s (.inner c) h
  unfold Machine.csGet
  split
  · next heq => rw [heq] at hg; exact hg
  · next heq => rw [heq] at hg; exact hP.lockoutDown _ c hg

theorem csPut (c : CsPort) (b : Byte) (s : State) (h : P s) : P (csPut c b s).2 := hP.put s _ _ h

theorem csGetMany (c : CsPort) (n : Nat) (s : State) (h : P s) : P (csGetMany c n s) := by
  induction n generalizing s with
  | zero => exact h
  | succ n ih => exact ih _ (hP.csGet c s h)

theorem csDrain (c : CsPort) (s : State) (h : P s) : P (csDrain c s) := hP.csGetMany c _ s h

theorem csMatchToken (c : CsPort) (token : List Byte) (n : Nat) (mv : Bool) (s : State) (hn : n < 256) (h : P s) :
    P (csMatchToken c token n mv s).2 := by
  have hd := hP.csDrain c s h
  unfold Machine.csMatchToken
  split
  · exact hd
  · unfold csAccept
    simp only
    split
    · exact hP.shift _ _ _ _ (hP.lockoutMatch _ c n hn hd)
    · exact hP.lockoutMatch _ c n hn hd

theorem csDigits (c : CsPort) (fuel n : Nat) (v : Word32) (s : State) (h : P s) : P (csDigits c fuel n v s).2 := by
  induction fuel generalizing n v s with
  | zero => exact h
  | succ fuel ih =>
    unfold Machine.csDigits
    split
    · exact h
    · split
      · exact ih _ _ _ (hP.csGet c s h)
      · exact h

theorem csMatchUint (c : CsPort) (s : State) (h : P s) : P (csMatchUint c s).2 := hP.csDigits c _ _ _ s h

theorem csDelimiter (c : CsPort) (d : Byte) (v : Word32) (pos : Nat) (s : State) (h : P s) :
    P (csDelimiter c d v pos s).2 := by
  unfold Machine.csDelimiter
  split
  · exact hP.csGet c s h
  · exact hP.erase s c pos h

theorem takeInterrupt (k : LinkId) (s : State) (h : P s) : P (takeInterrupt k s) := by
  have ht : P (handlerTransmit k (s.sample k) s) := by
    have hg := hP.get s (.tx k) h
    unfold handlerTransmit
    split
    · split
      · next heq => rw [heq] at hg; exact hP.txie _ k _ (hP.txClass _ k _ hg)
      · next heq => rw [heq] at hg; exact hP.txClass _ k _ (hP.emit _ _ hg)
    · exact h
  unfold Machine.takeInterrupt returnFromInterrupt handlerReceive
  split
  · next herr =>
    simp only [Bool.and_eq_true] at herr
    exact hP.rxClass _ k _ (hP.error _ k _ herr.2 ht)
  · split
    · split
      · exact hP.rxie _ k _ (hP.rxClass _ k _ ht)
      · exact hP.rxClass _ k _ (hP.csPut _ _ _ (hP.emit _ _ ht))
    · exact ht

theorem dlcTransmit (k : LinkId) (b : Byte) (s : State) (h : P s) : P (dlcTransmit k b s).2 := by
  unfold Machine.dlcTransmit
  split
  · exact h
  · exact hP.underGate _ _ s (fun s h => hP.put s _ _ h) h

theorem dlcReceive (k : LinkId) (s : State) (h : P s) : P (dlcReceive k s).2 := by
  unfold Machine.dlcReceive
  split
  · exact hP.underGate _ _ s (fun s h => hP.csGet _ s h) h
  · exact h

/-! ### The schedule -/

theorem applyEvent (x : Option LinkId) (e : Event) (s : State) (h : P s) : P (applyEvent x e s) := by
  cases e with
  | app => exact h
  | periph k sig => exact hP.periph s k sig h
  | lines b i => exact hP.lines s b i h
  | isr k =>
    simp only [Machine.applyEvent]
    split
    · exact hP.takeInterrupt k s h
    · exact h
  | store r i v => exact h
  | storeWide r i v => exact h

theorem applyBetween (e : Event) (s : State) (h : P s) : P (applyBetween e s) := by
  cases e with
  | app => exact h
  | periph k sig => exact hP.periph s k sig h
  | lines b i => exact hP.lines s b i h
  | isr k => exact hP.applyEvent none (.isr k) s h
  | store r i v => exact hP.store s r i v h
  | storeWide r i v => exact hP.storeWide s r i v h

theorem serve (x : Option LinkId) (es : List Event) (s : State) (h : P s) : P (serve x es s) := by
  induction es generalizing s with
  | nil => exact hP.agenda s _ h
  | cons e es ih =>
    cases e with
    | app => exact hP.agenda s _ h
    | periph k sig => exact ih _ (hP.applyEvent x (.periph k sig) s h)
    | lines b i => exact ih _ (hP.applyEvent x (.lines b i) s h)
    | isr k => exact ih _ (hP.applyEvent x (.isr k) s h)
    | store r i v => exact ih _ (hP.applyEvent x (.store r i v) s h)
    | storeWide r i v => exact ih _ (hP.applyEvent x (.storeWide r i v) s h)

theorem point (s : State) (h : P s) : P (point s) := hP.serve none _ s h

theorem waitUntil (x : Option LinkId) (w : Wait) (s : State) (h : P s) : (waitUntil x w s).Holds P := by
  have hp : P (pointExcluding x s) := hP.serve x _ s h
  unfold Machine.waitUntil
  generalize (pointExcluding x s).agenda = es
  revert hp
  generalize pointExcluding x s = u
  intro hu
  induction es generalizing u with
  | nil =>
    unfold waitLoop
    split
    · exact hP.agenda u _ hu
    · exact hP.phase _ _ (hP.agenda u _ hu)
  | cons e es ih =>
    unfold waitLoop
    split
    · exact hP.agenda u _ hu
    · exact ih _ (hP.applyEvent x e u hu)

/-! ### Composed operations -/

theorem paramAttempts (c : CsPort) (token : List Byte) (g : Gate) (n i : Nat) (s : State) (hn : i + n ≤ 256) (h : P s) :
    P (paramAttempts c token g n i s).2 := by
  induction n generalizing i s with
  | zero => exact h
  | succ n ih =>
    have hu : ∀ s, P s → P (Machine.csMatchToken c token i true s).2 := fun s h =>
      hP.csMatchToken c token i true s (by omega) h
    have h1 : P (Machine.underGate g (Machine.csMatchToken c token i true) (if i = 1 then s else Machine.point s)).2 := by
      apply hP.underGate g _ _ hu
      split
      · exact h
      · exact hP.point s h
    unfold Machine.paramAttempts
    simp only
    split
    · exact h1
    · exact ih _ _ (by omega) h1

theorem csMatchParam (c : CsPort) (token : List Byte) (d m : Byte) (g : Gate) (s : State) (h : P s) :
    P (csMatchParam c token d m.toNat g s).2 := by
  have hm := m.isLt
  have h1 := hP.paramAttempts c token g m.toNat 1 s (by omega) h
  unfold Machine.csMatchParam
  simp only
  split
  · exact h1
  · unfold paramRest
    have h2 := hP.underGate g (Machine.csMatchUint c) _ (fun s h => hP.csMatchUint c s h) (hP.point _ h1)
    simp only
    split
    · exact h2
    · split
      · exact h2
      · exact hP.underGate g _ _ (fun s h => hP.csDelimiter c d _ _ s h) (hP.point _ h2)

theorem transmitAll (k : LinkId) (first : Bool) (data : List Byte) (s : State) (h : P s) :
    P (transmitAll k first data s).2 := by
  induction data generalizing first s with
  | nil => exact h
  | cons b data ih =>
    have h1 : P (Machine.dlcTransmit k b (if first then s else Machine.point s)).2 := by
      apply hP.dlcTransmit
      split
      · exact h
      · exact hP.point s h
    unfold Machine.transmitAll
    simp only
    generalize Machine.dlcTransmit k b (if first then s else Machine.point s) = r at h1 ⊢
    split
    · exact ih _ _ h1
    · exact h1

theorem driveSelect (b : Bool) (s : State) (h : P s) : P (driveSelect b s) := hP.emit _ _ (hP.select s b h)

theorem clockByte (b : Byte) (s : State) (h : P s) : (clockByte b s).Holds P :=
  (hP.waitUntil _ _ s h).bind fun _ _ h => (hP.waitUntil _ _ _ (hP.emit _ _ h)).bind fun _ _ h => hP.emit _ _ h

theorem commandPhase (out : List Byte) (s : State) (h : P s) : (commandPhase out s).Holds P := by
  induction out generalizing s with
  | nil => exact h
  | cons b out ih => exact (hP.clockByte b s h).bind fun _ _ h => (ih _ h).bind fun _ _ h => h

theorem responsePhase (n : Nat) (s : State) (h : P s) : (responsePhase n s).Holds P := by
  induction n generalizing s with
  | zero => exact h
  | succ n ih =>
    unfold Machine.responsePhase
    split
    · exact h
    · exact (hP.clockByte _ s h).bind fun _ _ h => ih _ (hP.csPut _ _ _ h)

theorem hostTransaction (out : List Byte) (n : Nat) (s : State) (h : P s) : (hostTransaction out n s).Holds P := by
  unfold Machine.hostTransaction
  split
  · exact (hP.commandPhase out _ (hP.driveSelect _ s h)).bind fun _ _ h => (hP.responsePhase n _ h).bind fun _ _ h =>
      hP.emit _ _ (hP.driveSelect _ _ h)
  · exact h

theorem exchange (f : Frame) (s : State) (h : P s) : (exchange f s).Holds P :=
  (hP.waitUntil _ _ s h).bind fun _ _ h => hP.hostTransaction _ _ _ h

theorem exchangeAll (fs : List Frame) (s : State) (h : P s) : (exchangeAll fs s).Holds P := by
  induction fs generalizing s with
  | nil => exact h
  | cons f fs ih => exact (hP.exchange f s h).bind fun _ _ h => ih _ h

theorem takeResponses (n : Nat) (s : State) (h : P s) : P (takeResponses n s).2 := by
  induction n generalizing s with
  | zero => exact h
  | succ n ih => exact ih _ (hP.dlcReceive .s _ (hP.point s h))

theorem patchRegister (a : Word16) (x y : Byte) (s : State) (h : P s) : (patchRegister a x y s).Holds P :=
  (hP.exchange _ s h).bind fun _ _ h => (hP.exchange _ _ (hP.takeResponses 1 _ h)).bind fun _ _ h => h

theorem readAndClearIrq (s : State) (h : P s) : (readAndClearIrq s).Holds P :=
  (hP.exchange _ s h).bind fun _ _ h => (hP.exchange _ _ (hP.takeResponses 3 _ h)).bind fun _ _ h => h

theorem standbyFirst (s : State) (h : P s) : (standbyFirst s).Holds P := by
  unfold Machine.standbyFirst
  split
  · exact hP.exchangeAll _ s h
  · exact h

theorem moveByte (s : State) (h : P s) : P (moveByte s) := by
  have h1 := hP.dlcReceive .s _ (hP.point s h)
  unfold Machine.moveByte
  simp only
  split
  · exact hP.csPut _ _ _ (hP.point _ h1)
  · exact h1

theorem moveBytes (n : Nat) (s : State) (h : P s) : P (moveBytes n s) := by
  induction n generalizing s with
  | zero => exact h
  | succ n ih => exact ih _ (hP.moveByte s h)

theorem streamPayload (off len : Byte) (s : State) (h : P s) : (streamPayload off len s).Holds P :=
  (hP.exchange _ s h).bind fun _ _ h => hP.moveBytes _ _ (hP.point _ h)

theorem driveReset (b : Bool) (s : State) (h : P s) : P (driveReset b s) := hP.emit _ _ (hP.resetN s b h)

theorem configureRadio (c : RadioConfig) (s : State) (h : P s) : (configureRadio c s).Holds P :=
  (hP.exchangeAll _ s h).bind fun _ _ h => (hP.patchRegister _ _ _ _ h).bind fun _ _ h =>
    (hP.exchangeAll _ _ h).bind fun _ _ h => (hP.patchRegister _ _ _ _ h).bind fun _ _ h =>
      (hP.exchangeAll _ _ h).bind fun _ _ h => hP.mode _ _ h

theorem runRadio (m : RadioMode) (f : Frame) (s : State) (h : P s) : (runRadio m f s).Holds P :=
  (hP.exchange f _ (hP.mode s m h)).bind fun _ _ h => (hP.waitUntil _ _ _ h).bind fun _ _ h =>
    hP.readAndClearIrq _ (hP.mode _ _ h)

theorem radioTransmit (payload : List Byte) (t : Word32) (s : State) (h : P s) : (radioTransmit payload t s).Holds P :=
  (hP.standbyFirst s h).bind fun _ _ h => (hP.exchange _ _ h).bind fun _ _ h => (hP.exchange _ _ h).bind fun _ _ h =>
    (hP.runRadio _ _ _ h).bind fun _ _ h => h

theorem fetchPayload (s : State) (h : P s) : (fetchPayload s).Holds P :=
  (hP.exchange _ s h).bind fun _ _ h => hP.streamPayload _ _ _ (hP.takeResponses 3 _ h)

theorem receiveResult (w : Word16) (s : State) (h : P s) : (receiveResult w s).Holds P := by
  unfold Machine.receiveResult
  split
  · exact h
  · exact (hP.fetchPayload s h).bind fun _ _ h => h
  · exact h
  · exact h

theorem radioReceive (t : Word32) (s : State) (h : P s) : (radioReceive t s).Holds P :=
  (hP.standbyFirst s h).bind fun _ _ h => (hP.exchange _ _ h).bind fun _ _ h => (hP.runRadio _ _ _ h).bind fun _ _ h =>
    hP.receiveResult _ _ h

theorem linkUp (k : LinkId) (cfg : PeriphConfig) (tb : Option Ref) (tc : Word32) (rb : Option Ref) (rc : Word32) (s : State)
    (ht : bindable tb tc = true) (hr : bindable rb rc = true) (h : P s) : P (linkUp k cfg tb tc.toNat rb rc.toNat s) :=
  hP.fresh _ k _ (hP.rxie _ k _ (hP.errEn _ k _ (hP.csBind _ rb rc _ hr (hP.bind _ _ tb tc ht (hP.emit s _ h)))))

theorem linkDown (k : LinkId) (s : State) (h : P s) : P (linkDown k s) := by
  have h1 := hP.csClear (.rx k) _ (hP.clear s (.tx k) h)
  have h2 := hP.emit _ (.cfgTeardown k) (hP.rxie _ k false (hP.txie _ k false h1))
  exact hP.enabled _ k _ (hP.csBind (.rx k) none 0 _ rfl (hP.bindNone _ (.tx k) h2))

/-! ### Meanings and steps -/

theorem exchange_outcome (f : Frame) (s : State) (h : P s) : NextHolds P ((Machine.exchange f s).outcome .byte) :=
  .outcome hP _ _ (hP.exchange f s h)

/-- Every meaning keeps what the primitives keep. -/
theorem exec (i : Instr) (s : State) (h : P s) : NextHolds P (exec i s) := by
  cases i
  case rbReset p b c =>
    simp only [Machine.exec, execRbReset]
    split
    · next hb => exact .answer hP _ _ (hP.bind s p b c hb h)
    · exact .answer hP _ _ h
  case rbClear p => exact .answer hP _ _ (hP.clear s p h)
  case rbPut p v =>
    simp only [Machine.exec, execRbPut]
    split
    · exact .answer hP _ _ (hP.put s p v h)
    · exact .answer hP _ _ h
  case rbGet p => exact .answer hP _ _ (hP.get s p h)
  case rbPeek p => exact .answer hP _ _ h
  case rbRawView p => exact .answer hP _ _ h
  case rbShiftReadPointer p n fwd => exact .answer hP _ _ (hP.shift s p _ fwd h)
  case rbCount p => exact .answer hP _ _ h
  case rbState p => exact .answer hP _ _ h
  case csReset c b n =>
    simp only [Machine.exec, execCsReset]
    split
    · next hb => exact .answer hP _ _ (hP.csBind c b n s hb h)
    · exact .answer hP _ _ h
  case csClear c => exact .answer hP _ _ (hP.csClear c s h)
  case csPutByte c v g => exact .answer hP _ _ (hP.underGate g _ s (fun s h => hP.csPut c v s h) h)
  case csGetByte c g => exact .answer hP _ _ (hP.underGate g _ s (fun s h => hP.csGet c s h) h)
  case csMatchToken c t sh mv g =>
    exact .answer hP _ _ (hP.underGate g _ s (fun s h => hP.csMatchToken c t _ mv s sh.isLt h) h)
  case csMatchAsciiUint c g => exact .answer hP _ _ (hP.underGate g _ s (fun s h => hP.csMatchUint c s h) h)
  case csMatchParam c t d m g => exact .answer hP _ _ (hP.csMatchParam c t d m g s h)
  case csCount c => exact .answer hP _ _ h
  case dlcInit k cfg tb tc rb rc =>
    simp only [Machine.exec, execDlcInit]
    split
    · exact .answer hP _ _ h
    · split
      · next hb =>
        simp only [Bool.and_eq_true] at hb
        exact .answer hP _ _ (hP.linkUp k cfg tb tc rb rc s hb.1 hb.2 h)
      · exact .answer hP _ _ h
  case dlcDeinit k =>
    simp only [Machine.exec, execDlcDeinit]
    split
    · exact .answer hP _ _ (hP.linkDown k s h)
    · exact .answer hP _ _ h
  case dlcOnInterrupt k => exact .answer hP _ _ (hP.takeInterrupt k s h)
  case dlcTransmit k v => exact .answer hP _ _ (hP.dlcTransmit k v s h)
  case dlcReceive k => exact .answer hP _ _ (hP.dlcReceive k s h)
  case dlcTransmitPacket k d => exact .answer hP _ _ (hP.transmitAll k _ d s h)
  case dlcTransmitString k d =>
    simp only [Machine.exec, execDlcTransmitString]
    split
    · exact .answer hP _ _ (hP.transmitAll k _ d s h)
    · exact .answer hP _ _ h
  case dlcTransmitUint k v => exact .answer hP _ _ (hP.transmitAll k _ _ s h)
  case dlcMatchToken k t sh mv =>
    simp only [Machine.exec, execDlcMatchToken]
    split
    · exact .answer hP _ _ (hP.underGate _ _ s (fun s h => hP.csMatchToken _ t _ mv s sh.isLt h) h)
    · exact .answer hP _ _ h
  case dlcMatchAsciiUint k =>
    simp only [Machine.exec, execDlcMatchAsciiUint]
    split
    · exact .answer hP _ _ (hP.underGate _ _ s (fun s h => hP.csMatchUint _ s h) h)
    · exact .answer hP _ _ h
  case dlcMatchParam k t d m =>
    simp only [Machine.exec, execDlcMatchParam]
    split
    · exact .answer hP _ _ (hP.csMatchParam _ t d m _ s h)
    · exact .answer hP _ _ h
  case dlcHostTransaction k out n =>
    simp only [Machine.exec, execDlcHostTransaction]
    split
    · exact .outcome hP _ _ (hP.hostTransaction out _ s h)
    · exact .answer hP _ _ h
  case dlcStatus k => exact .answer hP _ _ h
  case dlcAckError k => exact .answer hP _ _ (hP.ackError s k h)
  case dlcAckTxIrq k => exact .answer hP _ _ (hP.txClass s k _ h)
  case dlcAckRxIrq k => exact .answer hP _ _ (hP.rxClass s k _ h)
  case rcInit cfg b c =>
    simp only [Machine.exec, execRcInit]
    split
    · next hb =>
      simp only [Bool.and_eq_true] at hb
      have h0 : P (radioStart cfg b c.toNat s) := hP.radioConfig _ _ _ (hP.csBind .sink b c s hb.2 h)
      have h1 : P (hardReset (Machine.point (radioStart cfg b c.toNat s))) :=
        hP.driveReset true _ (hP.point _ (hP.driveReset false _ (hP.point _ h0)))
      exact .outcome hP _ _ (hP.configureRadio cfg _ h1)
    · exact .answer hP _ _ h
  case rcTransmit d t =>
    simp only [Machine.exec, execRcTransmit]
    split
    · split
      · intro t ht; cases ht
      · split
        · exact .outcome hP _ _ (hP.radioTransmit d t s h)
        · exact .answer hP _ _ h
    · exact .answer hP _ _ h
  case rcReceive t =>
    simp only [Machine.exec, execRcReceive]
    split
    · split
      · intro t ht; cases ht
      · exact .outcome hP _ _ (hP.radioReceive t s h)
    · exact .answer hP _ _ h
  case rcReadByte => exact .answer hP _ _ (hP.underGate _ _ s (fun s h => hP.csGet _ s h) h)
  case rcMatchToken t sh mv =>
    exact .answer hP _ _ (hP.underGate _ _ s (fun s h => hP.csMatchToken _ t _ mv s sh.isLt h) h)
  case rcMatchAsciiUint => exact .answer hP _ _ (hP.underGate _ _ s (fun s h => hP.csMatchUint _ s h) h)
  case rcMatchParam t d m => exact .answer hP _ _ (hP.csMatchParam _ t d m _ s h)
  case rcAvailableCount => exact .answer hP _ _ h
  case spiSetRxMode t =>
    simp only [Machine.exec, execSpiSetRxMode]
    split
    · exact .answer hP _ _ h
    · exact hP.exchange_outcome _ s h
  case spiGetIrqStatus =>
    exact .outcome hP _ _ ((hP.exchange _ s h).bind fun _ _ h => (hP.exchange _ _ h).bind fun _ _ h => h)
  all_goals exact hP.exchange_outcome _ s h

/-- Every step keeps what the primitives keep. -/
theorem step (s : State) (h : P s) : NextHolds P (step s) := by
  have happ : ∀ u, P u → (∀ u', appTurn u = .other u' → P u') ∧ (∀ r u', appTurn u = .request r u' → P u') := by
    intro u hu
    unfold appTurn
    constructor
    · intro u' e
      split at e
      · cases e; exact hu
      · cases e
    · intro r u' e
      split at e
      · cases e
      · cases e; exact hP.requests u _ hu
  have hturn : (∀ u, turn s = .other u → P u) ∧ (∀ r u, turn s = .request r u → P u) := by
    unfold turn
    split
    · exact ⟨fun u e => by cases e; exact h, fun r u e => by cases e⟩
    · exact ⟨fun u e => by cases e; exact hP.applyEvent _ _ _ (hP.agenda s _ h), fun r u e => by cases e⟩
    · exact happ s h
    · exact happ _ (hP.agenda s _ h)
    · exact ⟨fun u e => by cases e; exact hP.applyBetween _ _ (hP.agenda s _ h), fun r u e => by cases e⟩
  intro t ht
  unfold Machine.step at ht
  split at ht
  · next e => cases ht; exact hturn.1 _ e
  · rename_i r u e
    have hu := hturn.2 r u e
    split at ht
    · exact hP.exec _ u hu t ht
    · exact NextHolds.answer hP _ u hu t ht

end Stable

end Sys2Proof.Machine
end

