-- ==== Sys2Proof/Laws/PerInstr.lean ====
section
/-! SUPPORT. One family of laws over every constructor of `Instr`: the first byte the encoder writes is the one the opcode table
gives the row (30_encoding.md R95 to R98), or, for a frame, the opcode member of `ENC` (44_radio_opcodes.md R321 to R338). -/

namespace Sys2Proof.Laws

/-- The row's `op` byte, or the frame's opcode under `e`. -/
def opByte (e : Enc) : Instr → Byte
  | .rbReset _ _ _ => 0x00
  | .rbClear _ => 0x01
  | .rbPut _ _ => 0x02
  | .rbGet _ => 0x03
  | .rbPeek _ => 0x04
  | .rbRawView _ => 0x05
  | .rbShiftReadPointer _ _ _ => 0x06
  | .rbCount _ => 0x07
  | .rbState _ => 0x08
  | .csReset _ _ _ => 0x10
  | .csClear _ => 0x11
  | .csPutByte _ _ _ => 0x12
  | .csGetByte _ _ => 0x13
  | .csMatchToken _ _ _ _ _ => 0x14
  | .csMatchAsciiUint _ _ => 0x15
  | .csMatchParam _ _ _ _ _ => 0x16
  | .csCount _ => 0x17
  | .dlcInit _ _ _ _ _ _ => 0x20
  | .dlcDeinit _ => 0x21
  | .dlcOnInterrupt _ => 0x22
  | .dlcTransmit _ _ => 0x23
  | .dlcReceive _ => 0x24
  | .dlcTransmitPacket _ _ => 0x25
  | .dlcTransmitString _ _ => 0x26
  | .dlcTransmitUint _ _ => 0x27
  | .dlcMatchToken _ _ _ _ => 0x28
  | .dlcMatchAsciiUint _ => 0x29
  | .dlcMatchParam _ _ _ _ => 0x2A
  | .dlcHostTransaction _ _ _ => 0x2B
  | .dlcStatus _ => 0x2C
  | .dlcAckError _ => 0x2D
  | .dlcAckTxIrq _ => 0x2E
  | .dlcAckRxIrq _ => 0x2F
  | .rcInit _ _ _ => 0x30
  | .rcTransmit _ _ => 0x31
  | .rcReceive _ => 0x32
  | .rcReadByte => 0x33
  | .rcMatchToken _ _ _ => 0x34
  | .rcMatchAsciiUint => 0x35
  | .rcMatchParam _ _ _ => 0x36
  | .rcAvailableCount => 0x37
  | .spiStandbyMode _ => e.opStandby
  | .spiSetPacketType _ => e.opSetPacketType
  | .spiSetRfFrequency _ => e.opSetRfFrequency
  | .spiSetPowerAmplifierConfig _ _ _ _ => e.opSetPaConfig
  | .spiSetTxParams _ _ => e.opSetTxParams
  | .spiWriteRegister _ _ => e.opWriteRegister
  | .spiReadRegister _ => e.opReadRegister
  | .spiSetBufferBaseAddress _ _ => e.opSetBufferBase
  | .spiSetModulationParams _ _ _ _ => e.opSetModulationParams
  | .spiSetPacketParams _ _ _ _ _ => e.opSetPacketParams
  | .spiSetDioIrqParams _ _ => e.opSetDioIrqParams
  | .spiWriteBuffer _ _ => e.opWriteBuffer
  | .spiSetTxMode _ => e.opSetTx
  | .spiSetRxMode _ => e.opSetRx
  | .spiGetIrqStatus => e.opGetIrqStatus
  | .spiClearIrq => e.opClearIrq
  | .spiGetRxBufferStatus => e.opGetRxBufferStatus
  | .spiReadBuffer _ _ => e.opReadBuffer

/-- Under every choice of parameters the first byte written for `i` is its row's. -/
def OpByte.Statement (i : Instr) : Prop := ∀ ps : Params, (encode ps i).head? = some (opByte ps.enc i)

/-! One lemma per constructor. -/

theorem OpByte.rbReset (p : RbPort) (backing : Option Ref) (capacity : Word32) :
    OpByte.Statement (.rbReset p backing capacity) := fun _ => rfl
theorem OpByte.rbClear (p : RbPort) : OpByte.Statement (.rbClear p) := fun _ => rfl
theorem OpByte.rbPut (p : RbPort) (value : Nat) : OpByte.Statement (.rbPut p value) := fun _ => rfl
theorem OpByte.rbGet (p : RbPort) : OpByte.Statement (.rbGet p) := fun _ => rfl
theorem OpByte.rbPeek (p : RbPort) : OpByte.Statement (.rbPeek p) := fun _ => rfl
theorem OpByte.rbRawView (p : RbPort) : OpByte.Statement (.rbRawView p) := fun _ => rfl
theorem OpByte.rbShiftReadPointer (p : RbPort) (amount : Word32) (forward : Bool) : OpByte.Statement (.rbShiftReadPointer p amount forward) := fun _ => rfl
theorem OpByte.rbCount (p : RbPort) : OpByte.Statement (.rbCount p) := fun _ => rfl
theorem OpByte.rbState (p : RbPort) : OpByte.Statement (.rbState p) := fun _ => rfl
theorem OpByte.csReset (c : CsPort) (backing : Option Ref) (capacity : Word32) :
    OpByte.Statement (.csReset c backing capacity) := fun _ => rfl
theorem OpByte.csClear (c : CsPort) : OpByte.Statement (.csClear c) := fun _ => rfl
theorem OpByte.csPutByte (c : CsPort) (value : Byte) (gate : Gate) : OpByte.Statement (.csPutByte c value gate) := fun _ => rfl
theorem OpByte.csGetByte (c : CsPort) (gate : Gate) : OpByte.Statement (.csGetByte c gate) := fun _ => rfl
theorem OpByte.csMatchToken (c : CsPort) (token : List Byte) (shift : Byte) (moveCursor : Bool) (gate : Gate) :
    OpByte.Statement (.csMatchToken c token shift moveCursor gate) := fun _ => rfl
theorem OpByte.csMatchAsciiUint (c : CsPort) (gate : Gate) : OpByte.Statement (.csMatchAsciiUint c gate) := fun _ => rfl
theorem OpByte.csMatchParam (c : CsPort) (token : List Byte) (delimiter : Byte) (maxDigits : Byte) (gate : Gate) :
    OpByte.Statement (.csMatchParam c token delimiter maxDigits gate) := fun _ => rfl
theorem OpByte.csCount (c : CsPort) : OpByte.Statement (.csCount c) := fun _ => rfl
theorem OpByte.dlcInit (k : LinkId) (config : PeriphConfig) (txBacking : Option Ref) (txCapacity : Word32) (rxBacking : Option Ref) (rxCapacity : Word32) :
    OpByte.Statement (.dlcInit k config txBacking txCapacity rxBacking rxCapacity) := fun _ => rfl
theorem OpByte.dlcDeinit (k : LinkId) : OpByte.Statement (.dlcDeinit k) := fun _ => rfl
theorem OpByte.dlcOnInterrupt (k : LinkId) : OpByte.Statement (.dlcOnInterrupt k) := fun _ => rfl
theorem OpByte.dlcTransmit (k : LinkId) (value : Byte) : OpByte.Statement (.dlcTransmit k value) := fun _ => rfl
theorem OpByte.dlcReceive (k : LinkId) : OpByte.Statement (.dlcReceive k) := fun _ => rfl
theorem OpByte.dlcTransmitPacket (k : LinkId) (data : List Byte) : OpByte.Statement (.dlcTransmitPacket k data) := fun _ => rfl
theorem OpByte.dlcTransmitString (k : LinkId) (data : List Byte) : OpByte.Statement (.dlcTransmitString k data) := fun _ => rfl
theorem OpByte.dlcTransmitUint (k : LinkId) (value : Word32) : OpByte.Statement (.dlcTransmitUint k value) := fun _ => rfl
theorem OpByte.dlcMatchToken (k : LinkId) (token : List Byte) (shift : Byte) (moveCursor : Bool) :
    OpByte.Statement (.dlcMatchToken k token shift moveCursor) := fun _ => rfl
theorem OpByte.dlcMatchAsciiUint (k : LinkId) : OpByte.Statement (.dlcMatchAsciiUint k) := fun _ => rfl
theorem OpByte.dlcMatchParam (k : LinkId) (token : List Byte) (delimiter : Byte) (maxDigits : Byte) :
    OpByte.Statement (.dlcMatchParam k token delimiter maxDigits) := fun _ => rfl
theorem OpByte.dlcHostTransaction (k : LinkId) (out : List Byte) (numRead : Word32) : OpByte.Statement (.dlcHostTransaction k out numRead) := fun _ => rfl
theorem OpByte.dlcStatus (k : LinkId) : OpByte.Statement (.dlcStatus k) := fun _ => rfl
theorem OpByte.dlcAckError (k : LinkId) : OpByte.Statement (.dlcAckError k) := fun _ => rfl
theorem OpByte.dlcAckTxIrq (k : LinkId) : OpByte.Statement (.dlcAckTxIrq k) := fun _ => rfl
theorem OpByte.dlcAckRxIrq (k : LinkId) : OpByte.Statement (.dlcAckRxIrq k) := fun _ => rfl
theorem OpByte.rcInit (config : RadioConfig) (sinkBacking : Option Ref) (sinkCapacity : Word32) :
    OpByte.Statement (.rcInit config sinkBacking sinkCapacity) := fun _ => rfl
theorem OpByte.rcTransmit (payload : List Byte) (timeout : Word32) : OpByte.Statement (.rcTransmit payload timeout) := fun _ => rfl
theorem OpByte.rcReceive (timeout : Word32) : OpByte.Statement (.rcReceive timeout) := fun _ => rfl
theorem OpByte.rcReadByte : OpByte.Statement .rcReadByte := fun _ => rfl
theorem OpByte.rcMatchToken (token : List Byte) (shift : Byte) (moveCursor : Bool) :
    OpByte.Statement (.rcMatchToken token shift moveCursor) := fun _ => rfl
theorem OpByte.rcMatchAsciiUint : OpByte.Statement .rcMatchAsciiUint := fun _ => rfl
theorem OpByte.rcMatchParam (token : List Byte) (delimiter : Byte) (maxDigits : Byte) :
    OpByte.Statement (.rcMatchParam token delimiter maxDigits) := fun _ => rfl
theorem OpByte.rcAvailableCount : OpByte.Statement .rcAvailableCount := fun _ => rfl
theorem OpByte.spiStandbyMode (cfg : Byte) : OpByte.Statement (.spiStandbyMode cfg) := fun _ => rfl
theorem OpByte.spiSetPacketType (packetType : Byte) : OpByte.Statement (.spiSetPacketType packetType) := fun _ => rfl
theorem OpByte.spiSetRfFrequency (rf : Word32) : OpByte.Statement (.spiSetRfFrequency rf) := fun _ => rfl
theorem OpByte.spiSetPowerAmplifierConfig (dutyCycle : Byte) (hpMax : Byte) (deviceSel : Byte) (lut : Byte) :
    OpByte.Statement (.spiSetPowerAmplifierConfig dutyCycle hpMax deviceSel lut) := fun _ => rfl
theorem OpByte.spiSetTxParams (power : Byte) (ramp : Byte) : OpByte.Statement (.spiSetTxParams power ramp) := fun _ => rfl
theorem OpByte.spiWriteRegister (addr : Word16) (data : List Byte) : OpByte.Statement (.spiWriteRegister addr data) := fun _ => rfl
theorem OpByte.spiReadRegister (addr : Word16) : OpByte.Statement (.spiReadRegister addr) := fun _ => rfl
theorem OpByte.spiSetBufferBaseAddress (txBase : Byte) (rxBase : Byte) : OpByte.Statement (.spiSetBufferBaseAddress txBase rxBase) := fun _ => rfl
theorem OpByte.spiSetModulationParams (sf : Byte) (bw : Byte) (cr : Byte) (lowDataRate : Bool) :
    OpByte.Statement (.spiSetModulationParams sf bw cr lowDataRate) := fun _ => rfl
theorem OpByte.spiSetPacketParams (preamble : Word16) (header : Byte) (len : Byte) (crc : Bool) (iq : Byte) :
    OpByte.Statement (.spiSetPacketParams preamble header len crc iq) := fun _ => rfl
theorem OpByte.spiSetDioIrqParams (irqMask : Word16) (dio1Mask : Word16) : OpByte.Statement (.spiSetDioIrqParams irqMask dio1Mask) := fun _ => rfl
theorem OpByte.spiWriteBuffer (offset : Byte) (data : List Byte) : OpByte.Statement (.spiWriteBuffer offset data) := fun _ => rfl
theorem OpByte.spiSetTxMode (timeout : Word24) : OpByte.Statement (.spiSetTxMode timeout) := fun _ => rfl
theorem OpByte.spiSetRxMode (timeout : Word24) : OpByte.Statement (.spiSetRxMode timeout) := fun _ => rfl
theorem OpByte.spiGetIrqStatus : OpByte.Statement .spiGetIrqStatus := fun _ => rfl
theorem OpByte.spiClearIrq : OpByte.Statement .spiClearIrq := fun _ => rfl
theorem OpByte.spiGetRxBufferStatus : OpByte.Statement .spiGetRxBufferStatus := fun _ => rfl
theorem OpByte.spiReadBuffer (offset : Byte) (len : Byte) : OpByte.Statement (.spiReadBuffer offset len) := fun _ => rfl

end Sys2Proof.Laws
end

