-- ==== Sys2Proof/Laws/Result.lean ====
section
/-! SUPPORT. Nothing reads the last result record: every operation that a composed request is made of does the same to a state
with another record. So a composed operation may be compared with its parts run as requests of their own. -/

namespace Sys2Proof.Machine

section Setters

variable (s : State) (r : Result)

theorem State.setResult_cs (c : CsPort) : (s.setResult r).cs c = s.cs c := by
  rcases c with _ | (_ | _) | _ <;> rfl

theorem State.setResult_link (k : LinkId) : (s.setResult r).link k = s.link k := by cases k <;> rfl

theorem State.setResult_self : s.setResult s.result = s := rfl

theorem setResult_setAgenda (es : List Event) : (s.setResult r).setAgenda es = (s.setAgenda es).setResult r := rfl

theorem setResult_setMem (m : Memory) : (s.setResult r).setMem m = (s.setMem m).setResult r := rfl

theorem setResult_setWide (m : WideMemory) : (s.setResult r).setWide m = (s.setWide m).setResult r := rfl

theorem setResult_setTainted (rs : List Ref) : (s.setResult r).setTainted rs = (s.setTainted rs).setResult r := rfl

theorem setResult_setFreeTick (n : Nat) : (s.setResult r).setFreeTick n = (s.setFreeTick n).setResult r := rfl

theorem setResult_setLines (b i : Bool) : (s.setResult r).setLines b i = (s.setLines b i).setResult r := rfl

theorem setResult_setPeriph (k : LinkId) (sig : PeriphIn) :
    (s.setResult r).setPeriph k sig = (s.setPeriph k sig).setResult r := by cases k <;> rfl

theorem setResult_emit (e : BusEvent) : (s.setResult r).emit e = (s.emit e).setResult r := rfl

theorem setResult_setRb (p : RbPort) (rb : Rb) : (s.setResult r).setRb p rb = (s.setRb p rb).setResult r := by
  rcases p with _ | (_ | _) | (_ | (_ | _) | _) <;> rfl

theorem setResult_setLockout (c : CsPort) (n : Nat) : (s.setResult r).setLockout c n = (s.setLockout c n).setResult r := by
  rcases c with _ | (_ | _) | _ <;> rfl

theorem setResult_setTxie (k : LinkId) (b : Bool) : (s.setResult r).setTxie k b = (s.setTxie k b).setResult r := by
  cases k <;> rfl

theorem setResult_setRxie (k : LinkId) (b : Bool) : (s.setResult r).setRxie k b = (s.setRxie k b).setResult r := by
  cases k <;> rfl

theorem setResult_setTxClass (k : LinkId) (c : TxClass) :
    (s.setResult r).setTxClass k c = (s.setTxClass k c).setResult r := by cases k <;> rfl

theorem setResult_setRxClass (k : LinkId) (c : RxClass) :
    (s.setResult r).setRxClass k c = (s.setRxClass k c).setResult r := by cases k <;> rfl

theorem setResult_setLastError (k : LinkId) (e : LinkError) :
    (s.setResult r).setLastError k e = (s.setLastError k e).setResult r := by cases k <;> rfl

theorem setResult_sample (k : LinkId) : (s.setResult r).sample k = s.sample k := by cases k <;> rfl

theorem setResult_pending (k : LinkId) : (s.setResult r).pending k = s.pending k := by cases k <;> rfl

theorem setResult_disturb (a : Ref) : (s.setResult r).disturb a = (s.disturb a).setResult r := by
  unfold State.disturb
  rw [State.setResult_tainted]
  by_cases h : s.tainted.contains a
  · rw [if_pos h, if_pos h]; rfl
  · rw [if_neg h, if_neg h]

theorem setResult_byteSlots (p : RbPort) : (s.setResult r).byteSlots p = s.byteSlots p := rfl

theorem setResult_readSlot (p : RbPort) (i : Nat) : (s.setResult r).readSlot p i = s.readSlot p i :=
  State.readSlot_congr p i (by simp) rfl rfl rfl rfl rfl

theorem setResult_writeSlot (p : RbPort) (i v : Nat) :
    (s.setResult r).writeSlot p i v = (s.writeSlot p i v).setResult r := by
  unfold State.writeSlot
  rw [State.setResult_rb]
  split
  · rfl
  · simp only [setResult_disturb, setResult_byteSlots]
    split <;> rfl

end Setters

section Units

variable (s : State) (r : Result)

theorem setResult_rbPut (p : RbPort) (v : Nat) :
    rbPut p v (s.setResult r) = ((rbPut p v s).1, (rbPut p v s).2.setResult r) := by
  unfold rbPut
  rw [State.setResult_rb]
  split
  · rfl
  · simp only [setResult_writeSlot, setResult_setRb]

theorem setResult_rbGet (p : RbPort) : rbGet p (s.setResult r) = ((rbGet p s).1, (rbGet p s).2.setResult r) := by
  unfold rbGet
  rw [State.setResult_rb]
  split
  · rfl
  · simp only [setResult_readSlot, setResult_setRb]

theorem setResult_csGet (c : CsPort) : csGet c (s.setResult r) = ((csGet c s).1, (csGet c s).2.setResult r) := by
  unfold csGet
  rw [setResult_rbGet]
  cases h : rbGet (.inner c) s with
  | mk v t =>
    cases v with
    | none => rfl
    | some v => simp only [State.setResult_cs, setResult_setLockout]

theorem setResult_csGetMany (c : CsPort) (n : Nat) : csGetMany c n (s.setResult r) = (csGetMany c n s).setResult r := by
  induction n generalizing s with
  | zero => rfl
  | succ n ih => simp only [csGetMany, setResult_csGet, ih]

theorem setResult_csDrain (c : CsPort) : csDrain c (s.setResult r) = (csDrain c s).setResult r := by
  unfold csDrain
  rw [State.setResult_rb, setResult_csGetMany]

theorem setResult_csSlot (c : CsPort) (i : Nat) : csSlot c (s.setResult r) i = csSlot c s i := by
  unfold csSlot
  rw [setResult_readSlot]

theorem setResult_csWindowFrom (c : CsPort) (i : Nat) (token : List Byte) :
    csWindowFrom c (s.setResult r) i token = csWindowFrom c s i token := by
  induction token generalizing i with
  | nil => rfl
  | cons b token ih => simp only [csWindowFrom, State.setResult_rb, setResult_csSlot, ih]

theorem setResult_csMatchToken (c : CsPort) (token : List Byte) (shift : Nat) (mv : Bool) :
    csMatchToken c token shift mv (s.setResult r)
      = ((csMatchToken c token shift mv s).1, (csMatchToken c token shift mv s).2.setResult r) := by
  have hf : csFindToken c token shift ((csDrain c s).setResult r) = csFindToken c token shift (csDrain c s) := by
    unfold csFindToken
    simp only [State.setResult_rb, State.setResult_cs, setResult_csWindowFrom]
  unfold csMatchToken
  rw [setResult_csDrain, hf]
  cases csFindToken c token shift (csDrain c s) with
  | none => rfl
  | some start =>
    simp only [csAccept, rbShift, setResult_setLockout, State.setResult_rb, setResult_setRb]
    split <;> rfl

theorem setResult_csFront (c : CsPort) : csFront c (s.setResult r) = csFront c s := by
  unfold csFront
  simp only [State.setResult_rb, setResult_csSlot]

theorem setResult_csDigits (c : CsPort) (fuel n : Nat) (v : Word32) :
    csDigits c fuel n v (s.setResult r) = ((csDigits c fuel n v s).1, (csDigits c fuel n v s).2.setResult r) := by
  induction fuel generalizing n v s with
  | zero => rfl
  | succ fuel ih =>
    simp only [csDigits, setResult_csFront]
    cases csFront c s with
    | none => rfl
    | some b =>
      simp only
      split
      · rw [setResult_csGet]; exact ih _ _ _
      · rfl

theorem setResult_csMatchUint (c : CsPort) :
    csMatchUint c (s.setResult r) = ((csMatchUint c s).1, (csMatchUint c s).2.setResult r) := by
  unfold csMatchUint
  simp only [State.setResult_rb, setResult_csDigits]

theorem setResult_csDelimiter (c : CsPort) (d : Byte) (v : Word32) (pos : Nat) :
    csDelimiter c d v pos (s.setResult r)
      = ((csDelimiter c d v pos s).1, (csDelimiter c d v pos s).2.setResult r) := by
  unfold csDelimiter
  rw [setResult_csFront]
  split
  · rw [setResult_csGet]
  · rw [setResult_writeSlot]

theorem setResult_underGate {α : Type} (g : Gate) (unit : State → α × State)
    (hu : ∀ s, unit (s.setResult r) = ((unit s).1, (unit s).2.setResult r)) :
    underGate g unit (s.setResult r) = ((underGate g unit s).1, (underGate g unit s).2.setResult r) := by
  unfold underGate gateDisable gateEnable
  cases g <;> simp only [setResult_setRxie, setResult_setTxie, hu]

theorem setResult_handlerTransmit (k : LinkId) (sig : PeriphIn) :
    handlerTransmit k sig (s.setResult r) = (handlerTransmit k sig s).setResult r := by
  unfold handlerTransmit
  rw [setResult_rbGet]
  split
  · cases h : rbGet (.tx k) s with
    | mk v t => cases v <;> simp only [setResult_setTxClass, setResult_setTxie, setResult_emit]
  · rfl

theorem setResult_handlerReceive (k : LinkId) (sig : PeriphIn) :
    handlerReceive k sig (s.setResult r) = (handlerReceive k sig s).setResult r := by
  unfold handlerReceive csPut
  simp only [State.setResult_link, State.setResult_rb, setResult_setLastError, setResult_setRxClass, setResult_setRxie,
    setResult_emit, setResult_rbPut]
  by_cases he : ((s.link k).errEn && sig.anyErr) = true
  · rw [if_pos he, if_pos he]
  · rw [if_neg he, if_neg he]
    by_cases hr : sig.rxReady = true
    · rw [if_pos hr, if_pos hr]
      by_cases hf : (s.rb (.inner (.rx k))).isFull = true
      · rw [if_pos hf, if_pos hf]
      · rw [if_neg hf, if_neg hf]
    · rw [if_neg hr, if_neg hr]

theorem setResult_takeInterrupt (k : LinkId) : takeInterrupt k (s.setResult r) = (takeInterrupt k s).setResult r := by
  unfold takeInterrupt returnFromInterrupt
  rw [setResult_sample, setResult_handlerTransmit, setResult_handlerReceive]

theorem setResult_applyEvent (x : Option LinkId) (e : Event) :
    applyEvent x e (s.setResult r) = (applyEvent x e s).setResult r := by
  cases e with
  | app => rfl
  | periph k sig => exact setResult_setPeriph s r k sig
  | lines b i => rfl
  | isr k =>
    simp only [applyEvent, setResult_pending, setResult_takeInterrupt]
    split <;> rfl
  | store a i v => rfl
  | storeWide a i v => rfl

theorem setResult_serve (x : Option LinkId) (es : List Event) : serve x es (s.setResult r) = (serve x es s).setResult r := by
  induction es generalizing s with
  | nil => rfl
  | cons e es ih =>
    cases e with
    | app => rfl
    | _ => simp only [serve, setResult_applyEvent, ih]

/-- A point serves the agenda the same way whatever the last record. -/
theorem setResult_point : point (s.setResult r) = (point s).setResult r := by
  unfold point pointExcluding
  rw [State.setResult_agenda, setResult_serve]

theorem setResult_dlcTransmit (k : LinkId) (b : Byte) :
    dlcTransmit k b (s.setResult r) = ((dlcTransmit k b s).1, (dlcTransmit k b s).2.setResult r) := by
  unfold dlcTransmit
  simp only [State.setResult_link, State.setResult_rb]
  split
  · rfl
  · exact setResult_underGate s r _ _ fun s => setResult_rbPut s r _ _

theorem setResult_paramAttempts (c : CsPort) (token : List Byte) (g : Gate) (n i : Nat) :
    paramAttempts c token g n i (s.setResult r)
      = ((paramAttempts c token g n i s).1, (paramAttempts c token g n i s).2.setResult r) := by
  induction n generalizing i s with
  | zero => rfl
  | succ n ih =>
    have h : underGate g (csMatchToken c token i true) (if i = 1 then s.setResult r else point (s.setResult r))
        = ((underGate g (csMatchToken c token i true) (if i = 1 then s else point s)).1,
          (underGate g (csMatchToken c token i true) (if i = 1 then s else point s)).2.setResult r) := by
      rw [setResult_point]
      split <;> exact setResult_underGate _ r g _ fun s => setResult_csMatchToken s r c token i true
    simp only [paramAttempts, h]
    split
    · rfl
    · exact ih _ _

theorem setResult_transmitAll (k : LinkId) (first : Bool) (data : List Byte) :
    transmitAll k first data (s.setResult r)
      = ((transmitAll k first data s).1, (transmitAll k first data s).2.setResult r) := by
  induction data generalizing first s with
  | nil => rfl
  | cons b data ih =>
    have h : dlcTransmit k b (if first = true then s.setResult r else point (s.setResult r))
        = ((dlcTransmit k b (if first = true then s else point s)).1,
          (dlcTransmit k b (if first = true then s else point s)).2.setResult r) := by
      rw [setResult_point]
      split <;> exact setResult_dlcTransmit _ r k b
    simp only [transmitAll, h, ih]
    generalize (if first = true then s else point s) = p
    cases (dlcTransmit k b p).1 <;> rfl

end Units

end Sys2Proof.Machine
end

