-- ==== Sys2Proof/Laws/Script.lean ====
section
/-! SUPPORT. Host transactions and exchanges under a script (Safety.lean): what each comes to, in one lemma. The environment of
the block (the signals of `LINK_S`, the lines, the agenda, `select_n` and the trace) is set at once by `State.env`, with which
every block operation commutes. -/

namespace Sys2Proof.Machine

/-- The state in another environment. -/
def State.env (s : State) (sig : PeriphIn) (b i : Bool) (es : List Event) (sel : Bool) (tr : List BusEvent) : State :=
  { s with periphS := sig, busy := b, irq := i, agenda := es, selectN := sel, trace := tr }

section Env

variable (s : State) (sig : PeriphIn) (b i : Bool) (es : List Event) (sel : Bool) (tr : List BusEvent)

theorem State.env_self : s.env s.periphS s.busy s.irq s.agenda s.selectN s.trace = s := rfl

@[simp] theorem State.env_env (sig' : PeriphIn) (b' i' : Bool) (es' : List Event) (sel' : Bool) (tr' : List BusEvent) :
    (s.env sig b i es sel tr).env sig' b' i' es' sel' tr' = s.env sig' b' i' es' sel' tr' := rfl

@[simp] theorem State.env_rb (q : RbPort) : (s.env sig b i es sel tr).rb q = s.rb q := by
  rcases q with _ | (_ | _) | (_ | (_ | _) | _) <;> rfl

@[simp] theorem State.env_cs (c : CsPort) : (s.env sig b i es sel tr).cs c = s.cs c := by
  rcases c with _ | (_ | _) | _ <;> rfl

@[simp] theorem State.env_link (k : LinkId) : (s.env sig b i es sel tr).link k = s.link k := by cases k <;> rfl

@[simp] theorem State.env_radio : (s.env sig b i es sel tr).radio = s.radio := rfl

@[simp] theorem State.env_params : (s.env sig b i es sel tr).params = s.params := rfl

@[simp] theorem State.env_mem : (s.env sig b i es sel tr).mem = s.mem := rfl

@[simp] theorem State.env_wide : (s.env sig b i es sel tr).wide = s.wide := rfl

@[simp] theorem State.env_tainted : (s.env sig b i es sel tr).tainted = s.tainted := rfl

@[simp] theorem State.env_freeTick : (s.env sig b i es sel tr).freeTick = s.freeTick := rfl

@[simp] theorem State.env_requests : (s.env sig b i es sel tr).requests = s.requests := rfl

@[simp] theorem State.env_phase : (s.env sig b i es sel tr).phase = s.phase := rfl

@[simp] theorem State.env_result : (s.env sig b i es sel tr).result = s.result := rfl

@[simp] theorem State.env_periphA : (s.env sig b i es sel tr).periph .a = s.periph .a := rfl

@[simp] theorem State.env_periphS : (s.env sig b i es sel tr).periph .s = sig := rfl

@[simp] theorem State.env_agenda : (s.env sig b i es sel tr).agenda = es := rfl

@[simp] theorem State.env_selectN : (s.env sig b i es sel tr).selectN = sel := rfl

@[simp] theorem State.env_trace : (s.env sig b i es sel tr).trace = tr := rfl

@[simp] theorem State.env_busy : (s.env sig b i es sel tr).busy = b := rfl

@[simp] theorem State.env_irq : (s.env sig b i es sel tr).irq = i := rfl

@[simp] theorem State.env_setAgenda (es' : List Event) :
    (s.env sig b i es sel tr).setAgenda es' = s.env sig b i es' sel tr := rfl

@[simp] theorem State.env_setPeriph (sig' : PeriphIn) :
    (s.env sig b i es sel tr).setPeriph .s sig' = s.env sig' b i es sel tr := rfl

@[simp] theorem State.env_setLines (b' i' : Bool) :
    (s.env sig b i es sel tr).setLines b' i' = s.env sig b' i' es sel tr := rfl

@[simp] theorem State.env_setSelect (sel' : Bool) :
    (s.env sig b i es sel tr).setSelect sel' = s.env sig b i es sel' tr := rfl

@[simp] theorem State.env_emit (e : BusEvent) :
    (s.env sig b i es sel tr).emit e = s.env sig b i es sel (tr ++ [e]) := rfl

@[simp] theorem State.env_setRb (p : RbPort) (r : Rb) :
    (s.env sig b i es sel tr).setRb p r = (s.setRb p r).env sig b i es sel tr := by
  rcases p with _ | (_ | _) | (_ | (_ | _) | _) <;> rfl

@[simp] theorem State.env_setLockout (c : CsPort) (n : Nat) :
    (s.env sig b i es sel tr).setLockout c n = (s.setLockout c n).env sig b i es sel tr := by
  rcases c with _ | (_ | _) | _ <;> rfl

@[simp] theorem State.env_setRxie (k : LinkId) (x : Bool) :
    (s.env sig b i es sel tr).setRxie k x = (s.setRxie k x).env sig b i es sel tr := by cases k <;> rfl

@[simp] theorem State.env_setMode (m : RadioMode) :
    (s.env sig b i es sel tr).setMode m = (s.setMode m).env sig b i es sel tr := rfl

@[simp] theorem State.env_disturb (r : Ref) :
    (s.env sig b i es sel tr).disturb r = (s.disturb r).env sig b i es sel tr := by
  unfold State.disturb
  rw [State.env_tainted]
  by_cases h : s.tainted.contains r
  · rw [if_pos h, if_pos h]; rfl
  · rw [if_neg h, if_neg h]

@[simp] theorem State.env_byteSlots (p : RbPort) : (s.env sig b i es sel tr).byteSlots p = s.byteSlots p := rfl

@[simp] theorem State.env_writeSlot (p : RbPort) (j v : Nat) :
    (s.env sig b i es sel tr).writeSlot p j v = (s.writeSlot p j v).env sig b i es sel tr := by
  unfold State.writeSlot
  rw [State.env_rb]
  split
  · rfl
  · simp only [State.env_disturb, State.env_byteSlots]
    split <;> rfl

@[simp] theorem State.env_readSlot (p : RbPort) (j : Nat) :
    (s.env sig b i es sel tr).readSlot p j = s.readSlot p j :=
  State.readSlot_congr p j (by simp) rfl rfl rfl rfl rfl

@[simp] theorem State.env_csPut (c : CsPort) (x : Byte) :
    csPut c x (s.env sig b i es sel tr) = ((csPut c x s).1, (csPut c x s).2.env sig b i es sel tr) := by
  unfold csPut rbPut
  rw [State.env_rb]
  split
  · rfl
  · simp

@[simp] theorem State.env_taken (c : CsPort) (n : Nat) :
    (s.env sig b i es sel tr).taken c n = (s.taken c n).env sig b i es sel tr := by simp [State.taken]

@[simp] theorem State.env_csGet (c : CsPort) :
    csGet c (s.env sig b i es sel tr) = ((csGet c s).1, (csGet c s).2.env sig b i es sel tr) := by
  by_cases h : (s.rb (.inner c)).count = 0
  · rw [csGet_empty c s h, csGet_empty c _ (by simpa using h)]
  · rw [csGet_some c s h, csGet_some c _ (by simpa using h)]
    simp [csSlot]

@[simp] theorem State.env_dlcReceive :
    dlcReceive .s (s.env sig b i es sel tr)
      = ((dlcReceive .s s).1, (dlcReceive .s s).2.env sig b i es sel tr) := by
  unfold dlcReceive underGate gateDisable gateEnable
  simp only [State.env_link, State.env_setRxie, State.env_csGet]
  split <;> rfl

end Env

/-! ### Waiting -/

theorem waitLoop_holds (x : Option LinkId) (w : Wait) (es : List Event) (s : State) (h : waitHolds w s = true) :
    waitLoop x w es s = .done () (s.setAgenda es) := by
  cases es <;> simp [waitLoop, h]

/-- The condition holds as soon as the others have stepped once. -/
theorem waitUntil_holds (x : Option LinkId) (w : Wait) (s : State) (h : waitHolds w (pointExcluding x s) = true) :
    waitUntil x w s = .done () (pointExcluding x s) := by
  unfold waitUntil
  rw [waitLoop_holds x w _ _ h, State.setAgenda_self]

/-! ### Clocking bytes -/

theorem bytesScript_cons (d : Byte) (ds : List Byte) (rest : List Event) :
    bytesScript (d :: ds) ++ rest = .periph .s (readyWith d) :: .app :: .app :: (bytesScript ds ++ rest) := rfl

/-- The strobes of some bytes. -/
def clocked (bs : List Byte) : List BusEvent := bs.flatMap fun b => [.txWr .s b, .rxRd .s]

@[simp] theorem clocked_nil : clocked [] = [] := rfl

@[simp] theorem clocked_cons (b : Byte) (bs : List Byte) : clocked (b :: bs) = .txWr .s b :: .rxRd .s :: clocked bs := rfl

theorem clocked_append (as bs : List Byte) : clocked (as ++ bs) = clocked as ++ clocked bs := by simp [clocked]

theorem frameEvents_eq (bs : List Byte) :
    frameEvents bs = .select false :: (clocked bs ++ [.select true, .flagClear .s]) := rfl

/-- What the peripheral shows after answering these. -/
def lastSignal (sig : PeriphIn) (ds : List Byte) : PeriphIn := ds.foldl (fun _ d => readyWith d) sig

@[simp] theorem lastSignal_nil (sig : PeriphIn) : lastSignal sig [] = sig := rfl

@[simp] theorem lastSignal_cons (sig : PeriphIn) (d : Byte) (ds : List Byte) :
    lastSignal sig (d :: ds) = lastSignal (readyWith d) ds := rfl

theorem lastSignal_append (sig : PeriphIn) (as bs : List Byte) :
    lastSignal sig (as ++ bs) = lastSignal (lastSignal sig as) bs := by simp [lastSignal]

theorem clockByte_script (x d : Byte) (s : State) (sig : PeriphIn) (b i : Bool) (rest : List Event) (sel : Bool)
    (tr : List BusEvent) :
    clockByte x (s.env sig b i (.periph .s (readyWith d) :: .app :: .app :: rest) sel tr)
      = .done d (s.env (readyWith d) b i rest sel (tr ++ [.txWr .s x, .rxRd .s])) := by
  have h1 : pointExcluding (some .s) (s.env sig b i (.periph .s (readyWith d) :: .app :: .app :: rest) sel tr)
      = s.env (readyWith d) b i (.app :: rest) sel tr := rfl
  have h2 : pointExcluding (some .s) ((s.env (readyWith d) b i (.app :: rest) sel tr).emit (.txWr .s x))
      = s.env (readyWith d) b i rest sel (tr ++ [.txWr .s x]) := rfl
  unfold clockByte
  rw [waitUntil_holds _ _ _ (by rw [h1]; rfl), h1]
  simp only [Res.bind]
  rw [waitUntil_holds _ _ _ (by rw [h2]; rfl), h2]
  simp [State.sample, readyWith, PeriphIn.seenBy, linkKind]

theorem commandPhase_script (out ds : List Byte) (h : ds.length = out.length) (s : State) (sig : PeriphIn) (b i : Bool)
    (rest : List Event) (sel : Bool) (tr : List BusEvent) :
    commandPhase out (s.env sig b i (bytesScript ds ++ rest) sel tr)
      = .done ds (s.env (lastSignal sig ds) b i rest sel (tr ++ clocked out)) := by
  induction out generalizing ds sig tr with
  | nil =>
    have : ds = [] := by simpa using h
    subst this
    simp [commandPhase, bytesScript]
  | cons x out ih =>
    cases ds with
    | nil => simp at h
    | cons d ds =>
      simp only [commandPhase, bytesScript_cons, clockByte_script, Res.bind]
      rw [ih ds (by simpa using h)]
      simp

/-- Bytes put into a stream one after another. -/
def csPutAll (c : CsPort) (ds : List Byte) (s : State) : State := ds.foldl (fun s d => (csPut c d s).2) s

@[simp] theorem csPutAll_nil (c : CsPort) (s : State) : csPutAll c [] s = s := rfl

@[simp] theorem csPutAll_cons (c : CsPort) (d : Byte) (ds : List Byte) (s : State) :
    csPutAll c (d :: ds) s = csPutAll c ds (csPut c d s).2 := rfl

/-- How many more bytes a stream has room for. -/
def State.room (s : State) (c : CsPort) : Nat := (s.rb (.inner c)).capacity - (s.rb (.inner c)).count

theorem csPut_room (c : CsPort) (d : Byte) (s : State) (h : (s.rb (.inner c)).isFull = false) :
    (csPut c d s).2.room c = s.room c - 1 := by
  unfold csPut State.room
  rw [rbPut_room _ _ _ h]
  simp [Rb.afterPut]
  omega

theorem csPut_count_le (c : CsPort) (d : Byte) (s : State) (h : (s.rb (.inner c)).count ≤ (s.rb (.inner c)).capacity) :
    ((csPut c d s).2.rb (.inner c)).count ≤ ((csPut c d s).2.rb (.inner c)).capacity := by
  unfold csPut
  cases hf : (s.rb (.inner c)).isFull
  · rw [rbPut_room _ _ _ hf]
    simp only [Rb.isFull, beq_eq_false_iff_ne] at hf
    simp [Rb.afterPut]
    omega
  · rw [rbPut_full _ _ _ hf]; exact h

@[simp] theorem csPut_params (c : CsPort) (d : Byte) (s : State) : (csPut c d s).2.params = s.params := by
  unfold csPut rbPut; split <;> simp

/-- The response phase: one filler for each byte that fits. -/
theorem responsePhase_script (n : Nat) (ds : List Byte) (s : State) (h : ds.length = min n (s.room (.rx .s)))
    (hc : (s.rb (.inner (.rx .s))).count ≤ (s.rb (.inner (.rx .s))).capacity) (sig : PeriphIn) (b i : Bool)
    (rest : List Event) (sel : Bool) (tr : List BusEvent) :
    responsePhase n (s.env sig b i (bytesScript ds ++ rest) sel tr)
      = .done () ((csPutAll (.rx .s) ds s).env (lastSignal sig ds) b i rest sel
          (tr ++ clocked (List.replicate ds.length s.params.enc.nop))) := by
  induction n generalizing ds s sig tr with
  | zero =>
    have : ds = [] := by simpa using h
    subst this
    simp [responsePhase, bytesScript]
  | succ n ih =>
    cases ds with
    | nil =>
      have hf : (s.rb (.inner (.rx .s))).isFull = true := by
        simp only [List.length_nil, State.room] at h
        simp only [Rb.isFull, beq_iff_eq]
        omega
      simp [responsePhase, hf, bytesScript]
    | cons d ds =>
      have hf : (s.rb (.inner (.rx .s))).isFull = false := by
        simp only [List.length_cons, State.room] at h
        simp only [Rb.isFull, beq_eq_false_iff_ne]
        omega
      simp only [responsePhase, State.env_rb, hf, Bool.false_eq_true, if_false, bytesScript_cons, clockByte_script,
        Res.bind, State.env_csPut, State.env_params]
      rw [ih ds _ (by rw [csPut_room _ _ _ hf]; simp only [List.length_cons] at h; omega) (csPut_count_le _ _ _ hc)]
      simp [List.replicate_succ]

/-- A whole host transaction: the command bytes, and one filler for each response byte that fits. -/
theorem hostTransaction_script (out : List Byte) (n : Nat) (as ds : List Byte) (s : State)
    (he : (s.link .s).status.enabled = true) (ha : as.length = out.length) (h : ds.length = min n (s.room (.rx .s)))
    (hc : (s.rb (.inner (.rx .s))).count ≤ (s.rb (.inner (.rx .s))).capacity) (sig : PeriphIn) (b i : Bool)
    (rest : List Event) (sel : Bool) (tr : List BusEvent) :
    hostTransaction out n (s.env sig b i (bytesScript as ++ (bytesScript ds ++ rest)) sel tr)
      = .done (as.headD 0) ((csPutAll (.rx .s) ds s).env (lastSignal sig (as ++ ds)) b i rest true
          (tr ++ frameEvents (out ++ List.replicate ds.length s.params.enc.nop))) := by
  unfold hostTransaction driveSelect
  simp only [State.env_link, he, if_true, State.env_setSelect, State.env_emit]
  rw [commandPhase_script out as ha]
  simp only [Res.bind]
  rw [responsePhase_script n ds s h hc]
  simp [frameEvents_eq, clocked_append, lastSignal_append, List.append_assoc]

/-- An exchange: `busy` falls, then the transaction. -/
theorem exchange_script (f : Frame) (as ds : List Byte) (s : State) (he : (s.link .s).status.enabled = true)
    (ha : as.length = f.out.length) (h : ds.length = min f.numRead (s.room (.rx .s)))
    (hc : (s.rb (.inner (.rx .s))).count ≤ (s.rb (.inner (.rx .s))).capacity) (sig : PeriphIn) (b i i' : Bool)
    (rest : List Event) (sel : Bool) (tr : List BusEvent) :
    exchange f (s.env sig b i (exchangeScript i' (as ++ ds) ++ rest) sel tr)
      = .done (as.headD 0) ((csPutAll (.rx .s) ds s).env (lastSignal sig (as ++ ds)) false i' rest true
          (tr ++ frameEvents (f.out ++ List.replicate ds.length s.params.enc.nop))) := by
  have e : bytesScript (as ++ ds) ++ rest = bytesScript as ++ (bytesScript ds ++ rest) := by
    simp [bytesScript, List.append_assoc]
  have h1 : pointExcluding none (s.env sig b i (exchangeScript i' (as ++ ds) ++ rest) sel tr)
      = s.env sig false i' (bytesScript as ++ (bytesScript ds ++ rest)) sel tr := by
    rw [← e]; rfl
  unfold exchange
  rw [waitUntil_holds _ _ _ (by rw [h1]; rfl), h1]
  simp only [Res.bind]
  rw [hostTransaction_script f.out f.numRead as ds s he ha h hc]

/-! ### What the block holds afterwards -/

theorem csPutAll_rb_of_ne (c : CsPort) (ds : List Byte) (s : State) (q : RbPort) (h : q ≠ .inner c) :
    (csPutAll c ds s).rb q = s.rb q := by
  induction ds generalizing s with
  | nil => rfl
  | cons d ds ih =>
    rw [csPutAll_cons, ih]
    unfold csPut rbPut
    split <;> simp [h]

/-- Everything that putting bytes into a stream leaves alone. -/
structure PutOnly (s t : State) : Prop where
  lockouts : ∀ c, (t.cs c).lockout = (s.cs c).lockout
  status : ∀ k, (t.link k).status = (s.link k).status
  errEn : ∀ k, (t.link k).errEn = (s.link k).errEn
  txie : ∀ k, (t.link k).txie = (s.link k).txie
  rxie : ∀ k, (t.link k).rxie = (s.link k).rxie
  preamble : t.radio.preambleLength = s.radio.preambleLength
  crc : t.radio.crcEnabled = s.radio.crcEnabled
  resetN : t.radio.resetN = s.radio.resetN
  mode : t.radio.mode = s.radio.mode
  periph : ∀ k, t.periph k = s.periph k
  busy : t.busy = s.busy
  irq : t.irq = s.irq
  requests : t.requests = s.requests
  agenda : t.agenda = s.agenda
  phase : t.phase = s.phase
  result : t.result = s.result
  trace : t.trace = s.trace
  selectN : t.selectN = s.selectN
  params : t.params = s.params
  tainted : t.tainted = s.tainted
  wide : t.wide = s.wide

theorem csPut_only (c : CsPort) (d : Byte) (s : State) : PutOnly s (csPut c d s).2 := by
  have hw := (State.writeSlot_other s (.inner c) (s.rb (.inner c)).writeIndex d.toNat).1 rfl
  unfold csPut rbPut
  split
  · exact ⟨fun _ => rfl, fun _ => rfl, fun _ => rfl, fun _ => rfl, fun _ => rfl, rfl, rfl, rfl, rfl, fun _ => rfl, rfl, rfl, rfl,
      rfl, rfl, rfl, rfl, rfl, rfl, rfl, rfl⟩
  · constructor <;> simp [hw]

theorem PutOnly.trans {s t u : State} (h : PutOnly s t) (h' : PutOnly t u) : PutOnly s u where
  lockouts c := (h'.lockouts c).trans (h.lockouts c)
  status c := (h'.status c).trans (h.status c)
  errEn c := (h'.errEn c).trans (h.errEn c)
  txie c := (h'.txie c).trans (h.txie c)
  rxie c := (h'.rxie c).trans (h.rxie c)
  preamble := h'.preamble.trans h.preamble
  crc := h'.crc.trans h.crc
  resetN := h'.resetN.trans h.resetN
  mode := h'.mode.trans h.mode
  periph c := (h'.periph c).trans (h.periph c)
  busy := h'.busy.trans h.busy
  irq := h'.irq.trans h.irq
  requests := h'.requests.trans h.requests
  agenda := h'.agenda.trans h.agenda
  phase := h'.phase.trans h.phase
  result := h'.result.trans h.result
  trace := h'.trace.trans h.trace
  selectN := h'.selectN.trans h.selectN
  params := h'.params.trans h.params
  tainted := h'.tainted.trans h.tainted
  wide := h'.wide.trans h.wide

theorem csPutAll_only (c : CsPort) (ds : List Byte) (s : State) : PutOnly s (csPutAll c ds s) := by
  induction ds generalizing s with
  | nil => constructor <;> intros <;> rfl
  | cons d ds ih => exact (csPut_only c d s).trans (ih _)

/-- The stream's own RB, where the bytes fit. -/
theorem csPutAll_rb (c : CsPort) (ds : List Byte) (s : State) (hok : (s.rb (.inner c)).Ok)
    (h : ds.length ≤ s.room c) :
    ((csPutAll c ds s).rb (.inner c)).Ok
      ∧ (csPutAll c ds s).rb (.inner c)
        = { s.rb (.inner c) with
            writeIndex := if ds = [] then (s.rb (.inner c)).writeIndex
              else ((s.rb (.inner c)).writeIndex + ds.length) % (s.rb (.inner c)).capacity
            count := (s.rb (.inner c)).count + ds.length } := by
  induction ds generalizing s with
  | nil => exact ⟨hok, rfl⟩
  | cons d ds ih =>
    have hf : (s.rb (.inner c)).isFull = false := by
      have h2 := hok.2.1
      simp only [State.room, List.length_cons] at h
      simp only [Rb.isFull, beq_eq_false_iff_ne]
      omega
    have hr : (csPut c d s).2.rb (.inner c) = (s.rb (.inner c)).afterPut := by
      unfold csPut; rw [rbPut_room _ _ _ hf]; simp
    have hok' : ((csPut c d s).2.rb (.inner c)).Ok := by rw [hr]; exact Rb.afterPut_ok _ hok hf
    obtain ⟨h1, h2⟩ := ih (csPut c d s).2 hok' (by
      rw [csPut_room _ _ _ hf]; simp only [List.length_cons] at h; omega)
    refine ⟨h1, ?_⟩
    rw [csPutAll_cons, h2, hr]
    simp only [Rb.afterPut, List.length_cons]
    congr 1
    · by_cases hd : ds = []
      · simp [hd]
      · simp only [hd, if_false, Nat.mod_add_mod, reduceCtorEq]
        congr 1; omega
    · omega

/-- The bytes stand behind those already unread. -/
theorem csPutAll_unread (c : CsPort) (ds : List Byte) (s : State) (hok : (s.rb (.inner c)).Ok)
    (h : ds.length ≤ s.room c) (hu : s.Untainted (.inner c)) (hm : MemoryOk s) :
    (csPutAll c ds s).unread c = s.unread c ++ ds ∧ MemoryOk (csPutAll c ds s) := by
  induction ds generalizing s with
  | nil => simp [hm]
  | cons d ds ih =>
    have hf : (s.rb (.inner c)).isFull = false := by
      have h2 := hok.2.1
      simp only [State.room, List.length_cons] at h
      simp only [Rb.isFull, beq_eq_false_iff_ne]
      omega
    have e : (csPut c d s).2
        = (s.writeSlot (.inner c) (s.rb (.inner c)).writeIndex d.toNat).setRb (.inner c) (s.rb (.inner c)).afterPut := by
      unfold csPut; rw [rbPut_room _ _ _ hf]
    have hr : (csPut c d s).2.rb (.inner c) = (s.rb (.inner c)).afterPut := by rw [e]; simp
    have hok' : ((csPut c d s).2.rb (.inner c)).Ok := by rw [hr]; exact Rb.afterPut_ok _ hok hf
    have hu' : (csPut c d s).2.Untainted (.inner c) := by
      intro r hb
      rw [hr] at hb
      rw [e]
      simpa using hu r hb
    have hm' : MemoryOk (csPut c d s).2 := by
      rw [e]
      exact ⟨by simpa using State.writeSlot_mem_wf _ _ _ _ hm.1, by simpa using State.writeSlot_wide_wf _ _ _ _ hm.2⟩
    obtain ⟨h1, h2⟩ := ih (csPut c d s).2 hok' (by
      rw [csPut_room _ _ _ hf]; simp only [List.length_cons] at h; omega) hu' hm'
    refine ⟨?_, h2⟩
    rw [csPutAll_cons, h1]
    have hc := State.contents_put s (.inner c) d.toNat hf hok hu hm.1 hm.2 d.isLt
    unfold State.unread
    rw [e, hc]
    simp

/-- Memory outside the slots the bytes went to. -/
theorem csPutAll_read (c : CsPort) (ds : List Byte) (s : State) (hok : (s.rb (.inner c)).Ok)
    (h : ds.length ≤ s.room c) (a : Nat) (ha : a ∉ s.nextKeys (.inner c) ds.length) :
    (csPutAll c ds s).mem.read a = s.mem.read a := by
  induction ds generalizing s with
  | nil => rfl
  | cons d ds ih =>
    have hf : (s.rb (.inner c)).isFull = false := by
      have h2 := hok.2.1
      simp only [State.room, List.length_cons] at h
      simp only [Rb.isFull, beq_eq_false_iff_ne]
      omega
    have e : (csPut c d s).2
        = (s.writeSlot (.inner c) (s.rb (.inner c)).writeIndex d.toNat).setRb (.inner c) (s.rb (.inner c)).afterPut := by
      unfold csPut; rw [rbPut_room _ _ _ hf]
    have hr : (csPut c d s).2.rb (.inner c) = (s.rb (.inner c)).afterPut := by rw [e]; simp
    have hok' : ((csPut c d s).2.rb (.inner c)).Ok := by rw [hr]; exact Rb.afterPut_ok _ hok hf
    have hp := (s.rb (.inner c)).pos_of_not_full hok hf
    have hw := (hok.2.2.2 hp).2.2.1
    rw [csPutAll_cons, ih _ hok' (by rw [csPut_room _ _ _ hf]; simp only [List.length_cons] at h; omega), e]
    · rw [State.setRb_mem]
      refine (State.writeSlot_read_of_ne s (.inner c) _ _ a fun r hb hcon => ha ?_).1
      simp only [State.nextKeys, hb, List.mem_map, List.mem_range, List.length_cons]
      exact ⟨0, by omega, by rw [hcon, Nat.add_zero, Nat.mod_eq_of_lt hw]⟩
    · intro hcon
      apply ha
      unfold State.nextKeys at hcon ⊢
      rw [hr] at hcon
      simp only [Rb.afterPut] at hcon
      cases hb : (s.rb (.inner c)).backing with
      | none => rw [hb] at hcon; simp at hcon
      | some r =>
        rw [hb] at hcon
        simp only [List.mem_map, List.mem_range, List.length_cons] at hcon ⊢
        obtain ⟨j, hj, hja⟩ := hcon
        exact ⟨j + 1, by omega, by rw [← hja]; congr 1; rw [Nat.mod_add_mod]; congr 1; omega⟩

/-! ### Taking responses -/

theorem dlcReceive_state (s : State) (he : (s.link .s).status.enabled = true) :
    dlcReceive .s s
      = ((csGet (.rx .s) s).1, (s.taken (.rx .s) (min 1 (s.rb (.inner (.rx .s))).count)).setRxie .s true) := by
  have h1 : ∀ (x : Bool), (csGet (.rx .s) (s.setRxie .s x)).1 = (csGet (.rx .s) s).1 := by
    intro x
    by_cases h : (s.rb (.inner (.rx .s))).count = 0
    · rw [csGet_empty _ _ h, csGet_empty _ _ (by simpa using h)]
    · rw [csGet_some _ _ h, csGet_some _ _ (by simpa using h)]
      simp only [csSlot, State.setRxie_rb]
      rw [State.readSlot_congr (s := s) (t := s.setRxie .s x)] <;> simp
  have h2 : ∀ (x : Bool) (n : Nat), ((s.setRxie .s x).taken (.rx .s) n).setRxie .s true
      = (s.taken (.rx .s) n).setRxie .s true := fun x n => rfl
  unfold dlcReceive underGate gateDisable gateEnable
  simp only [he, if_true, h1, csGet_state, State.setRxie_rb, h2]

end Sys2Proof.Machine
end

