-- ==== Sys2Proof/Laws/Wait.lean ====
section
/-! SUPPORT. What a busy-wait comes to (R15, R395), in one lemma for each of its two ends. -/

namespace Sys2Proof.Machine

theorem waitLoop_done {x : Option LinkId} {w : Wait} {es : List Event} {s t : State}
    (h : waitLoop x w es s = .done () t) : waitHolds w t = true ∧ ∃ gone, es = gone ++ t.agenda := by
  induction es generalizing s with
  | nil =>
    unfold waitLoop at h
    split at h
    · next hw =>
      cases h
      exact ⟨by cases w <;> exact hw, [], rfl⟩
    · cases h
  | cons e es ih =>
    unfold waitLoop at h
    split at h
    · next hw =>
      cases h
      exact ⟨by cases w <;> exact hw, [], rfl⟩
    · obtain ⟨hw, gone, rfl⟩ := ih h
      exact ⟨hw, e :: gone, rfl⟩

/-- A wait ends where its condition holds. -/
theorem waitUntil_done {x : Option LinkId} {w : Wait} {s t : State} (h : waitUntil x w s = .done () t) :
    waitHolds w t = true ∧ ∃ gone, (pointExcluding x s).agenda = gone ++ t.agenda := waitLoop_done h

theorem waitLoop_hung {x : Option LinkId} {w : Wait} {es : List Event} {s t : State}
    (h : waitLoop x w es s = .hung t) : t.phase = .waiting w ∧ t.agenda = [] ∧ waitHolds w t = false := by
  induction es generalizing s with
  | nil =>
    unfold waitLoop at h
    split at h
    · cases h
    · next hw =>
      cases h
      exact ⟨rfl, rfl, by cases w <;> exact Bool.eq_false_iff.2 hw⟩
  | cons e es ih =>
    unfold waitLoop at h
    split at h
    · cases h
    · exact ih h

/-- A wait that does not end leaves APP waiting for its condition with the agenda served to its end. -/
theorem waitUntil_hung {x : Option LinkId} {w : Wait} {s t : State} (h : waitUntil x w s = .hung t) :
    t.phase = .waiting w ∧ t.agenda = [] ∧ waitHolds w t = false := waitLoop_hung h

/-- Where a sequence of units hangs, it is in one of its waits, and the agenda is served to its end. -/
def Res.HangsInAWait {α : Type} (r : Res α) : Prop := ∀ t, r = .hung t → t.agenda = [] ∧ ∃ w, t.phase = .waiting w

theorem waitUntil_hangs (x : Option LinkId) (w : Wait) (s : State) : (waitUntil x w s).HangsInAWait :=
  fun _ h => ⟨(waitUntil_hung h).2.1, w, (waitUntil_hung h).1⟩

theorem Res.HangsInAWait.bind {α β : Type} {r : Res α} {f : α → State → Res β} (h : r.HangsInAWait)
    (hf : ∀ a s, (f a s).HangsInAWait) : (r.bind f).HangsInAWait := by
  intro t ht
  cases r with
  | done a s => exact hf a s t ht
  | hung s =>
    cases ht
    exact h _ rfl

theorem Res.done_hangs {α : Type} (a : α) (s : State) : (Res.done a s).HangsInAWait := fun _ h => by cases h

end Sys2Proof.Machine
end

