-- ==== Sys2Proof/Tests/Slice0.lean ====
section
/-! SUPPORT. The model's own tests: an ill-formed term for each check of WellFormed; a word of every row written out from the
spec's encoding tables; one-step examples with the values of 95_test_vectors.md (the vector is named in each comment, the
values are the spec's); and for every statement with hypotheses a state that meets them. -/

namespace Sys2Proof.Tests

open Sys2Proof Sys2Proof.Machine

set_option Elab.async false

/-! ### Ill-formed terms, one for each check -/

/-- The SX1262 numbers, no standby exchange, a stand-alone ring of bytes. -/
def ps : Params := { enc := Enc.sx1262, rcStandbyFirst := false, slotWidth := 8 }

def bytes256 : List Byte := List.replicate 256 0x41

theorem test_wf_value_wider_than_slot : (Instr.rbPut .bench 256).wf ps = false := by decide
theorem test_wf_value_of_slot_width : (Instr.rbPut .bench 255).wf ps = true := by decide
theorem test_wf_link_slots_are_bytes : (Instr.rbPut (.tx .a) 256).wf { ps with slotWidth := 16 } = false := by decide
theorem test_wf_token_too_long :
    (Instr.csMatchToken .bench bytes256 0 false .noop).wf ps = false
      ∧ (Instr.csMatchParam .bench bytes256 0 8 .noop).wf ps = false
      ∧ (Instr.dlcMatchToken .a bytes256 0 false).wf ps = false ∧ (Instr.dlcMatchParam .a bytes256 0 8).wf ps = false
      ∧ (Instr.rcMatchToken bytes256 0 false).wf ps = false ∧ (Instr.rcMatchParam bytes256 0 8).wf ps = false := by
  decide +kernel
/-- A record of `2 ^ 32` bytes does not fit its length field; no list that long is ever built here. -/
theorem test_wf_record_too_long (data : List Byte) (h : data.length = 2 ^ 32) :
    (Instr.dlcTransmitPacket .a data).wf ps = false ∧ (Instr.dlcTransmitString .a data).wf ps = false
      ∧ (Instr.dlcHostTransaction .s data 0).wf ps = false ∧ (Instr.rcTransmit data 0).wf ps = false
      ∧ (Instr.dlcInit .a ⟨false, data⟩ none 0 none 0).wf ps = false := by
  simp [Instr.wf, fits32, h]
theorem test_wf_register_write_of_three :
    (Instr.spiWriteRegister 0x0740 [1, 2, 3]).wf ps = false ∧ (Instr.spiWriteRegister 0x0740 []).wf ps = false := by
  decide
theorem test_wf_buffer_write_too_long : (Instr.spiWriteBuffer 0 bytes256).wf ps = false := by decide +kernel
theorem test_wf_continuous_receive : (Instr.spiSetRxMode 0xFFFFFF).wf ps = false := by decide

/-! ### Words written out from 30_encoding.md R92, R95 to R98 and 44_radio_opcodes.md R321 to R338 -/

/-- The instruction, where the bytes are exactly one. -/
def decoded (port : Port) (bs : List Byte) : Option Instr :=
  match decode ps port bs with
  | .ok (i, []) => some i
  | .ok (_, _ :: _) => none
  | .error _ => none

def ref1 : Ref := 0x00000001
def ref2 : Ref := 0x00000002
def ref3 : Ref := 0x00000003

theorem test_decode_rb_reset : decoded (.rb .bench) [0x00, 0x01, 0x00, 0x00, 0x00, 0x01, 0x00, 0x00, 0x00, 0x03]
    = some (.rbReset .bench (some ref1) 3) := by decide
theorem test_decode_rb_reset_none : decoded (.rb (.tx .a)) [0x00, 0x00, 0x00, 0x00, 0x00, 0x00]
    = some (.rbReset (.tx .a) none 0) := by decide
theorem test_decode_rb_clear : decoded (.rb .bench) [0x01] = some (.rbClear .bench) := by decide
theorem test_decode_rb_put : decoded (.rb .bench) [0x02, 0x61] = some (.rbPut .bench 0x61) := by decide
theorem test_decode_rb_get : decoded (.rb (.tx .s)) [0x03] = some (.rbGet (.tx .s)) := by decide
theorem test_decode_rb_peek : decoded (.rb .bench) [0x04] = some (.rbPeek .bench) := by decide
theorem test_decode_rb_raw_view : decoded (.rb .bench) [0x05] = some (.rbRawView .bench) := by decide
theorem test_decode_rb_shift : decoded (.rb .bench) [0x06, 0x01, 0x02, 0x03, 0x04, 0x00]
    = some (.rbShiftReadPointer .bench 0x01020304 false) := by decide
theorem test_decode_rb_count : decoded (.rb (.inner .sink)) [0x07] = some (.rbCount (.inner .sink)) := by decide
theorem test_decode_rb_state : decoded (.rb .bench) [0x08] = some (.rbState .bench) := by decide
theorem test_decode_cs_reset : decoded (.cs .bench) [0x10, 0x01, 0x00, 0x00, 0x00, 0x01, 0x00, 0x00, 0x00, 0x20]
    = some (.csReset .bench (some ref1) 32) := by decide
theorem test_decode_cs_clear : decoded (.cs .sink) [0x11] = some (.csClear .sink) := by decide
theorem test_decode_cs_put_byte : decoded (.cs (.rx .a)) [0x12, 0x6F, 0x02]
    = some (.csPutByte (.rx .a) 0x6F (.rxGate .a)) := by decide
theorem test_decode_cs_get_byte : decoded (.cs .bench) [0x13, 0x00] = some (.csGetByte .bench .noop) := by decide
theorem test_decode_cs_match_token : decoded (.cs .bench) [0x14, 0x02, 0x6F, 0x6E, 0x05, 0x01, 0x00]
    = some (.csMatchToken .bench [0x6F, 0x6E] 5 true .noop) := by decide
theorem test_decode_cs_match_ascii_uint : decoded (.cs .bench) [0x15, 0x04]
    = some (.csMatchAsciiUint .bench (.txGate .a)) := by decide
theorem test_decode_cs_match_param : decoded (.cs .bench) [0x16, 0x01, 0x6C, 0x21, 0x08, 0x00]
    = some (.csMatchParam .bench [0x6C] 0x21 8 .noop) := by decide
theorem test_decode_cs_count : decoded (.cs .bench) [0x17] = some (.csCount .bench) := by decide
theorem test_decode_dlc_init :
    decoded (.dlc .a) [0x20, 0x01, 0x00, 0x00, 0x00, 0x01, 0xAB, 0x01, 0x00, 0x00, 0x00, 0x01, 0x00, 0x00, 0x00, 0x04,
        0x00, 0x00, 0x00, 0x00, 0x00]
      = some (.dlcInit .a ⟨true, [0xAB]⟩ (some ref1) 4 none 0) := by decide
theorem test_decode_dlc_deinit : decoded (.dlc .s) [0x21] = some (.dlcDeinit .s) := by decide
theorem test_decode_dlc_on_interrupt : decoded (.irq .a) [0x22] = some (.dlcOnInterrupt .a) := by decide
theorem test_decode_dlc_on_interrupt_refused : decoded (.dlc .a) [0x22] = none := by decide
theorem test_decode_dlc_transmit : decoded (.dlc .a) [0x23, 0x41] = some (.dlcTransmit .a 0x41) := by decide
theorem test_decode_dlc_receive : decoded (.dlc .a) [0x24] = some (.dlcReceive .a) := by decide
theorem test_decode_dlc_transmit_packet : decoded (.dlc .a) [0x25, 0x00, 0x00, 0x00, 0x02, 0x00, 0x01]
    = some (.dlcTransmitPacket .a [0x00, 0x01]) := by decide
theorem test_decode_dlc_transmit_string : decoded (.dlc .a) [0x26, 0x00, 0x00, 0x00, 0x01, 0x68]
    = some (.dlcTransmitString .a [0x68]) := by decide
theorem test_decode_dlc_transmit_uint : decoded (.dlc .a) [0x27, 0x00, 0x00, 0x03, 0x8B]
    = some (.dlcTransmitUint .a 907) := by decide
theorem test_decode_dlc_match_token : decoded (.dlc .a) [0x28, 0x02, 0x6F, 0x6E, 0x00, 0x00]
    = some (.dlcMatchToken .a [0x6F, 0x6E] 0 false) := by decide
theorem test_decode_dlc_match_ascii_uint : decoded (.dlc .a) [0x29] = some (.dlcMatchAsciiUint .a) := by decide
theorem test_decode_dlc_match_param : decoded (.dlc .a) [0x2A, 0x01, 0x6C, 0x00, 0x08]
    = some (.dlcMatchParam .a [0x6C] 0 8) := by decide
theorem test_decode_dlc_host_transaction :
    decoded (.dlc .s) [0x2B, 0x00, 0x00, 0x00, 0x01, 0x12, 0x00, 0x00, 0x00, 0x03]
      = some (.dlcHostTransaction .s [0x12] 3) := by decide
theorem test_decode_dlc_status : decoded (.dlc .a) [0x2C] = some (.dlcStatus .a) := by decide
theorem test_decode_dlc_ack_error : decoded (.dlc .a) [0x2D] = some (.dlcAckError .a) := by decide
theorem test_decode_dlc_ack_tx_irq : decoded (.dlc .a) [0x2E] = some (.dlcAckTxIrq .a) := by decide
theorem test_decode_dlc_ack_rx_irq : decoded (.dlc .a) [0x2F] = some (.dlcAckRxIrq .a) := by decide
/-- The configuration of program P5. -/
def config : RadioConfig :=
  { freqHz := 915000000, powerClass := .p22, rampTime := .us200, spreadingFactor := .sf7, bandwidth := .khz125
    codingRate := .cr45, lowDataRate := false, preambleLength := 8, crcEnabled := true, publicNetwork := true }
theorem test_decode_rc_init :
    decoded .radio [0x30, 0x36, 0x89, 0xCA, 0xC0, 0x03, 0x04, 0x02, 0x07, 0x00, 0x00, 0x00, 0x08, 0x01, 0x01,
        0x01, 0x00, 0x00, 0x00, 0x03, 0x00, 0x00, 0x00, 0x20]
      = some (.rcInit config (some ref3) 32) := by decide
theorem test_decode_rc_transmit :
    decoded .radio [0x31, 0x00, 0x00, 0x00, 0x02, 0x68, 0x69, 0x00, 0x00, 0x0F, 0xA0]
      = some (.rcTransmit [0x68, 0x69] 0x000FA0) := by decide
theorem test_decode_rc_receive : decoded .radio [0x32, 0x00, 0xFF, 0xFF, 0xFF] = some (.rcReceive 0x00FFFFFF) := by decide
theorem test_decode_rc_read_byte : decoded .radio [0x33] = some .rcReadByte := by decide
theorem test_decode_rc_match_token : decoded .radio [0x34, 0x02, 0x34, 0x32, 0x00, 0x00]
    = some (.rcMatchToken [0x34, 0x32] 0 false) := by decide
theorem test_decode_rc_match_ascii_uint : decoded .radio [0x35] = some .rcMatchAsciiUint := by decide
theorem test_decode_rc_match_param : decoded .radio [0x36, 0x01, 0x6C, 0x00, 0x08]
    = some (.rcMatchParam [0x6C] 0 8) := by decide
theorem test_decode_rc_available_count : decoded .radio [0x37] = some .rcAvailableCount := by decide
/-- The frames of P4, P5 and P6, byte for byte. -/
theorem test_decode_frames_of_init :
    decoded .spi [0x80, 0x00] = some (.spiStandbyMode 0)
      ∧ decoded .spi [0x8A, 0x01] = some (.spiSetPacketType 1)
      ∧ decoded .spi [0x86, 0x39, 0x30, 0x00, 0x00] = some (.spiSetRfFrequency 959447040)
      ∧ decoded .spi [0x95, 0x04, 0x07, 0x00, 0x01] = some (.spiSetPowerAmplifierConfig 4 7 0 1)
      ∧ decoded .spi [0x8E, 0x16, 0x04] = some (.spiSetTxParams 0x16 4)
      ∧ decoded .spi [0x1D, 0x08, 0xD8, 0x00, 0x00] = some (.spiReadRegister 0x08D8)
      ∧ decoded .spi [0x0D, 0x08, 0xD8, 0xDE] = some (.spiWriteRegister 0x08D8 [0xDE])
      ∧ decoded .spi [0x8F, 0x00, 0x00] = some (.spiSetBufferBaseAddress 0 0)
      ∧ decoded .spi [0x8B, 0x07, 0x04, 0x01, 0x00] = some (.spiSetModulationParams 7 4 1 false)
      ∧ decoded .spi [0x8C, 0x00, 0x08, 0x00, 0xFF, 0x01, 0x00] = some (.spiSetPacketParams 8 0 255 true 0)
      ∧ decoded .spi [0x08, 0x02, 0x43, 0x02, 0x43, 0x00, 0x00, 0x00, 0x00] = some (.spiSetDioIrqParams 0x0243 0x0243)
      ∧ decoded .spi [0x0D, 0x07, 0x40, 0x34, 0x44] = some (.spiWriteRegister 0x0740 [0x34, 0x44]) := by decide +kernel
theorem test_decode_frames_of_traffic :
    decoded .spi [0x0E, 0x00, 0x68, 0x69] = some (.spiWriteBuffer 0 [0x68, 0x69])
      ∧ decoded .spi [0x83, 0x00, 0x0F, 0xA0] = some (.spiSetTxMode 0x000FA0)
      ∧ decoded .spi [0x82, 0xFF, 0xFF, 0xFE] = some (.spiSetRxMode 0xFFFFFE)
      ∧ decoded .spi [0x12, 0x00, 0x00, 0x00] = some .spiGetIrqStatus
      ∧ decoded .spi [0x02, 0xFF, 0xFF] = some .spiClearIrq
      ∧ decoded .spi [0x13, 0x00, 0x00, 0x00] = some .spiGetRxBufferStatus
      ∧ decoded .spi [0x1E, 0x10, 0x00, 0x00, 0x00, 0x00] = some (.spiReadBuffer 0x10 3) := by decide +kernel
/-- V46, R105, and frames cut short or with a wrong literal. -/
theorem test_decode_refuses :
    decoded (.rb .bench) [0x09] = none ∧ decoded (.cs .bench) [0x1F] = none ∧ decoded .radio [0x38] = none
      ∧ decoded .radio [0x40] = none ∧ decoded (.dlc .a) [0xFF] = none ∧ decoded (.rb .bench) [0x06, 0x00] = none
      ∧ decoded (.cs .bench) [0x13, 0x05] = none ∧ decoded .spi [0x82, 0xFF, 0xFF, 0xFF] = none
      ∧ decoded .spi [0x02, 0xFF, 0x00] = none ∧ decoded .spi [0x77] = none := by decide +kernel

/-! ### One step each, values from 95_test_vectors.md -/

/-- The machine at power-on, the parameters fixed. -/
def base : State := { State.reset with params := ps }

/-- What an outcome shows, where there is a next state. -/
def shown {α : Type} (f : State → α) : Out → Option α
  | .next t => some (f t)
  | .fault _ => none
  | .refused _ => none

/-- Cells of array `r` from slot `i` on. -/
def cells (r : Ref) : Nat → List Byte → Memory
  | _, [] => []
  | i, b :: bs => (slotAddress r i, b) :: cells r (i + 1) bs

/-- The full ring of V3: view `(1,1,3)`, array `dbc`. -/
def full : State :=
  { base with
    ring := { backing := some ref1, capacity := 3, readIndex := 1, writeIndex := 1, count := 3 }
    mem := cells ref1 0 [0x64, 0x62, 0x63] }

def view (p : RbPort) (s : State) : Nat × Nat × Nat := ((s.rb p).readIndex, (s.rb p).writeIndex, (s.rb p).count)

/-- V1. -/
theorem test_rb_reset : shown (fun t => (t.ring, t.mem == full.mem)) (exec (.rbReset .bench (some ref2) 4) full)
    = some ({ backing := some ref2, capacity := 4, readIndex := 0, writeIndex := 0, count := 0 }, true) := by decide
/-- V8: a capacity of 0 unbinds. -/
theorem test_rb_reset_none : shown (fun t => t.ring) (exec (.rbReset .bench (some ref2) 0) full) = some Rb.unbound := by
  decide
/-- V9. -/
theorem test_rb_clear : shown (fun t => (t.ring, t.mem == full.mem)) (exec (.rbClear .bench) full)
    = some ({ backing := some ref1, capacity := 3, readIndex := 0, writeIndex := 0, count := 0 }, true) := by decide
/-- V3: the write cursor wraps to slot 0. -/
theorem test_rb_put_wraps :
    shown (fun t => (t.result, view .bench t, t.mem == full.mem))
        (exec (.rbPut .bench 0x64) { full with
          ring := { backing := some ref1, capacity := 3, readIndex := 1, writeIndex := 0, count := 2 }
          mem := cells ref1 0 [0x61, 0x62, 0x63] })
      = some (.ok true, (1, 1, 3), true) := by decide
/-- V3: full; and slots of 16 bits (R10). -/
theorem test_rb_put_full :
    shown (fun t => (t.result, t.ring == full.ring)) (exec (.rbPut .bench 0x65) full) = some (.ok false, true)
      ∧ shown (fun t => (t.result, t.contents .bench, t.mem))
          (exec (.rbPut .bench 0x1234) { base with params := { ps with slotWidth := 16 }, ring := Rb.bound (some ref1) 2 })
        = some (.ok true, [0x1234], []) := by decide +kernel
/-- V3. -/
theorem test_rb_get : shown (fun t => (t.result, view .bench t)) (exec (.rbGet .bench) full)
    = some (.slotOption (some 0x62), (2, 1, 2)) := by decide +kernel
/-- V8. -/
theorem test_rb_get_unbound : shown (fun t => (t.result, view .bench t)) (exec (.rbGet .bench) base)
    = some (.slotOption none, (0, 0, 0)) := by decide
/-- V4. -/
theorem test_rb_peek : shown (fun t => (t.result, view .bench t)) (exec (.rbPeek .bench) full)
    = some (.slot 0x62, (1, 1, 3)) := by decide +kernel
/-- V4: the default, not the stale byte. -/
theorem test_rb_peek_empty :
    shown (fun t => t.result) (exec (.rbPeek .bench) { full with ring := { full.ring with count := 0 } })
      = some (.slot 0) := by decide
/-- V9. -/
theorem test_rb_raw_view : shown (fun t => t.result) (exec (.rbRawView .bench) full) = some (.view 1 1 (some ref1) 3) := by
  decide
/-- V5. -/
theorem test_rb_shift_forward : shown (view .bench) (exec (.rbShiftReadPointer .bench 5 true) full) = some (1, 1, 0) := by
  decide
/-- V6. -/
theorem test_rb_shift_backward :
    shown (view .bench) (exec (.rbShiftReadPointer .bench 2 false) { full with ring := { full.ring with count := 0 } })
      = some (2, 1, 2) := by decide
/-- V3. -/
theorem test_rb_count : shown (fun t => t.result) (exec (.rbCount .bench) full) = some (.count 3) := by decide
/-- V3, V8. -/
theorem test_rb_state :
    shown (fun t => t.result) (exec (.rbState .bench) full) = some (.condition .full)
      ∧ shown (fun t => t.result) (exec (.rbState .bench) base) = some (.condition .empty) := by decide

/-- A stand-alone stream of this capacity holding these bytes from slot 0, `lockout = 1`. -/
def stream (capacity : Nat) (data : List Byte) : State :=
  { base with
    stream :=
      { rb := { backing := some ref1, capacity := capacity, readIndex := 0, writeIndex := data.length % capacity
                count := data.length }
        lockout := 1 }
    mem := cells ref1 0 data }

def csView (s : State) : (Nat × Nat × Nat) × Nat := (view (.inner .bench) s, s.stream.lockout)

/-- `lora_integer_` -/
def loraToken : List Byte := [0x6C, 0x6F, 0x72, 0x61, 0x5F, 0x69, 0x6E, 0x74, 0x65, 0x67, 0x65, 0x72, 0x5F]

/-- V10. -/
theorem test_cs_reset : shown (fun t => (t.stream, t.mem.length)) (exec (.csReset .bench (some ref2) 8) (stream 4 [1, 2]))
    = some ({ rb := { backing := some ref2, capacity := 8, readIndex := 0, writeIndex := 0, count := 0 }, lockout := 1 },
        2) := by decide
/-- R63, R441: what the stand-alone ring left in its array is what a stream bound to that array finds. -/
theorem test_cs_reset_keeps_the_slots :
    shown (fun t => ((List.range 3).map (csSlot .bench t), t.tainted))
        (exec (.csReset .bench (some ref1) 3) { full with ring := Rb.unbound })
      = some ([0x64, 0x62, 0x63], []) := by decide +kernel
/-- V20(e). -/
theorem test_cs_clear : shown csView (exec (.csClear .bench) { stream 4 [1, 2] with stream :=
      { (stream 4 [1, 2]).stream with lockout := 7 } }) = some ((0, 0, 0), 1) := by decide
/-- V10, under a gate: `rxie` ends at 1. -/
theorem test_cs_put_byte :
    shown (fun t => (t.result, csView t, t.mem == cells ref1 0 [0x6F, 0x6E], t.linkA.rxie))
        (exec (.csPutByte .bench 0x6E (.rxGate .a)) (stream 8 [0x6F]))
      = some (.ok true, ((0, 2, 2), 1), true, true) := by decide
/-- V20(e). -/
theorem test_cs_put_byte_full : shown (fun t => (t.result, csView t)) (exec (.csPutByte .bench 9 .noop) (stream 2 [1, 2]))
    = some (.ok false, ((0, 0, 2), 1)) := by decide
/-- V20(b): the lockout falls with every byte taken. -/
theorem test_cs_get_byte : shown (fun t => (t.result, csView t)) (exec (.csGetByte .bench .noop) (stream 8 [0x31, 0x32]))
    = some (.byteOption (some 0x31), ((1, 2, 1), 0)) := by decide
/-- V20(e). -/
theorem test_cs_get_byte_empty : shown (fun t => (t.result, csView t)) (exec (.csGetByte .bench .noop) (stream 8 []))
    = some (.byteOption none, ((0, 0, 0), 1)) := by decide
/-- V20(b): `move_cursor` puts the trailing bytes back. -/
theorem test_cs_match_token :
    shown (fun t => (t.result, csView t))
        (exec (.csMatchToken .bench [0x73, 0x65, 0x74, 0x5F] 2 true .noop)
          (stream 16 [0x73, 0x65, 0x74, 0x5F, 0x31, 0x32]))
      = some (.ok true, ((4, 6, 2), 3)) := by decide +kernel
/-- V18: the window wraps, and stale memory matches. -/
theorem test_cs_match_token_wraps :
    shown (fun t => (t.result, csView t))
        (exec (.csMatchToken .bench [0x6F, 0x6E] 0 false .noop)
          { stream 8 [0x6E] with mem := cells ref1 0 [0x6E] ++ cells ref1 7 [0x6F] })
      = some (.ok true, ((1, 1, 0), 1)) := by decide +kernel
/-- V16: ten digits wrap modulo `2 ^ 32`. -/
theorem test_cs_match_ascii_uint_wraps :
    shown (fun t => (t.result, csView t))
        (exec (.csMatchAsciiUint .bench .noop)
          (stream 16 [0x34, 0x32, 0x39, 0x34, 0x39, 0x36, 0x37, 0x32, 0x39, 0x36]))
      = some (.uintOption (some 0), ((10, 10, 0), 0)) := by decide +kernel
/-- V17. -/
theorem test_cs_match_ascii_uint_none :
    shown (fun t => (t.result, csView t)) (exec (.csMatchAsciiUint .bench .noop) (stream 16 [0x78, 0x31]))
      = some (.uintOption none, ((0, 2, 2), 1)) := by decide
/-- V13. -/
theorem test_cs_match_param :
    shown (fun t => (t.result, csView t)) (exec (.csMatchParam .bench loraToken 0 8 .noop) (stream 32 (loraToken ++ [0x34, 0x32])))
      = some (.uintOption (some 42), ((15, 15, 0), 1)) := by decide +kernel
/-- V14: the delimiter mismatch zeroes the slot of the token's first byte. -/
theorem test_cs_match_param_mismatch :
    shown (fun t => (t.result, csView t, csSlot .bench t 0))
        (exec (.csMatchParam .bench loraToken 0x21 8 .noop) (stream 32 (loraToken ++ [0x34, 0x61, 0x32])))
      = some (.uintOption none, ((14, 16, 2), 3), 0) := by decide +kernel
/-- V20(e). -/
theorem test_cs_count : shown (fun t => t.result) (exec (.csCount .bench) (stream 8 [1, 2])) = some (.count 2) := by decide

/-- `LINK_A` initialised as in V21: `err_en`, `tx` of 2 slots, `rx` of 2 slots. -/
def linked : State :=
  { base with
    linkA :=
      { tx := Rb.bound (some ref1) 2, rx := { rb := Rb.bound (some ref2) 2, lockout := 1 }
        status := { txClass := .none, rxClass := .none, lastError := .none, enabled := true }
        errEn := true, txie := false, rxie := true } }

/-- Signals of a peripheral. -/
def sig (tx rx : Bool) (d : Byte) : PeriphIn := { PeriphIn.low with txReady := tx, rxReady := rx, rxData := d }

/-- V21. -/
theorem test_dlc_init :
    shown (fun t => (t.linkA == linked.linkA, t.trace))
        (exec (.dlcInit .a ⟨true, []⟩ (some ref1) 2 (some ref2) 2) base)
      = some (true, [.cfgProgram .a ⟨true, []⟩]) := by decide
/-- V21: a second one does nothing. -/
theorem test_dlc_init_again :
    shown (fun t => (t.linkA == linked.linkA, t.trace)) (exec (.dlcInit .a ⟨false, []⟩ (some ref3) 4 none 0) linked)
      = some (true, []) := by decide
/-- V27. -/
theorem test_dlc_deinit :
    shown (fun t => (t.linkA, t.trace, t.mem.length))
        (exec (.dlcDeinit .a) { linked with
          linkA :=
            { linked.linkA with
              status := { txClass := .progressed, rxClass := .error, lastError := .frame, enabled := true }
              tx := { linked.linkA.tx with writeIndex := 1, count := 1 }, txie := true }
          mem := cells ref1 0 [0x41] })
      = some ({ linked.linkA with
          tx := Rb.unbound, rx := Cs.unbound, rxie := false
          status := { txClass := .progressed, rxClass := .error, lastError := .frame, enabled := false } },
        [.cfgTeardown .a], 1) := by decide
/-- V26. -/
theorem test_dlc_on_interrupt_both_halves :
    shown (fun t => (t.linkA.status, view (.tx .a) t, view (.inner (.rx .a)) t, t.trace))
        (exec (.dlcOnInterrupt .a) { linked with
          linkA := { linked.linkA with tx := { linked.linkA.tx with writeIndex := 1, count := 1 } }
          mem := cells ref1 0 [0x41], periphA := sig true true 0x7A })
      = some ({ txClass := .progressed, rxClass := .progressed, lastError := .none, enabled := true }, (1, 1, 0), (0, 1, 1),
          [.txWr .a 0x41, .rxRd .a]) := by decide
/-- V24: a frame error beats a parity error, and the byte is not taken. -/
theorem test_dlc_on_interrupt_error :
    shown (fun t => (t.linkA.status.rxClass, t.linkA.status.lastError, view (.inner (.rx .a)) t, t.trace))
        (exec (.dlcOnInterrupt .a) { linked with
          periphA := { sig false true 0x7A with errFrame := true, errParity := true } })
      = some (.error, .frame, (0, 0, 0), []) := by decide
/-- V22. -/
theorem test_dlc_transmit :
    shown (fun t => (t.result, view (.tx .a) t, t.linkA.txie, t.mem == cells ref1 0 [0x41]))
        (exec (.dlcTransmit .a 0x41) linked)
      = some (.ok true, (0, 1, 1), true, true) := by decide
/-- V21. -/
theorem test_dlc_transmit_disabled : shown (fun t => (t.result, t.linkA.txie)) (exec (.dlcTransmit .a 0x41) base)
    = some (.ok false, false) := by decide

/-- `rx` of V23 full with `ab`, the receive interrupt disarmed. -/
def received : State :=
  { linked with
    linkA :=
      { linked.linkA with
        rx := { rb := { backing := some ref2, capacity := 2, readIndex := 0, writeIndex := 0, count := 2 }, lockout := 1 }
        rxie := false }
    mem := cells ref2 0 [0x61, 0x62] }

/-- V23: taking a byte re-arms. -/
theorem test_dlc_receive :
    shown (fun t => (t.result, view (.inner (.rx .a)) t, t.linkA.rx.lockout, t.linkA.rxie)) (exec (.dlcReceive .a) received)
      = some (.byteOption (some 0x61), (1, 0, 1), 0, true) := by decide
/-- V21. -/
theorem test_dlc_receive_disabled : shown (fun t => (t.result, t.linkA.rxie)) (exec (.dlcReceive .a) base)
    = some (.byteOption none, false) := by decide
/-- V28: what does not fit is dropped. -/
theorem test_dlc_transmit_packet :
    shown (fun t => (t.result, view (.tx .a) t, t.mem == cells ref1 0 [1, 2])) (exec (.dlcTransmitPacket .a [1, 2, 3]) linked)
      = some (.none, (0, 0, 2), true) := by decide
/-- V28: the count of bytes queued. -/
theorem test_dlc_transmit_string :
    shown (fun t => t.result)
        (exec (.dlcTransmitString .a [0x61, 0x62, 0x63, 0x64, 0x65, 0x66])
          { linked with linkA := { linked.linkA with tx := Rb.bound (some ref1) 4 } })
      = some (.count 4) := by decide
/-- V28. -/
theorem test_dlc_transmit_uint :
    shown (fun t => t.mem == cells ref1 0 [0x34, 0x32, 0x39, 0x34, 0x39, 0x36, 0x37, 0x32, 0x39, 0x35])
        (exec (.dlcTransmitUint .a 4294967295) { linked with linkA := { linked.linkA with tx := Rb.bound (some ref1) 16 } })
      = some true := by decide +kernel
/-- V28: zero is one digit. -/
theorem test_dlc_transmit_uint_zero :
    shown (fun t => (view (.tx .a) t, t.mem == cells ref1 0 [0x30])) (exec (.dlcTransmitUint .a 0) linked)
      = some ((0, 1, 1), true) := by decide
/-- V10 on `rx`. -/
theorem test_dlc_match_token :
    shown (fun t => (t.result, view (.inner (.rx .a)) t, t.linkA.rx.lockout, t.linkA.rxie))
        (exec (.dlcMatchToken .a [0x61, 0x62] 0 false) received)
      = some (.ok true, (0, 0, 0), 1, true) := by decide +kernel
/-- V17 on `rx`, whose two bytes are no digits; the gate re-arms (C4). -/
theorem test_dlc_match_ascii_uint :
    shown (fun t => (t.result, view (.inner (.rx .a)) t, t.linkA.rxie)) (exec (.dlcMatchAsciiUint .a) received)
      = some (.uintOption none, (0, 0, 2), true) := by decide
/-- The token `a` (0x61) before the digit `2`, R174. -/
theorem test_dlc_match_param :
    shown (fun t => (t.result, view (.inner (.rx .a)) t, t.linkA.rx.lockout))
        (exec (.dlcMatchParam .a [0x61] 0 8) { received with mem := cells ref2 0 [0x61, 0x32] })
      = some (.uintOption (some 2), (0, 0, 0), 1) := by decide +kernel
/-- V24: the status codes of an error, R93. -/
theorem test_dlc_status :
    shown (fun t => t.result) (exec (.dlcStatus .a) linked)
        = some (.linkStatus { txClass := .none, rxClass := .none, lastError := .none, enabled := true })
      ∧ ({ txClass := .complete, rxClass := .progressed, lastError := .none, enabled := true } : LinkStatus).codes
        = (1, 3, 0, 1) := by decide

/-- A link with every class set. -/
def noisy : State :=
  { linked with
    linkA := { linked.linkA with
      status := { txClass := .progressed, rxClass := .error, lastError := .parity, enabled := true } } }

/-- V24. -/
theorem test_dlc_ack_error : shown (fun t => t.linkA.status) (exec (.dlcAckError .a) noisy)
    = some { txClass := .progressed, rxClass := .error, lastError := .none, enabled := true } := by decide
/-- V22. -/
theorem test_dlc_ack_tx_irq : shown (fun t => t.linkA.status) (exec (.dlcAckTxIrq .a) noisy)
    = some { txClass := .none, rxClass := .error, lastError := .parity, enabled := true } := by decide
/-- V23. -/
theorem test_dlc_ack_rx_irq : shown (fun t => t.linkA.status) (exec (.dlcAckRxIrq .a) noisy)
    = some { txClass := .progressed, rxClass := .none, lastError := .parity, enabled := true } := by decide

/-- `LINK_S` of V29 and P5: enabled, `rx` empty with this capacity; the radio as P5 leaves it, its sink empty. -/
def onSpi (capacity : Nat) : State :=
  { base with
    linkS :=
      { tx := Rb.bound (some ref1) 4, rx := { rb := Rb.bound (some ref2) capacity, lockout := 1 }
        status := { txClass := .none, rxClass := .none, lastError := .none, enabled := true }
        errEn := false, txie := false, rxie := true }
    radio :=
      { sink := { rb := Rb.bound (some ref3) 32, lockout := 1 }, preambleLength := 8, crcEnabled := true, resetN := true
        mode := .standby } }

/-- The bytes clocked out, each select window closed by a `none`. -/
def wire (s : State) : List (Option Byte) :=
  s.trace.filterMap fun e => match e with
    | .txWr _ b => some (some b)
    | .select true => some none
    | _ => none

/-- A frame as `wire` shows it. -/
def window (frame : List Byte) : List (Option Byte) := frame.map some ++ [none]

/-- V29. -/
theorem test_dlc_host_transaction :
    shown (fun t => (t.result, wire t, t.unread (.rx .s), t.linkS.rx.lockout, t.selectN))
        (exec (.dlcHostTransaction .s [0x12] 3) { onSpi 8 with agenda := bytesScript [0xA2, 0xA2, 0x00, 0x02] })
      = some (.byte 0xA2, window [0x12, 0, 0, 0], [0xA2, 0x00, 0x02], 1, true) := by decide +kernel
/-- V29: `rx` of two slots takes two responses. -/
theorem test_dlc_host_transaction_full :
    shown (fun t => (t.result, wire t, t.unread (.rx .s)))
        (exec (.dlcHostTransaction .s [0x12] 3) { onSpi 2 with agenda := bytesScript [0xA2, 0xA2, 0x00] })
      = some (.byte 0xA2, window [0x12, 0, 0], [0xA2, 0x00]) := by decide +kernel

/-- A transceiver that answers 0xA2 `n` times. -/
def ans (n : Nat) : List Byte := List.replicate n 0xA2

/-- P5: the transceiver answers 0xA2 to everything but the registers read in steps 7 and 10. -/
def initScript : List Event :=
  quietScript 2 ++ exchangeScript false (ans 2) ++ exchangeScript false (ans 2) ++ exchangeScript false (ans 5)
    ++ exchangeScript false (ans 5) ++ exchangeScript false (ans 3) ++ patchScript 0xA2 0xA2 0xA2 0xA2 0xC8 (ans 4)
    ++ exchangeScript false (ans 3) ++ exchangeScript false (ans 5) ++ patchScript 0xA2 0xA2 0xA2 0xA2 0x00 (ans 4)
    ++ exchangeScript false (ans 7) ++ exchangeScript false (ans 9) ++ exchangeScript false (ans 5)

/-- P5: the byte stream. -/
theorem test_rc_init_wire :
    shown wire (exec (.rcInit config (some ref3) 32) { onSpi 32 with agenda := initScript })
      = some (window [0x80, 0x00] ++ window [0x8A, 0x01] ++ window [0x86, 0x39, 0x30, 0x00, 0x00]
          ++ window [0x95, 0x04, 0x07, 0x00, 0x01] ++ window [0x8E, 0x16, 0x04]
          ++ window [0x1D, 0x08, 0xD8, 0x00, 0x00] ++ window [0x0D, 0x08, 0xD8, 0xDE] ++ window [0x8F, 0x00, 0x00]
          ++ window [0x8B, 0x07, 0x04, 0x01, 0x00] ++ window [0x1D, 0x08, 0x89, 0x00, 0x00]
          ++ window [0x0D, 0x08, 0x89, 0x04] ++ window [0x8C, 0x00, 0x08, 0x00, 0xFF, 0x01, 0x00]
          ++ window [0x08, 0x02, 0x43, 0x02, 0x43, 0x00, 0x00, 0x00, 0x00] ++ window [0x0D, 0x07, 0x40, 0x34, 0x44]) := by
  decide +kernel
/-- P5: the end state. -/
theorem test_rc_init_state :
    shown (fun t => (t.radio, view (.inner (.rx .s)) t, t.linkS.rx.lockout, t.phase, t.agenda))
        (exec (.rcInit config (some ref3) 32) { onSpi 32 with
          agenda := initScript
          radio := { State.reset.radio with sink := Cs.unbound } })
      = some ({ sink := { rb := Rb.bound (some ref3) 32, lockout := 1 }, preambleLength := 8, crcEnabled := true
                resetN := true, mode := .standby }, (2, 2, 0), 0, .ready, []) := by decide +kernel
/-- P4. -/
theorem test_rc_transmit :
    shown (fun t => (t.result, wire t, view (.inner (.rx .s)) t))
        (exec (.rcTransmit [0x68, 0x69] 0xFA0) { onSpi 32 with
          agenda := exchangeScript false (ans 7) ++ exchangeScript false (ans 4) ++ exchangeScript false (ans 4)
            ++ irqScript 0xA2 0xA2 0x00 0x01 (ans 3) })
      = some (.ok true,
          window [0x8C, 0x00, 0x08, 0x00, 0x02, 0x01, 0x00] ++ window [0x0E, 0x00, 0x68, 0x69]
            ++ window [0x83, 0x00, 0x0F, 0xA0] ++ window [0x12, 0, 0, 0] ++ window [0x02, 0xFF, 0xFF],
          (3, 3, 0)) := by decide +kernel
/-- V34: 256 bytes, no frame. -/
theorem test_rc_transmit_too_long : shown (fun t => (t.result, t.trace)) (exec (.rcTransmit bytes256 0) (onSpi 32))
    = some (.ok false, []) := by decide +kernel
/-- V32 with the offset 0x10. -/
theorem test_rc_receive :
    shown (fun t => ((t.result, wire t), t.unread .sink, t.radio.sink.lockout, view (.inner (.rx .s)) t))
        (exec (.rcReceive 0x100) { onSpi 32 with
          agenda := exchangeScript false (ans 7) ++ exchangeScript false (ans 4)
            ++ irqScript 0xA2 0xA2 0x00 0x02 (ans 3) ++ payloadScript 0xA2 0xA2 3 0x10 (ans 3) [0x61, 0x62, 0x63] })
      = some ((.received true false,
          window [0x8C, 0x00, 0x08, 0x00, 0xFF, 0x01, 0x00] ++ window [0x82, 0x00, 0x01, 0x00] ++ window [0x12, 0, 0, 0]
            ++ window [0x02, 0xFF, 0xFF] ++ window [0x13, 0, 0, 0] ++ window [0x1E, 0x10, 0x00, 0, 0, 0]),
          [0x61, 0x62, 0x63], 1, (9, 9, 0)) := by decide +kernel
/-- V31. -/
theorem test_rc_receive_timeout :
    shown (fun t => (t.result, wire t, t.unread .sink))
        (exec (.rcReceive 0x100) { onSpi 32 with
          agenda := exchangeScript false (ans 7) ++ exchangeScript false (ans 4)
            ++ irqScript 0xA2 0xA2 0x02 0x00 (ans 3) })
      = some (.received false true,
          window [0x8C, 0x00, 0x08, 0x00, 0xFF, 0x01, 0x00] ++ window [0x82, 0x00, 0x01, 0x00] ++ window [0x12, 0, 0, 0]
            ++ window [0x02, 0xFF, 0xFF], []) := by decide +kernel

/-- The sink of P6 holding these bytes. -/
def sunk (data : List Byte) : State :=
  { onSpi 32 with
    radio := { (onSpi 32).radio with
      sink :=
        { rb := { backing := some ref3, capacity := 32, readIndex := 0, writeIndex := data.length, count := data.length }
          lockout := 1 } }
    mem := cells ref3 0 data }

/-- P6, step 4, and a byte to read. -/
theorem test_rc_read_byte :
    shown (fun t => t.result) (exec .rcReadByte (sunk [])) = some (.byteOption none)
      ∧ shown (fun t => t.result) (exec .rcReadByte (sunk [0x61])) = some (.byteOption (some 0x61)) := by decide
/-- V10 on the sink. -/
theorem test_rc_match_token :
    shown (fun t => (t.result, t.radio.sink.lockout)) (exec (.rcMatchToken [0x6F, 0x6E] 0 false) (sunk [0x6F, 0x6E]))
      = some (.ok true, 1) := by decide +kernel
/-- V17 on the sink. -/
theorem test_rc_match_ascii_uint :
    shown (fun t => (t.result, view (.inner .sink) t, t.radio.sink.lockout)) (exec .rcMatchAsciiUint (sunk [0x30, 0x30, 0x37]))
      = some (.uintOption (some 7), (3, 3, 0), 0) := by decide +kernel
/-- P6, step 3. -/
theorem test_rc_match_param :
    shown (fun t => (t.result, view (.inner .sink) t, t.radio.sink.lockout))
        (exec (.rcMatchParam loraToken 0 8) (sunk (loraToken ++ [0x34, 0x32])))
      = some (.uintOption (some 42), (15, 15, 0), 1) := by decide +kernel
/-- P6, step 2. -/
theorem test_rc_available_count : shown (fun t => t.result) (exec .rcAvailableCount (sunk loraToken)) = some (.count 13) := by
  decide

/-- What one frame sends, under a transceiver that answers `ds`. -/
def sent (i : Instr) (ds : List Byte) : Option (Result × List (Option Byte) × List Byte) :=
  shown (fun t => (t.result, wire t, t.unread (.rx .s))) (exec i { onSpi 32 with agenda := exchangeScript false ds })

/-- What `sent` shows of a frame without response bytes. -/
def plain (frame : List Byte) : Option (Result × List (Option Byte) × List Byte) := some (.byte 0xA2, window frame, [])

/-! P5, P4, V32, V41, V43, V44: each frame on the wire. -/

theorem test_spi_standby_mode : sent (.spiStandbyMode 0) (ans 2) = plain [0x80, 0x00] := by decide +kernel
theorem test_spi_set_packet_type : sent (.spiSetPacketType 1) (ans 2) = plain [0x8A, 0x01] := by decide +kernel
theorem test_spi_set_rf_frequency : sent (.spiSetRfFrequency (rfWord 868100000)) (ans 5)
    = plain [0x86, 0x36, 0x41, 0x99, 0x9A] := by decide +kernel
theorem test_spi_set_power_amplifier_config : sent (.spiSetPowerAmplifierConfig 4 7 0 1) (ans 5)
    = plain [0x95, 0x04, 0x07, 0x00, 0x01] := by decide +kernel
theorem test_spi_set_tx_params : sent (.spiSetTxParams 0x16 4) (ans 3) = plain [0x8E, 0x16, 0x04] := by decide +kernel
theorem test_spi_write_register : sent (.spiWriteRegister 0x0740 [0x14, 0x24]) (ans 5)
    = plain [0x0D, 0x07, 0x40, 0x14, 0x24] := by decide +kernel
theorem test_spi_read_register : sent (.spiReadRegister 0x08D8) (ans 4 ++ [0xC8])
    = some (.byte 0xA2, window [0x1D, 0x08, 0xD8, 0x00, 0x00], [0xC8]) := by decide +kernel
theorem test_spi_set_buffer_base_address : sent (.spiSetBufferBaseAddress 0 0) (ans 3) = plain [0x8F, 0x00, 0x00] := by
  decide +kernel
theorem test_spi_set_modulation_params : sent (.spiSetModulationParams 7 4 1 false) (ans 5)
    = plain [0x8B, 0x07, 0x04, 0x01, 0x00] := by decide +kernel
theorem test_spi_set_packet_params : sent (.spiSetPacketParams 0x1234 0 5 false 0) (ans 7)
    = plain [0x8C, 0x12, 0x34, 0x00, 0x05, 0x00, 0x00] := by decide +kernel
theorem test_spi_set_dio_irq_params : sent (.spiSetDioIrqParams (irqMask Enc.sx1262) 0x0243) (ans 9)
    = plain [0x08, 0x02, 0x43, 0x02, 0x43, 0x00, 0x00, 0x00, 0x00] := by decide +kernel
theorem test_spi_write_buffer : sent (.spiWriteBuffer 0 [0x68, 0x69]) (ans 4) = plain [0x0E, 0x00, 0x68, 0x69] := by
  decide +kernel
theorem test_spi_set_tx_mode : sent (.spiSetTxMode (txTimeout 0x01000005)) (ans 4) = plain [0x83, 0x00, 0x00, 0x05] := by
  decide +kernel
theorem test_spi_set_rx_mode : sent (.spiSetRxMode (rxTimeout 0xFFFFFFFF)) (ans 4) = plain [0x82, 0xFF, 0xFF, 0xFE] := by
  decide +kernel
/-- The clear-all follows (R335, R448). -/
theorem test_spi_get_irq_status :
    shown (fun t => (t.result, wire t, t.unread (.rx .s), t.agenda))
        (exec .spiGetIrqStatus { onSpi 32 with
          agenda := exchangeScript true [0xA1, 0xA2, 0x02, 0x43] ++ exchangeScript false (ans 3) })
      = some (.byte 0xA1, window [0x12, 0, 0, 0] ++ window [0x02, 0xFF, 0xFF], [0xA2, 0x02, 0x43], []) := by
  decide +kernel
theorem test_spi_clear_irq : sent .spiClearIrq (ans 3) = plain [0x02, 0xFF, 0xFF] := by decide +kernel
theorem test_spi_get_rx_buffer_status : sent .spiGetRxBufferStatus [0xA2, 0xA2, 0x03, 0x10]
    = some (.byte 0xA2, window [0x13, 0, 0, 0], [0xA2, 0x03, 0x10]) := by decide +kernel
theorem test_spi_read_buffer : sent (.spiReadBuffer 0x10 2) (ans 3 ++ [0x61, 0x62])
    = some (.byte 0xA2, window [0x1E, 0x10, 0x00, 0, 0], [0x61, 0x62]) := by decide +kernel

/-! ### The application's stores (R82, R232; log 22) -/

/-- Between operations a store changes the array; at a point inside an operation and while APP hangs it does not. -/
theorem test_store_between_operations_only :
    shown (fun t => t.mem) (step { base with agenda := [.store ref1 2 0x7A] }) = some (cells ref1 2 [0x7A])
      ∧ (point { base with agenda := [.store ref1 2 0x7A, .app] }).mem = []
      ∧ shown (fun t => t.mem) (step { base with agenda := [.store ref1 2 0x7A], phase := .waiting .irqHigh }) = some [] := by
  decide +kernel

/-! ### Values of the computed operands (V33, V40 to V43) -/

theorem test_frequency_words :
    rfWord 915000000 = 0x39300000 ∧ rfWord 868000000 = 0x36400000 ∧ rfWord 433920000 = 0x1B1EB852
      ∧ rfWord 150000000 = 0x09600000 ∧ rfWord 0 = 0 ∧ rfWord 1 = 1 ∧ rfWord 4095999999 = 0xFFFFFFFF
      ∧ freqFits 4095999999 = true ∧ freqFits 4096000000 = false := by decide +kernel
theorem test_irq_status : irqStatusOf 0x02 0x43 = 0x0243 ∧ irqStatusOf 0x00 0x02 = 0x0002 ∧ irqStatusOf 0x80 0x00 = 0x8000 := by
  decide
theorem test_rx_outcomes :
    rxOutcome Enc.sx1262 0x0000 = .nothing ∧ rxOutcome Enc.sx1262 0x0001 = .nothing
      ∧ rxOutcome Enc.sx1262 0x0040 = .nothing ∧ rxOutcome Enc.sx1262 0x0240 = .timedOut
      ∧ rxOutcome Enc.sx1262 0x0242 = .crcFailure ∧ rxOutcome Enc.sx1262 0x0202 = .payload := by decide
theorem test_enc_is_allowed : Enc.sx1262.wf = true := by decide +kernel

/-! ### For every statement with hypotheses, a state and operands that meet them

`test_witness_<statement>[_<clause>]`; values at the ends of their ranges where a clause has a range. -/

theorem untainted {s : State} (h : s.tainted = []) (p : RbPort) : s.Untainted p := by
  intro r _ hr; rw [h] at hr; cases hr

theorem test_witness_StepRunsTheDecodedRequest :
    ({ base with requests := [⟨.dlc .a, [0x2C]⟩] } : State).phase = .ready ∧ base.agenda = []
      ∧ decode ps (.dlc .a) [0x2C] = .ok (.dlcStatus .a, []) := ⟨rfl, rfl, rfl⟩
theorem test_witness_StepRunsTheDecodedRequest_scheduled :
    (base.withFetchWord 8 0x17).phase = .ready
      ∧ (base.withFetchWord 8 0x17).agenda = .app :: []
      ∧ (base.withFetchWord 8 0x17).requests = ⟨.cs .bench, 0x17 :: List.replicate 31 0⟩ :: []
      ∧ decode ps (.cs .bench) (0x17 :: List.replicate 31 0) = .ok (.csCount .bench, List.replicate 31 0) :=
  ⟨rfl, rfl, rfl, rfl⟩
theorem test_witness_UndecodableRequestChangesNothing :
    base.phase = .ready ∧ base.agenda = [] ∧ decode ps (.dlc .a) [0x22] = .error .unknownOp := ⟨rfl, rfl, rfl⟩
theorem test_witness_HandlerStepsExactlyWhenPending :
    ({ linked with periphA := sig false true 0x61 } : State).pending .a = true ∧ linked.pending .a = false
      ∧ linked.phase = .ready := by decide
theorem test_witness_OnlyListedCodesDecode :
    decoded (.rb .bench) [0x08] = some (.rbState .bench) ∧ decoded (.cs .bench) [0x11] = some (.csClear .bench)
      ∧ decoded (.cs .bench) [0x17] = some (.csCount .bench) ∧ decoded (.dlc .a) [0x21] = some (.dlcDeinit .a)
      ∧ decoded (.dlc .a) [0x2F] = some (.dlcAckRxIrq .a) ∧ decoded (.irq .s) [0x22] = some (.dlcOnInterrupt .s)
      ∧ decoded .radio [0x33] = some .rcReadByte ∧ decoded .radio [0x37] = some .rcAvailableCount := by decide
theorem test_witness_DecodedInstructionsAreWellFormed :
    decode ps (.rb .bench) [0x02, 0xFF] = .ok (.rbPut .bench 255, [])
      ∧ decode ps .spi [0x82, 0xFF, 0xFF, 0xFE] = .ok (.spiSetRxMode 0xFFFFFE, []) := ⟨rfl, rfl⟩
theorem test_witness_DecodeOfEncodeIsTheInstruction :
    ps.enc.wf = true ∧ (Instr.rbPut .bench 255).wf ps = true
      ∧ (Instr.csMatchToken .bench (List.replicate 255 0x41) 255 true .noop).wf ps = true
      ∧ (Instr.spiReadBuffer 0xFF 0xFF).wf ps = true ∧ (Instr.spiSetRxMode 0xFFFFFE).wf ps = true := by decide +kernel

/-- `received` with room in `rx`, a byte to send, and the handler's turn. -/
def busyLink : State :=
  { linked with
    linkA := { linked.linkA with tx := { linked.linkA.tx with writeIndex := 1, count := 1 } }
    mem := cells ref1 0 [0x41]
    periphA := sig true true 0x7A
    agenda := [.isr .a] }

theorem busyLink_rings : RingsOk busyLink := by
  intro p; rcases p with _ | (_ | _) | (_ | (_ | _) | _) <;> decide
theorem busyLink_ownership : OwnershipOk busyLink := by
  intro p q r h hp hq
  rcases p with _ | (_ | _) | (_ | (_ | _) | _) <;> rcases q with _ | (_ | _) | (_ | (_ | _) | _) <;>
    first
    | exact absurd rfl h
    | (cases hp; done)
    | (cases hq; done)
    | (cases hp; cases hq)
theorem busyLink_lockouts : LockoutsOk busyLink := by
  intro c; rcases c with _ | (_ | _) | _ <;> decide
theorem busyLink_memory : MemoryOk busyLink := ⟨by decide, by decide⟩
theorem busyLink_inv : Inv busyLink :=
  ⟨busyLink_rings, busyLink_lockouts, busyLink_memory, busyLink_ownership, .inl rfl, .inl rfl, fun _ => .inl rfl, rfl, .inl rfl⟩
/-- The hypotheses of the six statements over every step. -/
theorem test_witness_invariants : Inv busyLink ∧ ∃ t, step busyLink = .next t := ⟨busyLink_inv, _, rfl⟩
theorem test_witness_OnlyTheRadioRefuses :
    exec (.rcReceive 0) { onSpi 8 with radio := State.reset.radio } = .refused .radioNotInitialised
      ∧ exec (.rcTransmit [] 0) { onSpi 8 with radio := State.reset.radio } = .refused .radioNotInitialised := ⟨rfl, rfl⟩

theorem test_witness_RbResetBindsTheArray :
    (0 : Word32).toNat = 0 ∧ (1 : Word32).toNat ≠ 0 ∧ some ref1 ≠ none
      ∧ ∀ q r, q ≠ RbPort.bench → some ref2 = some r → (full.rb q).backing ≠ some r := by
  refine ⟨by decide, by decide, by decide, ?_⟩
  intro q r h hr
  rcases q with _ | (_ | _) | (_ | (_ | _) | _) <;> first | exact absurd rfl h | (intro e; cases e)
theorem test_witness_RbPutStoresTheValue :
    (full.rb .bench).count = (full.rb .bench).capacity ∧ 2 ^ slotWidthOf full.params .bench ≤ 256
      ∧ (busyLink.rb (.tx .a)).count ≠ (busyLink.rb (.tx .a)).capacity ∧ 255 < 2 ^ slotWidthOf busyLink.params (.tx .a)
      ∧ (busyLink.rb (.tx .a)).Ok := by decide
theorem test_witness_RbPutStoresTheValue_stored : busyLink.Untainted (.tx .a) ∧ MemoryOk busyLink :=
  ⟨untainted rfl _, busyLink_memory⟩
theorem test_witness_RbGetTakesTheOldest : (base.rb .bench).count = 0 ∧ (full.rb .bench).count ≠ 0 := by decide
theorem test_witness_RbIsAQueue :
    (busyLink.rb (.tx .a)).Ok ∧ 255 < 2 ^ slotWidthOf busyLink.params (.tx .a)
      ∧ (busyLink.rb (.tx .a)).count ≠ (busyLink.rb (.tx .a)).capacity ∧ busyLink.contents (.tx .a) = [0x41]
      ∧ busyLink.contents (.inner (.rx .a)) = [] := by decide +kernel
theorem test_witness_RbTakesCapacityManyPuts :
    (linked.rb (.tx .a)).Ok ∧ (linked.rb (.tx .a)).count = 0 ∧ 1 ≤ (linked.rb (.tx .a)).capacity
      ∧ [0, 255].length = (linked.rb (.tx .a)).capacity ∧ ∀ x ∈ [0, 255], x < 2 ^ slotWidthOf linked.params (.tx .a) := by
  decide

theorem test_witness_CsResetClearAndCount :
    (0 : Word32).toNat = 0 ∧ (1 : Word32).toNat ≠ 0 ∧ some ref2 ≠ none
      ∧ ∀ q r, q ≠ RbPort.inner .bench → some ref2 = some r → ((stream 2 [1]).rb q).backing ≠ some r := by
  refine ⟨by decide, by decide, by decide, ?_⟩
  intro q r h hr
  rcases q with _ | (_ | _) | (_ | (_ | _) | _) <;> first | exact absurd rfl h | (intro e; cases e)
theorem test_witness_CsPutByteStores :
    ((stream 2 [1, 2]).rb (.inner .bench)).Ok
      ∧ ((stream 2 [1, 2]).rb (.inner .bench)).count = ((stream 2 [1, 2]).rb (.inner .bench)).capacity
      ∧ ((stream 2 [1]).rb (.inner .bench)).Ok
      ∧ ((stream 2 [1]).rb (.inner .bench)).count ≠ ((stream 2 [1]).rb (.inner .bench)).capacity := by decide
theorem test_witness_CsPutByteStores_stored : (stream 2 [1]).Untainted (.inner .bench) ∧ MemoryOk (stream 2 [1]) :=
  ⟨untainted rfl _, by decide, by decide⟩
theorem test_witness_CsGetByteTakes :
    ((stream 2 []).rb (.inner .bench)).count = 0 ∧ ((stream 2 [1]).rb (.inner .bench)).count ≠ 0 := by decide
/-- The window matches with the lockout met exactly. -/
theorem test_witness_CsMatchTokenComparesTheWindow :
    ((stream 8 [0x6F]).rb (.inner .bench)).Ok ∧ ((stream 8 [0x6F]).cs .bench).lockout ≤ 1
      ∧ TokenInWindow (stream 8 [0x6F]) .bench [0x6F] 0 := by
  refine ⟨by decide, by decide, ?_⟩
  intro i h
  obtain rfl : i = 0 := by simpa using h
  exact (by decide +kernel : csSlot .bench (stream 8 [0x6F]) 0 = 0x6F)
/-- Each of its three conditions fails somewhere: nothing unread, unbound, another byte. -/
theorem test_witness_CsMatchTokenComparesTheWindow_fails :
    ((stream 8 []).rb (.inner .bench)).Ok ∧ ¬((stream 8 []).cs .bench).lockout ≤ ((stream 8 []).rb (.inner .bench)).count
      ∧ (base.rb (.inner .bench)).Ok ∧ ¬1 ≤ (base.rb (.inner .bench)).capacity
      ∧ csSlot .bench (stream 8 [0x6F]) 0 ≠ 0x6E := by decide +kernel
theorem test_witness_NoTokenMatchesTwice :
    ((stream 8 [0x6F]).rb (.inner .bench)).Ok
      ∧ ∃ t, exec (.csMatchToken .bench [0x6F] 0 false .noop) (stream 8 [0x6F]) = .next t ∧ t.result = .ok true :=
  ⟨by decide, _, rfl, by decide +kernel⟩
theorem test_witness_CsMatchAsciiUintReadsTheDigits :
    ((stream 8 [0x30, 0x39, 0x2F]).rb (.inner .bench)).Ok
      ∧ (stream 8 [0x30, 0x39, 0x2F]).unread .bench = [0x30, 0x39] ++ [0x2F]
      ∧ (∀ b ∈ [0x30, 0x39], 0x30 ≤ (b : Byte).toNat ∧ b.toNat ≤ 0x39)
      ∧ ∀ b : Byte, [0x2F].head? = some b → ¬(0x30 ≤ b.toNat ∧ b.toNat ≤ 0x39) := by
  refine ⟨by decide, by decide +kernel, by decide, ?_⟩
  intro b h; cases h; decide
/-- No digit in front (0x3A is the byte after `'9'`), and nothing after the digits. -/
theorem test_witness_CsMatchAsciiUintReadsTheDigits_ends :
    (stream 8 [0x3A]).unread .bench = [] ++ [0x3A] ∧ (stream 8 [0x35]).unread .bench = [0x35] ++ []
      ∧ ∀ b : Byte, [0x3A].head? = some b → ¬(0x30 ≤ b.toNat ∧ b.toNat ≤ 0x39) := by
  refine ⟨by decide +kernel, by decide +kernel, ?_⟩
  intro b h; cases h; decide
theorem test_witness_DecimalTextRoundTrip :
    ((stream 16 (decimalText 4294967295)).rb (.inner .bench)).Ok
      ∧ (stream 16 (decimalText 4294967295)).unread .bench = decimalText 4294967295 ++ []
      ∧ (stream 16 (decimalText 0)).unread .bench = decimalText 0 ++ [] := by decide +kernel

/-- Every attempt of `csMatchParam` fails on an empty stream, its one attempt included. -/
theorem test_witness_MatchParamTriesEveryShift :
    (1 : Byte).toNat = 1 ∧ attempts .bench [0x6C] .noop 1 = [.csMatchToken .bench [0x6C] 1 true .noop]
      ∧ ∃ u, runUnits true (attempts .bench [0x6C] .noop 1) (stream 8 []) = .next u ∧ u.result = .ok false :=
  ⟨rfl, rfl, _, rfl, by decide +kernel⟩

/-- The token `l` before the digit `2` and this byte: the second attempt matches, the first does not. -/
def param (after : List Byte) : State := stream 8 ([0x6C, 0x32] ++ after)

theorem param_rings (after : List Byte) (h : after.length ≤ 1) : RingsOk (param after) := by
  have hb : ((param after).rb (.inner .bench)).Ok := by
    match after, h with
    | [], _ => exact (by decide : ((stream 8 [0x6C, 0x32]).rb (.inner .bench)).Ok)
    | [b], _ =>
      exact (by decide : Rb.Ok { backing := some ref1, capacity := 8, readIndex := 0, writeIndex := 3, count := 3 })
  intro p
  rcases p with _ | (_ | _) | (_ | (_ | _) | _)
  all_goals first | exact hb | exact (by decide : Rb.unbound.Ok)

/-- What the search, the digits and the front byte after them come to. -/
def paramRun (after : List Byte) (n : Nat) : Option (Result × Result × Option Byte) :=
  match runUnits true (attempts .bench [0x6C] .noop n) (param after) with
  | .next u =>
    match exec (.csMatchAsciiUint .bench .noop) (point u) with
    | .next v => some (u.result, v.result, ((point v).unread .bench).head?)
    | .fault _ => none
    | .refused _ => none
  | .fault _ => none
  | .refused _ => none

/-- `r = none`, and `delimiter = 0`; the first attempt matches. -/
theorem test_witness_MatchParamReadsTheNumber_ends :
    paramRun [] 1 = some (.ok true, .uintOption (some 2), none)
      ∧ shown (fun t => t.result) (exec (.csMatchAsciiUint .bench .noop) (stream 8 [])) = some (.uintOption none) := by
  decide +kernel
/-- The delimiter `!` (0x21) is there, and `a` stands in its place; the second attempt matches, after the first failed. -/
theorem test_witness_MatchParamReadsTheNumber_delimiter :
    paramRun [0x21] 2 = some (.ok true, .uintOption (some 2), some 0x21)
      ∧ paramRun [0x61] 2 = some (.ok true, .uintOption (some 2), some 0x61)
      ∧ shown (fun t => t.result) (runUnits true (attempts .bench [0x6C] .noop 1) (param [0x21])) = some (.ok false) := by
  decide +kernel
theorem test_witness_MatchParamReadsTheNumber : RingsOk (param []) ∧ RingsOk (param [0x21]) ∧ RingsOk (param [0x61]) :=
  ⟨param_rings _ (by decide), param_rings _ (by decide), param_rings _ (by decide)⟩

theorem test_witness_DlcInitEnablesTheLink :
    (linked.link .a).status.enabled = true ∧ (base.link .a).status.enabled = false ∧ (0 : Word32).toNat = 0
      ∧ (1 : Word32).toNat ≠ 0 ∧ (none : Option Ref) = none ∧ some ref1 ≠ none := by decide
/-- Two arrays of their own. -/
theorem test_witness_DlcInitEnablesTheLink_own :
    (∀ q r, some ref1 = some r → (base.rb q).backing ≠ some r)
      ∧ (∀ q r, some ref2 = some r → (base.rb q).backing ≠ some r) ∧ some ref1 ≠ some ref2 := by
  refine ⟨?_, ?_, by decide⟩ <;>
    · intro q r _
      rcases q with _ | (_ | _) | (_ | (_ | _) | _) <;> (intro e; cases e)
theorem test_witness_DlcDeinitDisablesTheLink :
    (linked.link .a).status.enabled = true ∧ (base.link .a).status.enabled = false := by decide
theorem test_witness_HandlerTransmitHalf :
    (linked.rb (.tx .a)).Ok ∧ (linked.sample .a).txReady = false
      ∧ (({ linked with periphA := sig true false 0 } : State).sample .a).txReady = true ∧ (linked.rb (.tx .a)).count = 0
      ∧ (busyLink.rb (.tx .a)).Ok ∧ (busyLink.sample .a).txReady = true ∧ (busyLink.rb (.tx .a)).count ≠ 0 := by decide
theorem test_witness_HandlerReceiveHalf :
    (linked.rb (.inner (.rx .a))).Ok ∧ (linked.link .a).errEn = true
      ∧ (({ linked with periphA := { sig false true 0 with errSync := true } } : State).sample .a).anyErr = true
      ∧ ((linked.link .a).errEn && (linked.sample .a).anyErr) = false ∧ (linked.sample .a).rxReady = false
      ∧ (busyLink.sample .a).rxReady = true
      ∧ (busyLink.rb (.inner (.rx .a))).count ≠ (busyLink.rb (.inner (.rx .a))).capacity
      ∧ (received.rb (.inner (.rx .a))).count = (received.rb (.inner (.rx .a))).capacity := by decide
theorem test_witness_HandlerReceiveHalf_stored : busyLink.Untainted (.inner (.rx .a)) ∧ MemoryOk busyLink :=
  ⟨untainted rfl _, busyLink_memory⟩
/-- It sends and takes; without signals it does neither. -/
theorem test_witness_HandlerTouchesItsLinkOnly :
    RingsOk busyLink
      ∧ true = ((busyLink.sample .a).txReady && (busyLink.rb (.tx .a)).count != 0)
      ∧ true = (!((busyLink.link .a).errEn && (busyLink.sample .a).anyErr) && (busyLink.sample .a).rxReady
          && (busyLink.rb (.inner (.rx .a))).count != (busyLink.rb (.inner (.rx .a))).capacity)
      ∧ false = ((linked.sample .a).txReady && (linked.rb (.tx .a)).count != 0)
      ∧ false = (!((linked.link .a).errEn && (linked.sample .a).anyErr) && (linked.sample .a).rxReady
          && (linked.rb (.inner (.rx .a))).count != (linked.rb (.inner (.rx .a))).capacity) :=
  ⟨busyLink_rings, by decide, by decide, by decide, by decide⟩
theorem test_witness_DlcTransmitQueuesTheByte :
    (linked.rb (.tx .a)).Ok ∧ (linked.link .a).status.enabled = true
      ∧ (linked.rb (.tx .a)).count ≠ (linked.rb (.tx .a)).capacity
      ∧ (base.rb (.tx .a)).Ok ∧ (base.link .a).status.enabled = false
      ∧ (base.rb (.tx .a)).count = (base.rb (.tx .a)).capacity := by decide
theorem test_witness_DlcDelegatesToItsStream : (linked.link .a).status.enabled = true := rfl
theorem test_witness_DisabledLinkDoesNothing : (base.link .a).status.enabled = false := rfl
theorem test_witness_ComposedTransmitsQueueWhatFits :
    (linked.link .a).status.enabled = true ∧ (linked.rb (.tx .a)).Ok ∧ linked.agenda = []
      ∧ (∀ b ∈ [0x01, 0xFF], (b : Byte) ≠ 0) ∧ (0 : Byte) ∈ [(0 : Byte)] := by decide
/-- The whole packet fits, `m` its length; and its third byte finds `tx` full, `m = 3`. -/
theorem test_witness_ComposedTransmitsAreTheirExpansion :
    shown (fun u => u.result) (runUnits true ([1, 2].map fun b => .dlcTransmit .a b) linked) = some (.ok true)
      ∧ shown (fun u => u.result) (runUnits true ([1].map fun b => .dlcTransmit .a b) linked) = some (.ok true)
      ∧ shown (fun u => u.result) (runUnits true ([1, 2, 3].map fun b => .dlcTransmit .a b) linked) = some (.ok false)
      ∧ (∀ b ∈ [1, 2, 3], (b : Byte) ≠ 0) ∧ (0 : Byte) ∈ [(0 : Byte)] := by
  decide
/-- Fillers for two of three response bytes, `rx` having two slots. -/
theorem test_witness_HostTransactionClocksTheFrame :
    (onSpi 2 |>.link .s).status.enabled = true ∧ (onSpi 2 |>.rb (.inner (.rx .s))).Ok ∧ [0xA2].length = [0x12].length
      ∧ [0xA2, 0x00].length
        = min (3 : Word32).toNat
            ((onSpi 2 |>.rb (.inner (.rx .s))).capacity - (onSpi 2 |>.rb (.inner (.rx .s))).count) := by decide
theorem test_witness_HostTransactionClocksTheFrame_stored :
    (onSpi 2).Untainted (.inner (.rx .s)) ∧ MemoryOk (onSpi 2) := ⟨untainted rfl _, by decide, by decide⟩
theorem test_witness_HostTransactionExcludesItsHandler :
    ∃ t, exec (.dlcHostTransaction .s [0x12] 1)
      { onSpi 2 with agenda := .isr .s :: bytesScript [0xA2, 0xA2] } = .next t := ⟨_, rfl⟩
/-- A frame without fillers, and one whose three fillers fill `rx`. -/
theorem test_witness_EveryFrameGoesOutWhole :
    Instr.spiClearIrq.port = .spi ∧ Instr.spiClearIrq.wf ps = true ∧ Instr.spiClearIrq ≠ .spiGetIrqStatus
      ∧ Instr.spiGetRxBufferStatus ≠ .spiGetIrqStatus ∧ (onSpi 3 |>.link .s).status.enabled = true
      ∧ (onSpi 3 |>.rb (.inner (.rx .s))).Ok ∧ frameFillers .spiClearIrq = 0 ∧ frameFillers .spiGetRxBufferStatus = 3
      ∧ frameFillers .spiGetRxBufferStatus
        ≤ (onSpi 3 |>.rb (.inner (.rx .s))).capacity - (onSpi 3 |>.rb (.inner (.rx .s))).count
      ∧ (ans 3).length = (encode ps .spiClearIrq).length
      ∧ (ans 4).length = (encode ps .spiGetRxBufferStatus).length := by
  decide +kernel
/-- get-IRQ-status with exactly the three slots it needs. -/
theorem test_witness_EveryFrameGoesOutWhole_status :
    (onSpi 3 |>.link .s).status.enabled = true ∧ (onSpi 3 |>.rb (.inner (.rx .s))).Ok
      ∧ 3 ≤ (onSpi 3 |>.rb (.inner (.rx .s))).capacity - (onSpi 3 |>.rb (.inner (.rx .s))).count ∧ (ans 3).length = 3 := by
  decide
theorem test_witness_EveryFrameGoesOutWhole_stored :
    (onSpi 3).Untainted (.inner (.rx .s)) ∧ MemoryOk (onSpi 3) := ⟨untainted rfl _, by decide, by decide⟩
theorem test_witness_FrequencyWordIsTheNearest : (4095999999 : Word32).toNat ≤ 4095999999 := by decide

theorem memory_nil : Memory.wf [] ∧ WideMemory.wf [] := by decide
theorem linkFree (capacity : Nat) (h : 1 ≤ capacity ∧ capacity < 2 ^ 32) : LinkFree (onSpi capacity) capacity := by
  obtain ⟨h1, h2⟩ := h
  have hb : (onSpi capacity).rb (.inner (.rx .s)) =
      { backing := some ref2, capacity := capacity, readIndex := 0, writeIndex := 0, count := 0 } := by
    simp [onSpi, State.rb, State.cs, State.link, Rb.bound, show capacity ≠ 0 by omega]
  refine ⟨rfl, ?_, by rw [hb], by rw [hb], untainted rfl _, memory_nil⟩
  rw [hb]
  refine ⟨h2, Nat.zero_le _, fun h => absurd h (by simp; omega), fun _ => ⟨rfl, h1, h1, ?_⟩⟩
  simp
/-- An array no RB is bound to: `ref1` is `tx`'s, `ref2` `rx`'s, `ref3` the sink's own. -/
theorem test_witness_RcInitSendsTheConfiguration_own :
    ∀ q r, q ≠ RbPort.inner .sink → some ref3 = some r → ((onSpi 1).rb q).backing ≠ some r := by
  intro q r h hr
  cases hr
  rcases q with _ | (_ | _) | (_ | (_ | _) | _) <;> first | exact absurd rfl h | decide
/-- `rx` with the one slot `RC.INIT` needs, the largest frequency that fits. -/
theorem test_witness_RcInitSendsTheConfiguration :
    LinkFree (onSpi 1) 1 ∧ (4095999999 : Word32).toNat ≤ 4095999999 ∧ some ref3 ≠ none
      ∧ (∀ r, some ref3 = some r → (onSpi 1 |>.rb (.inner (.rx .s))).backing ≠ some r)
      ∧ (ans 2).length = 2 ∧ (ans 9).length = 9 := by
  refine ⟨linkFree 1 (by decide), by decide, by decide, ?_, by decide, by decide⟩
  intro r h; cases h; decide
theorem test_witness_RcTransmitSendsThePayload :
    LinkFree (onSpi 3) 3 ∧ (onSpi 3).radio.mode ≠ .uninitialized ∧ (List.replicate 255 (0x41 : Byte)).length ≤ 255 :=
  ⟨linkFree 3 (by decide), by decide, by decide +kernel⟩
/-- A timeout, and a CRC error under rx-done (V30, V31). -/
theorem test_witness_RcReceiveReportsFailures :
    LinkFree (onSpi 3) 3 ∧ (onSpi 3).radio.mode ≠ .uninitialized
      ∧ (irqBit ((0x02 : Byte) ++ (0x00 : Byte)) Enc.sx1262.irqRxDone = true → irqBit ((0x02 : Byte) ++ (0x00 : Byte)) Enc.sx1262.irqCrcErr = true)
      ∧ irqBit ((0x00 : Byte) ++ (0x42 : Byte)) Enc.sx1262.irqRxDone = true ∧ irqBit ((0x00 : Byte) ++ (0x42 : Byte)) Enc.sx1262.irqCrcErr = true :=
  ⟨linkFree 3 (by decide), by decide, by decide, by decide, by decide⟩
/-- A good packet of 255 bytes, and of none. -/
theorem test_witness_RcReceiveDeliversThePayload :
    LinkFree (onSpi 255) (max 3 (255 : Byte).toNat) ∧ LinkFree (onSpi 3) (max 3 (0 : Byte).toNat)
      ∧ (onSpi 255).radio.mode ≠ .uninitialized ∧ (onSpi 255 |>.rb (.inner .sink)).Ok
      ∧ (onSpi 255).Untainted (.inner .sink) ∧ (onSpi 255).Apart (.inner (.rx .s)) (.inner .sink)
      ∧ irqBit ((0x02 : Byte) ++ (0x02 : Byte)) Enc.sx1262.irqRxDone = true ∧ irqBit ((0x02 : Byte) ++ (0x02 : Byte)) Enc.sx1262.irqCrcErr = false := by
  refine ⟨linkFree 255 (by decide), linkFree 3 (by decide), by decide, by decide, untainted rfl _, ?_, by decide, by decide⟩
  intro r h; cases h; decide
theorem test_witness_RcGuards :
    (base.link .s).status.enabled = false ∧ 4095999999 < (4096000000 : Word32).toNat ∧ (1 : Word32).toNat ≠ 0
      ∧ (onSpi 8 |>.link .s).status.enabled = true ∧ State.reset.radio.mode = .uninitialized
      ∧ (onSpi 8).radio.mode ≠ .uninitialized ∧ 255 < bytes256.length := by decide +kernel
theorem test_witness_WaitsThatNeverEndHang_busy :
    Instr.spiClearIrq.port = .spi ∧ Instr.spiClearIrq.wf ps = true ∧ ({ base with busy := true } : State).agenda = []
      ∧ ({ base with phase := .waiting .busyLow } : State).phase = .waiting .busyLow := by decide
/-- A command byte, and a filler alone; the peripheral drives every other signal. -/
theorem test_witness_WaitsThatNeverEndHang_transaction :
    (onSpi 1 |>.link .s).status.enabled = true ∧ [(0x12 : Byte)] ≠ [] ∧ (1 : Word32) ≠ 0
      ∧ (onSpi 1 |>.rb (.inner (.rx .s))).count ≠ (onSpi 1 |>.rb (.inner (.rx .s))).capacity
      ∧ ((onSpi 1).periph .s).txReady = false ∧ ((onSpi 1).periph .s).rxReady = false
      ∧ (∀ g, Event.periph .s g ∈ [Event.periph .s (sig false true 1), .isr .s] → g.txReady = false)
      ∧ (∀ g, Event.periph .s g ∈ [Event.periph .s (sig true false 1), .isr .s] → g.rxReady = false) := by
  refine ⟨by decide, by decide, by decide, by decide, by decide, by decide, ?_, ?_⟩ <;>
    · intro g h
      simp only [List.mem_cons, List.not_mem_nil, Event.periph.injEq, reduceCtorEq, or_false] at h
      obtain ⟨-, rfl⟩ := h
      rfl
/-- 255 bytes; `busy` moves, `irq` stays low. -/
theorem test_witness_WaitsThatNeverEndHang_radio :
    (onSpi 3 |>.link .s).status.enabled = true ∧ (onSpi 3).radio.mode ≠ .uninitialized
      ∧ (List.replicate 255 (0x41 : Byte)).length ≤ 255 ∧ (onSpi 3).irq = false
      ∧ ∀ b i, Event.lines b i ∈ [Event.lines true false, .lines false false] → i = false := by
  refine ⟨by decide, by decide, by decide +kernel, by decide, ?_⟩
  intro b i h
  simp only [List.mem_cons, List.not_mem_nil, Event.lines.injEq, or_false] at h
  rcases h with ⟨-, h⟩ | ⟨-, h⟩ <;> exact h
/-- The scripts that bring both operations to their own wait hold no other `irq`; one byte of payload. -/
theorem test_witness_WaitsThatNeverEndHang_script :
    (exchangeScript false (ans 7) ++ exchangeScript false (ans (2 + 1)) ++ exchangeScript false (ans 4)).all
        (fun e => match e with
          | .lines _ i => !i
          | _ => true) = true
      ∧ shown (fun t => (t.phase, t.radio.mode))
          (exec (.rcReceive 0) { onSpi 3 with agenda := exchangeScript false (ans 7) ++ exchangeScript false (ans 4) })
        = some (.waiting .irqHigh, .receiving) := by decide +kernel
theorem test_witness_HangingAppPresentsNothing :
    ∃ t, step { busyLink with phase := .waiting .rxReady } = .next t := ⟨_, rfl⟩
/-- A handler of `LINK_A` is due in every wait, one of `LINK_S` in a wait for `busy`; `linked` has none due. -/
theorem test_witness_HangingAppPresentsNothing_handler :
    busyLink.agenda = [.isr .a] ∧ busyLink.pending .a = true ∧ linked.pending .a = false
      ∧ ({ onSpi 3 with periphS := sig false true 1 } : State).pending .s = true := by decide

end Sys2Proof.Tests
end

section
/-! O16: no step changes the parameters. One lemma for each unit of Machine/Ops.lean that `Stable` (Laws/Keeps.lean) asks about;
the induction over all operations is `Stable.step`. -/

namespace Sys2Proof.Machine

@[simp] theorem rbBind_params (p : RbPort) (b : Option Ref) (n : Nat) (s : State) : (rbBind p b n s).params = s.params := by
  simp [rbBind]

@[simp] theorem rbClear_params (p : RbPort) (s : State) : (rbClear p s).params = s.params := by simp [rbClear]

@[simp] theorem rbPut_params (p : RbPort) (v : Nat) (s : State) : (rbPut p v s).2.params = s.params := by
  cases h : (s.rb p).isFull
  · simp [rbPut_room p v s h]
  · rw [rbPut_full p v s h]

@[simp] theorem rbGet_params (p : RbPort) (s : State) : (rbGet p s).2.params = s.params := by
  by_cases h : (s.rb p).count = 0
  · rw [rbGet_empty p s h]
  · simp [rbGet_some p s h]

@[simp] theorem rbShift_params (p : RbPort) (n : Nat) (fwd : Bool) (s : State) : (rbShift p n fwd s).params = s.params := by
  simp [rbShift]

@[simp] theorem applyStore_params (r : Ref) (i : Word32) (v : Byte) (s : State) : (applyStore r i v s).params = s.params := by
  unfold applyStore
  split <;> simp

@[simp] theorem applyStoreWide_params (r : Ref) (i : Word32) (v : Nat) (s : State) :
    (applyStoreWide r i v s).params = s.params := by
  unfold applyStoreWide
  split
  · exact applyStore_params r i _ s
  · split <;> simp

/-- Every primitive change leaves the parameters as they are (R10, R81). -/
theorem params_stable (ps : Params) : Stable fun s => s.params = ps := by
  constructor <;> intros <;> simpa

/-- Settles O16: the parameters are kept by every primitive, so by every step. -/
theorem stepKeepsTheParameters : Obligations.StepKeepsTheParameters := by
  intro s t h
  exact (params_stable s.params).step s rfl t h

end Sys2Proof.Machine
end

section
/-! What the other agents leave alone while an operation of APP runs (R75, R79), and what so holds all through a busy-wait
(R15, R395). -/

namespace Sys2Proof.Machine

/-! ### The handler of a link -/

/-- The strobes the handler of link `k` can drive (R207, R210). -/
def BusEvent.StrobeOf (k : LinkId) (e : BusEvent) : Prop := (∃ b, e = .txWr k b) ∨ e = .rxRd k

/-- What the handler of link `k` leaves alone, and the only strobes it adds. -/
structure HandlerOnly (k : LinkId) (s t : State) : Prop where
  periph : ∀ j, t.periph j = s.periph j
  busy : t.busy = s.busy
  irq : t.irq = s.irq
  selectN : t.selectN = s.selectN
  result : t.result = s.result
  trace : ∃ out, t.trace = s.trace ++ out ∧ ∀ e ∈ out, e.StrobeOf k

theorem HandlerOnly.of_same_trace {k : LinkId} {s t : State} (hp : ∀ j, t.periph j = s.periph j) (hb : t.busy = s.busy)
    (hi : t.irq = s.irq) (hs : t.selectN = s.selectN) (hr : t.result = s.result) (ht : t.trace = s.trace) :
    HandlerOnly k s t := ⟨hp, hb, hi, hs, hr, [], by simp [ht], by simp⟩

theorem HandlerOnly.refl (k : LinkId) (s : State) : HandlerOnly k s s := .of_same_trace (fun _ => rfl) rfl rfl rfl rfl rfl

theorem HandlerOnly.trans {k : LinkId} {s t u : State} (h : HandlerOnly k s t) (h' : HandlerOnly k t u) :
    HandlerOnly k s u := by
  obtain ⟨out, ho, hk⟩ := h.trace
  obtain ⟨out', ho', hk'⟩ := h'.trace
  refine ⟨fun j => (h'.periph j).trans (h.periph j), h'.busy.trans h.busy, h'.irq.trans h.irq, h'.selectN.trans h.selectN,
    h'.result.trans h.result, out ++ out', by rw [ho', ho, List.append_assoc], fun e he => ?_⟩
  rcases List.mem_append.1 he with he | he
  · exact hk e he
  · exact hk' e he

/-- One strobe of the link. -/
theorem HandlerOnly.emit (k : LinkId) (s : State) (e : BusEvent) (he : e.StrobeOf k) : HandlerOnly k s (s.emit e) :=
  ⟨fun _ => rfl, rfl, rfl, rfl, rfl, [e], rfl, by simpa using he⟩

theorem handlerTransmit_only (k : LinkId) (sig : PeriphIn) (s : State) : HandlerOnly k s (handlerTransmit k sig s) := by
  unfold handlerTransmit
  split
  · by_cases h : (s.rb (.tx k)).count = 0
    · rw [rbGet_empty _ _ h]
      apply HandlerOnly.of_same_trace <;> simp
    · rw [rbGet_some _ _ h]
      refine ⟨?_, ?_, ?_, ?_, ?_, [.txWr k (BitVec.ofNat 8 (s.readSlot (.tx k) (s.rb (.tx k)).readIndex))], ?_, ?_⟩ <;>
        simp [BusEvent.StrobeOf]
  · exact .refl k s

theorem handlerReceive_only (k : LinkId) (sig : PeriphIn) (s : State) : HandlerOnly k s (handlerReceive k sig s) := by
  unfold handlerReceive
  split
  · apply HandlerOnly.of_same_trace <;> simp
  · split
    · split
      · apply HandlerOnly.of_same_trace <;> simp
      · have hput := csPut_only (.rx k) sig.rxData (s.emit (.rxRd k))
        exact (HandlerOnly.emit k s _ (.inr rfl)).trans (.of_same_trace (by simp [hput.periph]) (by simp [hput.busy])
          (by simp [hput.irq]) (by simp [hput.selectN]) (by simp [hput.result]) (by simp [hput.trace]))
    · exact .refl k s

theorem takeInterrupt_only (k : LinkId) (s : State) : HandlerOnly k s (takeInterrupt k s) :=
  (handlerTransmit_only k _ s).trans (handlerReceive_only k _ _)

/-! ### What the other agents keep -/

/-- A property, of a state whose agenda is what is still to be served, that every step of another agent keeps, the handler of
the link `x` excluded; and that the mark of a hang keeps. -/
structure KeptByOthers (x : Option LinkId) (P : State → Prop) : Prop where
  event : ∀ e es u, P (u.setAgenda (e :: es)) → P ((applyEvent x e u).setAgenda es)
  phase : ∀ u p, P u → P (u.setPhase p)

theorem KeptByOthers.and {x : Option LinkId} {P Q : State → Prop} (hP : KeptByOthers x P) (hQ : KeptByOthers x Q) :
    KeptByOthers x fun s => P s ∧ Q s where
  event e es u h := ⟨hP.event e es u h.1, hQ.event e es u h.2⟩
  phase u p h := ⟨hP.phase u p h.1, hQ.phase u p h.2⟩

section Waiting

variable {x : Option LinkId} {P : State → Prop} (hP : KeptByOthers x P)
include hP

theorem KeptByOthers.serve (es : List Event) (s : State) (h : P (s.setAgenda es)) : P (serve x es s) := by
  induction es generalizing s with
  | nil => exact h
  | cons e es ih =>
    have he := hP.event e es s h
    cases e with
    | app => exact he
    | periph k sig => exact ih _ he
    | lines b i => exact ih _ he
    | isr k => exact ih _ he
    | store r i v => exact ih _ he
    | storeWide r i v => exact ih _ he

theorem KeptByOthers.waitLoop (w : Wait) (es : List Event) (s : State) (h : P (s.setAgenda es)) :
    (waitLoop x w es s).Holds P := by
  induction es generalizing s with
  | nil =>
    unfold Machine.waitLoop
    split
    · exact h
    · exact hP.phase _ _ h
  | cons e es ih =>
    unfold Machine.waitLoop
    split
    · exact h
    · exact ih _ (hP.event e es s h)

theorem KeptByOthers.waitUntil (w : Wait) (s : State) (h : P s) : (waitUntil x w s).Holds P :=
  hP.waitLoop w _ _ (hP.serve s.agenda s h)

end Waiting

/-- The events that make the condition of a wait true. -/
def Event.raises : Wait → Event → Bool
  | .txReady, .periph .s sig => sig.txReady
  | .rxReady, .periph .s sig => sig.rxReady
  | .busyLow, .lines busy _ => !busy
  | .irqHigh, .lines _ irq => irq
  | _, _ => false

/-- Only its peripheral raises a signal of `LINK_S` (R41). -/
theorem peripheral_raises {w : Wait} (hw : w = .txReady ∨ w = .rxReady) {es : List Event}
    (h : ∀ sig, .periph .s sig ∈ es → (Event.periph .s sig).raises w = false) : ∀ e ∈ es, e.raises w = false := by
  intro e he
  cases e with
  | periph k sig =>
    cases k with
    | s => exact h sig he
    | a => rcases hw with rfl | rfl <;> rfl
  | _ => rcases hw with rfl | rfl <;> rfl

/-- Only the transceiver raises `irq` (R43). -/
theorem lines_raise_irq {es : List Event} (h : ∀ busy irq, .lines busy irq ∈ es → irq = false) :
    ∀ e ∈ es, e.raises .irqHigh = false := by
  intro e he
  cases e with
  | lines busy irq => exact h busy irq he
  | _ => rfl

/-- The condition of the wait does not hold and no one will ever raise it. -/
def NeverHolds (w : Wait) (s : State) : Prop := waitHolds w s = false ∧ ∀ e ∈ s.agenda, e.raises w = false

/-- A wait's condition reads the signals of `LINK_S` and the lines only. -/
theorem waitHolds_congr (w : Wait) {s t : State} (hp : t.periph .s = s.periph .s) (hb : t.busy = s.busy)
    (hi : t.irq = s.irq) : waitHolds w t = waitHolds w s := by
  cases w <;> simp [waitHolds, State.sample, hp, hb, hi]

theorem NeverHolds.congr {w : Wait} {s t : State} (h : NeverHolds w s) (hp : t.periph .s = s.periph .s)
    (hb : t.busy = s.busy) (hi : t.irq = s.irq) (ha : t.agenda = s.agenda) : NeverHolds w t :=
  ⟨(waitHolds_congr w hp hb hi).trans h.1, by rw [ha]; exact h.2⟩

/-- An event makes a condition true only where it raises it. -/
theorem waitHolds_applyEvent (x : Option LinkId) (w : Wait) (e : Event) (s : State) (h : waitHolds w s = false)
    (he : e.raises w = false) : waitHolds w (applyEvent x e s) = false := by
  cases e with
  | app => exact h
  | periph k sig =>
    cases k with
    | a => rw [← h]; cases w <;> rfl
    | s =>
      cases w with
      | txReady => exact he
      | rxReady => exact he
      | busyLow => exact h
      | irqHigh => exact h
  | lines b i =>
    cases w with
    | txReady => exact h
    | rxReady => exact h
    | busyLow => exact he
    | irqHigh => exact he
  | isr k =>
    have hk := takeInterrupt_only k s
    simp only [applyEvent]
    split
    · rw [waitHolds_congr w (hk.periph .s) hk.busy hk.irq, h]
    · exact h
  | store r i v => exact h
  | storeWide r i v => exact h

theorem neverHolds_kept (x : Option LinkId) (w : Wait) : KeptByOthers x (NeverHolds w) where
  event e es u h := by
    obtain ⟨hw, ha⟩ := h
    have hu : waitHolds w u = false := (waitHolds_congr w rfl rfl rfl).trans hw
    refine ⟨(waitHolds_congr w rfl rfl rfl).trans (waitHolds_applyEvent x w e u hu (ha e ?_)), fun e' he' => ha e' ?_⟩
    · exact List.mem_cons_self
    · exact List.mem_cons_of_mem e he'
  phase _ _ h := h.congr rfl rfl rfl rfl

/-! ### No record, no edge of `select_n` -/

theorem applyEvent_result (x : Option LinkId) (e : Event) (s : State) : (applyEvent x e s).result = s.result := by
  cases e with
  | isr k =>
    simp only [applyEvent]
    split
    · exact (takeInterrupt_only k s).result
    · rfl
  | periph k sig => exact State.setPeriph_result s k sig
  | app | lines _ _ | store _ _ _ | storeWide _ _ _ => rfl

theorem applyEvent_selectN (x : Option LinkId) (e : Event) (s : State) : (applyEvent x e s).selectN = s.selectN := by
  cases e with
  | isr k =>
    simp only [applyEvent]
    split
    · exact (takeInterrupt_only k s).selectN
    · rfl
  | periph k sig => exact State.setPeriph_selectN s k sig
  | app | lines _ _ | store _ _ _ | storeWide _ _ _ => rfl

/-- With the handler of `LINK_S` excluded (R232) only `LINK_A` is strobed. -/
theorem applyEvent_trace (e : Event) (s : State) :
    ∃ out, (applyEvent (some .s) e s).trace = s.trace ++ out ∧ ∀ e ∈ out, e.StrobeOf .a := by
  cases e with
  | isr k =>
    cases k with
    | s => exact ⟨[], by simp [applyEvent], by simp⟩
    | a =>
      simp only [applyEvent]
      split
      · exact (takeInterrupt_only .a s).trace
      · exact ⟨[], by simp, by simp⟩
  | periph k sig => exact ⟨[], by simp [applyEvent], by simp⟩
  | app | lines _ _ | store _ _ _ | storeWide _ _ _ => exact ⟨[], by simp [applyEvent], by simp⟩

theorem result_kept (x : Option LinkId) (r : Result) : KeptByOthers x fun s => s.result = r where
  event e _ u h := (applyEvent_result x e u).trans h
  phase _ _ h := h

theorem selectN_kept (x : Option LinkId) (level : Bool) : KeptByOthers x fun s => s.selectN = level where
  event e _ u h := (applyEvent_selectN x e u).trans h
  phase _ _ h := h

/-- Since the trace was `tr`, no event of the kind `E` was driven outward. -/
def NoneSince (tr : List BusEvent) (E : BusEvent → Prop) (s : State) : Prop :=
  ∃ out, s.trace = tr ++ out ∧ ∀ e ∈ out, ¬E e

theorem NoneSince.extend {tr : List BusEvent} {E : BusEvent → Prop} {s t : State} (h : NoneSince tr E s)
    (ht : ∃ out, t.trace = s.trace ++ out ∧ ∀ e ∈ out, ¬E e) : NoneSince tr E t := by
  obtain ⟨out, ho, hE⟩ := h
  obtain ⟨out', ho', hE'⟩ := ht
  refine ⟨out ++ out', by rw [ho', ho, List.append_assoc], fun e he => ?_⟩
  rcases List.mem_append.1 he with he | he
  · exact hE e he
  · exact hE' e he

theorem NoneSince.not_mem_drop {tr : List BusEvent} {E : BusEvent → Prop} {s : State} (h : NoneSince tr E s)
    {e : BusEvent} (he : E e) : e ∉ s.trace.drop tr.length := by
  obtain ⟨out, ho, hE⟩ := h
  rw [ho, List.drop_left]
  exact fun hm => hE e hm he

/-- Inside a host transaction the others drive no strobe of `LINK_S`. -/
theorem noneSince_kept (tr : List BusEvent) {E : BusEvent → Prop} (hE : ∀ e, e.StrobeOf .a → ¬E e) :
    KeptByOthers (some .s) (NoneSince tr E) where
  event e _ u h := by
    obtain ⟨out, ho, hk⟩ := applyEvent_trace e u
    exact NoneSince.extend h ⟨out, ho, fun e he => hE e (hk e he)⟩
  phase _ _ h := h

end Sys2Proof.Machine
end

section
/-! O59: which waits never end, and what an operation that hangs in one shows (R15, R395, R446). -/

namespace Sys2Proof.Machine

/-! ### Where a sequence of units ends -/

/-- `P` of where a sequence of units is done, `H` of where it hangs. -/
def Res.Ends {α : Type} (P H : State → Prop) : Res α → Prop
  | .done _ s => P s
  | .hung s => H s

/-- The sequence is never done: it hangs, and `H` there. -/
abbrev Res.Hangs {α : Type} (H : State → Prop) (r : Res α) : Prop := r.Ends (fun _ => False) H

theorem Res.Ends.bind {α β : Type} {P Q H : State → Prop} {r : Res α} {f : α → State → Res β} (h : r.Ends P H)
    (hf : ∀ a s, P s → (f a s).Ends Q H) : (r.bind f).Ends Q H := by
  cases r with
  | done a s => exact hf a s h
  | hung s => exact h

/-- After a hang nothing follows. -/
theorem Res.Hangs.bind {α β : Type} {H : State → Prop} {r : Res α} {f : α → State → Res β} (h : r.Hangs H) :
    (r.bind f).Hangs H := Res.Ends.bind h fun _ _ => False.elim

theorem Res.Ends.mono {α : Type} {P H K : State → Prop} {r : Res α} (h : r.Ends P H) (hHK : ∀ s, H s → K s) :
    r.Ends P K := by
  cases r with
  | done a s => exact h
  | hung s => exact hHK s h

/-- A hang presents no result record: the next state is the hanging one. -/
theorem Res.Hangs.outcome {α : Type} {H : State → Prop} {r : Res α} (h : r.Hangs H) (f : α → Result) :
    ∃ t, r.outcome f = .next t ∧ H t := by
  cases r with
  | done a s => exact h.elim
  | hung s => exact ⟨s, rfl, h⟩

/-- APP hangs in the wait `w` with the agenda served to its end. -/
def HangsAt (w : Wait) (s : State) : Prop := s.phase = .waiting w ∧ s.agenda = []

/-- A wait keeps what the others keep, and ends or hangs. -/
theorem waitUntil_ends {x : Option LinkId} {P : State → Prop} (hP : KeptByOthers x P) (w : Wait) (s : State) (h : P s) :
    (waitUntil x w s).Ends P fun t => P t ∧ HangsAt w t := by
  have hk := hP.waitUntil w s h
  cases hr : waitUntil x w s with
  | done _ t => rw [hr] at hk; exact hk
  | hung t =>
    rw [hr] at hk
    obtain ⟨hphase, hagenda, -⟩ := waitUntil_hung hr
    exact ⟨hk, hphase, hagenda⟩

/-- A wait whose condition no one ever raises hangs. -/
theorem waitUntil_never {x : Option LinkId} {P : State → Prop} (hP : KeptByOthers x P) (w : Wait) (s : State) (h : P s)
    (hn : NeverHolds w s) : (waitUntil x w s).Hangs fun t => P t ∧ HangsAt w t := by
  have he := waitUntil_ends hP w s h
  cases hr : waitUntil x w s with
  | done _ t =>
    have hk := (neverHolds_kept x w).waitUntil w s hn
    rw [hr] at hk
    exact absurd (waitUntil_done hr).1 (by simp [hk.1])
  | hung t => rw [hr] at he; exact he

/-! ### `busy` high and nobody to step -/

/-- The frame is not even selected (R262). -/
theorem exchange_busy (f : Frame) (s : State) (hb : s.busy = true) (ha : s.agenda = []) :
    exchange f s = .hung { s with phase := .waiting .busyLow } := by
  have hp : pointExcluding none s = s := by
    unfold pointExcluding
    rw [ha, serve, ← ha, State.setAgenda_self]
  have hw : waitUntil none .busyLow s = .hung { s with phase := .waiting .busyLow } := by
    unfold waitUntil
    rw [hp, ha, waitLoop, if_neg (by simp [waitHolds, hb]), ← ha, State.setAgenda_self]
    rfl
  rw [exchange, hw]
  rfl

theorem frame_hangs_while_busy (i : Instr) (s : State) (hi : i.port = .spi) (hwf : i.wf s.params = true)
    (hb : s.busy = true) (ha : s.agenda = []) : exec i s = .next { s with phase := .waiting .busyLow } := by
  have hx (f : Frame) : (exchange f s).outcome .byte = .next { s with phase := .waiting .busyLow } := by
    rw [exchange_busy f s hb ha]
    rfl
  cases i
  case spiSetRxMode t =>
    have ht : t ≠ 0xFFFFFF#24 := by simpa [Instr.wf] using hwf
    rw [exec, execSpiSetRxMode, if_neg ht]
    exact hx _
  case spiGetIrqStatus =>
    rw [exec, execSpiGetIrqStatus, exchange_busy _ s hb ha]
    rfl
  case spiStandbyMode | spiSetPacketType | spiSetRfFrequency | spiSetPowerAmplifierConfig | spiSetTxParams
    | spiWriteRegister | spiReadRegister | spiSetBufferBaseAddress | spiSetModulationParams | spiSetPacketParams
    | spiSetDioIrqParams | spiWriteBuffer | spiSetTxMode | spiClearIrq | spiGetRxBufferStatus | spiReadBuffer =>
    exact hx _
  all_goals cases hi

/-- While APP hangs with nobody left to step the machine stays as it is. -/
theorem step_waiting_alone (s : State) (w : Wait) (hp : s.phase = .waiting w) (ha : s.agenda = []) :
    step s = .next s := by
  have ht : turn s = .other s := by unfold turn; rw [hp, ha]
  rw [step, ht]

/-! ### A host transaction -/

/-- The first byte clocked decides: where it hangs, and there is one to clock, the transaction hangs (R230, R231). -/
theorem hostTransaction_hangs {P H : State → Prop} (hclock : ∀ b s, P s → (clockByte b s).Hangs H) (out : List Byte)
    (n : Nat) (s : State) (he : (s.link .s).status.enabled = true) (h : P (driveSelect false s))
    (hbyte : out ≠ [] ∨ (n ≠ 0 ∧ (s.rb (.inner (.rx .s))).isFull = false)) : (hostTransaction out n s).Hangs H := by
  unfold hostTransaction
  rw [if_pos he]
  cases out with
  | cons b out => exact (hclock b _ h).bind.bind
  | nil =>
    obtain ⟨hn, hf⟩ := hbyte.resolve_left (· rfl)
    obtain ⟨m, rfl⟩ := Nat.exists_eq_succ_of_ne_zero hn
    have hf' : ((driveSelect false s).rb (.inner (.rx .s))).isFull = false := by simpa [driveSelect] using hf
    have hr : (responsePhase (m + 1) (driveSelect false s)).Hangs H := by
      rw [responsePhase, if_neg (by simp [hf'])]
      exact (hclock _ _ h).bind
    exact hr.bind

/-- Inside the select window of a transaction that began in `s`: no record, and no event of the kind `E`, since. -/
def InWindow (s : State) (E : BusEvent → Prop) (u : State) : Prop :=
  u.result = s.result ∧ u.selectN = false ∧ NoneSince s.trace E u

theorem inWindow_kept (s : State) {E : BusEvent → Prop} (hE : ∀ e, e.StrobeOf .a → ¬E e) :
    KeptByOthers (some .s) (InWindow s E) :=
  (result_kept _ s.result).and ((selectN_kept _ false).and (noneSince_kept s.trace hE))

theorem inWindow_emit {s u : State} {E : BusEvent → Prop} {e : BusEvent} (he : ¬E e) (h : InWindow s E u) :
    InWindow s E (u.emit e) := by
  obtain ⟨hr, hs, ht⟩ := h
  exact ⟨hr, hs, ht.extend ⟨[e], rfl, by simpa using he⟩⟩

theorem inWindow_select (s : State) {E : BusEvent → Prop} (he : ¬E (.select false)) :
    InWindow s E (driveSelect false s) := ⟨rfl, rfl, [.select false], rfl, by simpa using he⟩

/-- With `tx_ready` never raised the first byte is never sent. -/
theorem clockByte_without_txReady {s : State} {E : BusEvent → Prop} (hE : ∀ e, e.StrobeOf .a → ¬E e) (b : Byte) (u : State)
    (h : InWindow s E u ∧ NeverHolds .txReady u) :
    (clockByte b u).Hangs fun t => InWindow s E t ∧ HangsAt .txReady t :=
  (waitUntil_never (inWindow_kept s hE) .txReady u h.1 h.2).bind

/-- With `rx_ready` never raised the first byte is sent at most, and none is taken. -/
theorem clockByte_without_rxReady {s : State} {E : BusEvent → Prop} (hE : ∀ e, e.StrobeOf .a → ¬E e)
    (htx : ∀ b, ¬E (.txWr .s b)) (b : Byte) (u : State) (h : InWindow s E u ∧ NeverHolds .rxReady u) :
    (clockByte b u).Hangs fun t => InWindow s E t ∧ (HangsAt .txReady t ∨ HangsAt .rxReady t) := by
  have hkept := inWindow_kept s hE
  have hsent := (waitUntil_ends (hkept.and (neverHolds_kept _ .rxReady)) .txReady u h).mono
    (K := fun t => InWindow s E t ∧ (HangsAt .txReady t ∨ HangsAt .rxReady t)) fun t ht => ⟨ht.1.1, .inl ht.2⟩
  refine hsent.bind fun _ v hv => Res.Hangs.bind ?_
  have hnever : NeverHolds .rxReady (v.emit (.txWr .s b)) := hv.2.congr rfl rfl rfl rfl
  exact (waitUntil_never hkept .rxReady _ (inWindow_emit (htx b) hv.1) hnever).mono fun t ht => ⟨ht.1, .inr ht.2⟩

section Transaction

variable {s : State} {out : List Byte} {n : Word32} (he : (s.link .s).status.enabled = true)
  (hbyte : out ≠ [] ∨ (n ≠ 0 ∧ (s.rb (.inner (.rx .s))).count ≠ (s.rb (.inner (.rx .s))).capacity))
include he hbyte

/-- The transaction's first byte decides, in the terms of the operation. -/
theorem execDlcHostTransaction_hangs {P H : State → Prop} (hclock : ∀ b s, P s → (clockByte b s).Hangs H)
    (h : P (driveSelect false s)) : ∃ t, exec (.dlcHostTransaction .s out n) s = .next t ∧ H t := by
  have hbyte' : out ≠ [] ∨ (n.toNat ≠ 0 ∧ (s.rb (.inner (.rx .s))).isFull = false) :=
    hbyte.imp_right fun h => ⟨by simpa [BitVec.toNat_eq] using h.1, by simpa [Rb.isFull] using h.2⟩
  exact (hostTransaction_hangs hclock out n.toNat s he h hbyte').outcome .byte

theorem transaction_without_txReady (hn : NeverHolds .txReady s) :
    ∃ t, exec (.dlcHostTransaction .s out n) s = .next t ∧ t.phase = .waiting .txReady ∧ t.agenda = []
      ∧ t.selectN = false ∧ t.result = s.result ∧ ∀ b, .txWr .s b ∉ t.trace.drop s.trace.length := by
  have hE : ∀ e, BusEvent.StrobeOf .a e → ¬∃ b, e = .txWr .s b := by
    rintro e (⟨b, rfl⟩ | rfl) ⟨b', h⟩ <;> cases h
  obtain ⟨t, ht, ⟨hr, hs, htr⟩, hp, ha⟩ := execDlcHostTransaction_hangs he hbyte (clockByte_without_txReady hE)
    ⟨inWindow_select s (by rintro ⟨b, h⟩; cases h), hn.congr rfl rfl rfl rfl⟩
  exact ⟨t, ht, hp, ha, hs, hr, fun b => htr.not_mem_drop ⟨b, rfl⟩⟩

theorem transaction_without_rxReady (hn : NeverHolds .rxReady s) :
    ∃ t, exec (.dlcHostTransaction .s out n) s = .next t ∧ (t.phase = .waiting .txReady ∨ t.phase = .waiting .rxReady)
      ∧ t.agenda = [] ∧ t.selectN = false ∧ t.result = s.result ∧ .rxRd .s ∉ t.trace.drop s.trace.length := by
  have hE : ∀ e, BusEvent.StrobeOf .a e → ¬e = .rxRd .s := by
    rintro e (⟨b, rfl⟩ | rfl) h <;> cases h
  obtain ⟨t, ht, ⟨hr, hs, htr⟩, hw⟩ := execDlcHostTransaction_hangs he hbyte
    (clockByte_without_rxReady hE fun b h => by cases h)
    ⟨inWindow_select s (by intro h; cases h), hn.congr rfl rfl rfl rfl⟩
  exact ⟨t, ht, hw.imp And.left And.left, hw.elim And.right And.right, hs, hr, htr.not_mem_drop rfl⟩

end Transaction

end Sys2Proof.Machine
end

section
/-! O59: `RC.TRANSMIT` and `RC.RECEIVE` where `irq` stays low (R274, R276): they hang, and in their own wait where the transceiver
answers every frame before it. -/

namespace Sys2Proof.Machine

/-! ### What a frame keeps -/

/-- A property that everything an exchange does keeps, where it does not hang; `H` holds where it does. -/
structure ExchangeKeeps (P H : State → Prop) : Prop where
  wait : ∀ x w s, P s → (waitUntil x w s).Ends P H
  emit : ∀ s e, P s → P (s.emit e)
  select : ∀ s b, P s → P (s.setSelect b)
  put : ∀ s b, P s → P (csPut (.rx .s) b s).2

namespace ExchangeKeeps

variable {P H : State → Prop} (hP : ExchangeKeeps P H)
include hP

theorem clockByte (b : Byte) (s : State) (h : P s) : (clockByte b s).Ends P H :=
  (hP.wait _ _ s h).bind fun _ _ h => (hP.wait _ _ _ (hP.emit _ _ h)).bind fun _ _ h => hP.emit _ _ h

theorem commandPhase (out : List Byte) (s : State) (h : P s) : (commandPhase out s).Ends P H := by
  induction out generalizing s with
  | nil => exact h
  | cons b out ih => exact (hP.clockByte b s h).bind fun _ _ h => (ih _ h).bind fun _ _ h => h

theorem responsePhase (n : Nat) (s : State) (h : P s) : (responsePhase n s).Ends P H := by
  induction n generalizing s with
  | zero => exact h
  | succ n ih =>
    unfold Machine.responsePhase
    split
    · exact h
    · exact (hP.clockByte _ s h).bind fun _ _ h => ih _ (hP.put _ _ h)

theorem driveSelect (b : Bool) (s : State) (h : P s) : P (driveSelect b s) := hP.emit _ _ (hP.select s b h)

theorem hostTransaction (out : List Byte) (n : Nat) (s : State) (h : P s) : (hostTransaction out n s).Ends P H := by
  unfold Machine.hostTransaction
  split
  · exact (hP.commandPhase out _ (hP.driveSelect _ s h)).bind fun _ _ h => (hP.responsePhase n _ h).bind fun _ _ h =>
      hP.emit _ _ (hP.driveSelect _ _ h)
  · exact h

theorem exchange (f : Frame) (s : State) (h : P s) : (exchange f s).Ends P H :=
  (hP.wait _ _ s h).bind fun _ _ h => hP.hostTransaction _ _ _ h

theorem standbyFirst (s : State) (h : P s) : (standbyFirst s).Ends P H := by
  unfold Machine.standbyFirst
  split
  · exact (hP.exchange _ s h).bind fun _ _ h => h
  · exact h

end ExchangeKeeps

/-! ### `irq` never raised -/

/-- The last record is still `r`, and no one will ever raise `irq`. -/
def IrqNever (r : Result) (s : State) : Prop := s.result = r ∧ NeverHolds .irqHigh s

/-- The last record is still `r`, and APP hangs. -/
def HangsWith (r : Result) (s : State) : Prop := s.result = r ∧ ∃ w, HangsAt w s

theorem irqNever_kept (x : Option LinkId) (r : Result) : KeptByOthers x (IrqNever r) :=
  (result_kept x r).and (neverHolds_kept x .irqHigh)

theorem irqNever_exchangeKeeps (r : Result) : ExchangeKeeps (IrqNever r) (HangsWith r) where
  wait x w s h := (waitUntil_ends (irqNever_kept x r) w s h).mono fun _ ht => ⟨ht.1.1, w, ht.2⟩
  emit _ _ h := ⟨h.1, h.2.congr rfl rfl rfl rfl⟩
  select _ _ h := ⟨h.1, h.2.congr rfl rfl rfl rfl⟩
  put s b h := by
    have hput := csPut_only (.rx .s) b s
    exact ⟨hput.result.trans h.1, h.2.congr (hput.periph .s) hput.busy hput.irq hput.agenda⟩

/-- The wait on `irq` is never passed: what reads the status after it never runs. -/
theorem runRadio_hangs (m : RadioMode) (f : Frame) (r : Result) (s : State) (h : IrqNever r s) :
    (runRadio m f s).Hangs (HangsWith r) := by
  have hmode : IrqNever r (s.setMode m) := ⟨h.1, h.2.congr rfl rfl rfl rfl⟩
  refine ((irqNever_exchangeKeeps r).exchange f _ hmode).bind fun _ u hu => Res.Hangs.bind ?_
  exact (waitUntil_never (irqNever_kept none r) .irqHigh u hu hu.2).mono fun _ ht => ⟨ht.1.1, _, ht.2⟩

theorem radioTransmit_hangs (payload : List Byte) (timeout : Word32) (s : State) (h : NeverHolds .irqHigh s) :
    (radioTransmit payload timeout s).Hangs (HangsWith s.result) :=
  have hk := irqNever_exchangeKeeps s.result
  (hk.standbyFirst s ⟨rfl, h⟩).bind fun _ _ h => (hk.exchange _ _ h).bind fun _ _ h => (hk.exchange _ _ h).bind fun _ _ h =>
    (runRadio_hangs _ _ _ _ h).bind

theorem radioReceive_hangs (timeout : Word32) (s : State) (h : NeverHolds .irqHigh s) :
    (radioReceive timeout s).Hangs (HangsWith s.result) :=
  have hk := irqNever_exchangeKeeps s.result
  (hk.standbyFirst s ⟨rfl, h⟩).bind fun _ _ h => (hk.exchange _ _ h).bind fun _ _ h => (runRadio_hangs _ _ _ _ h).bind

/-! ### Every frame before the wait answered -/

/-- A frame that asks for no response, answered: whatever the state of `rx`, it goes out whole. -/
theorem exchange_script_command (f : Frame) (as : List Byte) (s : State) (he : (s.link .s).status.enabled = true)
    (hn : f.numRead = 0) (ha : as.length = f.out.length) (sig : PeriphIn) (b i i' : Bool) (rest : List Event) (sel : Bool)
    (tr : List BusEvent) :
    exchange f (s.env sig b i (exchangeScript i' as ++ rest) sel tr)
      = .done (as.headD 0) (s.env (lastSignal sig as) false i' rest true (tr ++ frameEvents f.out)) := by
  have hp : pointExcluding none (s.env sig b i (exchangeScript i' as ++ rest) sel tr)
      = s.env sig false i' (bytesScript as ++ rest) sel tr := rfl
  unfold exchange
  rw [waitUntil_holds _ _ _ (by rw [hp]; rfl), hp]
  simp only [Res.bind, hostTransaction, driveSelect, State.env_link, he, if_true, State.env_setSelect, State.env_emit, hn,
    responsePhase]
  rw [commandPhase_script f.out as ha]
  simp [frameEvents_eq]

/-- The state in some environment whose `irq` is low and whose agenda is `rest`. -/
def State.LowIrq (s : State) (rest : List Event) (t : State) : Prop := ∃ sig b sel tr, t = s.env sig b false rest sel tr

theorem State.lowIrq_self {s : State} (h : s.irq = false) : s.LowIrq s.agenda s :=
  ⟨s.periphS, s.busy, s.selectN, s.trace, by rw [← h]; rfl⟩

section Answered

variable {s t : State} (he : (s.link .s).status.enabled = true) {rest : List Event}
include he

theorem exchange_answered (f : Frame) (as : List Byte) (hn : f.numRead = 0) (ha : as.length = f.out.length)
    (h : s.LowIrq (exchangeScript false as ++ rest) t) : ∃ a u, exchange f t = .done a u ∧ s.LowIrq rest u := by
  obtain ⟨sig, b, sel, tr, rfl⟩ := h
  exact ⟨_, _, exchange_script_command f as s he hn ha sig b false false rest sel tr, _, _, _, _, rfl⟩

theorem standbyFirst_answered (as : List Byte) (ha : as.length = 2)
    (h : s.LowIrq (standbyScript s.params false as ++ rest) t) : ∃ u, standbyFirst t = .done () u ∧ s.LowIrq rest u := by
  have hps : t.params = s.params := by obtain ⟨sig, b, sel, tr, rfl⟩ := h; rfl
  unfold standbyFirst
  rw [hps]
  unfold standbyScript at h
  split
  · next hf =>
    rw [if_pos hf] at h
    obtain ⟨a, u, hx, hu⟩ := exchange_answered he (standbyFrame s.params.enc) as rfl ha h
    exact ⟨u, by rw [exchangeAll, hx]; rfl, hu⟩
  · next hf =>
    rw [if_neg hf] at h
    exact ⟨t, rfl, h⟩

/-- After the last answer nobody is left to raise `irq`: APP hangs in that wait, the ghost mode `m` (R36). -/
theorem runRadio_answered (m : RadioMode) (f : Frame) (as : List Byte) (hn : f.numRead = 0) (ha : as.length = f.out.length)
    (h : s.LowIrq (exchangeScript false as) t) :
    ∃ u, runRadio m f t = .hung u ∧ u.phase = .waiting .irqHigh ∧ u.radio.mode = m := by
  obtain ⟨sig, b, sel, tr, rfl⟩ := h
  rw [← List.append_nil (exchangeScript false as), runRadio, State.env_setMode,
    exchange_script_command f as (s.setMode m) he hn ha]
  exact ⟨_, rfl, rfl, rfl⟩

end Answered

theorem radioTransmit_answered (payload : List Byte) (timeout : Word32) (s : State)
    (he : (s.link .s).status.enabled = true) (hi : s.irq = false) {a1 a2 a3 a4 : List Byte} (h1 : a1.length = 2)
    (h2 : a2.length = 7) (h3 : a3.length = 2 + payload.length) (h4 : a4.length = 4)
    (ha : s.agenda = standbyScript s.params false a1 ++ exchangeScript false a2 ++ exchangeScript false a3
      ++ exchangeScript false a4) :
    ∃ t, radioTransmit payload timeout s = .hung t ∧ t.phase = .waiting .irqHigh ∧ t.radio.mode = .transmitting := by
  have h := State.lowIrq_self hi
  rw [ha, List.append_assoc, List.append_assoc] at h
  obtain ⟨u1, hx1, hu1⟩ := standbyFirst_answered he a1 h1 h
  obtain ⟨_, u2, hx2, hu2⟩ := exchange_answered he
    (packetParamsFrame u1.params.enc u1.radio (BitVec.ofNat 8 payload.length)) a2 rfl h2 hu1
  obtain ⟨_, u3, hx3, hu3⟩ := exchange_answered he (Frame.writeBuffer u2.params.enc 0 payload) a3 rfl
    (by simp only [h3, Frame.writeBuffer, List.length_cons]; omega) hu2
  obtain ⟨t, hx4, ht⟩ := runRadio_answered he .transmitting (Frame.setTxMode u3.params.enc (txTimeout timeout)) a4 rfl h4 hu3
  refine ⟨t, ?_, ht⟩
  simp only [radioTransmit, setPacketLength, hx1, hx2, hx3, hx4, Res.bind]

theorem radioReceive_answered (timeout : Word32) (s : State) (he : (s.link .s).status.enabled = true) (hi : s.irq = false)
    {a1 a2 a3 : List Byte} (h1 : a1.length = 2) (h2 : a2.length = 7) (h3 : a3.length = 4)
    (ha : s.agenda = standbyScript s.params false a1 ++ exchangeScript false a2 ++ exchangeScript false a3) :
    ∃ t, radioReceive timeout s = .hung t ∧ t.phase = .waiting .irqHigh ∧ t.radio.mode = .receiving := by
  have h := State.lowIrq_self hi
  rw [ha, List.append_assoc] at h
  obtain ⟨u1, hx1, hu1⟩ := standbyFirst_answered he a1 h1 h
  obtain ⟨_, u2, hx2, hu2⟩ := exchange_answered he (packetParamsFrame u1.params.enc u1.radio 0xFF) a2 rfl h2 hu1
  obtain ⟨t, hx3, ht⟩ := runRadio_answered he .receiving (Frame.setRxMode u2.params.enc (rxTimeout timeout)) a3 rfl h3 hu2
  refine ⟨t, ?_, ht⟩
  simp only [radioReceive, setPacketLength, hx1, hx2, hx3, Res.bind]

/-! ### The two operations -/

theorem exec_rcTransmit (payload : List Byte) (timeout : Word32) (s : State) (he : (s.link .s).status.enabled = true)
    (hm : s.radio.mode ≠ .uninitialized) (hlen : payload.length ≤ 255) :
    exec (.rcTransmit payload timeout) s = (radioTransmit payload timeout s).outcome .ok := by
  rw [exec, execRcTransmit, if_pos he, if_neg hm, if_pos hlen]

theorem exec_rcReceive (timeout : Word32) (s : State) (he : (s.link .s).status.enabled = true)
    (hm : s.radio.mode ≠ .uninitialized) :
    exec (.rcReceive timeout) s = (radioReceive timeout s).outcome fun r => .received r.1 r.2 := by
  rw [exec, execRcReceive, if_pos he, if_neg hm]

/-- Settles O59: each wait with no one to end it hangs, and what the operation did before it shows no result. -/
theorem waitsThatNeverEndHang : Obligations.WaitsThatNeverEndHang := by
  refine ⟨frame_hangs_while_busy, step_waiting_alone, fun s out n he hbyte => ⟨fun h ha => ?_, fun h ha => ?_⟩,
    fun s payload timeout he hm hlen hi ha => ⟨?_, ?_, ?_, ?_⟩⟩
  · exact transaction_without_txReady he hbyte ⟨h, peripheral_raises (.inl rfl) ha⟩
  · exact transaction_without_rxReady he hbyte ⟨h, peripheral_raises (.inr rfl) ha⟩
  · rw [exec_rcTransmit payload timeout s he hm hlen]
    obtain ⟨t, ht, hr, w, hp, hag⟩ := (radioTransmit_hangs payload timeout s ⟨hi, lines_raise_irq ha⟩).outcome .ok
    exact ⟨t, w, ht, hp, hag, hr⟩
  · rw [exec_rcReceive timeout s he hm]
    obtain ⟨t, ht, hr, w, hp, hag⟩ := (radioReceive_hangs timeout s ⟨hi, lines_raise_irq ha⟩).outcome
      fun r => .received r.1 r.2
    exact ⟨t, w, ht, hp, hag, hr⟩
  · intro a1 a2 a3 a4 h1 h2 h3 h4 hagenda
    obtain ⟨t, hx, ht⟩ := radioTransmit_answered payload timeout s he hi h1 h2 h3 h4 hagenda
    exact ⟨t, by rw [exec_rcTransmit payload timeout s he hm hlen, hx]; rfl, ht⟩
  · intro a1 a2 a3 h1 h2 h3 hagenda
    obtain ⟨t, hx, ht⟩ := radioReceive_answered timeout s he hi h1 h2 h3 hagenda
    exact ⟨t, by rw [exec_rcReceive timeout s he hm, hx]; rfl, ht⟩

end Sys2Proof.Machine
end

section
/-! What the units of a ring (Machine/Ops.lean) and the application's stores leave alone, in one lemma for each, and the lines,
ghost mode and phase of a state as one value. -/

namespace Sys2Proof.Machine

/-- What a host transaction, a hard reset, the ghost mode and a hang change, and nothing else does: `select_n` (R33), `reset_n`
(R265), the mode (R36), and whether APP hangs (log 4). -/
structure Controls where
  selectN : Bool
  resetN : Bool
  mode : RadioMode
  phase : Phase

def State.controls (s : State) : Controls :=
  { selectN := s.selectN, resetN := s.radio.resetN, mode := s.radio.mode, phase := s.phase }

/-- A unit of a ring, or a store: it changes rings and memory only. -/
structure RingUnit (s t : State) : Prop where
  lockout : ∀ c, (t.cs c).lockout = (s.cs c).lockout
  status : ∀ k, (t.link k).status = (s.link k).status
  controls : t.controls = s.controls

theorem RingUnit.refl (s : State) : RingUnit s s := ⟨fun _ => rfl, fun _ => rfl, rfl⟩

theorem rbBind_unit (p : RbPort) (b : Option Ref) (n : Nat) (s : State) : RingUnit s (rbBind p b n s) := by
  constructor <;> simp [rbBind, State.controls]

theorem rbClear_unit (p : RbPort) (s : State) : RingUnit s (rbClear p s) := by
  constructor <;> simp [rbClear, State.controls]

theorem rbPut_unit (p : RbPort) (v : Nat) (s : State) : RingUnit s (rbPut p v s).2 := by
  cases h : (s.rb p).isFull
  · rw [rbPut_room p v s h]
    constructor <;> simp [State.controls]
  · rw [rbPut_full p v s h]
    exact .refl s

theorem rbGet_unit (p : RbPort) (s : State) : RingUnit s (rbGet p s).2 := by
  by_cases h : (s.rb p).count = 0
  · rw [rbGet_empty p s h]
    exact .refl s
  · rw [rbGet_some p s h]
    constructor <;> simp [State.controls]

theorem rbShift_unit (p : RbPort) (n : Nat) (fwd : Bool) (s : State) : RingUnit s (rbShift p n fwd s) := by
  constructor <;> simp [rbShift, State.controls]

theorem writeSlot_unit (p : RbPort) (i v : Nat) (s : State) : RingUnit s (s.writeSlot p i v) := by
  constructor <;> simp [State.controls]

theorem applyStore_unit (r : Ref) (i : Word32) (v : Byte) (s : State) : RingUnit s (applyStore r i v s) := by
  unfold applyStore
  split <;> constructor <;> simp [State.controls]

theorem applyStoreWide_unit (r : Ref) (i : Word32) (v : Nat) (s : State) : RingUnit s (applyStoreWide r i v s) := by
  unfold applyStoreWide
  split
  · exact applyStore_unit r i _ s
  · split <;> constructor <;> simp [State.controls]

/-! ### What the stores of the application do to the rings -/

@[simp] theorem applyStore_rb (r : Ref) (i : Word32) (v : Byte) (s : State) (q : RbPort) :
    (applyStore r i v s).rb q = s.rb q := by
  unfold applyStore
  split <;> simp

@[simp] theorem applyStoreWide_rb (r : Ref) (i : Word32) (v : Nat) (s : State) (q : RbPort) :
    (applyStoreWide r i v s).rb q = s.rb q := by
  unfold applyStoreWide
  split
  · exact applyStore_rb r i _ s q
  · split <;> simp

/-! ### Which array each RB is bound to, and the arrays of any value -/

/-- Only `RB.RESET` changes a binding (R24). -/
@[simp] theorem rbClear_backing (p : RbPort) (s : State) (q : RbPort) :
    ((rbClear p s).rb q).backing = (s.rb q).backing := by
  by_cases hq : q = p <;> simp [rbClear, Rb.cleared, hq]

@[simp] theorem rbPut_backing (p : RbPort) (v : Nat) (s : State) (q : RbPort) :
    ((rbPut p v s).2.rb q).backing = (s.rb q).backing := by
  cases h : (s.rb p).isFull
  · by_cases hq : q = p <;> simp [rbPut_room p v s h, Rb.afterPut, hq]
  · rw [rbPut_full p v s h]

@[simp] theorem rbGet_backing (p : RbPort) (s : State) (q : RbPort) :
    ((rbGet p s).2.rb q).backing = (s.rb q).backing := by
  by_cases h : (s.rb p).count = 0
  · rw [rbGet_empty p s h]
  · by_cases hq : q = p <;> simp [rbGet_some p s h, Rb.afterGet, hq]

theorem Rb.shifted_backing (rb : Rb) (n : Nat) (fwd : Bool) : (rb.shifted n fwd).backing = rb.backing := by
  unfold Rb.shifted
  dsimp only
  split
  · rfl
  · split <;> rfl

@[simp] theorem rbShift_backing (p : RbPort) (n : Nat) (fwd : Bool) (s : State) (q : RbPort) :
    ((rbShift p n fwd s).rb q).backing = (s.rb q).backing := by
  by_cases hq : q = p <;> simp [rbShift, Rb.shifted_backing, hq]

@[simp] theorem rbPut_tainted (p : RbPort) (v : Nat) (s : State) : (rbPut p v s).2.tainted = s.tainted := by
  cases h : (s.rb p).isFull
  · simp [rbPut_room p v s h]
  · rw [rbPut_full p v s h]

@[simp] theorem rbGet_tainted (p : RbPort) (s : State) : (rbGet p s).2.tainted = s.tainted := by
  by_cases h : (s.rb p).count = 0
  · rw [rbGet_empty p s h]
  · simp [rbGet_some p s h]

theorem State.mem_taint (s : State) (r r' : Ref) : r' ∈ (s.taint r).tainted ↔ r' = r ∨ r' ∈ s.tainted := by
  unfold State.taint
  by_cases h : r ∈ s.tainted
  · rw [if_pos (by simpa using h)]
    exact ⟨.inr, fun h' => h'.elim (· ▸ h) id⟩
  · rw [if_neg (by simpa using h)]
    exact List.mem_cons

theorem tainted_subset_applyStore (r : Ref) (i : Word32) (v : Byte) (s : State) :
    s.tainted ⊆ (applyStore r i v s).tainted := by
  intro r' h
  unfold applyStore
  split
  · simp [State.mem_taint, h]
  · simp [h]

theorem tainted_subset_applyStoreWide (r : Ref) (i : Word32) (v : Nat) (s : State) :
    s.tainted ⊆ (applyStoreWide r i v s).tainted := by
  unfold applyStoreWide
  split
  · exact tainted_subset_applyStore r i _ s
  · intro r' h
    split
    · simp [State.mem_taint, h]
    · simp [h]

theorem tainted_subset_claim (p : RbPort) (b : Option Ref) (s : State) : s.tainted ⊆ (s.claim p b).tainted := by
  intro r' h
  unfold State.claim
  split
  · exact h
  · split
    · simp [State.mem_taint, h]
    · exact h

theorem RbPort.mem_all (p : RbPort) : p ∈ RbPort.all := by
  rcases p with _ | (_ | _) | (_ | (_ | _) | _) <;> decide

theorem State.boundElsewhere_iff (s : State) (p : RbPort) (r : Ref) :
    s.boundElsewhere p r = true ↔ ∃ q, q ≠ p ∧ (s.rb q).backing = some r := by
  simp [State.boundElsewhere, RbPort.mem_all]

/-- A second owner makes an array one of any value (U3). -/
theorem State.mem_tainted_claim (s : State) (p q : RbPort) (r : Ref) (hq : q ≠ p) (hr : (s.rb q).backing = some r) :
    r ∈ (s.claim p (some r)).tainted := by
  have hb : s.boundElsewhere p r = true := (s.boundElsewhere_iff p r).2 ⟨q, hq, hr⟩
  simp [State.claim, hb, State.mem_taint]

end Sys2Proof.Machine
end

section
/-! O10, O11, O13, O14: what every primitive change keeps (Laws/Keeps.lean), and so every step. -/

namespace Sys2Proof.Machine

/-! ### The rings (R23) -/

theorem RingsOk.congr {s t : State} (h : RingsOk s) (ht : ∀ q, t.rb q = s.rb q) : RingsOk t := fun q => by
  rw [ht q]
  exact h q

theorem RingsOk.setRb {s : State} (h : RingsOk s) (p : RbPort) {rb : Rb} (hrb : rb.Ok) : RingsOk (s.setRb p rb) := by
  intro q
  rw [State.setRb_rb]
  split
  · exact hrb
  · exact h q

theorem RingsOk.rbPut {s : State} (h : RingsOk s) (p : RbPort) (v : Nat) : RingsOk (rbPut p v s).2 := by
  cases hf : (s.rb p).isFull
  · rw [rbPut_room p v s hf]
    exact (h.congr (by simp)).setRb p (Rb.afterPut_ok _ (h p) hf)
  · rw [rbPut_full p v s hf]
    exact h

theorem RingsOk.rbGet {s : State} (h : RingsOk s) (p : RbPort) : RingsOk (rbGet p s).2 := by
  by_cases hc : (s.rb p).count = 0
  · rw [rbGet_empty p s hc]
    exact h
  · rw [rbGet_some p s hc]
    exact h.setRb p (Rb.afterGet_ok _ (h p) hc)

theorem ringsOk_stable : Stable RingsOk := by
  constructor
  case bind => exact fun s p b c hb h => (h.congr (by simp)).setRb p (Rb.bound_ok b c hb)
  case clear => exact fun s p h => h.setRb p (Rb.cleared_ok _ (h p))
  case put => exact fun s p v h => h.rbPut p v
  case get => exact fun s p h => h.rbGet p
  case shift => exact fun s p n fwd h => h.setRb p (Rb.shifted_ok _ (h p) n fwd)
  all_goals
    intros
    exact RingsOk.congr ‹_› (by simp)

/-- Settles O10: R23 is kept by the five units that write an RB's counters, and nothing else writes them. -/
theorem stepKeepsEveryRing : Obligations.StepKeepsEveryRing := fun s t h hst => ringsOk_stable.step s h t hst

/-! ### The lockouts (R27) -/

theorem LockoutsOk.congr {s t : State} (h : LockoutsOk s) (ht : ∀ c, (t.cs c).lockout = (s.cs c).lockout) :
    LockoutsOk t := fun c => (ht c).trans_le (h c)

theorem LockoutsOk.setLockout {s : State} (h : LockoutsOk s) (c : CsPort) {n : Nat} (hn : n ≤ 256) :
    LockoutsOk (s.setLockout c n) := by
  intro d
  rw [State.setLockout_lockout]
  split
  · exact hn
  · exact h d

theorem lockoutsOk_stable : Stable LockoutsOk := by
  constructor
  case lockoutOne => exact fun s c h => h.setLockout c (by decide)
  case lockoutDown => exact fun s c h => h.setLockout c ((Nat.sub_le _ _).trans (h c))
  case lockoutMatch => exact fun s c n hn h => h.setLockout c (by omega)
  case bind => exact fun s p b c _ h => h.congr (rbBind_unit p b _ s).lockout
  case clear => exact fun s p h => h.congr (rbClear_unit p s).lockout
  case put => exact fun s p v h => h.congr (rbPut_unit p v s).lockout
  case get => exact fun s p h => h.congr (rbGet_unit p s).lockout
  case shift => exact fun s p n fwd h => h.congr (rbShift_unit p n fwd s).lockout
  case store => exact fun s r i v h => h.congr (applyStore_unit r i v s).lockout
  case storeWide => exact fun s r i v h => h.congr (applyStoreWide_unit r i v s).lockout
  all_goals
    intros
    exact LockoutsOk.congr ‹_› (by simp)

/-- Settles O11: a shift is a byte, so a match sets the lockout to at most `1 + 255` (R166, R179), and nothing else raises it
but to 1. -/
theorem stepKeepsEveryLockout : Obligations.StepKeepsEveryLockout := fun s t h hst => lockoutsOk_stable.step s h t hst

/-! ### The owners of an array (R47) -/

theorem OwnershipOk.mono {s t : State} (h : OwnershipOk s) (hb : ∀ q, (t.rb q).backing = (s.rb q).backing)
    (ht : s.tainted ⊆ t.tainted) : OwnershipOk t := by
  intro p q r hpq hp hq
  rw [hb] at hp hq
  exact ht (h p q r hpq hp hq)

theorem rbBind_backing (p : RbPort) (b : Option Ref) (n : Nat) (s : State) (q : RbPort) :
    ((rbBind p b n s).rb q).backing = if q = p then (Rb.bound b n).backing else (s.rb q).backing := by
  simp only [rbBind, State.setRb_rb, State.claim_rb]
  split <;> rfl

theorem rbBind_tainted (p : RbPort) (b : Option Ref) (n : Nat) (s : State) :
    (rbBind p b n s).tainted = (s.claim p (Rb.bound b n).backing).tainted := by simp [rbBind]

/-- The array a binding gives an RB is any value from then on where another RB has it. -/
theorem mem_tainted_rbBind (p q : RbPort) (b : Option Ref) (n : Nat) (s : State) (r : Ref) (hq : q ≠ p)
    (hp : (Rb.bound b n).backing = some r) (hr : (s.rb q).backing = some r) : r ∈ (rbBind p b n s).tainted := by
  rw [rbBind_tainted, hp]
  exact s.mem_tainted_claim p q r hq hr

theorem OwnershipOk.rbBind {s : State} (h : OwnershipOk s) (p : RbPort) (b : Option Ref) (n : Nat) :
    OwnershipOk (rbBind p b n s) := by
  intro q q' r hne hq hq'
  rw [rbBind_backing] at hq hq'
  by_cases hqp : q = p
  · have hq'p : q' ≠ p := fun e => hne (hqp.trans e.symm)
    rw [if_pos hqp] at hq
    rw [if_neg hq'p] at hq'
    exact mem_tainted_rbBind p q' b n s r hq'p hq hq'
  · rw [if_neg hqp] at hq
    by_cases hq'p : q' = p
    · rw [if_pos hq'p] at hq'
      exact mem_tainted_rbBind p q b n s r hqp hq' hq
    · rw [if_neg hq'p] at hq'
      rw [rbBind_tainted]
      exact tainted_subset_claim p _ s (h q q' r hne hq hq')

theorem ownershipOk_stable : Stable OwnershipOk := by
  constructor
  case bind => exact fun s p b c _ h => h.rbBind p b c.toNat
  case clear => exact fun s p h => h.mono (by simp) (by simp [rbClear])
  case shift => exact fun s p n fwd h => h.mono (by simp) (by simp [rbShift])
  case store => exact fun s r i v h => h.mono (by simp) (tainted_subset_applyStore r i v s)
  case storeWide => exact fun s r i v h => h.mono (by simp) (tainted_subset_applyStoreWide r i v s)
  all_goals
    intros
    exact OwnershipOk.mono ‹_› (by simp) (by simp)

/-- Settles O13: only a binding gives an array a second owner, and it marks the array (`State.claim`); no mark is taken away. -/
theorem stepKeepsOwnership : Obligations.StepKeepsOwnership := fun s t h hst => ownershipOk_stable.step s h t hst

/-! ### The errors of the SYNC link (R29, R211) -/

/-- The block samples no error flag of a SYNC link but `err_ovr` (R41), so it classifies no other error. -/
theorem classify_seenBy_sync (sig : PeriphIn) (h : (sig.seenBy .sync).anyErr = true) :
    (sig.seenBy .sync).classify = .overflow := by
  have hovr : sig.errOvr = true := by simpa [PeriphIn.seenBy, PeriphIn.anyErr] using h
  simp [PeriphIn.seenBy, PeriphIn.classify, hovr]

theorem SyncErrorsOk.congr {s t : State} (h : SyncErrorsOk s)
    (ht : (t.link .s).status = (s.link .s).status) : SyncErrorsOk t := by
  unfold SyncErrorsOk
  rw [ht]
  exact h

theorem SyncErrorsOk.setStatus {s : State} (h : SyncErrorsOk s) (k : LinkId) (st : LinkStatus)
    (hst : k = .s → st.lastError = .none ∨ st.lastError = .overflow) : SyncErrorsOk (s.setStatus k st) := by
  unfold SyncErrorsOk
  rw [State.setStatus_status]
  split
  · next hk => exact hst hk.symm
  · exact h

theorem syncErrorsOk_stable : Stable SyncErrorsOk := by
  constructor
  case fresh => exact fun s k b h => h.setStatus k _ fun _ => .inl rfl
  case ackError => exact fun s k h => h.setStatus k _ fun _ => .inl rfl
  case error =>
    intro s k sig herr h
    refine h.setStatus k _ fun hk => .inr ?_
    subst hk
    exact classify_seenBy_sync sig herr
  case txClass => exact fun s k c h => h.setStatus k _ fun hk => hk ▸ h
  case rxClass => exact fun s k c h => h.setStatus k _ fun hk => hk ▸ h
  case enabled => exact fun s k b h => h.setStatus k _ fun hk => hk ▸ h
  case bind => exact fun s p b c _ h => h.congr ((rbBind_unit p b _ s).status .s)
  case clear => exact fun s p h => h.congr ((rbClear_unit p s).status .s)
  case put => exact fun s p v h => h.congr ((rbPut_unit p v s).status .s)
  case get => exact fun s p h => h.congr ((rbGet_unit p s).status .s)
  case shift => exact fun s p n fwd h => h.congr ((rbShift_unit p n fwd s).status .s)
  case store => exact fun s r i v h => h.congr ((applyStore_unit r i v s).status .s)
  case storeWide => exact fun s r i v h => h.congr ((applyStoreWide_unit r i v s).status .s)
  all_goals
    intros
    exact SyncErrorsOk.congr ‹_› (by simp)

/-- Settles O14: the only error a handler records on the SYNC link is `classify_seenBy_sync`'s; every other write of
`last_error` clears it. -/
theorem syncLinkRecordsOnlyOverflow : Obligations.SyncLinkRecordsOnlyOverflow :=
  fun s t h hst => syncErrorsOk_stable.step s h t hst

end Sys2Proof.Machine
end

section
/-! O1, O2, O5: the state after power-on reset (R50), and the interrupt controller's turn (R386). -/

namespace Sys2Proof.Machine

theorem State.reset_rb (p : RbPort) : State.reset.rb p = Rb.unbound := by
  rcases p with _ | (_ | _) | (_ | (_ | _) | _) <;> rfl

theorem State.reset_lockout (c : CsPort) : (State.reset.cs c).lockout = 1 := by
  rcases c with _ | (_ | _) | _ <;> rfl

theorem State.reset_link (k : LinkId) : State.reset.link k = Link.powerOn := by cases k <;> rfl

/-- Both enables are 0, so whatever the peripherals drive. -/
theorem State.reset_pending (k : LinkId) : State.reset.pending k = false := by
  simp [State.pending, State.reset_link, Link.pendingOn, Link.powerOn]

/-- Settles O1: the table of R50, one lemma for each kind of element. -/
theorem resetGivesThePowerOnValues : Obligations.ResetGivesThePowerOnValues := by
  refine ⟨State.reset_rb, State.reset_lockout, fun k => ?_, rfl, rfl, rfl, rfl⟩
  rw [State.reset_link]
  exact ⟨rfl, rfl, rfl, rfl, State.reset_pending k⟩

/-- Settles O2: at reset every RB is unbound, so no array has an owner, and the memories are empty. -/
theorem resetHasTheInvariant : Obligations.ResetHasTheInvariant where
  rings p := by rw [State.reset_rb]; exact Rb.unbound_ok
  lockouts c := by rw [State.reset_lockout]; decide
  memory := reset_memory_wf
  ownership p q r _ hp _ := by rw [State.reset_rb] at hp; cases hp
  syncErrors := .inl rfl
  select := .inl rfl
  mode _ := .inl rfl
  resetLine := rfl
  hang := .inl rfl

/-- Settles O5: the turn is `applyBetween` of its entry, and the handler presents no record of its own. -/
theorem handlerStepsExactlyWhenPending : Obligations.HandlerStepsExactlyWhenPending := by
  intro s k es hp ha
  have hstep : step s = .next (applyEvent none (.isr k) (s.setAgenda es)) := by
    have ht : turn s = .other (applyBetween (.isr k) (s.setAgenda es)) := by
      unfold turn
      rw [hp, ha]
    rw [step, ht]
    rfl
  have hpending : (s.setAgenda es).pending k = s.pending k := by cases k <;> rfl
  refine ⟨fun h => ?_, fun h => ?_⟩
  · refine ⟨(takeInterrupt k (s.setAgenda es)).setResult .none, rfl, ?_⟩
    have hrun : applyEvent none (.isr k) (s.setAgenda es) = takeInterrupt k (s.setAgenda es) := by
      simp [applyEvent, hpending, h]
    have hres : (takeInterrupt k (s.setAgenda es)).result = s.result := (takeInterrupt_only k _).result
    rw [hstep, hrun, ← hres]
    rfl
  · rw [hstep]
    simp only [applyEvent, hpending, h]
    rfl

end Sys2Proof.Machine
end

section
/-! The controls of a state (lines, ghost mode, phase) under everything but a wait: only an edge of `select_n` or `reset_n` and a
change of the ghost mode move them. -/

namespace Sys2Proof.Machine

/-! ### Setters -/

section Setters

variable (s : State)

@[simp] theorem emit_controls (e : BusEvent) : (s.emit e).controls = s.controls := rfl
@[simp] theorem setRadioConfig_controls (w : Word16) (b : Bool) : (s.setRadioConfig w b).controls = s.controls := rfl
@[simp] theorem setPeriph_controls (k : LinkId) (sig : PeriphIn) : (s.setPeriph k sig).controls = s.controls := by
  simp [State.controls]
@[simp] theorem setRb_controls (p : RbPort) (r : Rb) : (s.setRb p r).controls = s.controls := by simp [State.controls]
@[simp] theorem setLockout_controls (c : CsPort) (n : Nat) : (s.setLockout c n).controls = s.controls := by
  simp [State.controls]
@[simp] theorem setTxie_controls (k : LinkId) (b : Bool) : (s.setTxie k b).controls = s.controls := by
  simp [State.controls]
@[simp] theorem setRxie_controls (k : LinkId) (b : Bool) : (s.setRxie k b).controls = s.controls := by
  simp [State.controls]
@[simp] theorem setErrEn_controls (k : LinkId) (b : Bool) : (s.setErrEn k b).controls = s.controls := by
  simp [State.controls]
@[simp] theorem setStatus_controls (k : LinkId) (st : LinkStatus) : (s.setStatus k st).controls = s.controls := by
  simp [State.controls]
@[simp] theorem setTxClass_controls (k : LinkId) (c : TxClass) : (s.setTxClass k c).controls = s.controls :=
  setStatus_controls s k _
@[simp] theorem setRxClass_controls (k : LinkId) (c : RxClass) : (s.setRxClass k c).controls = s.controls :=
  setStatus_controls s k _
@[simp] theorem setLastError_controls (k : LinkId) (e : LinkError) : (s.setLastError k e).controls = s.controls :=
  setStatus_controls s k _
@[simp] theorem setEnabled_controls (k : LinkId) (b : Bool) : (s.setEnabled k b).controls = s.controls :=
  setStatus_controls s k _

@[simp] theorem setMode_controls (m : RadioMode) : (s.setMode m).controls = { s.controls with mode := m } := rfl
@[simp] theorem driveSelect_controls (b : Bool) : (driveSelect b s).controls = { s.controls with selectN := b } := rfl
@[simp] theorem driveReset_controls (b : Bool) : (driveReset b s).controls = { s.controls with resetN := b } := rfl

end Setters

/-! ### Units -/

section Units

variable (s : State)

@[simp] theorem rbBind_controls (p : RbPort) (b : Option Ref) (n : Nat) : (rbBind p b n s).controls = s.controls :=
  (rbBind_unit p b n s).controls
@[simp] theorem rbClear_controls (p : RbPort) : (rbClear p s).controls = s.controls := (rbClear_unit p s).controls
@[simp] theorem rbPut_controls (p : RbPort) (v : Nat) : (rbPut p v s).2.controls = s.controls := (rbPut_unit p v s).controls
@[simp] theorem rbGet_controls (p : RbPort) : (rbGet p s).2.controls = s.controls := (rbGet_unit p s).controls
@[simp] theorem rbShift_controls (p : RbPort) (n : Nat) (fwd : Bool) : (rbShift p n fwd s).controls = s.controls :=
  (rbShift_unit p n fwd s).controls
@[simp] theorem writeSlot_controls (p : RbPort) (i v : Nat) : (s.writeSlot p i v).controls = s.controls :=
  (writeSlot_unit p i v s).controls

@[simp] theorem gateDisable_controls (g : Gate) : (gateDisable g s).controls = s.controls := by
  cases g <;> simp [gateDisable]

@[simp] theorem gateEnable_controls (g : Gate) : (gateEnable g s).controls = s.controls := by
  cases g <;> simp [gateEnable]

theorem underGate_controls {α : Type} (g : Gate) {unit : State → α × State}
    (hu : ∀ s, (unit s).2.controls = s.controls) : (underGate g unit s).2.controls = s.controls := by
  simp [underGate, hu]

@[simp] theorem csBind_controls (c : CsPort) (b : Option Ref) (n : Nat) : (csBind c b n s).controls = s.controls := by
  simp [csBind]

@[simp] theorem csClear_controls (c : CsPort) : (csClear c s).controls = s.controls := by simp [csClear]

@[simp] theorem csPut_controls (c : CsPort) (b : Byte) : (csPut c b s).2.controls = s.controls := by simp [csPut]

@[simp] theorem taken_controls (c : CsPort) (n : Nat) : (s.taken c n).controls = s.controls := by simp [State.taken]

@[simp] theorem csGet_controls (c : CsPort) : (csGet c s).2.controls = s.controls := by rw [csGet_state, taken_controls]

@[simp] theorem csDrain_controls (c : CsPort) : (csDrain c s).controls = s.controls := by
  rw [csDrain_state, taken_controls]

@[simp] theorem csMatchToken_controls (c : CsPort) (token : List Byte) (n : Nat) (mv : Bool) :
    (csMatchToken c token n mv s).2.controls = s.controls := by
  unfold csMatchToken
  split
  · simp
  · unfold csAccept
    dsimp only
    split <;> simp

theorem csDigits_controls (c : CsPort) (fuel n : Nat) (v : Word32) :
    (csDigits c fuel n v s).2.controls = s.controls := by
  induction fuel generalizing n v s with
  | zero => rfl
  | succ fuel ih =>
    unfold csDigits
    split
    · rfl
    · split
      · rw [ih, csGet_controls]
      · rfl

@[simp] theorem csMatchUint_controls (c : CsPort) : (csMatchUint c s).2.controls = s.controls := csDigits_controls s c _ _ _

@[simp] theorem csDelimiter_controls (c : CsPort) (d : Byte) (v : Word32) (pos : Nat) :
    (csDelimiter c d v pos s).2.controls = s.controls := by
  unfold csDelimiter
  split <;> simp

@[simp] theorem handlerTransmit_controls (k : LinkId) (sig : PeriphIn) :
    (handlerTransmit k sig s).controls = s.controls := by
  have hget := rbGet_controls s (.tx k)
  unfold handlerTransmit
  split
  · split
    · next heq => rw [heq] at hget; simpa using hget
    · next heq => rw [heq] at hget; simpa using hget
  · rfl

@[simp] theorem handlerReceive_controls (k : LinkId) (sig : PeriphIn) :
    (handlerReceive k sig s).controls = s.controls := by
  unfold handlerReceive
  split
  · simp
  · split
    · split <;> simp
    · rfl

@[simp] theorem takeInterrupt_controls (k : LinkId) : (takeInterrupt k s).controls = s.controls := by
  simp [takeInterrupt, returnFromInterrupt]

@[simp] theorem dlcTransmit_controls (k : LinkId) (b : Byte) : (dlcTransmit k b s).2.controls = s.controls := by
  unfold dlcTransmit
  split
  · rfl
  · exact underGate_controls s _ fun s => rbPut_controls s _ _

@[simp] theorem dlcReceive_controls (k : LinkId) : (dlcReceive k s).2.controls = s.controls := by
  unfold dlcReceive
  split
  · exact underGate_controls s _ fun s => csGet_controls s _
  · rfl

end Units

/-! ### The schedule -/

section Schedule

variable (s : State)

@[simp] theorem applyEvent_controls (x : Option LinkId) (e : Event) : (applyEvent x e s).controls = s.controls := by
  cases e with
  | isr k =>
    simp only [applyEvent]
    split
    · exact takeInterrupt_controls s k
    · rfl
  | periph k sig => exact setPeriph_controls s k sig
  | app | lines _ _ | store _ _ _ | storeWide _ _ _ => rfl

@[simp] theorem applyBetween_controls (e : Event) : (applyBetween e s).controls = s.controls := by
  cases e with
  | app => rfl
  | periph k sig => exact applyEvent_controls s none (.periph k sig)
  | lines b i => rfl
  | isr k => exact applyEvent_controls s none (.isr k)
  | store r i v => exact (applyStore_unit r i v s).controls
  | storeWide r i v => exact (applyStoreWide_unit r i v s).controls

theorem serve_controls (x : Option LinkId) (es : List Event) : (serve x es s).controls = s.controls := by
  induction es generalizing s with
  | nil => rfl
  | cons e es ih =>
    cases e with
    | app => rfl
    | _ => exact (ih _).trans (applyEvent_controls s x _)

@[simp] theorem pointExcluding_controls (x : Option LinkId) : (pointExcluding x s).controls = s.controls :=
  serve_controls s x _

@[simp] theorem point_controls : (point s).controls = s.controls := pointExcluding_controls s none

end Schedule

/-! ### Sequences of units without a wait -/

section Sequences

variable (s : State)

theorem ite_point_controls (first : Prop) [Decidable first] :
    (if first then s else point s).controls = s.controls := by
  split
  · rfl
  · exact point_controls s

theorem paramAttempts_controls (c : CsPort) (token : List Byte) (g : Gate) (n i : Nat) :
    (paramAttempts c token g n i s).2.controls = s.controls := by
  induction n generalizing i s with
  | zero => rfl
  | succ n ih =>
    have hattempt : (underGate g (csMatchToken c token i true) (if i = 1 then s else point s)).2.controls = s.controls :=
      (underGate_controls _ g fun s => csMatchToken_controls s c token i true).trans (ite_point_controls s _)
    unfold paramAttempts
    dsimp only
    split
    · exact hattempt
    · exact (ih _ _).trans hattempt

theorem paramRest_controls (c : CsPort) (d : Byte) (g : Gate) (pos : Nat) :
    (paramRest c d g pos s).2.controls = s.controls := by
  have hdigits : (underGate g (csMatchUint c) (point s)).2.controls = s.controls :=
    (underGate_controls _ g fun s => csMatchUint_controls s c).trans (point_controls s)
  unfold paramRest
  dsimp only
  split
  · exact hdigits
  · split
    · exact hdigits
    · rw [underGate_controls _ g fun s => csDelimiter_controls s c d _ pos, point_controls, hdigits]

@[simp] theorem csMatchParam_controls (c : CsPort) (token : List Byte) (d : Byte) (m : Nat) (g : Gate) :
    (csMatchParam c token d m g s).2.controls = s.controls := by
  have hattempts := paramAttempts_controls s c token g m 1
  unfold csMatchParam
  dsimp only
  split
  · exact hattempts
  · exact (paramRest_controls _ c d g _).trans hattempts

@[simp] theorem transmitAll_controls (k : LinkId) (first : Bool) (data : List Byte) :
    (transmitAll k first data s).2.controls = s.controls := by
  induction data generalizing first s with
  | nil => rfl
  | cons b data ih =>
    have hbyte : (dlcTransmit k b (if first then s else point s)).2.controls = s.controls :=
      (dlcTransmit_controls _ k b).trans (ite_point_controls s _)
    unfold transmitAll
    dsimp only
    generalize dlcTransmit k b (if first then s else point s) = r at hbyte ⊢
    split
    · exact (ih _ _).trans hbyte
    · exact hbyte

@[simp] theorem linkUp_controls (k : LinkId) (cfg : PeriphConfig) (tb : Option Ref) (tc : Nat) (rb : Option Ref) (rc : Nat) :
    (linkUp k cfg tb tc rb rc s).controls = s.controls := by simp [linkUp]

@[simp] theorem linkDown_controls (k : LinkId) : (linkDown k s).controls = s.controls := by simp [linkDown]

@[simp] theorem takeResponses_controls (n : Nat) : (takeResponses n s).2.controls = s.controls := by
  induction n generalizing s with
  | zero => rfl
  | succ n ih => exact (ih _).trans (by simp)

@[simp] theorem moveByte_controls : (moveByte s).controls = s.controls := by
  unfold moveByte
  dsimp only
  split <;> simp

@[simp] theorem moveBytes_controls (n : Nat) : (moveBytes n s).controls = s.controls := by
  induction n generalizing s with
  | zero => rfl
  | succ n ih => exact (ih _).trans (moveByte_controls s)

@[simp] theorem radioStart_controls (c : RadioConfig) (b : Option Ref) (n : Nat) :
    (radioStart c b n s).controls = s.controls := by simp [radioStart]

/-- `hard_reset()` leaves `reset_n` high (R265). -/
@[simp] theorem hardReset_controls : (hardReset s).controls = { s.controls with resetN := true } := by
  simp [hardReset, settle]

end Sequences

end Sys2Proof.Machine
end

section
/-! O15: the lines and the ghost mode between operations (R33, R36, R265), and where APP hangs (R395). An operation begins with
the controls of `Controls.resting`; every wait either leaves the controls as they are or hangs (`waitUntil_controls`). -/

namespace Sys2Proof.Machine

/-- Both lines high, the ghost mode `m`, and APP goes on. -/
def Controls.resting (m : RadioMode) : Controls := { selectN := true, resetN := true, mode := m, phase := .ready }

/-- APP hangs, with the lines as R33 and R265 have them then, and nobody is left to step (R395, log 4). -/
structure Stuck (t : State) : Prop where
  select : SelectOk t
  resetLine : ResetLineOk t
  hangs : ∃ w, HangsAt w t

/-- A state between operations. -/
def Idle (t : State) : Prop := ∃ m, (m = .uninitialized ∨ m = .standby) ∧ t.controls = .resting m

/-! ### One wait -/

/-- A wait leaves the controls alone, but for the mark of a hang. -/
theorem waitUntil_controls (x : Option LinkId) (w : Wait) (s : State) :
    (waitUntil x w s).Ends (fun t => t.controls = s.controls)
      fun t => t.controls = { s.controls with phase := .waiting w } ∧ t.agenda = [] := by
  rw [← pointExcluding_controls s x]
  unfold waitUntil
  generalize pointExcluding x s = u
  generalize u.agenda = es
  induction es generalizing u with
  | nil =>
    unfold waitLoop
    split
    · rfl
    · exact ⟨rfl, rfl⟩
  | cons e es ih =>
    unfold waitLoop
    split
    · rfl
    · rw [← applyEvent_controls u x e]
      exact ih _

/-- A wait with the select line high, or one of a host transaction, is one that APP may hang in. -/
theorem waitUntil_ends_stuck (x : Option LinkId) (w : Wait) {c : Controls} (hreset : c.resetN = true)
    (hselect : c.selectN = true ∨ w = .txReady ∨ w = .rxReady) (s : State) (h : s.controls = c) :
    (waitUntil x w s).Ends (fun t => t.controls = c) Stuck := by
  subst h
  refine (waitUntil_controls x w s).mono fun t ht => ?_
  obtain ⟨hc, hagenda⟩ := ht
  have hsel : t.selectN = s.selectN := congrArg Controls.selectN hc
  have hres : t.radio.resetN = s.radio.resetN := congrArg Controls.resetN hc
  have hphase : t.phase = .waiting w := congrArg Controls.phase hc
  refine ⟨?_, hres.trans hreset, w, hphase, hagenda⟩
  rcases hselect with hs | rfl | rfl
  · exact .inl (hsel.trans hs)
  · exact .inr (.inl hphase)
  · exact .inr (.inr hphase)

/-! ### One host transaction -/

section Window

variable {c : Controls} (hreset : c.resetN = true)
include hreset

theorem clockByte_ends (b : Byte) (s : State) (h : s.controls = c) :
    (clockByte b s).Ends (fun t => t.controls = c) Stuck := by
  refine (waitUntil_ends_stuck _ .txReady hreset (.inr (.inl rfl)) s h).bind fun _ _ h => ?_
  refine (waitUntil_ends_stuck _ .rxReady hreset (.inr (.inr rfl)) _ ?_).bind fun _ _ h => h
  exact h

theorem commandPhase_ends (out : List Byte) (s : State) (h : s.controls = c) :
    (commandPhase out s).Ends (fun t => t.controls = c) Stuck := by
  induction out generalizing s with
  | nil => exact h
  | cons b out ih => exact (clockByte_ends hreset b s h).bind fun _ _ h => (ih _ h).bind fun _ _ h => h

theorem responsePhase_ends (n : Nat) (s : State) (h : s.controls = c) :
    (responsePhase n s).Ends (fun t => t.controls = c) Stuck := by
  induction n generalizing s with
  | zero => exact h
  | succ n ih =>
    unfold responsePhase
    split
    · exact h
    · exact (clockByte_ends hreset _ s h).bind fun _ _ h => ih _ ((csPut_controls _ _ _).trans h)

end Window

/-! ### The sequences of the radio -/

/-- From rest a sequence comes to rest, in the mode `m`, or hangs. -/
abbrev Res.Rests {α : Type} (m : RadioMode) (r : Res α) : Prop := r.Ends (fun t => t.controls = .resting m) Stuck

section Sequences

variable {m : RadioMode}

/-- The select line falls and rises again, where no wait inside hangs (R33). -/
theorem hostTransaction_rests (out : List Byte) (n : Nat) (s : State) (h : s.controls = .resting m) :
    (hostTransaction out n s).Rests m := by
  have hsel : (driveSelect false s).controls = { Controls.resting m with selectN := false } := by
    rw [driveSelect_controls, h]
  unfold hostTransaction
  split
  · refine (commandPhase_ends rfl out _ hsel).bind fun _ _ h => (responsePhase_ends rfl n _ h).bind fun _ t h => ?_
    show ((driveSelect true t).emit _).controls = _
    rw [emit_controls, driveSelect_controls, h]
    rfl
  · exact h

theorem exchange_rests (f : Frame) (s : State) (h : s.controls = .resting m) : (exchange f s).Rests m :=
  (waitUntil_ends_stuck none .busyLow rfl (.inl rfl) s h).bind fun _ _ h => hostTransaction_rests _ _ _ h

theorem exchangeAll_rests (fs : List Frame) (s : State) (h : s.controls = .resting m) : (exchangeAll fs s).Rests m := by
  induction fs generalizing s with
  | nil => exact h
  | cons f fs ih => exact (exchange_rests f s h).bind fun _ _ h => ih _ h

theorem patchRegister_rests (a : Word16) (x y : Byte) (s : State) (h : s.controls = .resting m) :
    (patchRegister a x y s).Rests m :=
  (exchange_rests _ s h).bind fun _ _ h =>
    (exchange_rests _ _ ((takeResponses_controls _ 1).trans h)).bind fun _ _ h => h

theorem readAndClearIrq_rests (s : State) (h : s.controls = .resting m) : (readAndClearIrq s).Rests m :=
  (exchange_rests _ s h).bind fun _ _ h =>
    (exchange_rests _ _ ((takeResponses_controls _ 3).trans h)).bind fun _ _ h => h

theorem standbyFirst_rests (s : State) (h : s.controls = .resting m) : (standbyFirst s).Rests m := by
  unfold standbyFirst
  split
  · exact exchangeAll_rests _ s h
  · exact h

theorem setMode_resting (m' : RadioMode) (s : State) (h : s.controls = .resting m) :
    (s.setMode m').controls = .resting m' := by
  rw [setMode_controls, h]
  rfl

/-- `RC.INIT` ends in Standby (R264). -/
theorem configureRadio_rests (c : RadioConfig) (s : State) (h : s.controls = .resting m) :
    (configureRadio c s).Rests .standby :=
  (exchangeAll_rests _ s h).bind fun _ _ h => (patchRegister_rests _ _ _ _ h).bind fun _ _ h =>
    (exchangeAll_rests _ _ h).bind fun _ _ h => (patchRegister_rests _ _ _ _ h).bind fun _ _ h =>
      (exchangeAll_rests _ _ h).bind fun _ _ h => setMode_resting .standby _ h

/-- Transmitting or Receiving inside, Standby after it (R36). -/
theorem runRadio_rests (m' : RadioMode) (f : Frame) (s : State) (h : s.controls = .resting m) :
    (runRadio m' f s).Rests .standby :=
  (exchange_rests f _ (setMode_resting m' s h)).bind fun _ _ h =>
    (waitUntil_ends_stuck none .irqHigh rfl (.inl rfl) _ h).bind fun _ _ h =>
      readAndClearIrq_rests _ (setMode_resting .standby _ h)

theorem radioTransmit_rests (payload : List Byte) (timeout : Word32) (s : State) (h : s.controls = .resting m) :
    (radioTransmit payload timeout s).Rests .standby :=
  (standbyFirst_rests s h).bind fun _ _ h => (exchange_rests _ _ h).bind fun _ _ h => (exchange_rests _ _ h).bind fun _ _ h =>
    (runRadio_rests _ _ _ h).bind fun _ _ h => h

theorem fetchPayload_rests (s : State) (h : s.controls = .resting m) : (fetchPayload s).Rests m :=
  (exchange_rests _ s h).bind fun _ _ h =>
    (exchange_rests _ _ ((takeResponses_controls _ 3).trans h)).bind fun _ _ h =>
      (moveBytes_controls _ _).trans ((point_controls _).trans h)

theorem receiveResult_rests (status : Word16) (s : State) (h : s.controls = .resting m) :
    (receiveResult status s).Rests m := by
  unfold receiveResult
  split
  · exact h
  · exact (fetchPayload_rests s h).bind fun _ _ h => h
  · exact h
  · exact h

theorem radioReceive_rests (timeout : Word32) (s : State) (h : s.controls = .resting m) :
    (radioReceive timeout s).Rests .standby :=
  (standbyFirst_rests s h).bind fun _ _ h => (exchange_rests _ _ h).bind fun _ _ h => (runRadio_rests _ _ _ h).bind fun _ _ h =>
    receiveResult_rests _ _ h

end Sequences

/-! ### Operations -/

/-- After a step: at rest, or hanging. -/
def Settled (t : State) : Prop := Idle t ∨ Stuck t

theorem Idle.congr {s t : State} (h : Idle s) (ht : t.controls = s.controls) : Idle t := by
  unfold Idle
  rw [ht]
  exact h

/-- An operation without a wait. -/
theorem Idle.answer {s t : State} (h : Idle s) (r : Result) (ht : t.controls = s.controls) :
    NextHolds Settled (answer r t) := by
  intro u hu
  cases hu
  exact .inl (h.congr ht)

/-- An operation with waits. -/
theorem Res.Rests.outcome {α : Type} {m : RadioMode} {r : Res α} (h : r.Rests m) (hm : m = .uninitialized ∨ m = .standby)
    (f : α → Result) : NextHolds Settled (r.outcome f) := by
  intro u hu
  cases r with
  | done a t =>
    cases hu
    exact .inl ⟨m, hm, h⟩
  | hung t =>
    cases hu
    exact .inr h

/-- Every meaning leaves a state at rest, or a hang. -/
theorem exec_settled (i : Instr) (s : State) (h : Idle s) : NextHolds Settled (exec i s) := by
  obtain ⟨m, hm, hs⟩ := id h
  cases i
  case rbReset p b c =>
    simp only [exec, execRbReset]
    split <;> exact h.answer _ (by simp)
  case rbClear | rbGet | rbPeek | rbRawView | rbShiftReadPointer | rbCount | rbState | csClear | csCount | dlcOnInterrupt
    | dlcTransmit | dlcReceive | dlcTransmitPacket | dlcTransmitUint | dlcStatus | dlcAckError | dlcAckTxIrq | dlcAckRxIrq
    | rcAvailableCount | csMatchParam | rcMatchParam => exact h.answer _ (by simp)
  case rbPut p v =>
    simp only [exec, execRbPut]
    split <;> exact h.answer _ (by simp)
  case csReset c b n =>
    simp only [exec, execCsReset]
    split <;> exact h.answer _ (by simp)
  case csPutByte c v g => exact h.answer _ (underGate_controls s g fun s => csPut_controls s c v)
  case csGetByte c g => exact h.answer _ (underGate_controls s g fun s => csGet_controls s c)
  case csMatchToken c t n mv g => exact h.answer _ (underGate_controls s g fun s => csMatchToken_controls s c t _ mv)
  case csMatchAsciiUint c g => exact h.answer _ (underGate_controls s g fun s => csMatchUint_controls s c)
  case dlcInit k cfg tb tc rb rc =>
    simp only [exec, execDlcInit]
    split
    · exact h.answer _ rfl
    · split <;> exact h.answer _ (by simp)
  case dlcDeinit k =>
    simp only [exec, execDlcDeinit]
    split <;> exact h.answer _ (by simp)
  case dlcTransmitString k d =>
    simp only [exec, execDlcTransmitString]
    split <;> exact h.answer _ (by simp)
  case dlcMatchToken k t n mv =>
    simp only [exec, execDlcMatchToken]
    split
    · exact h.answer _ (underGate_controls s _ fun s => csMatchToken_controls s _ t _ mv)
    · exact h.answer _ rfl
  case dlcMatchAsciiUint k =>
    simp only [exec, execDlcMatchAsciiUint]
    split
    · exact h.answer _ (underGate_controls s _ fun s => csMatchUint_controls s _)
    · exact h.answer _ rfl
  case dlcMatchParam k t d n =>
    simp only [exec, execDlcMatchParam]
    split <;> exact h.answer _ (by simp)
  case dlcHostTransaction k out n =>
    simp only [exec, execDlcHostTransaction]
    split
    · exact (hostTransaction_rests out _ s hs).outcome hm _
    · exact h.answer _ rfl
  case rcInit cfg b c =>
    simp only [exec, execRcInit]
    split
    · have hstart : (hardReset (point (radioStart cfg b c.toNat s))).controls = .resting m := by simp [hs, Controls.resting]
      exact (configureRadio_rests cfg _ hstart).outcome (.inr rfl) _
    · exact h.answer _ rfl
  case rcTransmit d t =>
    simp only [exec, execRcTransmit]
    split
    · split
      · intro u hu; cases hu
      · split
        · exact (radioTransmit_rests d t s hs).outcome (.inr rfl) _
        · exact h.answer _ rfl
    · exact h.answer _ rfl
  case rcReceive t =>
    simp only [exec, execRcReceive]
    split
    · split
      · intro u hu; cases hu
      · exact (radioReceive_rests t s hs).outcome (.inr rfl) _
    · exact h.answer _ rfl
  case rcReadByte => exact h.answer _ (underGate_controls s _ fun s => csGet_controls s _)
  case rcMatchToken t n mv => exact h.answer _ (underGate_controls s _ fun s => csMatchToken_controls s _ t _ mv)
  case rcMatchAsciiUint => exact h.answer _ (underGate_controls s _ fun s => csMatchUint_controls s _)
  case spiSetRxMode t =>
    simp only [exec, execSpiSetRxMode]
    split
    · exact h.answer _ rfl
    · exact (exchange_rests _ s hs).outcome hm _
  case spiGetIrqStatus =>
    refine Res.Rests.outcome ((exchange_rests _ s hs).bind fun _ _ h => ?_) hm _
    exact (exchange_rests _ _ h).bind fun _ _ h => h
  all_goals exact (exchange_rests _ s hs).outcome hm _

/-! ### Steps -/

/-- The controls of the state a turn leaves, or presents its request in. -/
def Turn.HasControls (c : Controls) : Turn → Prop
  | .other u => u.controls = c
  | .request _ u => u.controls = c

theorem appTurn_controls (s : State) : (appTurn s).HasControls s.controls := by
  unfold appTurn
  split <;> rfl

theorem turn_controls (s : State) : (turn s).HasControls s.controls := by
  unfold turn
  split
  · rfl
  · exact applyEvent_controls _ _ _
  · exact appTurn_controls s
  · exact appTurn_controls _
  · exact applyBetween_controls _ _

theorem step_settled (s : State) (h : Idle s) : NextHolds Settled (step s) := by
  have ht := turn_controls s
  unfold step
  split
  · next u hu =>
    rw [hu] at ht
    intro t e
    cases e
    exact .inl (h.congr ht)
  · next r u hu =>
    rw [hu] at ht
    have hidle : Idle u := h.congr ht
    split
    · exact exec_settled _ u hidle
    · exact hidle.answer _ rfl

theorem idle_of_ready {s : State} (hp : s.phase = .ready) (hsel : SelectOk s) (hmode : ModeOk s) (hreset : ResetLineOk s) :
    Idle s := by
  have hs : s.selectN = true := by simpa [SelectOk, hp] using hsel
  have hr : s.radio.resetN = true := hreset
  exact ⟨s.radio.mode, hmode hp, by simp [State.controls, Controls.resting, hs, hr, hp]⟩

theorem Settled.lines {t : State} (h : Settled t) : SelectOk t ∧ ModeOk t ∧ ResetLineOk t ∧ HangOk t := by
  rcases h with ⟨m, hm, hc⟩ | ⟨hsel, hreset, w, hp, ha⟩
  · have hmode : t.radio.mode = m := congrArg Controls.mode hc
    exact ⟨.inl (congrArg Controls.selectN hc), fun _ => hmode ▸ hm, congrArg Controls.resetN hc,
      .inl (congrArg Controls.phase hc)⟩
  · have hmode : ModeOk t := fun hr => by rw [hp] at hr; cases hr
    exact ⟨hsel, hmode, hreset, .inr ha⟩

/-- Settles O15: where APP is ready the step is from rest (`step_settled`); where it hangs nobody is left to step. -/
theorem stepKeepsTheLines : Obligations.StepKeepsTheLines := by
  intro s t hsel hmode hreset hhang hst
  cases hp : s.phase with
  | ready => exact (step_settled s (idle_of_ready hp hsel hmode hreset) t hst).lines
  | waiting w =>
    have ha : s.agenda = [] := hhang.resolve_left (by simp [hp])
    rw [step_waiting_alone s w hp ha] at hst
    cases hst
    exact ⟨hsel, hmode, hreset, hhang⟩

end Sys2Proof.Machine
end

section
/-! O12: which primitive changes store into a memory (R60, R61), and that each store keeps the canonical form (log 7). -/

namespace Sys2Proof.Machine

theorem MemoryOk.congr {s t : State} (h : MemoryOk s) (hmem : t.mem = s.mem) (hwide : t.wide = s.wide) : MemoryOk t := by
  unfold MemoryOk
  rw [hmem, hwide]
  exact h

/-! ### Stores -/

theorem MemoryOk.writeMem {s : State} (h : MemoryOk s) (a : Nat) (v : Byte) : MemoryOk (s.setMem (s.mem.write a v)) :=
  ⟨Memory.write_wf s.mem a v h.1, h.2⟩

theorem MemoryOk.writeWide {s : State} (h : MemoryOk s) (a v : Nat) : MemoryOk (s.setWide (s.wide.write a v)) :=
  ⟨h.1, WideMemory.write_wf s.wide a v h.2⟩

theorem MemoryOk.writeSlot {s : State} (h : MemoryOk s) (p : RbPort) (i v : Nat) : MemoryOk (s.writeSlot p i v) :=
  ⟨s.writeSlot_mem_wf p i v h.1, s.writeSlot_wide_wf p i v h.2⟩

theorem MemoryOk.rbPut {s : State} (h : MemoryOk s) (p : RbPort) (v : Nat) : MemoryOk (rbPut p v s).2 := by
  cases hf : (s.rb p).isFull
  · rw [rbPut_room p v s hf]
    exact (h.writeSlot p (s.rb p).writeIndex v).congr (by simp) (by simp)
  · rw [rbPut_full p v s hf]
    exact h

/-- A store into a bound array only draws new free contents (U3). -/
theorem MemoryOk.applyStore {s : State} (h : MemoryOk s) (r : Ref) (i : Word32) (v : Byte) :
    MemoryOk (applyStore r i v s) := by
  unfold Machine.applyStore
  split
  · exact h.congr (by simp) (by simp)
  · exact (h.writeMem (slotAddress r i.toNat) v).congr (by simp) (by simp)

theorem MemoryOk.applyStoreWide {s : State} (h : MemoryOk s) (r : Ref) (i : Word32) (v : Nat) :
    MemoryOk (applyStoreWide r i v s) := by
  unfold Machine.applyStoreWide
  split
  · exact h.applyStore r i _
  · split
    · exact h.congr (by simp) (by simp)
    · exact (h.writeWide (slotAddress r i.toNat) (v % 2 ^ s.params.slotWidth)).congr (by simp) (by simp)

/-! ### Reads -/

theorem MemoryOk.rbGet {s : State} (h : MemoryOk s) (p : RbPort) : MemoryOk (rbGet p s).2 := by
  by_cases hc : (s.rb p).count = 0
  · rw [rbGet_empty p s hc]
    exact h
  · rw [rbGet_some p s hc]
    exact h.congr (by simp) (by simp)

/-! ### Steps -/

theorem memoryOk_stable : Stable MemoryOk := by
  constructor
  case put => exact fun s p v h => h.rbPut p v
  case erase => exact fun s c i h => h.writeSlot (.inner c) i 0
  case store => exact fun s r i v h => h.applyStore r i v
  case storeWide => exact fun s r i v h => h.applyStoreWide r i v
  case get => exact fun s p h => h.rbGet p
  case bind => exact fun s p b c _ h => h.congr (by simp [rbBind]) (by simp [rbBind])
  case clear => exact fun s p h => h.congr (by simp [rbClear]) (by simp [rbClear])
  case shift => exact fun s p n fwd h => h.congr (by simp [rbShift]) (by simp [rbShift])
  all_goals
    intros
    exact MemoryOk.congr ‹_› (by simp) (by simp)

/-- Settles O12: a put, the terminator of R176 and the application's two stores are all that write a memory, and
`cellsWrite_wf` says that a write keeps the form. -/
theorem stepKeepsTheMemoryForm : Obligations.StepKeepsTheMemoryForm := fun s t h hst => memoryOk_stable.step s h t hst

end Sys2Proof.Machine
end

section
/-! O3: APP's turn (R75, R421), and the step that presents a request (R90, R91). -/

namespace Sys2Proof.Machine

/-- APP's turn has come where nobody else is to step, or where the agenda says so. -/
theorem turn_of_app {s : State} (hphase : s.phase = .ready) (hagenda : s.agenda = [] ∨ ∃ es, s.agenda = .app :: es) :
    turn s = appTurn (s.setAgenda s.agenda.tail) := by
  rcases hagenda with ha | ⟨es, ha⟩
  · have hself : s.setAgenda s.agenda.tail = s := by
      rw [ha, List.tail_nil, ← ha, State.setAgenda_self]
    rw [hself]
    unfold turn
    rw [hphase, ha]
  · rw [ha, List.tail_cons]
    unfold turn
    rw [hphase, ha]

/-- It takes the oldest request. -/
theorem appTurn_cons {s : State} {r : Request} {rest : List Request} (hreq : s.requests = r :: rest) :
    appTurn s = .request r (s.setRequests rest) := by
  unfold appTurn
  rw [hreq]

theorem fetch_of_decode {s : State} {r : Request} {i : Instr} {more : List Byte}
    (h : decode s.params r.port r.bytes = .ok (i, more)) : fetch s r = .ok i := by
  rw [fetch, h]
  rfl

/-- A turn that presents a request whose bytes decode runs the instruction, and adds nothing of its own. -/
theorem step_of_turn_request {s u : State} {r : Request} {i : Instr} (hturn : turn s = .request r u)
    (hfetch : fetch u r = .ok i) : step s = exec i u := by
  rw [step, hturn]
  simp only [hfetch]

/-- Settles O3: taking the request and the turn leaves the parameters, so the bytes decode as before. -/
theorem stepRunsTheDecodedRequest : Obligations.StepRunsTheDecodedRequest := by
  intro s r rest i more hphase hagenda hreq hdecode
  have hturn : turn s = .request r ((s.setAgenda s.agenda.tail).setRequests rest) :=
    (turn_of_app hphase hagenda).trans (appTurn_cons hreq)
  exact step_of_turn_request hturn (fetch_of_decode hdecode)

end Sys2Proof.Machine
end

section
/-! O8: decoding what the encoder writes. A request's bytes are read field by field, each field by the lemma of Laws/Codec.lean
about its parser, and what stands behind them is left over; a frame is all of its bytes. -/

namespace Sys2Proof

/-! ### Requests -/

/-- An `op` whose high digit is the number of the unit goes to that unit's table (R90). -/
theorem decodeUnit_cons {unit : Nat} (body : Nat → List Byte → Except Reject (Instr × List Byte)) {op : Byte} (bs : List Byte)
    (h : op.toNat / 16 = unit) : decodeUnit unit body (op :: bs) = body (op.toNat % 16) bs := if_pos h

/-- A request is read up to its last operand field; what follows is left over (log 1). -/
theorem decode_encode_request (ps : Params) (i : Instr) (rest : List Byte) (hp : i.port ≠ .spi) (hwf : i.wf ps = true) :
    decode ps i.port (encode ps i ++ rest) = .ok (i, rest) := by
  cases i
  case rbClear | rbGet | rbPeek | rbRawView | rbCount | rbState | csClear | csCount | dlcDeinit | dlcOnInterrupt | dlcReceive
    | dlcMatchAsciiUint | dlcStatus | dlcAckError | dlcAckTxIrq | dlcAckRxIrq | rcReadByte | rcMatchAsciiUint
    | rcAvailableCount | dlcTransmit => rfl
  case rbReset | csReset =>
    simp [encode, Instr.port, decode, decodeUnit_cons, decodeRb, decodeCs, takeRef_encodeRef, takeWord32_be32, bind,
      Except.bind, pure, Except.pure]
  case rbPut p v =>
    have hv : v < 2 ^ slotWidthOf ps p := by simpa [Instr.wf] using hwf
    simp [encode, Instr.port, decode, decodeUnit_cons, decodeRb, takeSlot_natBytes _ _ _ hv, bind, Except.bind, pure,
      Except.pure]
  case rbShiftReadPointer | dlcTransmitUint | rcReceive =>
    simp [encode, Instr.port, decode, decodeUnit_cons, decodeRb, decodeDlc, decodeRadio, takeWord32_be32, takeBool_boolByte, bind,
      Except.bind, pure, Except.pure]
  case csPutByte | csGetByte | csMatchAsciiUint =>
    simp [encode, Instr.port, decode, decodeUnit_cons, decodeCs, takeByte_cons, takeGate_encode, bind, Except.bind, pure,
      Except.pure]
  case csMatchToken | csMatchParam | dlcMatchToken | dlcMatchParam | rcMatchToken | rcMatchParam =>
    simp [encode, Instr.port, decode, decodeUnit_cons, decodeCs, decodeDlc, decodeRadio, takeBytes8_encode _ _ hwf,
      takeByte_cons, takeBool_boolByte, takeGate_encode, bind, Except.bind, pure, Except.pure]
  case dlcInit =>
    simp [encode, Instr.port, decode, decodeUnit_cons, decodeDlc, takePeriphConfig_encode _ _ hwf, takeRef_encodeRef,
      takeWord32_be32, bind, Except.bind, pure, Except.pure]
  case dlcTransmitPacket | dlcTransmitString | dlcHostTransaction | rcTransmit =>
    simp [encode, Instr.port, decode, decodeUnit_cons, decodeDlc, decodeRadio, takeBytes32_encode _ _ hwf, takeWord32_be32, bind,
      Except.bind, pure, Except.pure]
  case rcInit =>
    simp [encode, Instr.port, decode, decodeUnit_cons, decodeRadio, takeRadioConfig_encode, takeRef_encodeRef,
      takeWord32_be32, bind, Except.bind, pure, Except.pure]
  all_goals exact absurd rfl hp

/-! ### Frames -/

/-- Behind its opcode a frame is read by its own bit pattern (R111, R320). -/
theorem decodeSpi_opcode {e : Enc} (he : e.wf = true) (f : FrameOp) (bs : List Byte) :
    decodeSpi e (e.opcode f :: bs) = decodeFrame e f bs := by
  unfold decodeSpi
  simp only [FrameOp.ofOpcode_opcode e he f]

theorem decodeFrame_writeRegister (e : Enc) (addr : Word16) {data : List Byte} (h : data.length = 1 ∨ data.length = 2) :
    decodeFrame e .writeRegister (be16 addr ++ data) = .ok (.spiWriteRegister addr data) := by
  have hw := be16_join addr
  rcases data with _ | ⟨d0, _ | ⟨d1, _ | ⟨d2, data⟩⟩⟩
  · simp at h
  · simp [decodeFrame, be16, hw]
  · simp [decodeFrame, be16, hw]
  · simp at h

theorem decodeFrame_readBuffer (e : Enc) (offset len : Byte) :
    decodeFrame e .readBuffer (offset :: e.nop :: List.replicate len.toNat e.nop) = .ok (.spiReadBuffer offset len) := by
  have hlen : len.toNat < 256 := len.isLt
  simp [decodeFrame, hlen]

/-- The bytes of a frame are its opcode and then operands, wait bytes and fillers as its bit pattern asks for them. -/
theorem encode_frame (ps : Params) (i : Instr) (hp : i.port = .spi) (hwf : i.wf ps = true) :
    ∃ f bs, encode ps i = ps.enc.opcode f :: bs ∧ decodeFrame ps.enc f bs = .ok i := by
  cases i
  case spiStandbyMode cfg => exact ⟨.standbyMode, [cfg], rfl, rfl⟩
  case spiSetPacketType t => exact ⟨.setPacketType, [t], rfl, rfl⟩
  case spiSetRfFrequency rf => exact ⟨.setRfFrequency, be32 rf, rfl, by simp only [be32, decodeFrame, be32_join]⟩
  case spiSetPowerAmplifierConfig d h s l => exact ⟨.setPowerAmplifierConfig, [d, h, s, l], rfl, rfl⟩
  case spiSetTxParams p r => exact ⟨.setTxParams, [p, r], rfl, rfl⟩
  case spiWriteRegister addr data =>
    have hdata : data.length = 1 ∨ data.length = 2 := by simpa [Instr.wf] using hwf
    exact ⟨.writeRegister, be16 addr ++ data, congrArg _ (List.append_nil _), decodeFrame_writeRegister _ _ hdata⟩
  case spiReadRegister addr =>
    exact ⟨.readRegister, be16 addr ++ [ps.enc.nop, ps.enc.nop], rfl, by simp [be16, decodeFrame, be16_join]⟩
  case spiSetBufferBaseAddress t r => exact ⟨.setBufferBaseAddress, [t, r], rfl, rfl⟩
  case spiSetModulationParams sf bw cr low =>
    exact ⟨.setModulationParams, [sf, bw, cr, boolByte low], rfl, by simp only [decodeFrame, flagOf_boolByte]; rfl⟩
  case spiSetPacketParams p h n crc iq =>
    exact ⟨.setPacketParams, be16 p ++ [h, n, boolByte crc, iq], rfl, by
      simp only [be16, List.cons_append, List.nil_append, decodeFrame, be16_join, flagOf_boolByte]; rfl⟩
  case spiSetDioIrqParams m d =>
    exact ⟨.setDioIrqParams, be16 m ++ be16 d ++ [0, 0, 0, 0], rfl, by simp [be16, decodeFrame, be16_join]⟩
  case spiWriteBuffer offset data =>
    have hdata : data.length < 256 := by simpa [Instr.wf, fits8] using hwf
    exact ⟨.writeBuffer, offset :: data, by simp [encode, Frame.wire, Frame.writeBuffer, Enc.opcode], if_pos hdata⟩
  case spiSetTxMode t => exact ⟨.setTxMode, be24 t, rfl, by simp only [be24, decodeFrame, be24_join]⟩
  case spiSetRxMode t =>
    have ht : t ≠ 0xFFFFFF#24 := by simpa [Instr.wf] using hwf
    exact ⟨.setRxMode, be24 t, rfl, by simp only [be24, decodeFrame, be24_join, if_neg ht]⟩
  case spiGetIrqStatus => exact ⟨.getIrqStatus, List.replicate 3 ps.enc.nop, rfl, if_pos ⟨rfl, rfl, rfl⟩⟩
  case spiClearIrq => exact ⟨.clearIrq, [0xFF, 0xFF], rfl, rfl⟩
  case spiGetRxBufferStatus => exact ⟨.getRxBufferStatus, List.replicate 3 ps.enc.nop, rfl, if_pos ⟨rfl, rfl, rfl⟩⟩
  case spiReadBuffer offset len =>
    exact ⟨.readBuffer, offset :: ps.enc.nop :: List.replicate len.toNat ps.enc.nop, rfl, decodeFrame_readBuffer _ offset len⟩
  all_goals cases hp

/-- Settles O8: a request by the parsers of its operand fields, a frame by its bit pattern. -/
theorem decodeOfEncodeIsTheInstruction : Obligations.DecodeOfEncodeIsTheInstruction := by
  intro ps i he hwf
  by_cases hp : i.port = .spi
  · obtain ⟨f, bs, hencode, hframe⟩ := encode_frame ps i hp hwf
    rw [hp, hencode, decode, decodeSpi_opcode he, hframe]
    rfl
  · simpa using decode_encode_request ps i [] hp hwf

end Sys2Proof
end

section
/-! O6, O7: what the decoders can read. -/

namespace Sys2Proof

/-! ### What a parser reads -/

/-- `Q` of whatever is read. -/
def Reads {α : Type} (Q : α → Prop) (r : Except Reject (α × List Byte)) : Prop := ∀ a more, r = .ok (a, more) → Q a

section
variable {α β : Type} {P : α → Prop} {Q : β → Prop} {r : Except Reject (α × List Byte)}
  {f : α × List Byte → Except Reject (β × List Byte)}

theorem Reads.ok {a : α} {more : List Byte} (h : P a) : Reads P (.ok (a, more)) := by
  rintro _ _ ⟨⟩
  exact h

theorem Reads.error {e : Reject} : Reads P (.error e) := by
  rintro _ _ ⟨⟩

/-- A field, and then the rest, for which the field is as it was read. -/
theorem Reads.bind (hr : Reads P r) (hf : ∀ a bs, P a → Reads Q (f (a, bs))) : Reads Q (r >>= f) := by
  cases r with
  | error e => exact .error
  | ok x => exact hf x.1 x.2 (hr x.1 x.2 rfl)

/-- A field whose type already says what it can hold, and then the rest. -/
theorem Reads.skip (hf : ∀ a bs, Reads Q (f (a, bs))) : Reads Q (r >>= f) :=
  Reads.bind (P := fun _ => True) (fun _ _ _ => trivial) fun a bs _ => hf a bs

end

theorem takeBytes_reads (n : Nat) (bs : List Byte) : Reads (fun l => l.length = n) (takeBytes n bs) := by
  induction n generalizing bs with
  | zero => exact .ok rfl
  | succ n ih => exact .skip fun _ bs => .bind (ih bs) fun l _ hl => .ok (congrArg (· + 1) hl)

theorem takeBytes8_reads (bs : List Byte) : Reads (fun l => fits8 l.length = true) (takeBytes8 bs) :=
  .skip fun n bs l more h => by
    rw [takeBytes_reads _ _ l more h]
    exact decide_eq_true n.isLt

theorem takeBytes32_reads (bs : List Byte) : Reads (fun l => fits32 l.length = true) (takeBytes32 bs) :=
  .skip fun n bs l more h => by
    rw [takeBytes_reads _ _ l more h]
    exact decide_eq_true n.isLt

theorem takeSlot_reads (w : Nat) (bs : List Byte) : Reads (· < 2 ^ w) (takeSlot w bs) :=
  .skip fun b bs => by
    show Reads _ (if bytesNat 0 b < 2 ^ w then _ else _)
    split
    · next h => exact .ok h
    · exact .error

theorem takePeriphConfig_reads (bs : List Byte) : Reads (fun c => fits32 c.settings.length = true) (takePeriphConfig bs) :=
  .skip fun _ bs => .bind (takeBytes32_reads bs) fun _ _ h => .ok h

/-! ### The tables of R95 to R98, one line for each `op[3:0]` -/

theorem decodeRb_reads (ps : Params) (p : RbPort) (fn : Nat) (bs : List Byte) :
    Reads (fun i => fn ≤ 8 ∧ i.port = .rb p ∧ i.wf ps = true) (decodeRb ps p fn bs) :=
  match fn with
  | 0 => .skip fun _ _ => .skip fun _ _ => .ok ⟨by decide, rfl, rfl⟩
  | 1 => .ok ⟨by decide, rfl, rfl⟩
  | 2 => .bind (takeSlot_reads _ bs) fun _ _ h => .ok ⟨by decide, rfl, decide_eq_true h⟩
  | 3 => .ok ⟨by decide, rfl, rfl⟩
  | 4 => .ok ⟨by decide, rfl, rfl⟩
  | 5 => .ok ⟨by decide, rfl, rfl⟩
  | 6 => .skip fun _ _ => .skip fun _ _ => .ok ⟨by decide, rfl, rfl⟩
  | 7 => .ok ⟨by decide, rfl, rfl⟩
  | 8 => .ok ⟨by decide, rfl, rfl⟩
  | _ + 9 => .error

theorem decodeCs_reads (ps : Params) (c : CsPort) (fn : Nat) (bs : List Byte) :
    Reads (fun i => fn ≤ 7 ∧ i.port = .cs c ∧ i.wf ps = true) (decodeCs c fn bs) :=
  match fn with
  | 0 => .skip fun _ _ => .skip fun _ _ => .ok ⟨by decide, rfl, rfl⟩
  | 1 => .ok ⟨by decide, rfl, rfl⟩
  | 2 => .skip fun _ _ => .skip fun _ _ => .ok ⟨by decide, rfl, rfl⟩
  | 3 => .skip fun _ _ => .ok ⟨by decide, rfl, rfl⟩
  | 4 => .bind (takeBytes8_reads bs) fun _ _ h => .skip fun _ _ => .skip fun _ _ => .skip fun _ _ => .ok ⟨by decide, rfl, h⟩
  | 5 => .skip fun _ _ => .ok ⟨by decide, rfl, rfl⟩
  | 6 => .bind (takeBytes8_reads bs) fun _ _ h => .skip fun _ _ => .skip fun _ _ => .skip fun _ _ => .ok ⟨by decide, rfl, h⟩
  | 7 => .ok ⟨by decide, rfl, rfl⟩
  | _ + 8 => .error

theorem decodeDlc_reads (ps : Params) (k : LinkId) (fn : Nat) (bs : List Byte) :
    Reads (fun i => fn ≠ 2 ∧ i.port = .dlc k ∧ i.wf ps = true) (decodeDlc k fn bs) :=
  match fn with
  | 0x0 => .bind (takePeriphConfig_reads bs) fun _ _ h =>
    .skip fun _ _ => .skip fun _ _ => .skip fun _ _ => .skip fun _ _ => .ok ⟨by decide, rfl, h⟩
  | 0x1 => .ok ⟨by decide, rfl, rfl⟩
  | 0x2 => .error
  | 0x3 => .skip fun _ _ => .ok ⟨by decide, rfl, rfl⟩
  | 0x4 => .ok ⟨by decide, rfl, rfl⟩
  | 0x5 => .bind (takeBytes32_reads bs) fun _ _ h => .ok ⟨by decide, rfl, h⟩
  | 0x6 => .bind (takeBytes32_reads bs) fun _ _ h => .ok ⟨by decide, rfl, h⟩
  | 0x7 => .skip fun _ _ => .ok ⟨by decide, rfl, rfl⟩
  | 0x8 => .bind (takeBytes8_reads bs) fun _ _ h => .skip fun _ _ => .skip fun _ _ => .ok ⟨by decide, rfl, h⟩
  | 0x9 => .ok ⟨by decide, rfl, rfl⟩
  | 0xA => .bind (takeBytes8_reads bs) fun _ _ h => .skip fun _ _ => .skip fun _ _ => .ok ⟨by decide, rfl, h⟩
  | 0xB => .bind (takeBytes32_reads bs) fun _ _ h => .skip fun _ _ => .ok ⟨by decide, rfl, h⟩
  | 0xC => .ok ⟨by decide, rfl, rfl⟩
  | 0xD => .ok ⟨by decide, rfl, rfl⟩
  | 0xE => .ok ⟨by decide, rfl, rfl⟩
  | 0xF => .ok ⟨by decide, rfl, rfl⟩
  | _ + 16 => .error

theorem decodeIrq_reads (ps : Params) (k : LinkId) (fn : Nat) (bs : List Byte) :
    Reads (fun i => fn = 2 ∧ i.port = .irq k ∧ i.wf ps = true) (decodeIrq k fn bs) := by
  unfold decodeIrq
  split
  · next hfn => exact .ok ⟨hfn, rfl, rfl⟩
  · exact .error

theorem decodeRadio_reads (ps : Params) (fn : Nat) (bs : List Byte) :
    Reads (fun i => fn ≤ 7 ∧ i.port = .radio ∧ i.wf ps = true) (decodeRadio fn bs) :=
  match fn with
  | 0 => .skip fun _ _ => .skip fun _ _ => .skip fun _ _ => .ok ⟨by decide, rfl, rfl⟩
  | 1 => .bind (takeBytes32_reads bs) fun _ _ h => .skip fun _ _ => .ok ⟨by decide, rfl, h⟩
  | 2 => .skip fun _ _ => .ok ⟨by decide, rfl, rfl⟩
  | 3 => .ok ⟨by decide, rfl, rfl⟩
  | 4 => .bind (takeBytes8_reads bs) fun _ _ h => .skip fun _ _ => .skip fun _ _ => .ok ⟨by decide, rfl, h⟩
  | 5 => .ok ⟨by decide, rfl, rfl⟩
  | 6 => .bind (takeBytes8_reads bs) fun _ _ h => .skip fun _ _ => .skip fun _ _ => .ok ⟨by decide, rfl, h⟩
  | 7 => .ok ⟨by decide, rfl, rfl⟩
  | _ + 8 => .error

/-- A unit's port takes the operation codes whose high digit is the unit's number (R90), and of those the ones of its table. -/
theorem decodeUnit_reads {unit : Nat} {body : Nat → List Byte → Except Reject (Instr × List Byte)} {Q : Nat → Instr → Prop}
    (h : ∀ fn bs, Reads (Q fn) (body fn bs)) (op : Byte) (bs : List Byte) :
    Reads (fun i => op.toNat / 16 = unit ∧ Q (op.toNat % 16) i) (decodeUnit unit body (op :: bs)) := by
  by_cases hunit : op.toNat / 16 = unit
  · rw [decodeUnit_cons body bs hunit]
    exact fun i more hi => ⟨hunit, h _ _ i more hi⟩
  · rw [decodeUnit, if_neg hunit]
    exact .error

/-- Settles O6: the number of the unit, and the table of its port. -/
theorem onlyListedCodesDecode : Obligations.OnlyListedCodesDecode := by
  intro ps op bs i more
  refine ⟨fun p h => ?_, fun c h => ?_, fun k h => ?_, fun k h => ?_, fun h => ?_⟩
  · obtain ⟨hunit, hfn, hport, -⟩ := decodeUnit_reads (decodeRb_reads ps p) op bs i more h
    exact ⟨by omega, hport⟩
  · obtain ⟨hunit, hfn, hport, -⟩ := decodeUnit_reads (decodeCs_reads ps c) op bs i more h
    exact ⟨by omega, by omega, hport⟩
  · obtain ⟨hunit, hfn, hport, -⟩ := decodeUnit_reads (decodeDlc_reads ps k) op bs i more h
    exact ⟨by omega, by omega, by omega, hport⟩
  · obtain ⟨hunit, hfn, hport, -⟩ := decodeUnit_reads (decodeIrq_reads ps k) op bs i more h
    exact ⟨by omega, hport⟩
  · obtain ⟨hunit, hfn, hport, -⟩ := decodeUnit_reads (decodeRadio_reads ps) op bs i more h
    exact ⟨by omega, by omega, hport⟩

/-! ### Frames -/

theorem boolByte_of_flagOf {b : Byte} {l : Bool} (h : flagOf b = .ok l) : boolByte l = b := by
  unfold flagOf at h
  split at h
  · next hb => cases h; exact hb.symm
  · split at h
    · next hb => cases h; exact hb.symm
    · cases h

/-- A pattern whose literal bytes are checked was met where it answers. -/
theorem checked_ok {α : Type} {c : Prop} [Decidable c] {a b : α} {e : Reject}
    (h : (if c then Except.ok a else Except.error e) = .ok b) : c ∧ a = b := by
  split at h
  · next hc => cases h; exact ⟨hc, rfl⟩
  · cases h

/-- A frame's bit pattern is read from the one spelling that the encoder writes for it. -/
theorem encode_of_decodeFrame {ps : Params} {f : FrameOp} {bs : List Byte} {i : Instr}
    (h : decodeFrame ps.enc f bs = .ok i) : encode ps i = ps.enc.opcode f :: bs ∧ i.wf ps = true := by
  unfold decodeFrame at h
  split at h
  case h_1 | h_2 | h_4 | h_5 | h_9 => -- bytes only
    cases h
    exact ⟨rfl, rfl⟩
  case h_3 b3 b2 b1 b0 => -- set-RF-frequency
    cases h
    exact ⟨congrArg (_ :: ·) (be32_append b3 b2 b1 b0), rfl⟩
  case h_6 a1 a0 d0 => -- write-register, one byte
    cases h
    exact ⟨congrArg (_ :: · ++ [d0]) (be16_append a1 a0), rfl⟩
  case h_7 a1 a0 d0 d1 => -- write-register, two bytes
    cases h
    exact ⟨congrArg (_ :: · ++ [d0, d1]) (be16_append a1 a0), rfl⟩
  case h_8 a1 a0 n0 n1 => -- read-register
    obtain ⟨⟨rfl, rfl⟩, rfl⟩ := checked_ok h
    exact ⟨congrArg (_ :: · ++ [ps.enc.nop, ps.enc.nop]) (be16_append a1 a0), rfl⟩
  case h_10 s b c l => -- set-modulation-params
    cases hl : flagOf l with
    | error e => rw [hl] at h; cases h
    | ok low =>
      rw [hl] at h
      cases h
      exact ⟨congrArg (fun l => [_, s, b, c, l]) (boolByte_of_flagOf hl), rfl⟩
  case h_11 p1 p0 hd n c iq => -- set-packet-params
    cases hc : flagOf c with
    | error e => rw [hc] at h; cases h
    | ok crc =>
      rw [hc] at h
      cases h
      exact ⟨congrArg₂ (fun p c => _ :: (p ++ [hd, n, c, iq])) (be16_append p1 p0) (boolByte_of_flagOf hc), rfl⟩
  case h_12 m1 m0 d1 d0 z3 z2 z1 z0 => -- set-DIO-IRQ-params
    obtain ⟨⟨rfl, rfl, rfl, rfl⟩, rfl⟩ := checked_ok h
    refine ⟨?_, rfl⟩
    show _ :: (be16 (m1 ++ m0) ++ be16 (d1 ++ d0) ++ _ ++ []) = _
    rw [be16_append, be16_append]
    rfl
  case h_13 offset data => -- write-buffer
    obtain ⟨hdata, rfl⟩ := checked_ok h
    exact ⟨congrArg (_ :: offset :: ·) (List.append_nil data), decide_eq_true hdata⟩
  case h_14 t2 t1 t0 => -- set-tx-mode
    cases h
    exact ⟨congrArg (_ :: ·) (be24_append t2 t1 t0), rfl⟩
  case h_15 t2 t1 t0 => -- set-rx-mode
    rw [← ite_not] at h
    obtain ⟨ht, rfl⟩ := checked_ok h
    exact ⟨congrArg (_ :: ·) (be24_append t2 t1 t0), bne_iff_ne.2 ht⟩
  case h_16 | h_18 => -- get-IRQ-status, get-rx-buffer-status
    obtain ⟨⟨rfl, rfl, rfl⟩, rfl⟩ := checked_ok h
    exact ⟨rfl, rfl⟩
  case h_17 => -- clear-IRQ
    obtain ⟨⟨rfl, rfl⟩, rfl⟩ := checked_ok h
    exact ⟨rfl, rfl⟩
  case h_19 offset w fill => -- read-buffer
    obtain ⟨⟨rfl, hfill, hlen⟩, rfl⟩ := checked_ok h
    have hn : (BitVec.ofNat 8 fill.length).toNat = fill.length := by
      rw [BitVec.toNat_ofNat]
      exact Nat.mod_eq_of_lt hlen
    refine ⟨?_, rfl⟩
    show _ :: offset :: _ :: List.replicate (BitVec.ofNat 8 fill.length).toNat _ = _
    rw [hn, ← hfill]
    rfl
  case h_20 => cases h

/-- The opcode of a frame is that of the frame it was read as. -/
theorem opcode_of_ofOpcode {e : Enc} {b : Byte} {f : FrameOp} (h : FrameOp.ofOpcode? e b = some f) : e.opcode f = b := by
  simpa using List.find?_some h

theorem encode_of_decodeSpi {ps : Params} {bs : List Byte} {i : Instr} (h : decodeSpi ps.enc bs = .ok i) :
    encode ps i = bs ∧ i.wf ps = true := by
  cases bs with
  | nil => cases h
  | cons b bs =>
    cases hf : FrameOp.ofOpcode? ps.enc b with
    | none =>
      rw [decodeSpi, hf] at h
      cases h
    | some f =>
      rw [decodeSpi, hf] at h
      rw [← opcode_of_ofOpcode hf]
      exact encode_of_decodeFrame h

/-- A frame takes all of its bytes. -/
theorem decode_spi {ps : Params} {bs : List Byte} {i : Instr} {more : List Byte} (h : decode ps .spi bs = .ok (i, more)) :
    decodeSpi ps.enc bs = .ok i ∧ more = [] := by
  cases hi : decodeSpi ps.enc bs with
  | error e => rw [decode, hi] at h; cases h
  | ok j => rw [decode, hi] at h; cases h; exact ⟨rfl, rfl⟩

theorem decodeUnit_wf {ps : Params} {unit : Nat} {body : Nat → List Byte → Except Reject (Instr × List Byte)}
    {Q : Nat → Instr → Prop} (h : ∀ fn bs, Reads (Q fn) (body fn bs)) (hwf : ∀ fn i, Q fn i → i.wf ps = true)
    (bs : List Byte) : Reads (fun i => i.wf ps = true) (decodeUnit unit body bs) := by
  cases bs with
  | nil => exact .error
  | cons op bs => exact fun i more hi => hwf _ _ (decodeUnit_reads h op bs i more hi).2

theorem decode_wf (ps : Params) (port : Port) (bs : List Byte) : Reads (fun i => i.wf ps = true) (decode ps port bs) := by
  cases port with
  | rb p => exact decodeUnit_wf (decodeRb_reads ps p) (fun _ _ h => h.2.2) bs
  | cs c => exact decodeUnit_wf (decodeCs_reads ps c) (fun _ _ h => h.2.2) bs
  | dlc k => exact decodeUnit_wf (decodeDlc_reads ps k) (fun _ _ h => h.2.2) bs
  | irq k => exact decodeUnit_wf (decodeIrq_reads ps k) (fun _ _ h => h.2.2) bs
  | radio => exact decodeUnit_wf (decodeRadio_reads ps) (fun _ _ h => h.2.2) bs
  | spi => exact fun i more h => (encode_of_decodeSpi (decode_spi h).1).2

/-- Settles O7: of requests by what their parsers read, of frames by their one spelling. -/
theorem decodedInstructionsAreWellFormed : Obligations.DecodedInstructionsAreWellFormed := by
  refine ⟨decode_wf, fun ps bs i more h => ?_⟩
  obtain ⟨hspi, hmore⟩ := decode_spi h
  exact ⟨(encode_of_decodeSpi hspi).1, hmore⟩

end Sys2Proof
end

section
/-! O32, O33: the decimal text of a number (R109), and what the digit loop of R170 makes of it. -/

namespace Sys2Proof.Machine

/-! ### The text -/

theorem decimalFuel_eq_digits (fuel v : Nat) (hv : v < 10 ^ fuel) (h0 : v ≠ 0) :
    decimalFuel fuel v = (Nat.digits 10 v).reverse.map digitByte := by
  induction fuel generalizing v with
  | zero => omega
  | succ fuel ih =>
    unfold decimalFuel
    split
    · next hlt => rw [Nat.digits_of_lt 10 v h0 hlt]; rfl
    · next hge =>
      rw [Nat.digits_def' (by decide) (by omega), ih (v / 10) (by rw [Nat.pow_succ] at hv; omega) (by omega)]
      simp

theorem decimalFuel_length_le (fuel v : Nat) : (decimalFuel fuel v).length ≤ fuel := by
  induction fuel generalizing v with
  | zero => exact Nat.le_refl 0
  | succ fuel ih =>
    have := ih (v / 10)
    unfold decimalFuel
    split
    · simp
    · simp only [List.length_append, List.length_singleton]
      omega

theorem decimalFuel_ne_nil (fuel v : Nat) : decimalFuel (fuel + 1) v ≠ [] := by
  unfold decimalFuel
  split <;> simp

/-- Ten digits are enough for 32 bits. -/
theorem word32_lt (v : Word32) : v.toNat < 10 ^ 10 := by
  have := v.isLt
  omega

/-- Settles O32, by induction on the number of digits allowed. -/
theorem decimalTextIsTheDigits : Obligations.DecimalTextIsTheDigits := by
  intro v
  refine ⟨?_, List.length_pos_iff.2 (decimalFuel_ne_nil _ _), decimalFuel_length_le _ _⟩
  split
  · next h => rw [h]; rfl
  · next h =>
    have h0 : v.toNat ≠ 0 := fun h0 => h (BitVec.eq_of_toNat_eq h0)
    exact decimalFuel_eq_digits 10 v.toNat (word32_lt v) h0

/-! ### Reading it back -/

theorem digitByte_toNat {d : Nat} (h : d < 10) : (digitByte d).toNat = 0x30 + d := by
  simp only [digitByte, BitVec.toNat_ofNat]
  omega

theorem isDigit_digitByte {d : Nat} (h : d < 10) : isDigit (digitByte d) = true := by
  simp only [isDigit, digitByte_toNat h, Bool.and_eq_true, decide_eq_true_eq]
  omega

theorem decimalFuel_isDigit (fuel v : Nat) : ∀ b ∈ decimalFuel fuel v, isDigit b = true := by
  induction fuel generalizing v with
  | zero => simp [decimalFuel]
  | succ fuel ih =>
    unfold decimalFuel
    split
    · next h => simpa using isDigit_digitByte h
    · intro b hb
      rcases List.mem_append.1 hb with hb | hb
      · exact ih _ b hb
      · rw [List.mem_singleton.1 hb]
        exact isDigit_digitByte (Nat.mod_lt _ (by decide))

/-- One more digit on the right. -/
theorem pushDigit_digitByte (n : Nat) {d : Nat} (h : d < 10) :
    pushDigit (BitVec.ofNat 32 n) (digitByte d) = BitVec.ofNat 32 (n * 10 + d) := by
  rw [pushDigit, digitByte_toNat h, Nat.add_sub_cancel_left, BitVec.ofNat_add, BitVec.ofNat_mul]
  rfl

theorem foldl_pushDigit_decimalFuel (fuel v : Nat) (hv : v < 10 ^ fuel) (hf : fuel ≠ 0) :
    (decimalFuel fuel v).foldl pushDigit 0 = BitVec.ofNat 32 v := by
  induction fuel generalizing v with
  | zero => exact absurd rfl hf
  | succ fuel ih =>
    unfold decimalFuel
    split
    · next h => simpa using pushDigit_digitByte 0 h
    · next h =>
      have hfuel : fuel ≠ 0 := by
        rintro rfl
        omega
      rw [List.foldl_append, ih (v / 10) (by rw [Nat.pow_succ] at hv; omega) hfuel]
      simp only [List.foldl_cons, List.foldl_nil]
      rw [pushDigit_digitByte _ (Nat.mod_lt _ (by decide)), Nat.div_add_mod']

theorem foldl_pushDigit_decimalText (v : Word32) : (decimalText v).foldl pushDigit 0 = v := by
  rw [decimalText, foldl_pushDigit_decimalFuel 10 _ (word32_lt v) (by decide), BitVec.ofNat_toNat, BitVec.setWidth_eq]

/-- The digits at the front, where no digit follows them. -/
theorem takeWhile_isDigit {digits rest : List Byte} (hd : ∀ b ∈ digits, isDigit b = true)
    (hr : ∀ b, rest.head? = some b → isDigit b = false) : (digits ++ rest).takeWhile isDigit = digits := by
  rw [List.takeWhile_append_of_pos hd]
  cases rest with
  | nil => simp
  | cons b rest => simp [hr b rfl]

/-! ### The gate (R78) -/

/-- The unread bytes of a stream are those of its ring in the memories. -/
theorem State.unread_congr {s t : State} (c : CsPort) (hrb : t.rb (.inner c) = s.rb (.inner c)) (hmem : t.mem = s.mem)
    (hwide : t.wide = s.wide) (htaint : t.tainted = s.tainted) (htick : t.freeTick = s.freeTick)
    (hparams : t.params = s.params) : t.unread c = s.unread c := by
  have hread (i : Nat) : t.readSlot (.inner c) i = s.readSlot (.inner c) i :=
    State.readSlot_congr _ i (by rw [hrb]) hmem hwide htaint htick hparams
  unfold State.unread State.contents
  simp only [hread, hrb]

section Gate
variable (s : State) (c : CsPort)

@[simp] theorem State.setRxie_unread (k : LinkId) (b : Bool) : (s.setRxie k b).unread c = s.unread c :=
  State.unread_congr c (by simp) (by simp) (by simp) (by simp) (by simp) (by simp)

@[simp] theorem State.setTxie_unread (k : LinkId) (b : Bool) : (s.setTxie k b).unread c = s.unread c :=
  State.unread_congr c (by simp) (by simp) (by simp) (by simp) (by simp) (by simp)

@[simp] theorem State.setResult_unread (r : Result) : (s.setResult r).unread c = s.unread c :=
  State.unread_congr c (by simp) rfl rfl rfl rfl rfl

@[simp] theorem gateDisable_rb (g : Gate) (q : RbPort) : (gateDisable g s).rb q = s.rb q := by
  cases g <;> simp [gateDisable]

@[simp] theorem gateDisable_unread (g : Gate) : (gateDisable g s).unread c = s.unread c := by
  cases g <;> simp [gateDisable]

@[simp] theorem gateEnable_unread (g : Gate) : (gateEnable g s).unread c = s.unread c := by
  cases g <;> simp [gateEnable]

end Gate

/-- Where digits stand at the front and no digit follows them, they are the number, and they are taken (R170). -/
theorem csMatchUint_digits {c : CsPort} {s : State} {digits rest : List Byte} (hok : (s.rb (.inner c)).Ok)
    (hs : s.unread c = digits ++ rest) (hne : digits ≠ []) (hd : ∀ b ∈ digits, isDigit b = true)
    (hr : ∀ b, rest.head? = some b → isDigit b = false) :
    csMatchUint c s = (some (digits.foldl pushDigit 0), s.taken c digits.length)
      ∧ (s.taken c digits.length).unread c = rest := by
  have hcount : digits.length ≤ (s.rb (.inner c)).count := by
    rw [← State.unread_length, hs, List.length_append]
    exact Nat.le_add_right _ _
  constructor
  · rw [csMatchUint_state c s hok, hs, takeWhile_isDigit hd hr, if_neg hne]
  · rw [State.unread_taken s c _ hok hcount, hs, List.drop_left]

theorem exec_csMatchAsciiUint (c : CsPort) (g : Gate) (s : State) :
    exec (.csMatchAsciiUint c g) s
      = .next ((gateEnable g (csMatchUint c (gateDisable g s)).2).setResult (.uintOption (csMatchUint c (gateDisable g s)).1)) :=
  rfl

/-- Settles O33: the text is digits, the digit loop takes them all, and their value is the number. -/
theorem decimalTextRoundTrip : Obligations.DecimalTextRoundTrip := by
  intro c g s v rest hok hs hrest
  have hr : ∀ b, rest.head? = some b → isDigit b = false := fun b hb => by
    simpa [isDigit] using hrest b hb
  have hunit := csMatchUint_digits (s := gateDisable g s) (c := c) (by rwa [gateDisable_rb]) (by rwa [gateDisable_unread])
    (decimalFuel_ne_nil _ _) (decimalFuel_isDigit _ _) hr
  obtain ⟨hmatch, hleft⟩ := hunit
  refine ⟨_, exec_csMatchAsciiUint c g s, ?_, ?_⟩
  · rw [hmatch]
    exact congrArg (fun v => Result.uintOption (some v)) (foldl_pushDigit_decimalText v)
  · rw [State.setResult_unread, gateEnable_unread, hmatch]
    exact hleft

end Sys2Proof.Machine
end

section
/-! O50, O51: the receive timeout and the frequency word (R103, R105, R334). -/

namespace Sys2Proof.Machine

theorem rxTimeout_toNat (t : Word32) : (rxTimeout t).toNat = min t.toNat 0x00FFFFFE := by
  rw [rxTimeout, BitVec.toNat_ofNat]
  exact Nat.mod_eq_of_lt (by omega)

/-- The hardware answers zeros where the timeout is out of range (R112, R334). -/
theorem exec_spiSetRxMode_max (s : State) : exec (.spiSetRxMode 0xFFFFFF) s = answer (.byte 0) s := by
  rw [exec, execSpiSetRxMode]
  exact if_pos rfl

/-- Settles O50: the clamp lies below `FF FF FF`, and the frame with it is answered without an exchange. -/
theorem continuousReceiveIsNeverAsked : Obligations.ContinuousReceiveIsNeverAsked := by
  refine ⟨fun t => ⟨rxTimeout_toNat t, fun h => ?_⟩, exec_spiSetRxMode_max⟩
  have hmax : min t.toNat 0x00FFFFFE = 0xFFFFFF := (rxTimeout_toNat t).symm.trans (congrArg BitVec.toNat h)
  omega

/-- The exact value fits four bytes up to the bound of R103 and no further. -/
theorem rfValue_lt_iff (f : Nat) : rfValue f < 2 ^ 32 ↔ f ≤ 4095999999 := by
  unfold rfValue
  omega

theorem rfWord_toNat {f : Word32} (h : f.toNat ≤ 4095999999) : (rfWord f).toNat = rfValue f.toNat := by
  rw [rfWord, BitVec.toNat_ofNat]
  exact Nat.mod_eq_of_lt ((rfValue_lt_iff _).2 h)

theorem rfValue_mono {f g : Nat} (h : f ≤ g) : rfValue f ≤ rfValue g := by
  unfold rfValue
  omega

/-- Rounding to the nearest: half the divisor is added before the division. -/
theorem rfValue_nearest (f : Nat) :
    2 * rfValue f * 32000000 ≤ 2 * (f * 2 ^ 25) + 32000000 ∧ 2 * (f * 2 ^ 25) < 2 * rfValue f * 32000000 + 32000000 := by
  unfold rfValue
  omega

/-- Settles O51: up to the bound the word is `rfValue`, and the rest is about that division. -/
theorem frequencyWordIsTheNearest : Obligations.FrequencyWordIsTheNearest := by
  refine ⟨fun f hf => ?_, rfValue_lt_iff, fun f g hfg hg => ?_⟩
  · rw [rfWord_toNat hf]
    exact rfValue_nearest f.toNat
  · rw [rfWord_toNat (hfg.trans hg), rfWord_toNat hg]
    exact rfValue_mono hfg

end Sys2Proof.Machine
end

section
/-! O4, O9: requests that decode to nothing (R112), and words of the opcode table. -/

namespace Sys2Proof.Machine

theorem fetch_of_decode_error {s : State} {r : Request} {e : Reject} (h : decode s.params r.port r.bytes = .error e) :
    fetch s r = .error e := by
  rw [fetch, h]
  rfl

/-- A turn that presents a request whose bytes do not decode answers it as R112 says. -/
theorem step_of_turn_refused {s u : State} {r : Request} {e : Reject} (hturn : turn s = .request r u)
    (hfetch : fetch u r = .error e) : step s = answerRefused u := by
  rw [step, hturn]
  simp only [hfetch]

/-- Settles O4: APP's turn takes the request, and the answer is the zero record alone. -/
theorem undecodableRequestChangesNothing : Obligations.UndecodableRequestChangesNothing := by
  intro s r rest e hphase hagenda hreq hdecode
  have hturn : turn s = .request r ((s.setAgenda s.agenda.tail).setRequests rest) :=
    (turn_of_app hphase hagenda).trans (appTurn_cons hreq)
  exact step_of_turn_refused hturn (fetch_of_decode_error hdecode)

/-- Settles O9: each word is closed data, its bits above the row's are zero, and the decoder computes. -/
theorem tableWordsDecode : Obligations.TableWordsDecode :=
  ⟨rfl, rfl, rfl, rfl, rfl, rfl, rfl, rfl⟩

end Sys2Proof.Machine
end

section
/-! O49: a frame under a transceiver that answers (R262, R321 to R338). What one exchange comes to is `exchange_script`
(Laws/Script.lean); here it is named by its frame, and read off in the terms of Safety.lean. -/

namespace Sys2Proof.Machine

/-! ### After frames on `LINK_S` -/

/-- The answers `ds` to the fillers stand in `LINK_S.rx`, `out` was driven outward, and `rest` is still to be served. -/
def State.afterFrames (s : State) (ds : List Byte) (sig : PeriphIn) (irq : Bool) (rest : List Event) (out : List BusEvent) :
    State :=
  (csPutAll (.rx .s) ds s).env sig false irq rest true (s.trace ++ out)

section AfterFrames

variable (s : State) (ds : List Byte) (sig : PeriphIn) (irq : Bool) (rest : List Event) (out : List BusEvent) (r : Result)

theorem afterFrames_afterScript : AfterScript out rest s ((s.afterFrames ds sig irq rest out).setResult r) where
  trace := rfl
  agenda := rfl
  selectN := rfl
  resetN := (csPutAll_only (.rx .s) ds s).resetN
  requests := (csPutAll_only (.rx .s) ds s).requests
  phase := (csPutAll_only (.rx .s) ds s).phase
  periphA := (csPutAll_only (.rx .s) ds s).periph .a

theorem afterFrames_rb (q : RbPort) :
    ((s.afterFrames ds sig irq rest out).setResult r).rb q = (csPutAll (.rx .s) ds s).rb q := by
  simp [State.afterFrames]

theorem afterFrames_unread :
    ((s.afterFrames ds sig irq rest out).setResult r).unread (.rx .s) = (csPutAll (.rx .s) ds s).unread (.rx .s) :=
  State.unread_congr _ (afterFrames_rb s ds sig irq rest out r _) rfl rfl rfl rfl rfl

variable {s ds} (hok : (s.rb (.inner (.rx .s))).Ok) (hroom : ds.length ≤ s.room (.rx .s))
include hok hroom

theorem csPutAll_advanced (h : ds ≠ []) :
    (csPutAll (.rx .s) ds s).rb (.inner (.rx .s)) = (s.rb (.inner (.rx .s))).advancedBy ds.length := by
  rw [(csPutAll_rb _ ds s hok hroom).2, if_neg h]
  rfl

/-- Bytes that fit have slots to go to. -/
theorem nextKeys_ne_nil (h : ds ≠ []) : s.nextKeys (.inner (.rx .s)) ds.length ≠ [] := by
  have hpos := List.length_pos_iff.2 h
  have hcap : 1 ≤ (s.rb (.inner (.rx .s))).capacity := hpos.trans_le (hroom.trans (Nat.sub_le _ _))
  obtain ⟨hbound, -⟩ := hok.2.2.2 hcap
  obtain ⟨b, hb⟩ := Option.isSome_iff_exists.1 hbound
  simp only [State.nextKeys, hb, ne_eq, List.map_eq_nil_iff, List.range_eq_nil]
  omega

theorem afterFrames_changesOnly :
    ChangesOnly { rings := if ds.length = 0 then [] else [.inner (.rx .s)]
                  bytes := s.nextKeys (.inner (.rx .s)) ds.length } s ((s.afterFrames ds sig irq rest out).setResult r) := by
  have hput := csPutAll_only (.rx .s) ds s
  refine
    { rings := fun q hq => ?_, lockouts := fun c _ => ?_, txie := fun k _ => ?_, rxie := fun k _ => ?_,
      status := fun k _ => ?_, errEn := fun k _ => ?_, bytes := csPutAll_read _ ds s hok hroom,
      wides := fun a _ => congrArg (WideMemory.read · a) hput.wide,
      tainted := fun a _ => by rw [State.setResult_tainted]; exact iff_of_eq (congrArg (a ∈ ·) hput.tainted),
      freeTick := fun hkeys _ _ => ?_, radioConfig := fun _ => ⟨hput.preamble, hput.crc⟩, mode := fun _ => hput.mode,
      params := hput.params }
  · rw [afterFrames_rb]
    by_cases hd : ds = []
    · rw [hd, csPutAll_nil]
    · refine csPutAll_rb_of_ne _ ds s q fun h => hq ?_
      rw [if_neg (by simpa using hd), h]
      exact List.mem_singleton_self _
  · simpa [State.afterFrames] using hput.lockouts c
  · simpa [State.afterFrames] using hput.txie k
  · simpa [State.afterFrames] using hput.rxie k
  · simpa [State.afterFrames] using hput.status k
  · simpa [State.afterFrames] using hput.errEn k
  · by_cases hd : ds = []
    · rw [hd]
      rfl
    · exact absurd hkeys (nextKeys_ne_nil hok hroom hd)

end AfterFrames

/-! ### One frame -/

/-- Under a transceiver that answers, a frame whose responses fit goes out whole, and its first answer is the result. -/
theorem exchange_whole (f : Frame) (s : State) (answers : List Byte) (irq : Bool) (rest : List Event)
    (he : (s.link .s).status.enabled = true) (hok : (s.rb (.inner (.rx .s))).Ok) (hroom : f.numRead ≤ s.room (.rx .s))
    (hout : f.out ≠ []) (hlen : answers.length = (f.wire s.params.enc).length)
    (ha : s.agenda = exchangeScript irq answers ++ rest) :
    ∃ sig, exchange f s = .done (answers.headD 0)
      (s.afterFrames (answers.drop (answers.length - f.numRead)) sig irq rest (frameEvents (f.wire s.params.enc))) := by
  have hlen' : answers.length = f.out.length + f.numRead := by simpa [Frame.wire] using hlen
  have hsplit : answers.length - f.numRead = f.out.length := by omega
  have htake : (answers.take f.out.length).length = f.out.length := by rw [List.length_take]; omega
  have hdrop : (answers.drop f.out.length).length = f.numRead := by rw [List.length_drop]; omega
  have hx := exchange_script f (answers.take f.out.length) (answers.drop f.out.length) s he htake
    (by rw [hdrop, Nat.min_eq_left hroom]) hok.2.1 s.periphS s.busy s.irq irq rest s.selectN s.trace
  rw [List.take_append_drop, ← ha, State.env_self, hdrop] at hx
  have hhead : (answers.take f.out.length).headD 0 = answers.headD 0 := by
    cases answers with
    | nil => rw [List.take_nil]
    | cons a answers =>
      cases hf : f.out with
      | nil => exact absurd hf hout
      | cons b out => rfl
  rw [hhead] at hx
  rw [hsplit]
  exact ⟨_, hx⟩

/-- Another frame after those, one without responses. -/
theorem afterFrames_command (f : Frame) (s : State) (ds as : List Byte) (sig : PeriphIn) (irq irq' : Bool)
    (rest : List Event) (out : List BusEvent) (he : (s.link .s).status.enabled = true) (hn : f.numRead = 0)
    (ha : as.length = f.out.length) :
    exchange f (s.afterFrames ds sig irq (exchangeScript irq' as ++ rest) out)
      = .done (as.headD 0) (s.afterFrames ds (lastSignal sig as) irq' rest (out ++ frameEvents f.out)) := by
  have he' : ((csPutAll (.rx .s) ds s).link .s).status.enabled = true := by
    rw [(csPutAll_only (.rx .s) ds s).status]
    exact he
  rw [State.afterFrames, exchange_script_command f as _ he' hn ha, List.append_assoc]
  rfl

/-! ### The eighteen instructions -/

/-- Every frame instruction but get-IRQ-status is the exchange of one frame, the one the encoder writes. -/
theorem exec_frame (i : Instr) (s : State) (hi : i.port = .spi) (hne : i ≠ .spiGetIrqStatus) (hwf : i.wf s.params = true) :
    ∃ f : Frame, exec i s = (exchange f s).outcome .byte ∧ encode s.params i = f.wire s.params.enc ∧ f.out ≠ []
      ∧ f.numRead = frameFillers i := by
  cases i
  case spiSetRxMode t =>
    have ht : t ≠ 0xFFFFFF#24 := by simpa [Instr.wf] using hwf
    exact ⟨Frame.setRxMode s.params.enc t, if_neg ht, rfl, List.cons_ne_nil _ _, rfl⟩
  case spiGetIrqStatus => exact absurd rfl hne
  case spiStandbyMode | spiSetPacketType | spiSetRfFrequency | spiSetPowerAmplifierConfig | spiSetTxParams
    | spiWriteRegister | spiReadRegister | spiSetBufferBaseAddress | spiSetModulationParams | spiSetPacketParams
    | spiSetDioIrqParams | spiWriteBuffer | spiSetTxMode | spiClearIrq | spiGetRxBufferStatus | spiReadBuffer =>
    exact ⟨_, rfl, rfl, List.cons_ne_nil _ _, rfl⟩
  all_goals cases hi

/-- get-IRQ-status, and the clear-IRQ that always follows it (R335, R448). -/
theorem exec_spiGetIrqStatus_whole (s : State) (x0 b0 b1 b2 : Byte) (ack : List Byte) (irq irq' : Bool) (rest : List Event)
    (he : (s.link .s).status.enabled = true) (hok : (s.rb (.inner (.rx .s))).Ok) (hroom : 3 ≤ s.room (.rx .s))
    (hack : ack.length = 3)
    (ha : s.agenda = exchangeScript irq [x0, b0, b1, b2] ++ (exchangeScript irq' ack ++ rest)) :
    ∃ sig, exec .spiGetIrqStatus s = .next ((s.afterFrames [b0, b1, b2] sig irq' rest
      (frameEvents (encode s.params .spiGetIrqStatus) ++ frameEvents (encode s.params .spiClearIrq))).setResult (.byte x0)) := by
  obtain ⟨sig, hget⟩ : ∃ sig, exchange (Frame.getIrqStatus s.params.enc) s = .done x0 (s.afterFrames [b0, b1, b2] sig irq
      (exchangeScript irq' ack ++ rest) (frameEvents (encode s.params .spiGetIrqStatus))) :=
    exchange_whole (Frame.getIrqStatus s.params.enc) s [x0, b0, b1, b2] irq _ he hok hroom (List.cons_ne_nil _ _) rfl ha
  have hparams (es : List Event) (out : List BusEvent) : (s.afterFrames [b0, b1, b2] sig irq es out).params = s.params :=
    (csPutAll_only (.rx .s) [b0, b1, b2] s).params
  have hclear (out : List BusEvent) := afterFrames_command (Frame.clearIrq s.params.enc) s [b0, b1, b2] ack sig irq irq' rest out
    he rfl hack
  refine ⟨lastSignal sig ack, ?_⟩
  rw [exec, execSpiGetIrqStatus, hget]
  simp only [Res.bind, hparams, hclear]
  rfl

/-- Settles O49: the instruction is the exchange of its frame, and the block afterwards is `State.afterFrames`. -/
theorem everyFrameGoesOutWhole : Obligations.EveryFrameGoesOutWhole := by
  refine ⟨fun i s answers irq rest hi hne hwf he hok hroom hlen ha => ?_,
    fun s x0 b0 b1 b2 ack irq irq' rest he hok hroom hack ha => ?_⟩
  · obtain ⟨f, hexec, hencode, hout, hfill⟩ := exec_frame i s hi hne hwf
    rw [← hfill] at hroom ⊢
    rw [hencode] at hlen ⊢
    obtain ⟨sig, hx⟩ := exchange_whole f s answers irq rest he hok hroom hout hlen ha
    have hds : (answers.drop (answers.length - f.numRead)).length = f.numRead := by
      rw [List.length_drop, hlen, Frame.wire, List.length_append, List.length_replicate]
      omega
    generalize answers.drop (answers.length - f.numRead) = ds at hx hds ⊢
    rw [← hds] at hroom ⊢
    rw [hexec, hx]
    refine ⟨_, rfl, rfl, afterFrames_afterScript s ds sig irq rest _ _, rfl, rfl, fun h => ?_, fun hu hm => ?_,
      afterFrames_changesOnly sig irq rest _ _ hok hroom⟩
    · rw [afterFrames_rb]
      exact csPutAll_advanced hok hroom fun hd => h (congrArg List.length hd)
    · rw [afterFrames_unread]
      exact (csPutAll_unread _ ds s hok hroom hu hm).1
  · rw [List.append_assoc] at ha
    obtain ⟨sig, hexec⟩ := exec_spiGetIrqStatus_whole s x0 b0 b1 b2 ack irq irq' rest he hok hroom hack ha
    refine ⟨_, hexec, rfl, afterFrames_afterScript s _ sig irq' rest _ _, rfl, rfl, ?_, fun hu hm => ?_,
      afterFrames_changesOnly (ds := [b0, b1, b2]) sig irq' rest _ _ hok hroom⟩
    · rw [afterFrames_rb]
      exact csPutAll_advanced (ds := [b0, b1, b2]) hok hroom (List.cons_ne_nil _ _)
    · rw [afterFrames_unread]
      exact (csPutAll_unread _ [b0, b1, b2] s hok hroom hu hm).1

end Sys2Proof.Machine
end

section
/-! What an operation changed (Safety.lean), composed: two changes one after the other within one footprint stay within it, and
the footprint of each primitive change of a ring or its array. -/

namespace Sys2Proof.Machine

variable {f : Footprint} {s t u : State}

/-! ### One change after another -/

theorem ChangesOnly.refl (s : State) : ChangesOnly f s s := by
  constructor <;> simp

theorem ChangesOnly.trans (h : ChangesOnly f s t) (h' : ChangesOnly f t u) : ChangesOnly f s u where
  rings q hq := (h'.rings q hq).trans (h.rings q hq)
  lockouts c hc := (h'.lockouts c hc).trans (h.lockouts c hc)
  txie k hk := (h'.txie k hk).trans (h.txie k hk)
  rxie k hk := (h'.rxie k hk).trans (h.rxie k hk)
  status k hk := (h'.status k hk).trans (h.status k hk)
  errEn k hk := (h'.errEn k hk).trans (h.errEn k hk)
  bytes a ha := (h'.bytes a ha).trans (h.bytes a ha)
  wides a ha := (h'.wides a ha).trans (h.wides a ha)
  tainted r hr := (h'.tainted r hr).trans (h.tainted r hr)
  freeTick hb hw hc := (h'.freeTick hb hw hc).trans (h.freeTick hb hw hc)
  radioConfig hf := ⟨(h'.radioConfig hf).1.trans (h.radioConfig hf).1, (h'.radioConfig hf).2.trans (h.radioConfig hf).2⟩
  mode hf := (h'.mode hf).trans (h.mode hf)
  params := h'.params.trans h.params

theorem SameWorld.trans {out out' : List BusEvent} (h : SameWorld out s t) (h' : SameWorld out' t u) :
    SameWorld (out ++ out') s u where
  selectN := h'.selectN.trans h.selectN
  resetN := h'.resetN.trans h.resetN
  periph k := (h'.periph k).trans (h.periph k)
  busy := h'.busy.trans h.busy
  irq := h'.irq.trans h.irq
  requests := h'.requests.trans h.requests
  agenda := h'.agenda.trans h.agenda
  phase := h'.phase.trans h.phase
  trace := by rw [h'.trace, h.trace, List.append_assoc]

/-! ### The primitive changes -/

/-- The result record is in no footprint. -/
theorem setResult_changesOnly (s : State) (r : Result) : ChangesOnly f s (s.setResult r) := by
  constructor <;> simp

theorem setResult_sameWorld (s : State) (r : Result) : SameWorld [] s (s.setResult r) := by
  constructor <;> simp

theorem setRb_changesOnly (s : State) (p : RbPort) (rb : Rb) (hp : p ∈ f.rings) : ChangesOnly f s (s.setRb p rb) := by
  have hne : ∀ q, q ∉ f.rings → q ≠ p := fun q hq e => hq (e ▸ hp)
  constructor <;> simp +contextual [hne]

theorem setRb_sameWorld (s : State) (p : RbPort) (rb : Rb) : SameWorld [] s (s.setRb p rb) := by
  constructor <;> simp

/-- A disturbance comes with a store. -/
theorem disturb_changesOnly (s : State) (r : Ref) (h : f.bytes ≠ [] ∨ f.wides ≠ []) : ChangesOnly f s (s.disturb r) := by
  have hstores : f.bytes = [] → f.wides ≠ [] := fun hb => h.resolve_left (not_not_intro hb)
  constructor <;> simp +contextual [hstores]

theorem setMem_write_changesOnly (s : State) (a : Nat) (v : Byte) (ha : a ∈ f.bytes) :
    ChangesOnly f s (s.setMem (s.mem.write a v)) := by
  have hne : ∀ b, b ∉ f.bytes → b ≠ a := fun b hb e => hb (e ▸ ha)
  constructor <;> simp +contextual [Memory.read_write_of_ne, hne]

theorem setWide_write_changesOnly (s : State) (a v : Nat) (ha : a ∈ f.wides) :
    ChangesOnly f s (s.setWide (s.wide.write a v)) := by
  have hne : ∀ b, b ∉ f.wides → b ≠ a := fun b hb e => hb (e ▸ ha)
  constructor <;> simp +contextual [WideMemory.read_write_of_ne, hne]

/-- A store into a slot touches the key of that slot, in the memory of its kind. -/
theorem writeSlot_changesOnly (s : State) (p : RbPort) (i v : Nat)
    (hbytes : ∀ r, (s.rb p).backing = some r → s.byteSlots p = true → slotAddress r i ∈ f.bytes)
    (hwides : ∀ r, (s.rb p).backing = some r → s.byteSlots p = false → slotAddress r i ∈ f.wides) :
    ChangesOnly f s (s.writeSlot p i v) := by
  cases hr : (s.rb p).backing with
  | none => simpa [State.writeSlot, hr] using ChangesOnly.refl s
  | some r =>
    cases hb : s.byteSlots p with
    | true =>
      have hkey := hbytes r hr hb
      have hstore := setMem_write_changesOnly (s.disturb r) (slotAddress r i) (BitVec.ofNat 8 v) hkey
      simpa [State.writeSlot, hr, hb] using (disturb_changesOnly s r (.inl (List.ne_nil_of_mem hkey))).trans hstore
    | false =>
      have hkey := hwides r hr hb
      have hstore := setWide_write_changesOnly (s.disturb r) (slotAddress r i) v hkey
      simpa [State.writeSlot, hr, hb] using (disturb_changesOnly s r (.inr (List.ne_nil_of_mem hkey))).trans hstore

theorem writeSlot_sameWorld (s : State) (p : RbPort) (i v : Nat) : SameWorld [] s (s.writeSlot p i v) := by
  constructor <;> simp

theorem taint_changesOnly (s : State) (r : Ref) (hr : r ∈ f.claims) : ChangesOnly f s (s.taint r) := by
  have hne : ∀ r', r' ∉ f.claims → r' ≠ r := fun r' hr' e => hr' (e ▸ hr)
  have hclaims : f.claims ≠ [] := List.ne_nil_of_mem hr
  constructor <;> simp +contextual [State.mem_taint, hne, hclaims]

/-- A claim taints at most the array it is for (U3). -/
theorem claim_changesOnly (s : State) (p : RbPort) (b : Option Ref) (hb : ∀ r, b = some r → r ∈ f.claims) :
    ChangesOnly f s (s.claim p b) := by
  cases b with
  | none => exact .refl s
  | some r =>
    unfold State.claim
    dsimp only
    split
    · exact taint_changesOnly s r (hb r rfl)
    · exact .refl s

theorem claim_sameWorld (s : State) (p : RbPort) (b : Option Ref) : SameWorld [] s (s.claim p b) := by
  constructor <;> simp

/-- An array that no other RB is bound to stays what it was. -/
theorem claim_eq_self (s : State) (p : RbPort) (b : Option Ref)
    (h : ∀ q r, q ≠ p → b = some r → (s.rb q).backing ≠ some r) : s.claim p b = s := by
  cases b with
  | none => rfl
  | some r =>
    have hfree : ¬ s.boundElsewhere p r = true := fun e => by
      obtain ⟨q, hq, hr⟩ := (s.boundElsewhere_iff p r).1 e
      exact h q r hq rfl hr
    exact if_neg hfree

end Sys2Proof.Machine
end

section
/-! O18 to O25: the operations of a RingBuffer (40_ringbuffer.md). First what each answers, one equation for each of its cases;
then its footprint, from those of the primitive changes it is made of. -/

namespace Sys2Proof.Machine

/-! ### What each operation answers -/

section Answers

variable (p : RbPort) (s : State)

theorem exec_rbReset_bindable (b : Option Ref) (c : Word32) (h : c.toNat = 0 ∨ b ≠ none) :
    exec (.rbReset p b c) s = .next ((rbBind p b c.toNat s).setResult .none) := by
  have hb : bindable b c = true := by
    simpa [bindable, Option.isSome_iff_ne_none] using h
  exact if_pos hb

theorem exec_rbReset_refused (c : Word32) (h : c.toNat ≠ 0) :
    exec (.rbReset p none c) s = .next (s.setResult .none) := by
  have hb : ¬ bindable none c = true := by simpa [bindable] using h
  exact if_neg hb

theorem exec_rbPut_full (v : Nat) (h : (s.rb p).count = (s.rb p).capacity) :
    exec (.rbPut p v) s = .next (s.setResult (.ok false)) := by
  have hf : (s.rb p).isFull = true := by simpa [Rb.isFull] using h
  rw [exec, execRbPut, rbPut_full p v s hf]
  exact ite_self _

/-- R112: a value wider than a slot. -/
theorem exec_rbPut_tooWide (v : Nat) (h : 2 ^ slotWidthOf s.params p ≤ v) :
    exec (.rbPut p v) s = .next (s.setResult (.ok false)) := if_neg (Nat.not_lt.2 h)

theorem exec_rbPut_room (v : Nat) (h : (s.rb p).count ≠ (s.rb p).capacity) (hv : v < 2 ^ slotWidthOf s.params p) :
    exec (.rbPut p v) s = .next (((s.writeSlot p (s.rb p).writeIndex v).setRb p (s.rb p).afterPut).setResult (.ok true)) := by
  have hf : (s.rb p).isFull = false := by simpa [Rb.isFull] using h
  rw [exec, execRbPut, if_pos hv, rbPut_room p v s hf]
  rfl

theorem exec_rbGet_empty (h : (s.rb p).count = 0) : exec (.rbGet p) s = .next (s.setResult (.slotOption none)) := by
  rw [exec, execRbGet, rbGet_empty p s h]
  rfl

theorem exec_rbGet_some (h : (s.rb p).count ≠ 0) :
    exec (.rbGet p) s = .next ((s.setRb p (s.rb p).afterGet).setResult
      (.slotOption (some (s.readSlot p (s.rb p).readIndex)))) := by
  rw [exec, execRbGet, rbGet_some p s h]
  rfl

theorem exec_rbClear : exec (.rbClear p) s = .next ((s.setRb p (s.rb p).cleared).setResult .none) := rfl

theorem exec_rbShiftReadPointer (amount : Word32) (forward : Bool) :
    exec (.rbShiftReadPointer p amount forward) s
      = .next ((s.setRb p ((s.rb p).shifted amount.toNat forward)).setResult .none) := rfl

end Answers

/-! ### Footprints -/

/-- Setting one RB and presenting a result: what `RB.CLEAR`, `RB.GET` and `RB.SHIFT_READ_POINTER` come to. -/
theorem setRb_answer_frame (s : State) (p : RbPort) (rb : Rb) (r : Result) :
    ((s.setRb p rb).setResult r).rb p = rb ∧ ChangesOnly { rings := [p] } s ((s.setRb p rb).setResult r)
      ∧ SameWorld [] s ((s.setRb p rb).setResult r) := by
  refine ⟨by simp, ?_, ?_⟩
  · exact (setRb_changesOnly s p rb (List.mem_singleton_self p)).trans (setResult_changesOnly _ r)
  · exact (setRb_sameWorld s p rb).trans (setResult_sameWorld _ r)

/-- Storing into a slot of the array, setting the RB and presenting a result: what `RB.PUT` comes to. -/
theorem writeSlot_setRb_answer_frame (s : State) (p : RbPort) (i v : Nat) (keys : List Nat) (rb : Rb) (r : Result)
    (hkey : ∀ a, (s.rb p).backing = some a → slotAddress a i ∈ keys) :
    ChangesOnly { rings := [p], bytes := s.storedBytes p keys, wides := s.storedWides p keys } s
        (((s.writeSlot p i v).setRb p rb).setResult r)
      ∧ SameWorld [] s (((s.writeSlot p i v).setRb p rb).setResult r) := by
  constructor
  · refine ((writeSlot_changesOnly s p i v (fun a ha hb => ?_) fun a ha hb => ?_).trans
      (setRb_changesOnly _ p rb (List.mem_singleton_self p))).trans (setResult_changesOnly _ r)
    · simpa [State.storedBytes, hb] using hkey a ha
    · simpa [State.storedWides, hb] using hkey a ha
  · exact ((writeSlot_sameWorld s p i v).trans (setRb_sameWorld _ p rb)).trans (setResult_sameWorld _ r)

/-! ### `RB.RESET` and `RB.CLEAR` -/

/-- A capacity 0 binds no array (R131). -/
theorem Rb.bound_backing_eq_some {b : Option Ref} {n : Nat} {r : Ref} :
    (Rb.bound b n).backing = some r ↔ n ≠ 0 ∧ b = some r := by
  by_cases h0 : n = 0 <;> simp [Rb.bound, h0]

/-- Settles O18: a reset is a claim of the array, then the new binding. -/
theorem rbResetBindsTheArray : Obligations.RbResetBindsTheArray := by
  intro p b c s
  refine ⟨fun h => ⟨_, exec_rbReset_bindable p s b c h, rfl, ?_, ?_, ?_, fun hfree => ?_⟩, ?_⟩
  · simp [rbBind, Rb.bound]
  · have hclaims : ∀ r, (Rb.bound b c.toNat).backing = some r → r ∈ if c.toNat = 0 then [] else b.toList := by
      intro r hr
      obtain ⟨h0, hb⟩ := Rb.bound_backing_eq_some.1 hr
      rw [if_neg h0]
      exact Option.mem_toList.2 hb
    exact ((claim_changesOnly s p _ hclaims).trans (setRb_changesOnly _ p _ (List.mem_singleton_self p))).trans
      (setResult_changesOnly _ _)
  · exact ((claim_sameWorld s p _).trans (setRb_sameWorld _ p _)).trans (setResult_sameWorld _ _)
  · have hself : s.claim p (Rb.bound b c.toNat).backing = s :=
      claim_eq_self s p _ fun q r hq hr => hfree q r hq (Rb.bound_backing_eq_some.1 hr).2
    simp [rbBind, hself]
  · rintro h0 rfl
    exact exec_rbReset_refused p s c h0

/-- Settles O19: a clear sets the counters of one RB. -/
theorem rbClearEmpties : Obligations.RbClearEmpties := fun p s =>
  ⟨_, exec_rbClear p s, rfl, setRb_answer_frame s p (s.rb p).cleared .none⟩

/-! ### `RB.PUT` and `RB.GET` -/

/-- Settles O20: a put with room is a store at `write_index`, then the step of the indices. -/
theorem rbPutStoresTheValue : Obligations.RbPutStoresTheValue := by
  intro p v s
  refine ⟨exec_rbPut_full p s v, exec_rbPut_tooWide p s v, fun hroom hv hok => ?_⟩
  have hpos : 1 ≤ (s.rb p).capacity := (s.rb p).pos_of_not_full hok (by simpa [Rb.isFull] using hroom)
  have ⟨_, _, _, hwhenBound⟩ := hok
  obtain ⟨hbound, -⟩ := hwhenBound hpos
  obtain ⟨r, hr⟩ := Option.isSome_iff_exists.1 hbound
  refine ⟨_, exec_rbPut_room p s v hroom hv, rfl, by simp [Rb.afterPut], fun hu hm => ?_,
    writeSlot_setRb_answer_frame s p _ v _ _ _ fun a ha => ?_⟩
  · rw [setResult_readSlot, State.readSlot_setRb _ _ _ _ (by simp [Rb.afterPut])]
    exact State.readSlot_writeSlot_same s p _ v r hr (hu r hr) hm.1 hm.2 hv
  · rw [State.nextKeys_one s p hok a ha]
    exact List.mem_singleton_self _

/-- Settles O21: a get reads at `read_index` and moves the indices on. -/
theorem rbGetTakesTheOldest : Obligations.RbGetTakesTheOldest := fun p s =>
  ⟨exec_rbGet_empty p s, fun h => ⟨_, exec_rbGet_some p s h, rfl, setRb_answer_frame s p (s.rb p).afterGet _⟩⟩

/-! ### The readers -/

/-- Settles O22: each reader presents a result and does nothing else, and its result is the one of R135, R136, R139 or R140. -/
theorem rbReadersChangeNothing : Obligations.RbReadersChangeNothing :=
  fun _ _ => ⟨rfl, rfl, rfl, rfl⟩

/-! ### `RB.SHIFT_READ_POINTER` -/

theorem Rb.shifted_forward (rb : Rb) (n : Nat) :
    rb.shifted n true = if min n rb.count = 0 then rb
      else { rb with readIndex := (rb.readIndex + min n rb.count) % rb.capacity, count := rb.count - min n rb.count } := rfl

theorem Rb.shifted_backward (rb : Rb) (n : Nat) :
    rb.shifted n false = if min n (rb.capacity - rb.count) = 0 then rb
      else { rb with
        readIndex := subMod rb.readIndex (min n (rb.capacity - rb.count)) rb.capacity
        count := rb.count + min n (rb.capacity - rb.count) } := rfl

/-- Settles O23: forward and backward are the two cases of the clamp, and either way a shift sets one RB. -/
theorem rbShiftMovesTheReadCursor : Obligations.RbShiftMovesTheReadCursor := by
  intro p amount s
  have hframe (forward : Bool) := setRb_answer_frame s p ((s.rb p).shifted amount.toNat forward) .none
  refine ⟨⟨_, exec_rbShiftReadPointer p s amount true, rfl, ?_⟩, ⟨_, exec_rbShiftReadPointer p s amount false, rfl, ?_⟩⟩
  · rw [← Rb.shifted_forward]
    exact hframe true
  · rw [← subMod, ← Rb.shifted_backward]
    exact hframe false

/-! ### Rings as queues -/

theorem State.contents_setResult (s : State) (r : Result) (p : RbPort) : (s.setResult r).contents p = s.contents p := by
  simp only [State.contents, State.setResult_rb, setResult_readSlot]

/-- Settles O24: the queue laws of Laws/Ring.lean, read off what a put and a get answer. -/
theorem rbIsAQueue : Obligations.RbIsAQueue := by
  intro p s hok hu hm
  refine ⟨s.contents_length p, fun v hv hroom => ?_, fun v vs hvs => ?_, fun hnil => ?_⟩
  · refine ⟨_, exec_rbPut_room p s v hroom hv, rfl, ?_⟩
    rw [State.contents_setResult]
    exact s.contents_put p v (by simpa [Rb.isFull] using hroom) hok hu hm.1 hm.2 hv
  · have hc : (s.rb p).count ≠ 0 := by
      rw [← s.contents_length p, hvs]
      exact Nat.succ_ne_zero _
    obtain ⟨hhead, htail⟩ := List.cons.inj (hvs.symm.trans (s.contents_get p hc hok))
    refine ⟨_, exec_rbGet_some p s hc, by rw [hhead]; rfl, ?_⟩
    rw [State.contents_setResult, htail]
  · exact exec_rbGet_empty p s (by rw [← s.contents_length p, hnil]; rfl)

/-- Puts that have room succeed one after the other, and each raises the count by one. -/
theorem runAll_rbPut_of_room (p : RbPort) (vs : List Nat) (s : State)
    (hfit : ∀ x ∈ vs, x < 2 ^ slotWidthOf s.params p) (hroom : (s.rb p).count + vs.length ≤ (s.rb p).capacity) :
    ∃ t, runAll (vs.map fun x => .rbPut p x) s = .next t
      ∧ t.result = (if vs = [] then s.result else .ok true)
      ∧ (t.rb p).count = (s.rb p).count + vs.length ∧ (t.rb p).capacity = (s.rb p).capacity := by
  induction vs generalizing s with
  | nil => exact ⟨s, rfl, rfl, rfl, rfl⟩
  | cons v vs ih =>
    rw [List.length_cons] at hroom
    have hput := exec_rbPut_room p s v (by omega) (hfit v List.mem_cons_self)
    generalize hs' : ((s.writeSlot p (s.rb p).writeIndex v).setRb p (s.rb p).afterPut).setResult (.ok true) = s' at hput
    have hrb : s'.rb p = (s.rb p).afterPut := by simp [← hs']
    have hcount : (s'.rb p).count = (s.rb p).count + 1 := by rw [hrb]; rfl
    have hcap : (s'.rb p).capacity = (s.rb p).capacity := by rw [hrb]; rfl
    have hparams : s'.params = s.params := by simp [← hs']
    have hres : s'.result = .ok true := by rw [← hs']; rfl
    obtain ⟨t, hrun, htres, htcount, htcap⟩ := ih s'
      (fun x hx => by rw [hparams]; exact hfit x (List.mem_cons_of_mem v hx)) (by omega)
    refine ⟨t, ?_, ?_, ?_, htcap.trans hcap⟩
    · rw [List.map_cons, runAll, hput]
      exact hrun
    · rw [htres, hres, ite_self, if_neg (List.cons_ne_nil v vs)]
    · rw [htcount, hcount, List.length_cons]
      omega

/-- Settles O25: the puts of each prefix have room, and after all of them there is none. -/
theorem rbTakesCapacityManyPuts : Obligations.RbTakesCapacityManyPuts := by
  intro p s vs v _ hempty _ hlen hfit
  refine ⟨fun n hn1 hn => ?_, ?_⟩
  · have htake : (vs.take n).length = n := List.length_take_of_le hn
    have hne : vs.take n ≠ [] := List.ne_nil_of_length_pos (by omega)
    obtain ⟨t, hrun, hres, hcount, -⟩ := runAll_rbPut_of_room p (vs.take n) s
      (fun x hx => hfit x (List.mem_of_mem_take hx)) (by omega)
    exact ⟨t, hrun, by rw [hres, if_neg hne], by omega⟩
  · obtain ⟨t, hrun, -, hcount, hcap⟩ := runAll_rbPut_of_room p vs s hfit (by omega)
    exact ⟨t, hrun, exec_rbPut_full p t v (by omega)⟩

end Sys2Proof.Machine
end

section
/-! The gate (R78) as a bracket around a unit: what it leaves alone, and what so an operation under it changed. With the footprints
of the primitive changes of a stream. -/

namespace Sys2Proof.Machine

/-! ### What the gate leaves alone -/

section Gate

variable (s : State) (g : Gate) (c : CsPort)

@[simp] theorem gateEnable_rb (q : RbPort) : (gateEnable g s).rb q = s.rb q := by
  cases g <;> simp [gateEnable]

@[simp] theorem gateDisable_lockout : ((gateDisable g s).cs c).lockout = (s.cs c).lockout := by
  cases g <;> simp [gateDisable]

@[simp] theorem gateEnable_lockout : ((gateEnable g s).cs c).lockout = (s.cs c).lockout := by
  cases g <;> simp [gateEnable]

@[simp] theorem gateDisable_mem : (gateDisable g s).mem = s.mem := by
  cases g <;> simp [gateDisable]

@[simp] theorem gateDisable_wide : (gateDisable g s).wide = s.wide := by
  cases g <;> simp [gateDisable]

@[simp] theorem gateDisable_tainted : (gateDisable g s).tainted = s.tainted := by
  cases g <;> simp [gateDisable]

@[simp] theorem gateDisable_readSlot (p : RbPort) (i : Nat) : (gateDisable g s).readSlot p i = s.readSlot p i := by
  cases g <;> exact State.readSlot_congr p i (by simp [gateDisable]) (by simp [gateDisable]) (by simp [gateDisable])
    (by simp [gateDisable]) (by simp [gateDisable]) (by simp [gateDisable])

@[simp] theorem gateEnable_readSlot (p : RbPort) (i : Nat) : (gateEnable g s).readSlot p i = s.readSlot p i := by
  cases g <;> exact State.readSlot_congr p i (by simp [gateEnable]) (by simp [gateEnable]) (by simp [gateEnable])
    (by simp [gateEnable]) (by simp [gateEnable]) (by simp [gateEnable])

@[simp] theorem gateDisable_csSlot (i : Nat) : csSlot c (gateDisable g s) i = csSlot c s i := by
  rw [csSlot, gateDisable_readSlot, csSlot]

theorem gateDisable_memoryOk (h : MemoryOk s) : MemoryOk (gateDisable g s) :=
  h.congr (gateDisable_mem s g) (gateDisable_wide s g)

theorem gateDisable_untainted {p : RbPort} (h : s.Untainted p) : (gateDisable g s).Untainted p := by
  simpa [State.Untainted] using h

end Gate

/-! ### Footprints -/

section Footprints

variable {f : Footprint} {g : Gate} {s u : State}

theorem SameWorld.refl (s : State) : SameWorld [] s s := by
  constructor <;> simp

theorem setLockout_changesOnly (s : State) (c : CsPort) (n : Nat) (hc : c ∈ f.lockouts) :
    ChangesOnly f s (s.setLockout c n) := by
  have hne : ∀ d, d ∉ f.lockouts → d ≠ c := fun d hd e => hd (e ▸ hc)
  constructor <;> simp +contextual [hne]

theorem setLockout_sameWorld (s : State) (c : CsPort) (n : Nat) : SameWorld [] s (s.setLockout c n) := by
  constructor <;> simp

theorem setRxie_changesOnly (s : State) (k : LinkId) (b : Bool) (hk : k ∈ f.rxie) : ChangesOnly f s (s.setRxie k b) := by
  have hne : ∀ j, j ∉ f.rxie → j ≠ k := fun j hj e => hj (e ▸ hk)
  constructor <;> simp +contextual [hne]

theorem setTxie_changesOnly (s : State) (k : LinkId) (b : Bool) (hk : k ∈ f.txie) : ChangesOnly f s (s.setTxie k b) := by
  have hne : ∀ j, j ∉ f.txie → j ≠ k := fun j hj e => hj (e ▸ hk)
  constructor <;> simp +contextual [hne]

theorem gateDisable_changesOnly (hrx : f.rxie = gateRxLinks g) (htx : f.txie = gateTxLinks g) (s : State) :
    ChangesOnly f s (gateDisable g s) := by
  cases g with
  | noop => exact .refl s
  | rxGate k => exact setRxie_changesOnly s k false (by simp [hrx, gateRxLinks])
  | txGate k => exact setTxie_changesOnly s k false (by simp [htx, gateTxLinks])

theorem gateEnable_changesOnly (hrx : f.rxie = gateRxLinks g) (htx : f.txie = gateTxLinks g) (s : State) :
    ChangesOnly f s (gateEnable g s) := by
  cases g with
  | noop => exact .refl s
  | rxGate k => exact setRxie_changesOnly s k true (by simp [hrx, gateRxLinks])
  | txGate k => exact setTxie_changesOnly s k true (by simp [htx, gateTxLinks])

theorem gateDisable_sameWorld (g : Gate) (s : State) : SameWorld [] s (gateDisable g s) := by
  cases g <;> constructor <;> simp [gateDisable]

theorem gateEnable_sameWorld (g : Gate) (s : State) : SameWorld [] s (gateEnable g s) := by
  cases g <;> constructor <;> simp [gateEnable]

theorem gateEnable_released (g : Gate) (s : State) : GateReleased g (gateEnable g s) := by
  cases g <;> simp [GateReleased, gateRxLinks, gateTxLinks, gateEnable]

/-- An operation under a gate changed what its unit changed, beside the gate's enable, which is 1 at the end (R78). -/
theorem gated_frame (hrx : f.rxie = gateRxLinks g) (htx : f.txie = gateTxLinks g)
    (hunit : ChangesOnly f (gateDisable g s) u) (hworld : SameWorld [] (gateDisable g s) u) (r : Result) :
    ChangesOnly f s ((gateEnable g u).setResult r) ∧ SameWorld [] s ((gateEnable g u).setResult r)
      ∧ GateReleased g ((gateEnable g u).setResult r) :=
  ⟨(((gateDisable_changesOnly hrx htx s).trans hunit).trans (gateEnable_changesOnly hrx htx u)).trans
      (setResult_changesOnly _ r),
    (((gateDisable_sameWorld g s).trans hworld).trans (gateEnable_sameWorld g u)).trans (setResult_sameWorld _ r),
    by simpa [GateReleased] using gateEnable_released g u⟩

end Footprints

/-! ### Bytes taken under a gate -/

section Taken

variable (s : State) (c : CsPort) (g : Gate) (n : Nat)

theorem State.taken_rb : (s.taken c n).rb (.inner c) = { s.rb (.inner c) with
    readIndex := if n = 0 then (s.rb (.inner c)).readIndex
      else ((s.rb (.inner c)).readIndex + n) % (s.rb (.inner c)).capacity
    count := (s.rb (.inner c)).count - n } := by
  simp [State.taken]

theorem State.taken_lockout : ((s.taken c n).cs c).lockout = (s.cs c).lockout - n := by
  simp [State.taken]

theorem taken_changesOnly {f : Footprint} (hring : .inner c ∈ f.rings) (hlock : c ∈ f.lockouts) :
    ChangesOnly f s (s.taken c n) :=
  (setRb_changesOnly s _ _ hring).trans (setLockout_changesOnly _ c _ hlock)

theorem taken_sameWorld : SameWorld [] s (s.taken c n) :=
  (setRb_sameWorld s _ _).trans (setLockout_sameWorld _ c _)

/-- A stream after `n` of its bytes were taken between `gate(DISABLE)` and `gate(ENABLE)`. -/
def State.takenUnder : State := gateEnable g ((gateDisable g s).taken c n)

@[simp] theorem State.takenUnder_rb : (s.takenUnder c g n).rb (.inner c) = (s.taken c n).rb (.inner c) := by
  simp [State.takenUnder, State.taken_rb]

@[simp] theorem State.takenUnder_lockout : ((s.takenUnder c g n).cs c).lockout = (s.cs c).lockout - n := by
  simp [State.takenUnder, State.taken_lockout]

theorem State.takenUnder_unread (hok : (s.rb (.inner c)).Ok) (hn : n ≤ (s.rb (.inner c)).count) :
    (s.takenUnder c g n).unread c = (s.unread c).drop n := by
  rw [State.takenUnder, gateEnable_unread, State.unread_taken _ c n (by rwa [gateDisable_rb]) (by rwa [gateDisable_rb]),
    gateDisable_unread]

theorem takenUnder_frame (r : Result) :
    ChangesOnly { rings := [.inner c], lockouts := [c], rxie := gateRxLinks g, txie := gateTxLinks g } s
        ((s.takenUnder c g n).setResult r)
      ∧ SameWorld [] s ((s.takenUnder c g n).setResult r) ∧ GateReleased g ((s.takenUnder c g n).setResult r) :=
  gated_frame rfl rfl (taken_changesOnly _ c n (List.mem_singleton_self _) (List.mem_singleton_self c))
    (taken_sameWorld _ c n) r

end Taken

end Sys2Proof.Machine
end

section
/-! O26, O27, O28, O31: the operations of a stream that put or take bytes (41_commandstream.md). -/

namespace Sys2Proof.Machine

/-! ### `CS.RESET`, `CS.CLEAR`, `CS.COUNT` -/

section Binding

variable (c : CsPort) (s : State)

theorem exec_csReset_bindable (b : Option Ref) (n : Word32) (h : n.toNat = 0 ∨ b ≠ none) :
    exec (.csReset c b n) s = .next ((csBind c b n.toNat s).setResult .none) := by
  have hb : bindable b n = true := by
    simpa [bindable, Option.isSome_iff_ne_none] using h
  exact if_pos hb

theorem exec_csReset_refused (n : Word32) (h : n.toNat ≠ 0) :
    exec (.csReset c none n) s = .next (s.setResult .none) := by
  have hb : ¬ bindable none n = true := by simpa [bindable] using h
  exact if_neg hb

theorem exec_csClear : exec (.csClear c) s = .next ((csClear c s).setResult .none) := rfl

/-- A binding claims the array it names, where its capacity is not 0 (R131). -/
theorem rbBind_changesOnly (p : RbPort) (b : Option Ref) (n : Nat) {f : Footprint} (hring : p ∈ f.rings)
    (hclaims : f.claims = if n = 0 then [] else b.toList) : ChangesOnly f s (rbBind p b n s) := by
  refine (claim_changesOnly s p _ fun r hr => ?_).trans (setRb_changesOnly _ p _ hring)
  obtain ⟨h0, hb⟩ := Rb.bound_backing_eq_some.1 hr
  simp [hclaims, h0, hb]

theorem rbBind_sameWorld (p : RbPort) (b : Option Ref) (n : Nat) : SameWorld [] s (rbBind p b n s) :=
  (claim_sameWorld s p _).trans (setRb_sameWorld _ p _)

end Binding

/-- Settles O26: a binding and a clear are those of the RB, with the lockout set to 1 after them. -/
theorem csResetClearAndCount : Obligations.CsResetClearAndCount := by
  intro c b n s
  refine ⟨fun h => ⟨_, exec_csReset_bindable c s b n h, rfl, ?_, ?_, ?_, ?_, fun hfree => ?_⟩, ?_, ?_, rfl⟩
  · simp [csBind, rbBind, Rb.bound]
  · simp [csBind]
  · exact ((rbBind_changesOnly s _ b n.toNat (List.mem_singleton_self _) rfl).trans
      (setLockout_changesOnly _ c 1 (List.mem_singleton_self c))).trans (setResult_changesOnly _ _)
  · exact ((rbBind_sameWorld s _ b n.toNat).trans (setLockout_sameWorld _ c 1)).trans (setResult_sameWorld _ _)
  · have hself : s.claim (.inner c) (Rb.bound b n.toNat).backing = s :=
      claim_eq_self s _ _ fun q r hq hr => hfree q r hq (Rb.bound_backing_eq_some.1 hr).2
    simp [csBind, rbBind, hself]
  · rintro h0 rfl
    exact exec_csReset_refused c s n h0
  · refine ⟨_, exec_csClear c s, rfl, by simp [csClear, rbClear, Rb.cleared], by simp [csClear], ?_, ?_⟩
    · exact ((setRb_changesOnly s _ _ (List.mem_singleton_self _)).trans
        (setLockout_changesOnly _ c 1 (List.mem_singleton_self c))).trans (setResult_changesOnly _ _)
    · exact ((setRb_sameWorld s _ _).trans (setLockout_sameWorld _ c 1)).trans (setResult_sameWorld _ _)

/-! ### `CS.PUT_BYTE` -/

section PutByte

variable (c : CsPort) (b : Byte) (g : Gate) (s : State)

theorem exec_csPutByte_full (h : (s.rb (.inner c)).count = (s.rb (.inner c)).capacity) :
    exec (.csPutByte c b g) s = .next ((gateEnable g (gateDisable g s)).setResult (.ok false)) := by
  have hf : ((gateDisable g s).rb (.inner c)).isFull = true := by simpa [Rb.isFull] using h
  rw [exec, execCsPutByte, underGate, csPut, rbPut_full _ _ _ hf]
  rfl

theorem exec_csPutByte_room (h : (s.rb (.inner c)).count ≠ (s.rb (.inner c)).capacity) :
    exec (.csPutByte c b g) s
      = .next ((gateEnable g (((gateDisable g s).writeSlot (.inner c) (s.rb (.inner c)).writeIndex b.toNat).setRb (.inner c)
          (s.rb (.inner c)).afterPut)).setResult (.ok true)) := by
  have hf : ((gateDisable g s).rb (.inner c)).isFull = false := by simpa [Rb.isFull] using h
  rw [exec, execCsPutByte, underGate, csPut, rbPut_room _ _ _ hf, gateDisable_rb]
  rfl

/-- A byte stored stands behind those already unread. -/
theorem State.unread_put (hf : (s.rb (.inner c)).isFull = false) (hok : (s.rb (.inner c)).Ok)
    (hu : s.Untainted (.inner c)) (hm : MemoryOk s) :
    ((s.writeSlot (.inner c) (s.rb (.inner c)).writeIndex b.toNat).setRb (.inner c) (s.rb (.inner c)).afterPut).unread c
      = s.unread c ++ [b] := by
  rw [State.unread, State.contents_put s _ b.toNat hf hok hu hm.1 hm.2 b.isLt]
  simp [State.unread]

end PutByte

/-- Settles O27: under the gate the put finds the ring as it was, full or with room. -/
theorem csPutByteStores : Obligations.CsPutByteStores := by
  intro c b g s hok
  refine ⟨fun hfull => ⟨_, exec_csPutByte_full c b g s hfull, rfl, gated_frame rfl rfl (.refl _) (.refl _) _⟩,
    fun hroom => ⟨_, exec_csPutByte_room c b g s hroom, rfl, ?_, fun hu hm => ?_, gated_frame rfl rfl ?_ ?_ _⟩⟩
  · simp [Rb.afterPut, Rb.advancedBy]
  · have hput := State.unread_put c b (gateDisable g s) (by simpa [Rb.isFull] using hroom) (by rwa [gateDisable_rb])
      (gateDisable_untainted s g hu) (gateDisable_memoryOk s g hm)
    simpa using hput
  · refine (writeSlot_changesOnly _ _ _ _ (fun r hr _ => ?_) fun _ _ hw => by simp at hw).trans
      (setRb_changesOnly _ _ _ (List.mem_singleton_self _))
    rw [gateDisable_rb] at hr
    simp [State.nextKeys_one s _ hok r hr]
  · exact (writeSlot_sameWorld _ _ _ _).trans (setRb_sameWorld _ _ _)

/-! ### `CS.GET_BYTE` -/

section GetByte

variable (c : CsPort) (g : Gate) (s : State)

theorem exec_csGetByte : exec (.csGetByte c g) s
    = .next ((gateEnable g (csGet c (gateDisable g s)).2).setResult (.byteOption (csGet c (gateDisable g s)).1)) := rfl

theorem exec_csGetByte_empty (h : (s.rb (.inner c)).count = 0) :
    exec (.csGetByte c g) s = .next ((gateEnable g (gateDisable g s)).setResult (.byteOption none)) := by
  rw [exec_csGetByte, csGet_empty c _ (by rwa [gateDisable_rb])]

theorem exec_csGetByte_some (h : (s.rb (.inner c)).count ≠ 0) :
    exec (.csGetByte c g) s
      = .next ((s.takenUnder c g 1).setResult (.byteOption (some (csSlot c s (s.rb (.inner c)).readIndex)))) := by
  rw [exec_csGetByte, csGet_some c _ (by rwa [gateDisable_rb]), gateDisable_csSlot, gateDisable_rb]
  rfl

end GetByte

/-- Settles O28: under the gate the get finds the stream as it was; a byte returned is one byte taken. -/
theorem csGetByteTakes : Obligations.CsGetByteTakes := by
  intro c g s
  refine ⟨fun hempty => ⟨_, exec_csGetByte_empty c g s hempty, rfl, gated_frame rfl rfl (.refl _) (.refl _) _⟩,
    fun hsome => ⟨_, exec_csGetByte_some c g s hsome, rfl, ?_, ?_, takenUnder_frame s c g 1 _⟩⟩
  · simp [State.taken_rb]
  · simp

/-! ### `CS.MATCH_ASCII_UINT` -/

/-- The digit loop computes modulo 2^32 what the digits say (R170). -/
theorem foldl_pushDigit_ofNat (digits : List Byte) (n : Nat) :
    digits.foldl pushDigit (BitVec.ofNat 32 n)
      = BitVec.ofNat 32 (digits.foldl (fun v b => v * 10 + (b.toNat - 0x30)) n) := by
  induction digits generalizing n with
  | nil => rfl
  | cons b digits ih =>
    have hpush : pushDigit (BitVec.ofNat 32 n) b = BitVec.ofNat 32 (n * 10 + (b.toNat - 0x30)) := by
      rw [pushDigit, BitVec.ofNat_add, BitVec.ofNat_mul]
      rfl
    rw [List.foldl_cons, hpush, ih, List.foldl_cons]

/-- The digits at the front, none among them, under the gate. -/
theorem exec_csMatchAsciiUint_digits {c : CsPort} (g : Gate) {s : State} {digits rest : List Byte}
    (hok : (s.rb (.inner c)).Ok) (hs : s.unread c = digits ++ rest) (hd : ∀ b ∈ digits, isDigit b = true)
    (hr : ∀ b, rest.head? = some b → isDigit b = false) :
    exec (.csMatchAsciiUint c g) s = .next ((s.takenUnder c g digits.length).setResult
      (.uintOption (if digits = [] then none else some (digits.foldl pushDigit 0)))) := by
  rw [exec_csMatchAsciiUint, csMatchUint_state c _ (by rwa [gateDisable_rb]), gateDisable_unread, hs,
    takeWhile_isDigit hd hr]
  rfl

/-- Settles O31: the digits at the front are the bytes taken, and their fold is the value. -/
theorem csMatchAsciiUintReadsTheDigits : Obligations.CsMatchAsciiUintReadsTheDigits := by
  intro c g s digits rest hok hs hdigits hrest
  have hd : ∀ b ∈ digits, isDigit b = true := fun b hb => by simpa [isDigit] using hdigits b hb
  have hr : ∀ b, rest.head? = some b → isDigit b = false := fun b hb => by simpa [isDigit] using hrest b hb
  have hn : digits.length ≤ (s.rb (.inner c)).count := by
    rw [← State.unread_length, hs, List.length_append]
    exact Nat.le_add_right _ _
  refine ⟨_, exec_csMatchAsciiUint_digits g hok hs hd hr, ?_, ?_, ?_, ?_, takenUnder_frame s c g _ _⟩
  · rw [State.setResult_result, ← foldl_pushDigit_ofNat digits 0]
    rfl
  · rw [State.setResult_unread, State.takenUnder_unread s c g _ hok hn, hs, List.drop_left]
  · simp [State.taken_rb]
  · simp

end Sys2Proof.Machine
end

section
/-! O29, O30: `CS.MATCH_TOKEN` (R166 to R169). The condition of a match is one predicate of the state before the drain. -/

namespace Sys2Proof.Machine

/-! ### The two outcomes of the unit -/

/-- When `CS.MATCH_TOKEN` answers true: the unread bytes bring the lockout to 0, the stream is bound, and the window holds the
token (R166, R167). -/
def State.FindsToken (s : State) (c : CsPort) (token : List Byte) (shift : Nat) : Prop :=
  (s.cs c).lockout ≤ (s.rb (.inner c)).count ∧ 1 ≤ (s.rb (.inner c)).capacity ∧ TokenInWindow s c token shift

section Unit

variable (c : CsPort) (token : List Byte) (shift : Nat) (mv : Bool) (g : Gate) (s : State)

/-- The two spellings of the slot of a token's first byte. -/
theorem windowStart_eq (rb : Rb) (len : Nat) :
    windowStart rb shift len = (((rb.writeIndex : Int) - shift - len) % rb.capacity).toNat := by
  rw [windowStart, subMod, Nat.cast_add, Int.sub_sub]

theorem findsToken_iff : s.FindsToken c token shift ↔ (s.cs c).lockout ≤ (s.rb (.inner c)).count
    ∧ 1 ≤ (s.rb (.inner c)).capacity
    ∧ csWindowFrom c s (windowStart (s.rb (.inner c)) shift token.length) token = true := by
  rw [csWindowFrom_iff, windowStart_eq]
  rfl

theorem csMatchToken_miss (h : ¬ s.FindsToken c token shift) :
    csMatchToken c token shift mv s = (none, s.taken c (s.rb (.inner c)).count) := by
  rw [csMatchToken, csMatchToken_find, if_neg (mt (findsToken_iff c token shift s).2 h), csDrain_state]

theorem csMatchToken_hit (h : s.FindsToken c token shift) :
    csMatchToken c token shift mv s
      = (some (windowStart (s.rb (.inner c)) shift token.length),
         csAccept c shift mv (s.taken c (s.rb (.inner c)).count)) := by
  rw [csMatchToken, csMatchToken_find, if_pos ((findsToken_iff c token shift s).1 h), csDrain_state]

/-- The gate hides nothing of what a match looks at. -/
theorem gateDisable_findsToken : (gateDisable g s).FindsToken c token shift ↔ s.FindsToken c token shift := by
  simp [State.FindsToken, TokenInWindow]

/-! ### What a match does to the stream -/

/-- Not moving the cursor is moving it back by 0. -/
theorem csAccept_eq : csAccept c shift mv s
    = (s.setLockout c (1 + shift)).setRb (.inner c) ((s.rb (.inner c)).shifted (if mv then shift else 0) false) := by
  have hnone (u : State) : u.setRb (.inner c) ((u.rb (.inner c)).shifted 0 false) = u := by simp [Rb.shifted_backward]
  cases mv with
  | false => simpa [csAccept] using (hnone (s.setLockout c (1 + shift))).symm
  | true =>
    rcases Nat.eq_zero_or_pos shift with rfl | hpos
    · simpa [csAccept] using (hnone (s.setLockout c 1)).symm
    · simp [csAccept, hpos, rbShift]

theorem csAccept_rb : (csAccept c shift mv s).rb (.inner c)
    = (s.rb (.inner c)).shifted (if mv then shift else 0) false := by
  simp [csAccept_eq]

theorem csAccept_lockout : ((csAccept c shift mv s).cs c).lockout = 1 + shift := by
  simp [csAccept_eq]

theorem csAccept_changesOnly {f : Footprint} (hring : .inner c ∈ f.rings) (hlock : c ∈ f.lockouts) :
    ChangesOnly f s (csAccept c shift mv s) := by
  rw [csAccept_eq]
  exact (setLockout_changesOnly s c _ hlock).trans (setRb_changesOnly _ _ _ hring)

theorem csAccept_sameWorld : SameWorld [] s (csAccept c shift mv s) := by
  rw [csAccept_eq]
  exact (setLockout_sameWorld s c _).trans (setRb_sameWorld _ _ _)

end Unit

/-- An empty ring whose read cursor goes back: the unread slots are the last ones before the write cursor. -/
theorem Rb.shifted_drained (rb : Rb) (n : Nat) (hok : rb.Ok) :
    ({ rb with readIndex := rb.writeIndex, count := 0 } : Rb).shifted n false
      = { rb with
          readIndex := (((rb.writeIndex : Int) - (min n rb.capacity : Nat)) % rb.capacity).toNat
          count := min n rb.capacity } := by
  obtain ⟨-, -, hunbound, hbound⟩ := hok
  have hback : subMod rb.writeIndex 0 rb.capacity = rb.writeIndex := by
    rcases Nat.eq_zero_or_pos rb.capacity with h0 | hpos
    · simp [subMod, h0]
    · obtain ⟨-, -, hw, -⟩ := hbound hpos
      rw [subMod, Nat.cast_zero, Int.sub_zero, ← Int.natCast_emod, Int.toNat_natCast, Nat.mod_eq_of_lt hw]
  rw [Rb.shifted_backward]
  simp only [Nat.sub_zero, Nat.zero_add]
  split
  · next h0 => rw [h0, ← subMod, hback]
  · rfl

/-! ### The operation -/

section Operation

variable (c : CsPort) (token : List Byte) (shift : Byte) (mv : Bool) (g : Gate) (s : State)

theorem exec_csMatchToken : exec (.csMatchToken c token shift mv g) s
    = .next ((gateEnable g (csMatchToken c token shift.toNat mv (gateDisable g s)).2).setResult
        (.ok (csMatchToken c token shift.toNat mv (gateDisable g s)).1.isSome)) := rfl

theorem exec_csMatchToken_miss (h : ¬ s.FindsToken c token shift.toNat) :
    exec (.csMatchToken c token shift mv g) s
      = .next ((s.takenUnder c g (s.rb (.inner c)).count).setResult (.ok false)) := by
  rw [exec_csMatchToken, csMatchToken_miss _ _ _ _ _ (by rwa [gateDisable_findsToken]), gateDisable_rb]
  rfl

theorem exec_csMatchToken_hit (h : s.FindsToken c token shift.toNat) :
    exec (.csMatchToken c token shift mv g) s
      = .next ((gateEnable g (csAccept c shift.toNat mv ((gateDisable g s).taken c (s.rb (.inner c)).count))).setResult
          (.ok true)) := by
  rw [exec_csMatchToken, csMatchToken_hit _ _ _ _ _ (by rwa [gateDisable_findsToken]), gateDisable_rb]
  rfl

/-- The ring of a drained stream, under the gate. -/
theorem drainedUnder_rb (hok : (s.rb (.inner c)).Ok) :
    ((gateDisable g s).taken c (s.rb (.inner c)).count).rb (.inner c)
      = { s.rb (.inner c) with readIndex := (s.rb (.inner c)).writeIndex, count := 0 } := by
  have hdrain := csDrain_rb c (gateDisable g s) (by rwa [gateDisable_rb])
  rwa [csDrain_state, gateDisable_rb] at hdrain

end Operation

/-- Settles O29: a miss is the drain alone, a hit the drain and then the step of the lockout and the cursor. -/
theorem csMatchTokenComparesTheWindow : Obligations.CsMatchTokenComparesTheWindow := by
  intro c token shift mv g s hok
  have hdrained := drainedUnder_rb c g s hok
  by_cases h : s.FindsToken c token shift.toNat
  · refine ⟨_, exec_csMatchToken_hit c token shift mv g s h, fun _ => ⟨rfl, ?_, ?_⟩, fun hn => absurd h hn,
      gated_frame rfl rfl ?_ ?_ _⟩
    · simp [csAccept_lockout]
    · simp only [State.setResult_rb, gateEnable_rb, csAccept_rb, hdrained, Rb.shifted_drained _ _ hok]
      cases mv <;> simp
    · exact (taken_changesOnly _ c _ (List.mem_singleton_self _) (List.mem_singleton_self c)).trans
        (csAccept_changesOnly c _ mv _ (List.mem_singleton_self _) (List.mem_singleton_self c))
    · exact (taken_sameWorld _ c _).trans (csAccept_sameWorld c _ mv _)
  · refine ⟨_, exec_csMatchToken_miss c token shift mv g s h, fun hp => absurd hp h, fun _ => ⟨rfl, ?_, ?_⟩,
      takenUnder_frame s c g _ _⟩
    · simp
    · simpa [State.takenUnder] using hdrained

/-- More lockout than unread bytes: no token is found (R169). -/
theorem State.not_findsToken_of_lockout {s : State} {c : CsPort} (h : (s.rb (.inner c)).count < (s.cs c).lockout)
    (token : List Byte) (shift : Nat) : ¬ s.FindsToken c token shift :=
  fun hfind => absurd hfind.1 (Nat.not_le.2 h)

/-- Settles O30: after a match the lockout is `1 + shift` and at most `shift` bytes are unread. -/
theorem noTokenMatchesTwice : Obligations.NoTokenMatchesTwice := by
  intro c token token' shift shift' mv mv' g g' s t hok hexec hres
  obtain ⟨t', hexec', hhit, hmiss, -⟩ := csMatchTokenComparesTheWindow c token shift mv g s hok
  obtain rfl : t' = t := by
    rw [hexec] at hexec'
    injection hexec' with heq
    exact heq.symm
  by_cases h : s.FindsToken c token shift.toNat
  · obtain ⟨-, hlock, hrb⟩ := hhit h
    have hcount : (t'.rb (.inner c)).count = if mv then min shift.toNat (s.rb (.inner c)).capacity else 0 := by rw [hrb]
    have hle : (t'.rb (.inner c)).count ≤ shift.toNat := by
      rw [hcount]
      split <;> omega
    refine ⟨_, exec_csMatchToken_miss c token' shift' mv' g' t'
      (State.not_findsToken_of_lockout (by omega) _ _), rfl, ?_, fun hmv => ?_⟩
    · simp only [State.setResult_lockout, State.takenUnder_lockout]
      omega
    · simp only [State.setResult_lockout, State.takenUnder_lockout, hlock, hcount, hmv]
      rfl
  · obtain ⟨hfalse, -⟩ := hmiss h
    rw [hres] at hfalse
    cases hfalse

end Sys2Proof.Machine
end

section
/-! O34, O35: `CS.MATCH_PARAM` (R174 to R176) against its units run as requests of their own. The two differ in the record that
a unit presents and nothing reads (Laws/Result.lean), so they are compared with one record put over both. -/

namespace Sys2Proof.Machine

/-! ### Answers up to the last record -/

/-- An answer with record `r` put over its state. -/
def withRecord {α : Type} (r : Result) (x : α × State) : α × State := (x.1, x.2.setResult r)

/-- Present an optional number, the result of `CS.MATCH_ASCII_UINT` and `CS.MATCH_PARAM`. -/
def answerUint (x : Option Word32 × State) : Out := .next (x.2.setResult (.uintOption x.1))

theorem answerUint_withRecord (r : Result) (x : Option Word32 × State) : answerUint (withRecord r x) = answerUint x := rfl

theorem exec_csMatchAsciiUint_eq (c : CsPort) (g : Gate) (s : State) :
    exec (.csMatchAsciiUint c g) s = answerUint (underGate g (csMatchUint c) s) := rfl

theorem exec_csMatchParam_eq (c : CsPort) (token : List Byte) (delimiter n : Byte) (g : Gate) (s : State) :
    exec (.csMatchParam c token delimiter n g) s = answerUint (csMatchParam c token delimiter n.toNat g s) := rfl

theorem setResult_paramRest (c : CsPort) (delimiter : Byte) (g : Gate) (pos : Nat) (s : State) (r : Result) :
    paramRest c delimiter g pos (s.setResult r) = withRecord r (paramRest c delimiter g pos s) := by
  have hdigits : underGate g (csMatchUint c) (point (s.setResult r))
      = withRecord r (underGate g (csMatchUint c) (point s)) := by
    rw [setResult_point]
    exact setResult_underGate _ r g _ fun s => setResult_csMatchUint s r c
  unfold paramRest
  simp only [hdigits, withRecord]
  split
  · rfl
  · split
    · rfl
    · rw [setResult_point]
      exact setResult_underGate _ r g _ fun s => setResult_csDelimiter s r c delimiter _ pos

/-- Units in order keep what the primitives keep. -/
theorem Stable.runUnits {P : State → Prop} (hP : Stable P) (first : Bool) (is : List Instr) (s : State) (h : P s) :
    NextHolds P (Machine.runUnits first is s) := by
  induction is generalizing first s with
  | nil =>
    intro t ht
    cases ht
    exact h
  | cons i is ih =>
    have hstart : P (if first then s else Machine.point s) := by
      split
      · exact h
      · exact hP.point s h
    have hexec := hP.exec i _ hstart
    unfold Machine.runUnits
    split
    · next t ht => exact ih false t (hexec t ht)
    · intro t ht
      cases ht
    · intro t ht
      cases ht

/-! ### The attempts -/

section Attempts

variable (c : CsPort) (token : List Byte) (g : Gate)

/-- One attempt of R174, with the point before it. -/
def paramAttempt (shift : Nat) (s : State) : Option Nat × State :=
  underGate g (csMatchToken c token shift true) (if shift = 1 then s else point s)

theorem paramAttempts_miss {n i : Nat} {s : State} (h : (paramAttempt c token g i s).1 = none) :
    paramAttempts c token g (n + 1) i s = paramAttempts c token g n (i + 1) (paramAttempt c token g i s).2 := by
  rw [paramAttempt] at h ⊢
  simp only [paramAttempts, h]

theorem paramAttempts_hit {n i pos : Nat} {s : State} (h : (paramAttempt c token g i s).1 = some pos) :
    paramAttempts c token g (n + 1) i s = (some pos, (paramAttempt c token g i s).2) := by
  rw [paramAttempt] at h ⊢
  simp only [paramAttempts, h]

/-- The attempts at `m` shifts from `i` on, as requests. -/
def attemptsFrom (i m : Nat) : List Instr :=
  (List.range' i m).map fun j => .csMatchToken c token (BitVec.ofNat 8 j) true g

/-- The `m` attempts from shift `i` on, run as requests; a point before each but the attempt at shift 1. -/
def runAttempts (i m : Nat) (s : State) : Out := runUnits (decide (i = 1)) (attemptsFrom c token g i m) s

/-- The state after the request of one attempt. -/
def afterAttempt (i : Nat) (s : State) : State :=
  (paramAttempt c token g i s).2.setResult (.ok (paramAttempt c token g i s).1.isSome)

/-- From shift 1 on they are the attempts of Safety.lean. -/
theorem runAttempts_one (m : Nat) (s : State) : runAttempts c token g 1 m s = runUnits true (attempts c token g m) s := rfl

theorem runAttempts_zero (i : Nat) (s : State) : runAttempts c token g i 0 s = .next s := rfl

theorem runAttempts_succ (i m : Nat) (s : State) (hi : 1 ≤ i) (hlt : i < 256) :
    runAttempts c token g i (m + 1) s = runAttempts c token g (i + 1) m (afterAttempt c token g i s) := by
  have hshift : (BitVec.ofNat 8 i).toNat = i := by simpa using hlt
  have hrequest : exec (.csMatchToken c token (BitVec.ofNat 8 i) true g) (if decide (i = 1) then s else point s)
      = .next (afterAttempt c token g i s) := by
    simp only [decide_eq_true_eq]
    rw [exec, execCsMatchToken, hshift]
    rfl
  have hnext : decide (i + 1 = 1) = false := decide_eq_false (by omega)
  rw [runAttempts, attemptsFrom, List.range'_succ, List.map_cons, runUnits, hrequest, runAttempts, hnext]
  rfl

/-- Each of the `j` attempts from shift `i` on answers false. -/
def AttemptsFail (i j : Nat) (s : State) : Prop :=
  ∀ m, 1 ≤ m → m ≤ j → ∃ w, runAttempts c token g i m s = .next w ∧ w.result = .ok false

variable {c token g}

theorem AttemptsFail.first {i j : Nat} {s : State} (h : AttemptsFail c token g i (j + 1) s) (hi : 1 ≤ i) (hlt : i < 256) :
    (paramAttempt c token g i s).1 = none := by
  obtain ⟨w, hrun, hres⟩ := h 1 (Nat.le_refl 1) (Nat.le_add_left 1 j)
  rw [runAttempts_succ c token g i 0 s hi hlt] at hrun
  cases hrun
  simpa [afterAttempt] using hres

theorem AttemptsFail.later {i j : Nat} {s : State} (h : AttemptsFail c token g i (j + 1) s) (hi : 1 ≤ i) (hlt : i < 256) :
    AttemptsFail c token g (i + 1) j (afterAttempt c token g i s) := by
  intro m hm hmj
  rw [← runAttempts_succ c token g i m s hi hlt]
  exact h (m + 1) (Nat.le_add_left 1 m) (Nat.succ_le_succ hmj)

/-- The search after `j` failing attempts is the search from where these leave the state. -/
theorem paramAttempts_skip {i j : Nat} {s : State} (hfail : AttemptsFail c token g i j s) (hi : 1 ≤ i) (hlt : i + j ≤ 256) :
    ∃ t, runAttempts c token g i j s = .next t
      ∧ ∀ k r, withRecord r (paramAttempts c token g (j + k) i s) = withRecord r (paramAttempts c token g k (i + j) t) := by
  induction j generalizing i s with
  | zero => exact ⟨s, rfl, fun k r => by rw [Nat.zero_add, Nat.add_zero]⟩
  | succ j ih =>
    have hmiss := hfail.first hi (by omega)
    obtain ⟨t, hrun, hskip⟩ := ih (hfail.later hi (by omega)) (by omega) (by omega)
    refine ⟨t, by rw [runAttempts_succ c token g i j s hi (by omega), hrun], fun k r => ?_⟩
    have hone : withRecord r (paramAttempts c token g (j + k) (i + 1) (paramAttempt c token g i s).2)
        = withRecord r (paramAttempts c token g (j + k) (i + 1) (afterAttempt c token g i s)) := by
      rw [afterAttempt, setResult_paramAttempts]
      rfl
    rw [Nat.succ_add_eq_add_succ, Nat.add_succ, paramAttempts_miss c token g hmiss, hone, hskip, Nat.add_right_comm,
      Nat.add_assoc]

/-- One attempt more. -/
theorem runAttempts_last {i j : Nat} {s t : State} (hrun : runAttempts c token g i j s = .next t) (hi : 1 ≤ i)
    (hlt : i + j < 256) : runAttempts c token g i (j + 1) s = .next (afterAttempt c token g (i + j) t) := by
  induction j generalizing i s with
  | zero =>
    rw [runAttempts_zero] at hrun
    cases hrun
    exact runAttempts_succ c token g i 0 t hi (by omega)
  | succ j ih =>
    rw [runAttempts_succ c token g i j s hi (by omega)] at hrun
    rw [runAttempts_succ c token g i (j + 1) s hi (by omega), ih hrun (by omega) (by omega), Nat.add_right_comm,
      Nat.add_assoc]

/-! ### Where a match was found -/

theorem windowStart_congr {rb rb' : Rb} (hw : rb'.writeIndex = rb.writeIndex) (hc : rb'.capacity = rb.capacity)
    (shift len : Nat) : windowStart rb' shift len = windowStart rb shift len := by
  rw [windowStart, windowStart, hw, hc]

theorem Rb.shifted_writeIndex (rb : Rb) (n : Nat) : (rb.shifted n false).writeIndex = rb.writeIndex := by
  rw [Rb.shifted_backward]
  split <;> rfl

theorem Rb.shifted_capacity (rb : Rb) (n : Nat) : (rb.shifted n false).capacity = rb.capacity := by
  rw [Rb.shifted_backward]
  split <;> rfl

/-- Neither the drain nor the cursor's way back moves the write cursor, so the match is where it still points. -/
theorem csMatchToken_start {shift pos : Nat} {mv : Bool} {s : State} (h : (csMatchToken c token shift mv s).1 = some pos) :
    pos = windowStart ((csMatchToken c token shift mv s).2.rb (.inner c)) shift token.length := by
  by_cases hfind : s.FindsToken c token shift
  · rw [csMatchToken_hit c token shift mv s hfind] at h ⊢
    rw [← Option.some.inj h]
    refine (windowStart_congr ?_ ?_ _ _).symm
    · rw [csAccept_rb, Rb.shifted_writeIndex, State.taken_rb]
    · rw [csAccept_rb, Rb.shifted_capacity, State.taken_rb]
  · rw [csMatchToken_miss c token shift mv s hfind] at h
    cases h

theorem paramAttempt_start {i pos : Nat} {s : State} (h : (paramAttempt c token g i s).1 = some pos) :
    pos = windowStart ((afterAttempt c token g i s).rb (.inner c)) i token.length := by
  rw [afterAttempt, State.setResult_rb, paramAttempt, underGate, gateEnable_rb]
  exact csMatchToken_start h

/-- R174: the first attempt that matches ends the search. -/
theorem paramAttempts_of_match {m n : Nat} {s u : State} (hm : 1 ≤ m) (hmn : m ≤ n) (hn : n < 256)
    (hfail : AttemptsFail c token g 1 (m - 1) s) (hrun : runAttempts c token g 1 m s = .next u) (hres : u.result = .ok true)
    (r : Result) : withRecord r (paramAttempts c token g n 1 s)
      = withRecord r (some (windowStart (u.rb (.inner c)) m token.length), u) := by
  obtain ⟨j, rfl⟩ := Nat.exists_eq_add_of_le hm
  obtain ⟨k, rfl⟩ := Nat.exists_eq_add_of_le hmn
  rw [Nat.add_sub_cancel_left] at hfail
  obtain ⟨t, hskipped, hskip⟩ := paramAttempts_skip hfail (Nat.le_refl 1) (by omega)
  rw [Nat.add_comm 1 j, runAttempts_last hskipped (Nat.le_refl 1) (by omega)] at hrun
  cases hrun
  obtain ⟨pos, hpos⟩ : ∃ pos, (paramAttempt c token g (1 + j) t).1 = some pos := by
    simpa [afterAttempt, Option.isSome_iff_exists] using hres
  rw [← paramAttempt_start hpos, show 1 + j + k = j + (k + 1) by omega, hskip, paramAttempts_hit c token g hpos]
  rfl

end Attempts

/-! ### The delimiter step -/

section Delimiter

variable {c : CsPort} {delimiter : Byte} {g : Gate} {s : State}

theorem csDelimiter_found {pos : Nat} {x : Word32} (h : csFront c s = some delimiter) :
    csDelimiter c delimiter x pos s = (some x, (csGet c s).2) := if_pos h

theorem csDelimiter_missing {pos : Nat} {x : Word32} (h : csFront c s ≠ some delimiter) :
    csDelimiter c delimiter x pos s = (none, s.writeSlot (.inner c) pos 0) := if_neg h

/-- The gate hides nothing of the front byte. -/
theorem csFront_gateDisable (hok : (s.rb (.inner c)).Ok) : csFront c (gateDisable g s) = (s.unread c).head? := by
  rw [csFront_unread c _ (by rwa [gateDisable_rb]), gateDisable_unread]

end Delimiter

section Erased

variable (c : CsPort) (g : Gate) (pos : Nat) (s : State)

/-- A stream's array after the null terminator of R176 was stored between `gate(DISABLE)` and `gate(ENABLE)`. -/
def State.erasedUnder : State := gateEnable g ((gateDisable g s).writeSlot (.inner c) pos 0)

theorem erasedUnder_frame (r : Result) :
    ChangesOnly
        { rxie := gateRxLinks g, txie := gateTxLinks g
          bytes := (s.rb (.inner c)).backing.toList.map fun a => slotAddress a pos } s
        ((s.erasedUnder c g pos).setResult r)
      ∧ SameWorld [] s ((s.erasedUnder c g pos).setResult r)
      ∧ GateReleased g ((s.erasedUnder c g pos).setResult r) := by
  refine gated_frame rfl rfl (writeSlot_changesOnly _ _ _ _ (fun a ha _ => ?_) fun _ _ hw => by simp at hw)
    (writeSlot_sameWorld _ _ _ _) _
  rw [gateDisable_rb] at ha
  simp [ha]

theorem erasedUnder_readSlot (r : Result) (hu : s.Untainted (.inner c)) (hm : MemoryOk s)
    (hb : (s.rb (.inner c)).backing ≠ none) : ((s.erasedUnder c g pos).setResult r).readSlot (.inner c) pos = 0 := by
  obtain ⟨a, ha⟩ := Option.ne_none_iff_exists'.1 hb
  have ha' : ((gateDisable g s).rb (.inner c)).backing = some a := by rwa [gateDisable_rb]
  obtain ⟨hmem, hwide⟩ := gateDisable_memoryOk s g hm
  rw [setResult_readSlot, State.erasedUnder, gateEnable_readSlot]
  exact State.readSlot_writeSlot_same _ _ pos 0 a ha' (gateDisable_untainted s g hu a ha') hmem hwide (Nat.two_pow_pos _)

end Erased

/-! ### The operation -/

section Operation

variable {c : CsPort} {token : List Byte} {delimiter n : Byte} {g : Gate} {s u v : State}

theorem setResult_of_setResult {r : Result} (h : s.setResult r = u.setResult r) (r' : Result) :
    s.setResult r' = u.setResult r' := congrArg (·.setResult r') h

theorem exec_csMatchParam_of_none {r : Result}
    (h : withRecord r (paramAttempts c token g n.toNat 1 s) = withRecord r (none, u)) :
    exec (.csMatchParam c token delimiter n g) s = .next (u.setResult (.uintOption none)) := by
  obtain ⟨hnone, hstate⟩ := Prod.mk.inj h
  rw [exec_csMatchParam_eq, csMatchParam]
  simp only [hnone]
  exact congrArg Host.Outcome.next (setResult_of_setResult hstate _)

theorem exec_csMatchParam_of_some {r : Result} {pos : Nat}
    (h : withRecord r (paramAttempts c token g n.toNat 1 s) = withRecord r (some pos, u)) :
    exec (.csMatchParam c token delimiter n g) s = answerUint (paramRest c delimiter g pos u) := by
  obtain ⟨hsome, hstate⟩ := Prod.mk.inj h
  rw [exec_csMatchParam_eq, csMatchParam]
  simp only [hsome]
  rw [← answerUint_withRecord r, ← setResult_paramRest, hstate, setResult_paramRest, answerUint_withRecord]

/-- What `CS.MATCH_ASCII_UINT` presented is what its unit answered. -/
theorem answerUint_eq_next {x : Option Word32 × State} {r : Option Word32} (h : answerUint x = .next v)
    (hres : v.result = .uintOption r) : x.1 = r ∧ x.2.setResult (.uintOption r) = v := by
  cases h
  obtain rfl : x.1 = r := Result.uintOption.inj hres
  exact ⟨rfl, rfl⟩

theorem paramRest_of_end {pos : Nat} (h : (underGate g (csMatchUint c) (point u)).1 = none ∨ delimiter = 0) :
    paramRest c delimiter g pos u = underGate g (csMatchUint c) (point u) := by
  unfold paramRest
  generalize underGate g (csMatchUint c) (point u) = x at h
  obtain ⟨_ | value, t⟩ := x
  · rfl
  · obtain rfl : delimiter = 0 := h.resolve_left (Option.some_ne_none value)
    rfl

theorem paramRest_of_value {pos : Nat} {x : Word32} (h : (underGate g (csMatchUint c) (point u)).1 = some x)
    (hd : delimiter ≠ 0) :
    paramRest c delimiter g pos u
      = underGate g (csDelimiter c delimiter x pos) (point (underGate g (csMatchUint c) (point u)).2) := by
  unfold paramRest
  simp only [h, if_neg hd]

/-- R175: the delimiter step starts from the point after the digits. -/
theorem answerUint_paramRest_of_value {pos : Nat} {x : Word32}
    (hexec : answerUint (underGate g (csMatchUint c) (point u)) = .next v) (hres : v.result = .uintOption (some x)) (hd : delimiter ≠ 0) :
    answerUint (paramRest c delimiter g pos u) = answerUint (underGate g (csDelimiter c delimiter x pos) (point v)) := by
  obtain ⟨hvalue, hv⟩ := answerUint_eq_next hexec hres
  rw [paramRest_of_value hvalue hd, ← hv, setResult_point,
    setResult_underGate _ _ g _ fun s => setResult_csDelimiter s _ c delimiter x pos]
  rfl

end Operation

/-- Settles O34: the search past all its attempts is the end of the search. -/
theorem matchParamTriesEveryShift : Obligations.MatchParamTriesEveryShift := by
  intro c token delimiter n g s
  refine ⟨⟨_, _, exec_csMatchParam_eq c token delimiter n g s, rfl⟩, fun h0 => ?_, fun u _ hfail hrun => ?_⟩
  · subst h0
    rfl
  · simp only [← runAttempts_one] at hfail hrun
    obtain ⟨t, hskipped, hskip⟩ := paramAttempts_skip hfail (Nat.le_refl 1) (by have := n.isLt; omega)
    obtain rfl : t = u := Host.Outcome.next.inj (hskipped.symm.trans hrun)
    exact exec_csMatchParam_of_none (hskip 0 .none)

/-- Settles O35: the search ends at the match, then each unit of `paramRest` starts from the point after the last one. -/
theorem matchParamReadsTheNumber : Obligations.MatchParamReadsTheNumber := by
  intro c token delimiter n g s u v m r hrings hm hmn hfail hrun hmatch hexec hres
  have hu : RingsOk u := ringsOk_stable.runUnits _ _ s hrings u hrun
  simp only [← runAttempts_one] at hfail hrun
  have hsearch := paramAttempts_of_match hm hmn n.isLt (fun j hj hjm => hfail j hj (by omega)) hrun hmatch .none
  rw [exec_csMatchParam_of_some hsearch]
  have hv : RingsOk v := ringsOk_stable.exec _ _ (ringsOk_stable.point u hu) v hexec
  have hp := ringsOk_stable.point v hv (.inner c)
  rw [exec_csMatchAsciiUint_eq] at hexec
  refine ⟨fun hend => ?_, fun x hx hd hfront => ?_, fun x hx hd hfront => ?_⟩
  · obtain ⟨hr, -⟩ := answerUint_eq_next hexec hres
    rw [paramRest_of_end (by rwa [hr])]
    exact hexec
  · subst hx
    refine ⟨_, exec_csGetByte c g (point v), ?_⟩
    rw [answerUint_paramRest_of_value hexec hres hd, underGate, csDelimiter_found ((csFront_gateDisable hp).trans hfront)]
    rfl
  · subst hx
    rw [answerUint_paramRest_of_value hexec hres hd, underGate,
      csDelimiter_missing (by rwa [csFront_gateDisable hp]), windowStart_eq]
    generalize ((((u.rb (.inner c)).writeIndex : Int) - m - token.length) % (u.rb (.inner c)).capacity).toNat = start
    obtain ⟨honly, hworld, hreleased⟩ := erasedUnder_frame c g start (point v) (.uintOption none)
    refine ⟨_, rfl, rfl, hreleased, hworld, ?_⟩
    rintro pos rfl
    exact ⟨erasedUnder_readSlot c g pos (point v) _, honly⟩

end Sys2Proof.Machine
end

section
/-! O42, O43, O46: the operations of a link that are those of its stream, that a disabled link fails, or that read or clear a
field of LinkStatus (42_duplexlink.md). With the footprints of the primitive changes of a link. -/

namespace Sys2Proof.Machine

/-! ### The primitive changes of a link -/

section Footprints

variable {f : Footprint} (s : State) (k : LinkId)

/-- The class, error and enable setters are this one too. -/
theorem setStatus_changesOnly (st : LinkStatus) (hk : k ∈ f.status) : ChangesOnly f s (s.setStatus k st) := by
  have hne : ∀ j, j ∉ f.status → j ≠ k := fun j hj e => hj (e ▸ hk)
  constructor <;> simp +contextual [hne]

theorem setStatus_sameWorld (st : LinkStatus) : SameWorld [] s (s.setStatus k st) := by
  constructor <;> simp

theorem setErrEn_changesOnly (b : Bool) (hk : k ∈ f.errEn) : ChangesOnly f s (s.setErrEn k b) := by
  have hne : ∀ j, j ∉ f.errEn → j ≠ k := fun j hj e => hj (e ▸ hk)
  constructor <;> simp +contextual [hne]

theorem setErrEn_sameWorld (b : Bool) : SameWorld [] s (s.setErrEn k b) := by
  constructor <;> simp

theorem setTxie_sameWorld (b : Bool) : SameWorld [] s (s.setTxie k b) := by
  constructor <;> simp

theorem setRxie_sameWorld (b : Bool) : SameWorld [] s (s.setRxie k b) := by
  constructor <;> simp

/-- What is driven outward is in no footprint. -/
theorem emit_changesOnly (e : BusEvent) : ChangesOnly f s (s.emit e) := by
  constructor <;> simp

theorem emit_sameWorld (e : BusEvent) : SameWorld [e] s (s.emit e) := by
  constructor <;> simp

end Footprints

/-! ### LinkStatus -/

/-- Writing one LinkStatus and presenting a result: what each acknowledgement comes to. -/
theorem setStatus_answer_frame (s : State) (k : LinkId) (st : LinkStatus) (r : Result) :
    (((s.setStatus k st).setResult r).link k).status = st
      ∧ ChangesOnly { status := [k] } s ((s.setStatus k st).setResult r)
      ∧ SameWorld [] s ((s.setStatus k st).setResult r) := by
  refine ⟨by simp, ?_, ?_⟩
  · exact (setStatus_changesOnly s k st (List.mem_singleton_self k)).trans (setResult_changesOnly _ r)
  · exact (setStatus_sameWorld s k st).trans (setResult_sameWorld _ r)

/-- Settles O46: the status is a result and nothing else; each acknowledgement writes LinkStatus with one field cleared. -/
theorem statusAndAcknowledgements : Obligations.StatusAndAcknowledgements := fun k s =>
  ⟨rfl, ⟨_, rfl, rfl, setStatus_answer_frame s k { (s.link k).status with lastError := .none } .none⟩,
    ⟨_, rfl, rfl, setStatus_answer_frame s k { (s.link k).status with txClass := .none } .none⟩,
    ⟨_, rfl, rfl, setStatus_answer_frame s k { (s.link k).status with rxClass := .none } .none⟩⟩

/-! ### What the operations of a link answer -/

section Answers

variable (k : LinkId) (s : State)

theorem exec_dlcReceive :
    exec (.dlcReceive k) s = .next ((dlcReceive k s).2.setResult (.byteOption (dlcReceive k s).1)) := rfl

theorem exec_dlcTransmit (b : Byte) :
    exec (.dlcTransmit k b) s = .next ((dlcTransmit k b s).2.setResult (.ok (dlcTransmit k b s).1)) := rfl

theorem exec_dlcTransmitPacket (data : List Byte) :
    exec (.dlcTransmitPacket k data) s = .next ((transmitAll k true data s).2.setResult .none) := rfl

theorem exec_dlcTransmitUint (v : Word32) :
    exec (.dlcTransmitUint k v) s = .next ((transmitAll k true (decimalText v) s).2.setResult .none) := rfl

theorem exec_dlcTransmitString (data : List Byte) (h : ∀ b ∈ data, b ≠ 0) :
    exec (.dlcTransmitString k data) s
      = .next ((transmitAll k true data s).2.setResult (.count (transmitAll k true data s).1)) :=
  if_pos (by simpa [isText] using h)

/-- R92, R112: a text with a zero byte is refused. -/
theorem exec_dlcTransmitString_refused (data : List Byte) (h : 0 ∈ data) :
    exec (.dlcTransmitString k data) s = .next (s.setResult (.count 0)) := if_neg (by simpa [isText] using h)

theorem exec_dlcHostTransaction_sync (out : List Byte) (n : Word32) :
    exec (.dlcHostTransaction .s out n) s = (hostTransaction out n.toNat s).outcome .byte := rfl

end Answers

/-! ### Enabled and disabled links -/

section Enabled

variable {k : LinkId} {s : State} (h : (s.link k).status.enabled = true)
include h

theorem dlcReceive_enabled : dlcReceive k s = underGate (.rxGate k) (csGet (.rx k)) s := if_pos h

theorem exec_dlcReceive_enabled : exec (.dlcReceive k) s = exec (.csGetByte (.rx k) (.rxGate k)) s := by
  rw [exec_dlcReceive, dlcReceive_enabled h]
  rfl

theorem exec_dlcMatchToken_enabled (token : List Byte) (shift : Byte) (mv : Bool) :
    exec (.dlcMatchToken k token shift mv) s = exec (.csMatchToken (.rx k) token shift mv (.rxGate k)) s := if_pos h

theorem exec_dlcMatchAsciiUint_enabled :
    exec (.dlcMatchAsciiUint k) s = exec (.csMatchAsciiUint (.rx k) (.rxGate k)) s := if_pos h

theorem exec_dlcMatchParam_enabled (token : List Byte) (delimiter n : Byte) :
    exec (.dlcMatchParam k token delimiter n) s = exec (.csMatchParam (.rx k) token delimiter n (.rxGate k)) s := if_pos h

end Enabled

/-- Settles O42: on an enabled link each of the four is by definition the operation of its `rx`. -/
theorem dlcDelegatesToItsStream : Obligations.DlcDelegatesToItsStream := fun _ _ h =>
  ⟨⟨_, exec_dlcReceive_enabled h, rfl⟩, fun token shift mv => ⟨_, exec_dlcMatchToken_enabled h token shift mv, rfl⟩,
    ⟨_, exec_dlcMatchAsciiUint_enabled h, rfl⟩,
    fun token delimiter n => ⟨_, exec_dlcMatchParam_enabled h token delimiter n, rfl⟩⟩

/-- R212: a transmit fails on a disabled link and on a full `tx`. -/
theorem dlcTransmit_fails {k : LinkId} {s : State}
    (h : (s.link k).status.enabled = false ∨ (s.rb (.tx k)).count = (s.rb (.tx k)).capacity) (b : Byte) :
    dlcTransmit k b s = (false, s) := if_pos (by simpa [Rb.isFull] using h)

/-- A composed transmit ends at its first byte where that one fails. -/
theorem transmitAll_of_fails {k : LinkId} {s : State} (h : ∀ b, dlcTransmit k b s = (false, s)) (data : List Byte) :
    transmitAll k true data s = (0, s) := by
  cases data with
  | nil => rfl
  | cons b data => simp [transmitAll, h]

section Disabled

variable {k : LinkId} {s : State} (h : (s.link k).status.enabled = false)
include h

theorem dlcReceive_disabled : dlcReceive k s = (none, s) := if_neg (by simp [h])

theorem transmitAll_disabled (data : List Byte) : transmitAll k true data s = (0, s) :=
  transmitAll_of_fails (dlcTransmit_fails (.inl h)) data

theorem exec_dlcTransmitString_disabled (data : List Byte) :
    exec (.dlcTransmitString k data) s = .next (s.setResult (.count 0)) := by
  by_cases h0 : 0 ∈ data
  · exact exec_dlcTransmitString_refused k s data h0
  · rw [exec_dlcTransmitString k s data fun b hb e => h0 (e ▸ hb), transmitAll_disabled h]

end Disabled

/-- R230 on a disabled `LINK_S`: no window is opened. -/
theorem hostTransaction_disabled {s : State} (h : (s.link .s).status.enabled = false) (out : List Byte) (n : Nat) :
    hostTransaction out n s = .done 0 s := if_neg (by simp [h])

theorem exec_dlcHostTransaction_disabled {k : LinkId} {s : State} (h : (s.link k).status.enabled = false) (out : List Byte)
    (n : Word32) : exec (.dlcHostTransaction k out n) s = .next (s.setResult (.byte 0)) := by
  cases k with
  | s =>
    rw [exec_dlcHostTransaction_sync, hostTransaction_disabled h]
    rfl
  | a => rfl

/-- Settles O43: each operation tests `enabled` first, a composed transmit at its first byte. -/
theorem disabledLinkDoesNothing : Obligations.DisabledLinkDoesNothing := by
  refine ⟨fun s out n => rfl, fun k s h => ?_⟩
  have hne : ¬ (s.link k).status.enabled = true := by simp [h]
  refine ⟨fun b => ?_, ?_, fun _ _ _ => if_neg hne, if_neg hne, fun _ _ _ => if_neg hne, fun data => ?_,
    exec_dlcTransmitString_disabled h, fun v => ?_, exec_dlcHostTransaction_disabled h, if_neg hne⟩
  · rw [exec_dlcTransmit, dlcTransmit_fails (.inl h)]
    rfl
  · rw [exec_dlcReceive, dlcReceive_disabled h]
    rfl
  · rw [exec_dlcTransmitPacket, transmitAll_disabled h]
    rfl
  · rw [exec_dlcTransmitUint, transmitAll_disabled h]
    rfl

end Sys2Proof.Machine
end

section
/-! O36, O37: bringing a link up and down (R203, R204): the binding of its two rings between setters of its own fields. -/

namespace Sys2Proof.Machine

/-! ### Bindings within a larger footprint -/

section Bindings

variable {f : Footprint} (s : State)

/-- A binding claims at most the array it names. -/
theorem rbBind_changesOnly_of_claims (p : RbPort) (b : Option Ref) (n : Nat) (hring : p ∈ f.rings)
    (hclaims : ∀ r ∈ if n = 0 then [] else b.toList, r ∈ f.claims) : ChangesOnly f s (rbBind p b n s) := by
  refine (claim_changesOnly s p _ fun r hr => hclaims r ?_).trans (setRb_changesOnly _ p _ hring)
  obtain ⟨h0, hb⟩ := Rb.bound_backing_eq_some.1 hr
  simp [h0, hb]

theorem csBind_changesOnly_of_claims (c : CsPort) (b : Option Ref) (n : Nat) (hring : .inner c ∈ f.rings)
    (hlock : c ∈ f.lockouts) (hclaims : ∀ r ∈ if n = 0 then [] else b.toList, r ∈ f.claims) :
    ChangesOnly f s (csBind c b n s) :=
  (rbBind_changesOnly_of_claims s _ b n hring hclaims).trans (setLockout_changesOnly _ c 1 hlock)

theorem csBind_sameWorld (c : CsPort) (b : Option Ref) (n : Nat) : SameWorld [] s (csBind c b n s) :=
  (rbBind_sameWorld s _ b n).trans (setLockout_sameWorld _ c 1)

theorem rbClear_changesOnly (p : RbPort) (hring : p ∈ f.rings) : ChangesOnly f s (rbClear p s) :=
  setRb_changesOnly s p _ hring

theorem csClear_changesOnly (c : CsPort) (hring : .inner c ∈ f.rings) (hlock : c ∈ f.lockouts) :
    ChangesOnly f s (csClear c s) :=
  (rbClear_changesOnly s _ hring).trans (setLockout_changesOnly _ c 1 hlock)

theorem rbClear_sameWorld (p : RbPort) : SameWorld [] s (rbClear p s) := setRb_sameWorld s p _

theorem csClear_sameWorld (c : CsPort) : SameWorld [] s (csClear c s) :=
  (rbClear_sameWorld s _).trans (setLockout_sameWorld _ c 1)

/-- Binding an array that no other RB has leaves the free contents as they are. -/
theorem rbBind_of_free (p : RbPort) (b : Option Ref) (n : Nat)
    (h : ∀ q r, q ≠ p → n ≠ 0 → b = some r → (s.rb q).backing ≠ some r) : rbBind p b n s = s.setRb p (Rb.bound b n) := by
  have hself : s.claim p (Rb.bound b n).backing = s := claim_eq_self s p _ fun q r hq hr => by
    obtain ⟨h0, hb⟩ := Rb.bound_backing_eq_some.1 hr
    exact h q r hq h0 hb
  rw [rbBind, hself]

@[simp] theorem rbBind_rb (p : RbPort) (b : Option Ref) (n : Nat) (q : RbPort) :
    (rbBind p b n s).rb q = if q = p then Rb.bound b n else s.rb q := by simp [rbBind]

end Bindings

/-! ### `DLC.INIT` -/

section Init

variable (k : LinkId) (config : PeriphConfig) (tb : Option Ref) (tc : Nat) (rb : Option Ref) (rc : Nat) (s : State)

/-- `linkUp` in the order of R203: program, bind, arm, enable. -/
theorem linkUp_eq : linkUp k config tb tc rb rc s
    = (((csBind (.rx k) rb rc (rbBind (.tx k) tb tc (s.emit (.cfgProgram k config)))).setErrEn k config.errEn).setRxie k
        true).setStatus k { txClass := .none, rxClass := .none, lastError := .none, enabled := true } := rfl

theorem linkUp_changesOnly :
    ChangesOnly { rings := [.tx k, .inner (.rx k)], lockouts := [.rx k], rxie := [k], status := [k], errEn := [k]
                  claims := (if tc = 0 then [] else tb.toList) ++ (if rc = 0 then [] else rb.toList) } s
      (linkUp k config tb tc rb rc s) := by
  rw [linkUp_eq]
  refine ((((emit_changesOnly s _).trans (rbBind_changesOnly_of_claims _ _ tb tc ?_ ?_)).trans
    (csBind_changesOnly_of_claims _ _ rb rc ?_ ?_ ?_)).trans (setErrEn_changesOnly _ k _ ?_)).trans
    (setRxie_changesOnly _ k _ ?_) |>.trans (setStatus_changesOnly _ k _ ?_)
  case refine_2 => exact fun r hr => List.mem_append_left _ hr
  case refine_5 => exact fun r hr => List.mem_append_right _ hr
  all_goals simp

theorem linkUp_sameWorld : SameWorld [.cfgProgram k config] s (linkUp k config tb tc rb rc s) :=
  (((((emit_sameWorld s _).trans (rbBind_sameWorld _ _ tb tc)).trans (csBind_sameWorld _ _ rb rc)).trans
    (setErrEn_sameWorld _ k _)).trans (setRxie_sameWorld _ k _)).trans (setStatus_sameWorld _ k _)

/-- Two arrays of the link's own: nothing becomes `any value` (U3). -/
theorem linkUp_of_free (htx : ∀ q r, q ≠ .tx k → tc ≠ 0 → tb = some r → (s.rb q).backing ≠ some r)
    (hrx : ∀ q r, q ≠ .tx k → q ≠ .inner (.rx k) → rc ≠ 0 → rb = some r → (s.rb q).backing ≠ some r)
    (hne : tc ≠ 0 → rc ≠ 0 → tb ≠ rb) :
    (linkUp k config tb tc rb rc s).tainted = s.tainted ∧ (linkUp k config tb tc rb rc s).freeTick = s.freeTick := by
  have htx' := rbBind_of_free (s.emit (.cfgProgram k config)) (.tx k) tb tc htx
  have hrx' := rbBind_of_free (rbBind (.tx k) tb tc (s.emit (.cfgProgram k config))) (.inner (.rx k)) rb rc
    fun q r hq h0 hb => by
      rw [rbBind_rb]
      split
      · intro hbound
        obtain ⟨h0', hb'⟩ := Rb.bound_backing_eq_some.1 hbound
        exact hne h0' h0 (hb'.trans hb.symm)
      · next hq' => exact hrx q r hq' hq h0 hb
  rw [linkUp_eq, csBind, hrx', htx']
  simp

theorem exec_dlcInit_enabled (tc rc : Word32) (h : (s.link k).status.enabled = true) :
    exec (.dlcInit k config tb tc rb rc) s = .next (s.setResult .none) := if_pos h

/-- R112: a capacity without an array. -/
theorem exec_dlcInit_refused (tc rc : Word32) (h : (tc.toNat ≠ 0 ∧ tb = none) ∨ (rc.toNat ≠ 0 ∧ rb = none)) :
    exec (.dlcInit k config tb tc rb rc) s = .next (s.setResult .none) := by
  have hb : ¬ (bindable tb tc && bindable rb rc) = true := by
    rcases h with ⟨h0, rfl⟩ | ⟨h0, rfl⟩ <;> simp [bindable, h0]
  rw [exec, execDlcInit, if_neg hb]
  exact ite_self _

theorem exec_dlcInit_disabled (tc rc : Word32) (h : (s.link k).status.enabled = false) (ht : tc.toNat = 0 ∨ tb ≠ none)
    (hr : rc.toNat = 0 ∨ rb ≠ none) :
    exec (.dlcInit k config tb tc rb rc) s
      = .next ((linkUp k config tb tc.toNat rb rc.toNat s).setResult .none) := by
  have hb : (bindable tb tc && bindable rb rc) = true := by
    simpa [bindable, Option.isSome_iff_ne_none] using And.intro ht hr
  rw [exec, execDlcInit, if_neg (by simp [h]), if_pos hb]
  rfl

end Init

/-- Settles O36: both rings are claimed and bound, the receive ring second, and the rest are setters. -/
theorem dlcInitEnablesTheLink : Obligations.DlcInitEnablesTheLink := by
  intro k config tb rb tc rc s
  refine ⟨exec_dlcInit_enabled k config tb rb s tc rc, exec_dlcInit_refused k config tb rb s tc rc, fun h ht hr =>
    ⟨_, exec_dlcInit_disabled k config tb rb s tc rc h ht hr, rfl, ?_, ?_, ?_, ?_, ?_, ?_, ?_, ?_, ?_⟩⟩
  · simp [linkUp_eq, csBind, Rb.bound]
  · simp [linkUp_eq, csBind, Rb.bound]
  · simp [linkUp_eq, csBind]
  · simp [linkUp_eq]
  · simp [linkUp_eq]
  · simp [linkUp_eq]
  · exact (linkUp_changesOnly k config tb _ rb _ s).trans (setResult_changesOnly _ _)
  · exact (linkUp_sameWorld k config tb _ rb _ s).trans (setResult_sameWorld _ _)
  · exact linkUp_of_free k config tb _ rb _ s

/-! ### `DLC.DEINIT` -/

section Deinit

variable (k : LinkId) (s : State)

/-- `linkDown` in the order of R204: clear, disarm, tear down, unbind, disable. -/
theorem linkDown_eq : linkDown k s
    = (csBind (.rx k) none 0 (rbBind (.tx k) none 0 ((((csClear (.rx k) (rbClear (.tx k) s)).setTxie k false).setRxie k
        false).emit (.cfgTeardown k)))).setEnabled k false := rfl

theorem linkDown_changesOnly :
    ChangesOnly { rings := [.tx k, .inner (.rx k)], lockouts := [.rx k], txie := [k], rxie := [k], status := [k] } s
      (linkDown k s) := by
  rw [linkDown_eq]
  refine (((((rbClear_changesOnly s _ ?_).trans (csClear_changesOnly _ _ ?_ ?_)).trans
    (setTxie_changesOnly _ k _ ?_)).trans (setRxie_changesOnly _ k _ ?_)).trans (emit_changesOnly _ _)).trans
    (rbBind_changesOnly_of_claims _ _ none 0 ?_ ?_) |>.trans (csBind_changesOnly_of_claims _ _ none 0 ?_ ?_ ?_) |>.trans
    (setStatus_changesOnly _ k _ ?_)
  all_goals simp

theorem linkDown_sameWorld : SameWorld [.cfgTeardown k] s (linkDown k s) :=
  (((((((rbClear_sameWorld s _).trans (csClear_sameWorld _ _)).trans (setTxie_sameWorld _ k _)).trans
    (setRxie_sameWorld _ k _)).trans (emit_sameWorld _ _)).trans (rbBind_sameWorld _ _ none 0)).trans
    (csBind_sameWorld _ _ none 0)).trans (setStatus_sameWorld _ k _)

end Deinit

/-- Settles O37: whatever the rings held, the last bindings of R204 leave them unbound. -/
theorem dlcDeinitDisablesTheLink : Obligations.DlcDeinitDisablesTheLink := by
  intro k s
  refine ⟨fun h => if_neg (by simp [h]), fun h =>
    ⟨(linkDown k s).setResult .none, if_pos h, rfl, ?_, ?_, ?_, ?_, ?_, ?_, ?_, ?_⟩⟩
  · simp [linkDown_eq, csBind, Rb.bound]
  · simp [linkDown_eq, csBind, Rb.bound]
  · simp [linkDown_eq, csBind]
  · simp [linkDown_eq, csBind, rbBind]
  · simp [linkDown_eq, csBind, rbBind]
  · simp [linkDown_eq, csBind, rbBind, csClear, rbClear]
  · exact (linkDown_changesOnly k s).trans (setResult_changesOnly _ _)
  · exact (linkDown_sameWorld k s).trans (setResult_sameWorld _ _)

end Sys2Proof.Machine
end

section
/-! O38, O39, O40: the interrupt handler (R206 to R211), a transmit half and a receive half. First what each half comes to, one
equation for each of its cases; then what it leaves to the other half, and its footprint and strobes. -/

namespace Sys2Proof.Machine

/-! ### The transmit half (R207) -/

section Transmit

variable {k : LinkId} {sig : PeriphIn} {s : State}

/-- The byte a send would strobe: the oldest of `tx`. -/
def State.oldestTx (s : State) (k : LinkId) : Byte := BitVec.ofNat 8 (s.readSlot (.tx k) (s.rb (.tx k)).readIndex)

theorem handlerTransmit_idle (h : sig.txReady = false) : handlerTransmit k sig s = s := if_neg (by simp [h])

theorem handlerTransmit_empty (h : sig.txReady = true) (hc : (s.rb (.tx k)).count = 0) :
    handlerTransmit k sig s = (s.setTxClass k .complete).setTxie k false := by
  rw [handlerTransmit, if_pos h, rbGet_empty _ _ hc]

theorem handlerTransmit_send (h : sig.txReady = true) (hc : (s.rb (.tx k)).count ≠ 0) :
    handlerTransmit k sig s
      = ((s.setRb (.tx k) (s.rb (.tx k)).afterGet).emit (.txWr k (s.oldestTx k))).setTxClass k .progressed := by
  rw [handlerTransmit, if_pos h, rbGet_some _ _ hc]
  rfl

/-- The three cases of R207. -/
theorem handlerTransmit_cases (k : LinkId) (sig : PeriphIn) (s : State) :
    handlerTransmit k sig s = s
      ∨ handlerTransmit k sig s = (s.setTxClass k .complete).setTxie k false
      ∨ handlerTransmit k sig s
        = ((s.setRb (.tx k) (s.rb (.tx k)).afterGet).emit (.txWr k (s.oldestTx k))).setTxClass k .progressed := by
  cases h : sig.txReady
  · exact .inl (handlerTransmit_idle h)
  · by_cases hc : (s.rb (.tx k)).count = 0
    · exact .inr (.inl (handlerTransmit_empty h hc))
    · exact .inr (.inr (handlerTransmit_send h hc))

/-- Whether the transmit half strobes a byte. -/
def State.sends (s : State) (k : LinkId) (sig : PeriphIn) : Bool := sig.txReady && (s.rb (.tx k)).count != 0

/-- What the transmit half drives outward. -/
def State.txStrobes (s : State) (k : LinkId) (sig : PeriphIn) : List BusEvent :=
  if s.sends k sig then [.txWr k (s.oldestTx k)] else []

theorem handlerTransmit_changesOnly {f : Footprint} (hring : .tx k ∈ f.rings) (htxie : k ∈ f.txie) (hstatus : k ∈ f.status) :
    ChangesOnly f s (handlerTransmit k sig s) := by
  rcases handlerTransmit_cases k sig s with h | h | h <;> rw [h]
  · exact .refl s
  · exact (setStatus_changesOnly s k _ hstatus).trans (setTxie_changesOnly _ k false htxie)
  · exact ((setRb_changesOnly s _ _ hring).trans (emit_changesOnly _ _)).trans (setStatus_changesOnly _ k _ hstatus)

theorem handlerTransmit_sameWorld : SameWorld (s.txStrobes k sig) s (handlerTransmit k sig s) := by
  unfold State.txStrobes State.sends
  cases h : sig.txReady
  · rw [handlerTransmit_idle h]
    exact .refl s
  · by_cases hc : (s.rb (.tx k)).count = 0
    · rw [handlerTransmit_empty h hc, if_neg (by simp [hc])]
      exact (setStatus_sameWorld s k _).trans (setTxie_sameWorld _ k false)
    · rw [handlerTransmit_send h hc, if_pos (by simp [hc])]
      exact ((setRb_sameWorld s _ _).trans (emit_sameWorld _ _)).trans (setStatus_sameWorld _ k _)

/-- What the receive half reads and writes. -/
structure SameReceiveSide (k : LinkId) (s t : State) : Prop where
  ring : t.rb (.inner (.rx k)) = s.rb (.inner (.rx k))
  errEn : (t.link k).errEn = (s.link k).errEn
  rxie : (t.link k).rxie = (s.link k).rxie
  rxClass : (t.link k).status.rxClass = (s.link k).status.rxClass
  lastError : (t.link k).status.lastError = (s.link k).status.lastError
  mem : t.mem = s.mem
  wide : t.wide = s.wide
  tainted : t.tainted = s.tainted
  freeTick : t.freeTick = s.freeTick
  params : t.params = s.params

theorem handlerTransmit_receiveSide (k : LinkId) (sig : PeriphIn) (s : State) :
    SameReceiveSide k s (handlerTransmit k sig s) := by
  rcases handlerTransmit_cases k sig s with h | h | h <;> rw [h] <;> constructor <;> simp

theorem SameReceiveSide.unread {t : State} (h : SameReceiveSide k s t) : t.unread (.rx k) = s.unread (.rx k) :=
  State.unread_congr _ h.ring h.mem h.wide h.tainted h.freeTick h.params

theorem SameReceiveSide.untainted {t : State} (h : SameReceiveSide k s t) (hu : s.Untainted (.inner (.rx k))) :
    t.Untainted (.inner (.rx k)) := by
  intro r hr
  rw [h.ring] at hr
  rw [h.tainted]
  exact hu r hr

end Transmit

/-! ### The receive half (R208 to R210) -/

section Receive

variable {k : LinkId} {sig : PeriphIn} {s : State}

/-- After the byte `b` was taken from the peripheral and stored (R210). -/
def State.received (s : State) (k : LinkId) (b : Byte) : State :=
  ((s.emit (.rxRd k)).writeSlot (.inner (.rx k)) (s.rb (.inner (.rx k))).writeIndex b.toNat).setRb (.inner (.rx k))
    (s.rb (.inner (.rx k))).afterPut

theorem handlerReceive_error (h : ((s.link k).errEn && sig.anyErr) = true) :
    handlerReceive k sig s = (s.setLastError k sig.classify).setRxClass k .error := if_pos h

theorem handlerReceive_idle (h : ((s.link k).errEn && sig.anyErr) = false) (hr : sig.rxReady = false) :
    handlerReceive k sig s = s := by
  rw [handlerReceive, if_neg (by simp [h]), if_neg (by simp [hr])]

theorem handlerReceive_full (h : ((s.link k).errEn && sig.anyErr) = false) (hr : sig.rxReady = true)
    (hf : (s.rb (.inner (.rx k))).count = (s.rb (.inner (.rx k))).capacity) :
    handlerReceive k sig s = (s.setRxClass k .bufferFull).setRxie k false := by
  rw [handlerReceive, if_neg (by simp [h]), if_pos hr, if_pos (by simpa [Rb.isFull] using hf)]

theorem handlerReceive_room (h : ((s.link k).errEn && sig.anyErr) = false) (hr : sig.rxReady = true)
    (hf : (s.rb (.inner (.rx k))).count ≠ (s.rb (.inner (.rx k))).capacity) :
    handlerReceive k sig s = (s.received k sig.rxData).setRxClass k .progressed := by
  have hf' : ((s.emit (.rxRd k)).rb (.inner (.rx k))).isFull = false := by simpa [Rb.isFull] using hf
  rw [handlerReceive, if_neg (by simp [h]), if_pos hr, if_neg (by simpa using hf'), csPut, rbPut_room _ _ _ hf']
  rfl

/-- Only an error that is reported is recorded (R211). -/
theorem handlerReceive_lastError (h : ((s.link k).errEn && sig.anyErr) = false) :
    ((handlerReceive k sig s).link k).status.lastError = (s.link k).status.lastError := by
  cases hr : sig.rxReady
  · rw [handlerReceive_idle h hr]
  · by_cases hf : (s.rb (.inner (.rx k))).count = (s.rb (.inner (.rx k))).capacity
    · simp [handlerReceive_full h hr hf]
    · simp [handlerReceive_room h hr hf, State.received]

/-- Whether the receive half takes a byte. -/
def State.takes (s : State) (k : LinkId) (sig : PeriphIn) : Bool :=
  !((s.link k).errEn && sig.anyErr) && sig.rxReady
    && (s.rb (.inner (.rx k))).count != (s.rb (.inner (.rx k))).capacity

/-- The cases of R208 to R210: a byte is taken, or none is and at most the status and `rxie` change. -/
theorem handlerReceive_cases (k : LinkId) (sig : PeriphIn) (s : State) :
    (s.takes k sig = true ∧ handlerReceive k sig s = (s.received k sig.rxData).setRxClass k .progressed)
      ∨ (s.takes k sig = false
        ∧ (handlerReceive k sig s = (s.setLastError k sig.classify).setRxClass k .error
          ∨ handlerReceive k sig s = s ∨ handlerReceive k sig s = (s.setRxClass k .bufferFull).setRxie k false)) := by
  unfold State.takes
  cases he : (s.link k).errEn && sig.anyErr
  · cases hr : sig.rxReady
    · exact .inr ⟨rfl, .inr (.inl (handlerReceive_idle he hr))⟩
    · by_cases hf : (s.rb (.inner (.rx k))).count = (s.rb (.inner (.rx k))).capacity
      · exact .inr ⟨by simp [hf], .inr (.inr (handlerReceive_full he hr hf))⟩
      · exact .inl ⟨by simp [hf], handlerReceive_room he hr hf⟩
  · exact .inr ⟨rfl, .inl (handlerReceive_error he)⟩

/-- What the receive half drives outward. -/
def State.rxStrobes (s : State) (k : LinkId) (sig : PeriphIn) : List BusEvent :=
  if s.takes k sig then [.rxRd k] else []

theorem received_changesOnly {f : Footprint} (b : Byte) (hring : .inner (.rx k) ∈ f.rings)
    (hkey : ∀ r, (s.rb (.inner (.rx k))).backing = some r → slotAddress r (s.rb (.inner (.rx k))).writeIndex ∈ f.bytes) :
    ChangesOnly f s (s.received k b) :=
  ((emit_changesOnly s (.rxRd k)).trans (writeSlot_changesOnly (s.emit (.rxRd k)) (.inner (.rx k)) _ _
    (fun r hr _ => hkey r hr) fun _ _ hw => by simp at hw)).trans (setRb_changesOnly _ _ _ hring)

theorem received_sameWorld (b : Byte) : SameWorld [.rxRd k] s (s.received k b) :=
  ((emit_sameWorld s _).trans (writeSlot_sameWorld _ _ _ _)).trans (setRb_sameWorld _ _ _)

theorem handlerReceive_changesOnly {f : Footprint} (hring : .inner (.rx k) ∈ f.rings) (hrxie : k ∈ f.rxie)
    (hstatus : k ∈ f.status)
    (hkey : s.takes k sig = true → ∀ r, (s.rb (.inner (.rx k))).backing = some r →
      slotAddress r (s.rb (.inner (.rx k))).writeIndex ∈ f.bytes) :
    ChangesOnly f s (handlerReceive k sig s) := by
  rcases handlerReceive_cases k sig s with ⟨ht, h⟩ | ⟨-, h | h | h⟩ <;> rw [h]
  · exact (received_changesOnly _ hring (hkey ht)).trans (setStatus_changesOnly _ k _ hstatus)
  · exact (setStatus_changesOnly s k _ hstatus).trans (setStatus_changesOnly _ k _ hstatus)
  · exact .refl s
  · exact (setStatus_changesOnly s k _ hstatus).trans (setRxie_changesOnly _ k false hrxie)

theorem handlerReceive_sameWorld : SameWorld (s.rxStrobes k sig) s (handlerReceive k sig s) := by
  unfold State.rxStrobes
  rcases handlerReceive_cases k sig s with ⟨ht, h⟩ | ⟨ht, h | h | h⟩ <;> rw [ht, h]
  · exact (received_sameWorld _).trans (setStatus_sameWorld _ k _)
  · exact (setStatus_sameWorld s k _).trans (setStatus_sameWorld _ k _)
  · exact .refl s
  · exact (setStatus_sameWorld s k _).trans (setRxie_sameWorld _ k false)

/-- What the transmit half writes. -/
structure SameTransmitSide (k : LinkId) (s t : State) : Prop where
  ring : t.rb (.tx k) = s.rb (.tx k)
  txie : (t.link k).txie = (s.link k).txie
  txClass : (t.link k).status.txClass = (s.link k).status.txClass
  enabled : (t.link k).status.enabled = (s.link k).status.enabled

theorem handlerReceive_transmitSide (k : LinkId) (sig : PeriphIn) (s : State) :
    SameTransmitSide k s (handlerReceive k sig s) := by
  rcases handlerReceive_cases k sig s with ⟨-, h⟩ | ⟨-, h | h | h⟩ <;> rw [h] <;> constructor <;> simp [State.received]

theorem State.txWr_not_mem_rxStrobes (b : Byte) : .txWr k b ∉ s.rxStrobes k sig := by
  unfold State.rxStrobes
  split <;> simp

theorem State.rxRd_not_mem_txStrobes : .rxRd k ∉ s.txStrobes k sig := by
  unfold State.txStrobes
  split <;> simp

@[simp] theorem State.setRxClass_unread (c : RxClass) (d : CsPort) : (s.setRxClass k c).unread d = s.unread d :=
  State.unread_congr d (by simp) (by simp) (by simp) (by simp) (by simp) (by simp)

theorem received_unread (b : Byte) (hf : (s.rb (.inner (.rx k))).count ≠ (s.rb (.inner (.rx k))).capacity)
    (hok : (s.rb (.inner (.rx k))).Ok) (hu : s.Untainted (.inner (.rx k))) (hm : MemoryOk s) :
    (s.received k b).unread (.rx k) = s.unread (.rx k) ++ [b] :=
  State.unread_put (.rx k) b (s.emit (.rxRd k)) (by simpa [Rb.isFull] using hf) hok hu hm

theorem received_read (b : Byte) (hok : (s.rb (.inner (.rx k))).Ok) (a : Nat)
    (ha : a ∉ s.nextKeys (.inner (.rx k)) 1) : (s.received k b).mem.read a = s.mem.read a := by
  refine (received_changesOnly (f := { rings := [.inner (.rx k)], bytes := s.nextKeys (.inner (.rx k)) 1 }) b
    (List.mem_singleton_self _) fun r hr => ?_).bytes a ha
  rw [State.nextKeys_one s _ hok r hr]
  exact List.mem_singleton_self _

end Receive

/-! ### The whole handler -/

/-- Presenting a result drives nothing outward. -/
theorem SameWorld.setResult {out : List BusEvent} {s t : State} (h : SameWorld out s t) (r : Result) :
    SameWorld out s (t.setResult r) := by
  simpa using h.trans (setResult_sameWorld t r)

section Handler

variable (k : LinkId) (s : State)

/-- The state between the two halves. -/
def State.halfway (s : State) (k : LinkId) : State := handlerTransmit k (s.sample k) s

theorem exec_dlcOnInterrupt :
    exec (.dlcOnInterrupt k) s = .next ((handlerReceive k (s.sample k) (s.halfway k)).setResult .none) := rfl

/-- The transmit half does not decide whether a byte is taken. -/
theorem halfway_takes : (s.halfway k).takes k (s.sample k) = s.takes k (s.sample k) := by
  have hrx := handlerTransmit_receiveSide k (s.sample k) s
  unfold State.takes State.halfway
  rw [hrx.errEn, hrx.ring]

theorem halfway_rxStrobes : (s.halfway k).rxStrobes k (s.sample k) = s.rxStrobes k (s.sample k) := by
  rw [State.rxStrobes, halfway_takes, State.rxStrobes]

theorem takeInterrupt_changesOnly {f : Footprint} (htx : .tx k ∈ f.rings) (hrx : .inner (.rx k) ∈ f.rings)
    (htxie : k ∈ f.txie) (hrxie : k ∈ f.rxie) (hstatus : k ∈ f.status)
    (hkey : s.takes k (s.sample k) = true → ∀ r, (s.rb (.inner (.rx k))).backing = some r →
      slotAddress r (s.rb (.inner (.rx k))).writeIndex ∈ f.bytes) :
    ChangesOnly f s (takeInterrupt k s) := by
  refine (handlerTransmit_changesOnly htx htxie hstatus).trans (handlerReceive_changesOnly hrx hrxie hstatus ?_)
  rw [← State.halfway, halfway_takes, State.halfway, (handlerTransmit_receiveSide k (s.sample k) s).ring]
  exact hkey

theorem takeInterrupt_sameWorld :
    SameWorld (s.txStrobes k (s.sample k) ++ s.rxStrobes k (s.sample k)) s (takeInterrupt k s) := by
  rw [← halfway_rxStrobes]
  exact handlerTransmit_sameWorld.trans handlerReceive_sameWorld

theorem takeInterrupt_trace :
    (takeInterrupt k s).trace = s.trace ++ (s.txStrobes k (s.sample k) ++ s.rxStrobes k (s.sample k)) :=
  (takeInterrupt_sameWorld k s).trace

variable {k s}

theorem txWr_not_driven (h : s.sends k (s.sample k) = false) (b : Byte) :
    .txWr k b ∉ (takeInterrupt k s).trace.drop s.trace.length := by
  have hnone : s.txStrobes k (s.sample k) = [] := by simp [State.txStrobes, h]
  rw [takeInterrupt_trace, List.drop_left, hnone, List.nil_append]
  exact State.txWr_not_mem_rxStrobes b

theorem rxRd_not_driven (h : s.takes k (s.sample k) = false) : .rxRd k ∉ (takeInterrupt k s).trace.drop s.trace.length := by
  have hnone : s.rxStrobes k (s.sample k) = [] := by simp [State.rxStrobes, h]
  rw [takeInterrupt_trace, List.drop_left, hnone, List.append_nil]
  exact State.rxRd_not_mem_txStrobes

end Handler

/-- Settles O40: the footprints and strobes of the two halves, one after the other. -/
theorem handlerTouchesItsLinkOnly : Obligations.HandlerTouchesItsLinkOnly := by
  intro k s sends takes hok hsends htakes
  obtain rfl : sends = s.sends k (s.sample k) := hsends
  obtain rfl : takes = s.takes k (s.sample k) := htakes
  refine ⟨_, exec_dlcOnInterrupt k s, ?_, ?_⟩
  · refine (takeInterrupt_changesOnly k s ?_ ?_ ?_ ?_ ?_ fun ht r hr => ?_).trans (setResult_changesOnly _ _)
    case refine_6 =>
      rw [State.nextKeys_one s _ (hok _) r hr]
      rw [if_pos ht]
      exact List.mem_singleton_self _
    all_goals simp
  · exact (takeInterrupt_sameWorld k s).setResult .none

/-- Settles O38: the transmit half by its three cases; the receive half leaves that side alone and strobes no `tx_wr`. -/
theorem handlerTransmitHalf : Obligations.HandlerTransmitHalf := by
  intro k s _
  have hkept := handlerReceive_transmitSide k (s.sample k) (s.halfway k)
  refine ⟨_, exec_dlcOnInterrupt k s, rfl, fun h => ?_, fun h hc => ?_, fun h hc => ?_, ?_⟩
  · have hhalf : s.halfway k = s := handlerTransmit_idle h
    refine ⟨?_, ?_, ?_, txWr_not_driven (by simp [State.sends, h])⟩
    · simpa [hhalf] using hkept.ring
    · simpa [hhalf] using hkept.txie
    · simpa [hhalf] using hkept.txClass
  · have hhalf : s.halfway k = _ := handlerTransmit_empty h hc
    refine ⟨?_, ?_, ?_, txWr_not_driven (by simp [State.sends, hc])⟩
    · simpa [hhalf] using hkept.ring
    · simpa [hhalf] using hkept.txie
    · simpa [hhalf] using hkept.txClass
  · have hhalf : s.halfway k = _ := handlerTransmit_send h hc
    have hsends : s.txStrobes k (s.sample k) = [.txWr k (s.oldestTx k)] := by simp [State.txStrobes, State.sends, h, hc]
    refine ⟨?_, ?_, ?_, s.rxStrobes k (s.sample k), ?_, State.txWr_not_mem_rxStrobes⟩
    · simpa [hhalf, Rb.afterGet] using hkept.ring
    · simpa [hhalf] using hkept.txie
    · simpa [hhalf] using hkept.txClass
    · exact (takeInterrupt_trace k s).trans (by rw [hsends]; rfl)
  · have henabled := hkept.enabled
    rcases handlerTransmit_cases k (s.sample k) s with h | h | h <;> simpa [State.halfway, h] using henabled

/-- Settles O39: the receive half by its four cases, each from the state between the halves, which has the receive side of the
state before. -/
theorem handlerReceiveHalf : Obligations.HandlerReceiveHalf := by
  intro k s hok
  have hkept : SameReceiveSide k s (s.halfway k) := handlerTransmit_receiveSide k (s.sample k) s
  have hcond : (((s.halfway k).link k).errEn && (s.sample k).anyErr) = ((s.link k).errEn && (s.sample k).anyErr) := by
    rw [hkept.errEn]
  have hread (a : Nat) : (s.halfway k).mem.read a = s.mem.read a := by rw [hkept.mem]
  refine ⟨_, exec_dlcOnInterrupt k s, rfl, fun hen ha => ?_, fun he =>
    ⟨(handlerReceive_lastError (hcond.trans he)).trans hkept.lastError, fun hr => ?_, fun hr hf => ?_, fun hr hf => ?_⟩⟩
  · have herr : ((s.link k).errEn && (s.sample k).anyErr) = true := by rw [hen, ha]; rfl
    have hhalf := handlerReceive_error (hcond.trans herr)
    refine ⟨?_, ?_, ?_, ?_, rxRd_not_driven (by simp [State.takes, herr]), fun a => ?_⟩
    · simpa [hhalf] using hkept.ring
    · simpa [hhalf] using hkept.rxie
    · simp [hhalf]
    · simp [hhalf, PeriphIn.classify]
    · simpa [hhalf] using hread a
  · have hhalf := handlerReceive_idle (hcond.trans he) hr
    refine ⟨?_, ?_, ?_, rxRd_not_driven (by simp [State.takes, hr]), fun a => ?_⟩
    · simpa [hhalf] using hkept.ring
    · simpa [hhalf] using hkept.rxie
    · simpa [hhalf] using hkept.rxClass
    · simpa [hhalf] using hread a
  · have hhalf := handlerReceive_full (hcond.trans he) hr (by rwa [hkept.ring])
    refine ⟨?_, ?_, ?_, rxRd_not_driven (by simp [State.takes, hf]), fun a => ?_⟩
    · simpa [hhalf] using hkept.ring
    · simp [hhalf]
    · simp [hhalf]
    · simpa [hhalf] using hread a
  · have hok' : ((s.halfway k).rb (.inner (.rx k))).Ok := by rwa [hkept.ring]
    have hf' : ((s.halfway k).rb (.inner (.rx k))).count ≠ ((s.halfway k).rb (.inner (.rx k))).capacity := by
      rwa [hkept.ring]
    have hhalf := handlerReceive_room (hcond.trans he) hr hf'
    have hstrobe : s.rxStrobes k (s.sample k) = [.rxRd k] := by simp [State.rxStrobes, State.takes, he, hr, hf]
    refine ⟨?_, ?_, ?_, ⟨s.txStrobes k (s.sample k), ?_, State.rxRd_not_mem_txStrobes⟩, fun hu hm => ?_, fun a ha => ?_⟩
    · simp [hhalf, State.received, hkept.ring, Rb.afterPut, Rb.advancedBy]
    · simpa [hhalf, State.received] using hkept.rxie
    · simp [hhalf]
    · exact (takeInterrupt_trace k s).trans (by rw [hstrobe, List.append_assoc])
    · rw [State.setResult_unread, hhalf, State.setRxClass_unread,
        received_unread _ hf' hok' (hkept.untainted hu) (hm.congr hkept.mem hkept.wide), hkept.unread]
    · have ha' : a ∉ (s.halfway k).nextKeys (.inner (.rx k)) 1 := by
        rwa [State.nextKeys, hkept.ring]
      rw [State.setResult_mem, hhalf, State.setRxClass_mem, received_read _ hok' a ha', hread]

end Sys2Proof.Machine
end

section
/-! O41, O44: what transmits queue (R212, R214 to R216). `Queued` (Safety.lean) of one byte is what a put under the gate did; that
of a packet is put together byte by byte. -/

namespace Sys2Proof.Machine

/-! ### Queues and footprints -/

/-- The values of an RB are those of its ring in the memories. -/
theorem State.contents_congr {s t : State} (p : RbPort) (hrb : t.rb p = s.rb p) (hmem : t.mem = s.mem)
    (hwide : t.wide = s.wide) (htaint : t.tainted = s.tainted) (htick : t.freeTick = s.freeTick)
    (hparams : t.params = s.params) : t.contents p = s.contents p := by
  have hread (i : Nat) : t.readSlot p i = s.readSlot p i :=
    State.readSlot_congr p i (by rw [hrb]) hmem hwide htaint htick hparams
  simp only [State.contents, hread, hrb]

@[simp] theorem gateDisable_contents (g : Gate) (s : State) (p : RbPort) : (gateDisable g s).contents p = s.contents p := by
  cases g <;> exact State.contents_congr p (by simp [gateDisable]) (by simp [gateDisable]) (by simp [gateDisable])
    (by simp [gateDisable]) (by simp [gateDisable]) (by simp [gateDisable])

@[simp] theorem gateEnable_contents (g : Gate) (s : State) (p : RbPort) : (gateEnable g s).contents p = s.contents p := by
  cases g <;> exact State.contents_congr p (by simp [gateEnable]) (by simp [gateEnable]) (by simp [gateEnable])
    (by simp [gateEnable]) (by simp [gateEnable]) (by simp [gateEnable])

/-- More places of the byte memory. -/
theorem ChangesOnly.widen {f : Footprint} {s t : State} (h : ChangesOnly f s t) {keys : List Nat} (hsub : f.bytes ⊆ keys) :
    ChangesOnly { f with bytes := keys } s t :=
  { h with
    bytes := fun a ha => h.bytes a fun hm => ha (hsub hm)
    freeTick := fun hb => h.freeTick (List.eq_nil_of_subset_nil (hb ▸ hsub)) }

/-- After one put the next `n` puts go to the slots after its own. -/
theorem nextKeys_after_put {s u : State} {p : RbPort} (h : u.rb p = (s.rb p).afterPut) (n : Nat) :
    u.nextKeys p n ⊆ s.nextKeys p (n + 1) := by
  intro a
  rw [State.nextKeys, State.nextKeys, h]
  cases hb : (s.rb p).backing with
  | none => simp [Rb.afterPut, hb]
  | some r =>
    simp only [Rb.afterPut, hb, List.mem_map, List.mem_range, Nat.mod_add_mod]
    rintro ⟨i, hi, rfl⟩
    exact ⟨i + 1, by omega, by rw [Nat.add_assoc, Nat.add_comm 1 i]⟩

theorem nextKeys_one_subset (s : State) (p : RbPort) (n : Nat) : s.nextKeys p 1 ⊆ s.nextKeys p (n + 1) := by
  intro a
  unfold State.nextKeys
  split
  · exact id
  · simp only [List.mem_map, List.mem_range]
    rintro ⟨i, hi, rfl⟩
    exact ⟨i, by omega, rfl⟩

/-! ### One byte -/

section Byte

variable {k : LinkId} {s : State}

/-- After `b` was queued under the gate (R212). -/
def State.transmitted (s : State) (k : LinkId) (b : Byte) : State :=
  gateEnable (.txGate k) (((gateDisable (.txGate k) s).writeSlot (.tx k) (s.rb (.tx k)).writeIndex b.toNat).setRb (.tx k)
    (s.rb (.tx k)).afterPut)

theorem dlcTransmit_room (he : (s.link k).status.enabled = true)
    (hroom : (s.rb (.tx k)).count ≠ (s.rb (.tx k)).capacity) (b : Byte) :
    dlcTransmit k b s = (true, s.transmitted k b) := by
  have hf : ((gateDisable (.txGate k) s).rb (.tx k)).isFull = false := by simpa [Rb.isFull] using hroom
  rw [dlcTransmit, if_neg (by simpa [he] using hf), underGate, rbPut_room _ _ _ hf, gateDisable_rb]
  rfl

@[simp] theorem transmitted_rb (b : Byte) : (s.transmitted k b).rb (.tx k) = (s.rb (.tx k)).afterPut := by
  simp [State.transmitted]

theorem transmitted_contents (b : Byte) (hroom : (s.rb (.tx k)).count ≠ (s.rb (.tx k)).capacity)
    (hok : (s.rb (.tx k)).Ok) (hu : s.Untainted (.tx k)) (hm : MemoryOk s) :
    (s.transmitted k b).contents (.tx k) = s.contents (.tx k) ++ [b.toNat] := by
  have hm' := gateDisable_memoryOk s (.txGate k) hm
  have hput := State.contents_put (gateDisable (.txGate k) s) (.tx k) b.toNat (by simpa [Rb.isFull] using hroom)
    (by rwa [gateDisable_rb]) (gateDisable_untainted s _ hu) hm'.1 hm'.2 b.isLt
  simpa [State.transmitted] using hput

theorem MemoryOk.transmitted (hm : MemoryOk s) (k : LinkId) (b : Byte) : MemoryOk (s.transmitted k b) := by
  have hw := (gateDisable_memoryOk s (.txGate k) hm).writeSlot (.tx k) (s.rb (.tx k)).writeIndex b.toNat
  exact hw.congr (by simp [State.transmitted, gateEnable]) (by simp [State.transmitted, gateEnable])

theorem transmitted_frame (b : Byte) (hok : (s.rb (.tx k)).Ok) (r : Result) :
    ChangesOnly { rings := [.tx k], txie := [k], bytes := s.nextKeys (.tx k) 1 } s ((s.transmitted k b).setResult r)
      ∧ SameWorld [] s ((s.transmitted k b).setResult r)
      ∧ GateReleased (.txGate k) ((s.transmitted k b).setResult r) := by
  refine gated_frame rfl rfl ?_ ((writeSlot_sameWorld _ _ _ _).trans (setRb_sameWorld _ _ _)) r
  refine (writeSlot_changesOnly _ _ _ _ (fun a ha _ => ?_) fun _ _ hw => by simp at hw).trans
    (setRb_changesOnly _ _ _ (List.mem_singleton_self _))
  rw [gateDisable_rb] at ha
  simp [State.nextKeys_one s _ hok a ha]

/-- A byte queued is a packet of one. -/
theorem transmitted_queued (b : Byte) (hroom : (s.rb (.tx k)).count ≠ (s.rb (.tx k)).capacity) (hok : (s.rb (.tx k)).Ok)
    (r : Result) : Queued k [b] 1 s ((s.transmitted k b).setResult r) := by
  obtain ⟨honly, hworld, -, hreleased⟩ := transmitted_frame b hok r
  exact
    { ring := by simp [Rb.afterPut]
      contents := fun hu hm => by
        rw [State.contents_setResult, transmitted_contents b hroom hok hu hm]
        rfl
      txie := by simpa [gateTxLinks] using hreleased
      only := honly
      world := hworld }

end Byte

/-- Settles O41: with room the unit is a put of the byte under the gate of the link. -/
theorem dlcTransmitQueuesTheByte : Obligations.DlcTransmitQueuesTheByte := by
  intro k b s hok
  refine ⟨fun h => ?_, fun he hroom => ⟨_, ?_, ?_, transmitted_queued b hroom hok (.ok true)⟩⟩
  · rw [exec_dlcTransmit, dlcTransmit_fails h]
    rfl
  · rw [exec_dlcTransmit, dlcTransmit_room he hroom]
  · rfl

/-! ### A packet -/

theorem transmitAll_cons_false {k : LinkId} {first : Bool} {b : Byte} {s u : State} (data : List Byte)
    (h : dlcTransmit k b (if first then s else point s) = (false, u)) : transmitAll k first (b :: data) s = (0, u) := by
  simp only [transmitAll, h]
  rfl

theorem transmitAll_cons_true {k : LinkId} {first : Bool} {b : Byte} {s u : State} (data : List Byte)
    (h : dlcTransmit k b (if first then s else point s) = (true, u)) :
    transmitAll k first (b :: data) s = ((transmitAll k false data u).1 + 1, (transmitAll k false data u).2) := by
  simp only [transmitAll, h]
  rfl

section Packet

variable {k : LinkId} {data : List Byte} {n : Nat} {s t u : State}

theorem Queued.refl (k : LinkId) (data : List Byte) (s : State) : Queued k data 0 s s where
  ring := by simp
  contents := by simp
  txie := (if_pos rfl).symm
  only := .refl s
  world := .refl s

theorem Queued.setResult (h : Queued k data n s t) (r : Result) : Queued k data n s (t.setResult r) where
  ring := by rw [State.setResult_rb]; exact h.ring
  contents hu hm := by rw [State.contents_setResult]; exact h.contents hu hm
  txie := by rw [State.setResult_link]; exact h.txie
  only := h.only.trans (setResult_changesOnly t r)
  world := h.world.setResult r

/-- A byte, then the rest of its packet. -/
theorem Queued.cons {b : Byte} (hok : (s.rb (.tx k)).Ok) (hroom : (s.rb (.tx k)).count ≠ (s.rb (.tx k)).capacity)
    (h : Queued k data n (s.transmitted k b) t) : Queued k (b :: data) (n + 1) s t := by
  have hb : Queued k [b] 1 s (s.transmitted k b) := transmitted_queued b hroom hok (s.transmitted k b).result
  refine ⟨?_, fun hu hm => ?_, ?_, ?_, by simpa using hb.world.trans h.world⟩
  · rw [h.ring, transmitted_rb, if_neg (Nat.succ_ne_zero n)]
    by_cases hn : n = 0
    · simp [hn, Rb.afterPut]
    · simp [hn, Rb.afterPut, Nat.mod_add_mod, Nat.add_assoc, Nat.add_comm 1 n]
  · have hu' : (s.transmitted k b).Untainted (.tx k) := by
      intro r hr
      rw [hb.only.tainted r List.not_mem_nil]
      rw [transmitted_rb] at hr
      exact hu r hr
    rw [h.contents hu' (hm.transmitted k b), hb.contents hu hm]
    simp
  · rw [h.txie, hb.txie]
    simp
  · exact (hb.only.widen (nextKeys_one_subset s _ n)).trans (h.only.widen (nextKeys_after_put (transmitted_rb b) n))

/-- How many bytes of a packet `tx` has room for. -/
def State.fitting (s : State) (k : LinkId) (data : List Byte) : Nat :=
  min data.length ((s.rb (.tx k)).capacity - (s.rb (.tx k)).count)

theorem fitting_cons (b : Byte) (hok : (s.rb (.tx k)).Ok) (hroom : (s.rb (.tx k)).count ≠ (s.rb (.tx k)).capacity) :
    s.fitting k (b :: data) = (s.transmitted k b).fitting k data + 1 := by
  have hle := hok.2.1
  simp only [State.fitting, transmitted_rb, Rb.afterPut, List.length_cons]
  omega

/-- With an empty agenda nobody steps at a point. -/
theorem point_quiet (h : s.agenda = []) : point s = s := by
  rw [point, pointExcluding, h, serve, ← h, State.setAgenda_self]

/-- By induction on the packet: with room the first byte is queued and the rest follows, without room nothing is. -/
theorem transmitAll_quiet (first : Bool) (data : List Byte) (s : State) (he : (s.link k).status.enabled = true)
    (hok : (s.rb (.tx k)).Ok) (ha : s.agenda = []) :
    (transmitAll k first data s).1 = s.fitting k data ∧ Queued k data (s.fitting k data) s (transmitAll k first data s).2 := by
  induction data generalizing first s with
  | nil =>
    have h0 : s.fitting k [] = 0 := Nat.zero_min _
    rw [h0]
    exact ⟨rfl, .refl k [] s⟩
  | cons b data ih =>
    have hstart : (if first then s else point s) = s := by rw [point_quiet ha, ite_self]
    by_cases hroom : (s.rb (.tx k)).count = (s.rb (.tx k)).capacity
    · have h0 : s.fitting k (b :: data) = 0 := by simp [State.fitting, hroom]
      rw [h0, transmitAll_cons_false data (by rw [hstart]; exact dlcTransmit_fails (.inr hroom) b)]
      exact ⟨rfl, .refl k _ s⟩
    · have hb : Queued k [b] 1 s (s.transmitted k b) := transmitted_queued b hroom hok (s.transmitted k b).result
      have hok' : ((s.transmitted k b).rb (.tx k)).Ok := by
        rw [transmitted_rb]
        exact Rb.afterPut_ok _ hok (by simpa [Rb.isFull] using hroom)
      obtain ⟨hcount, hqueued⟩ := ih false (s.transmitted k b) (by rw [hb.only.status k List.not_mem_nil]; exact he) hok'
        (hb.world.agenda.trans ha)
      rw [fitting_cons b hok hroom, transmitAll_cons_true data (by rw [hstart]; exact dlcTransmit_room he hroom b), hcount]
      exact ⟨rfl, hqueued.cons hok hroom⟩

end Packet

/-- Settles O44: the three composed transmits are `transmitAll` of their bytes. -/
theorem composedTransmitsQueueWhatFits : Obligations.ComposedTransmitsQueueWhatFits := by
  intro k s he hok ha
  have hall (data : List Byte) := transmitAll_quiet true data s he hok ha
  refine ⟨fun data => ⟨_, exec_dlcTransmitPacket k s data, rfl, (hall data).2.setResult _⟩,
    fun data h0 => ⟨_, exec_dlcTransmitString k s data h0, ?_, (hall data).2.setResult _⟩,
    exec_dlcTransmitString_refused k s, fun v => ⟨_, exec_dlcTransmitUint k s v, rfl, (hall (decimalText v)).2.setResult _⟩⟩
  exact congrArg Result.count (hall data).1

end Sys2Proof.Machine
end

section
/-! O45: a composed transmit against its units run as requests of their own, under any schedule. The two differ in the record that
a unit presents and nothing reads (Laws/Result.lean). -/

namespace Sys2Proof.Machine

/-- The requests a packet expands to (R116). -/
abbrev transmits (k : LinkId) (data : List Byte) : List Instr := data.map fun b => .dlcTransmit k b

theorem runUnits_transmit_cons (k : LinkId) (first : Bool) (b : Byte) (data : List Byte) (s : State) :
    runUnits first (transmits k (b :: data)) s
      = runUnits false (transmits k data) ((dlcTransmit k b (if first then s else point s)).2.setResult
          (.ok (dlcTransmit k b (if first then s else point s)).1)) := rfl

/-- By induction on the packet: its first unit is the whole where `m = 1`; otherwise it answers true and the rest follows. -/
theorem transmitAll_withRecord (k : LinkId) (first : Bool) (data : List Byte) (m : Nat) (s u : State) (h1 : 1 ≤ m)
    (hm : m ≤ data.length)
    (hbefore : ∀ j, 1 ≤ j → j < m → ∃ w, runUnits first (transmits k (data.take j)) s = .next w ∧ w.result = .ok true)
    (hrun : runUnits first (transmits k (data.take m)) s = .next u) (hend : m = data.length ∨ u.result = .ok false)
    (r : Result) :
    withRecord r (transmitAll k first data s) = (if u.result = .ok true then m else m - 1, u.setResult r) := by
  induction data generalizing first m s with
  | nil => exact absurd (h1.trans hm) (Nat.not_succ_le_zero 0)
  | cons b data ih =>
    obtain ⟨m, rfl⟩ := Nat.exists_eq_succ_of_ne_zero (Nat.one_le_iff_ne_zero.1 h1)
    rw [Nat.succ_eq_add_one, List.take_succ_cons, runUnits_transmit_cons] at hrun
    cases hunit : dlcTransmit k b (if first then s else point s) with
    | mk ok v =>
      rw [hunit] at hrun
      cases m with
      | zero =>
        obtain rfl : v.setResult (.ok ok) = u := by injection hrun
        cases ok with
        | false => rw [transmitAll_cons_false data hunit]; rfl
        | true =>
          have hdata : data = [] := by simpa using hend
          rw [transmitAll_cons_true data hunit, hdata]
          rfl
      | succ m =>
        obtain ⟨w, hw, hres⟩ := hbefore 1 le_rfl (by omega)
        rw [List.take_succ_cons, runUnits_transmit_cons, hunit] at hw
        obtain rfl : v.setResult (.ok ok) = w := by injection hw
        obtain rfl : ok = true := by simpa using hres
        have hrest := ih false (m + 1) (v.setResult (.ok true)) (by omega) (by simpa using hm) (fun j hj hjm => ?_) hrun
          (by simpa using hend)
        · rw [setResult_transmitAll] at hrest
          obtain ⟨hcount, hstate⟩ := Prod.ext_iff.1 hrest
          rw [transmitAll_cons_true data hunit]
          refine Prod.ext ((congrArg (· + 1) hcount).trans ?_) hstate
          split <;> rfl
        · have hj' := hbefore (j + 1) (by omega) (by omega)
          rwa [List.take_succ_cons, runUnits_transmit_cons, hunit] at hj'

/-- Settles O45: the packet and the string present their own record over the state and the count of `transmitAll`. -/
theorem composedTransmitsAreTheirExpansion : Obligations.ComposedTransmitsAreTheirExpansion := by
  intro k s
  refine ⟨fun v => ⟨_, exec_dlcTransmitUint k s v, exec_dlcTransmitPacket k s (decimalText v)⟩,
    exec_dlcTransmitPacket k s [], exec_dlcTransmitString k s [] (by simp), exec_dlcTransmitString_refused k s,
    fun data m u h1 hm hbefore hrun hend => ?_⟩
  have hall := transmitAll_withRecord k true data m s u h1 hm hbefore hrun hend
  have hcount : (transmitAll k true data s).1 = if u.result = .ok true then m else m - 1 := congrArg Prod.fst (hall .none)
  have hstate (r : Result) : (transmitAll k true data s).2.setResult r = u.setResult r := congrArg Prod.snd (hall r)
  refine ⟨?_, fun h0 => ?_⟩
  · rw [exec_dlcTransmitPacket, hstate]
    rfl
  · rw [exec_dlcTransmitString k s data h0, hstate, hcount]
    rfl

end Sys2Proof.Machine
end

section
/-! O47: a host transaction under a peripheral that answers (R230, R231). What it comes to is `hostTransaction_script`
(Laws/Script.lean): the state after frames (`State.afterFrames`) with the transceiver's lines as they were. -/

namespace Sys2Proof.Machine

/-- The transceiver's lines are in no footprint. -/
theorem setLines_changesOnly {f : Footprint} (s : State) (busy irq : Bool) : ChangesOnly f s (s.setLines busy irq) := by
  constructor <;> simp

/-- The answers `ds` to the fillers stand in `LINK_S.rx`, `driven` was driven outward, and `rest` is still to be served. -/
def State.afterTransaction (s : State) (ds : List Byte) (sig : PeriphIn) (rest : List Event) (driven : List BusEvent) : State :=
  (s.afterFrames ds sig s.irq rest driven).setLines s.busy s.irq

section AfterTransaction

variable (s : State) (ds : List Byte) (sig : PeriphIn) (rest : List Event) (driven : List BusEvent) (r : Result)

theorem afterTransaction_afterScript :
    AfterScript driven rest s ((s.afterTransaction ds sig rest driven).setResult r) :=
  { afterFrames_afterScript s ds sig s.irq rest driven r with }

theorem afterTransaction_rb (q : RbPort) :
    ((s.afterTransaction ds sig rest driven).setResult r).rb q = (csPutAll (.rx .s) ds s).rb q :=
  afterFrames_rb s ds sig s.irq rest driven r q

theorem afterTransaction_unread :
    ((s.afterTransaction ds sig rest driven).setResult r).unread (.rx .s) = (csPutAll (.rx .s) ds s).unread (.rx .s) :=
  afterFrames_unread s ds sig s.irq rest driven r

variable {s ds}

theorem afterTransaction_changesOnly (hok : (s.rb (.inner (.rx .s))).Ok) (hroom : ds.length ≤ s.room (.rx .s)) :
    ChangesOnly { rings := if ds = [] then [] else [.inner (.rx .s)], bytes := s.nextKeys (.inner (.rx .s)) ds.length } s
      ((s.afterTransaction ds sig rest driven).setResult r) := by
  have hframes := afterFrames_changesOnly sig s.irq rest driven r hok hroom
  simp only [List.length_eq_zero_iff] at hframes
  exact hframes.trans (setLines_changesOnly _ s.busy s.irq)

end AfterTransaction

/-- The transaction of a script of answers: `as` to the command bytes, `ds` to the fillers. -/
theorem hostTransaction_whole {s : State} {out : List Byte} {n : Nat} {as ds : List Byte} {rest : List Event}
    (he : (s.link .s).status.enabled = true) (hok : (s.rb (.inner (.rx .s))).Ok) (has : as.length = out.length)
    (hds : ds.length = min n (s.room (.rx .s))) (ha : s.agenda = bytesScript (as ++ ds) ++ rest) :
    ∃ sig, hostTransaction out n s = .done (as.headD 0)
      (s.afterTransaction ds sig rest (frameEvents (out ++ List.replicate ds.length s.params.enc.nop))) := by
  have hsplit : bytesScript (as ++ ds) ++ rest = bytesScript as ++ (bytesScript ds ++ rest) := by
    simp [bytesScript, List.append_assoc]
  have hrun := hostTransaction_script out n as ds s he has hds hok.2.1 s.periphS s.busy s.irq rest s.selectN s.trace
  rw [← hsplit, ← ha, State.env_self] at hrun
  exact ⟨_, hrun⟩

/-- Settles O47: the command bytes and the fillers are clocked by the script; the answers to the fillers go into `rx`. -/
theorem hostTransactionClocksTheFrame : Obligations.HostTransactionClocksTheFrame := by
  intro s out n as ds rest he hok has hds ha
  have hroom : ds.length ≤ s.room (.rx .s) := hds ▸ Nat.min_le_right _ _
  obtain ⟨sig, hrun⟩ := hostTransaction_whole he hok has hds ha
  refine ⟨_, (exec_dlcHostTransaction_sync s out n).trans (congrArg (Res.outcome · .byte) hrun), rfl,
    afterTransaction_afterScript _ _ _ _ _ _, rfl, rfl, fun hne => ?_, fun hu hm => ?_,
    afterTransaction_changesOnly _ _ _ _ hok hroom⟩
  · exact (afterTransaction_rb _ _ _ _ _ _ _).trans (csPutAll_advanced hok hroom hne)
  · exact (afterTransaction_unread _ _ _ _ _ _).trans (csPutAll_unread _ ds s hok hroom hu hm).1

end Sys2Proof.Machine
end

section
/-! O48: what a host transaction leaves alone on its link whatever the others do (R230, R232): its handler takes no step inside
it, that of `LINK_A` touches `LINK_A` only, and the transaction itself writes `rx` only. -/

namespace Sys2Proof.Machine

/-- What of `LINK_S` its handler changes and a host transaction does not. -/
structure HandlerFields where
  status : LinkStatus
  txie : Bool
  rxie : Bool
  errEn : Bool
  tx : Rb
  lockout : Nat

def State.handlerFields (s : State) : HandlerFields :=
  { status := (s.link .s).status, txie := (s.link .s).txie, rxie := (s.link .s).rxie, errEn := (s.link .s).errEn
    tx := s.rb (.tx .s), lockout := (s.cs (.rx .s)).lockout }

/-! ### The other agents -/

/-- A change of `LINK_A` alone. -/
theorem ChangesOnly.handlerFields {keys : List Nat} {s t : State} (h : ChangesOnly
      { rings := [.tx .a, .inner (.rx .a)], txie := [.a], rxie := [.a], status := [.a], bytes := keys } s t) :
    t.handlerFields = s.handlerFields := by
  have hstatus := h.status .s (by simp)
  have htxie := h.txie .s (by simp)
  have hrxie := h.rxie .s (by simp)
  have herrEn := h.errEn .s (by simp)
  have htx := h.rings (.tx .s) (by simp)
  have hlock := h.lockouts (.rx .s) (by simp)
  simp only [State.handlerFields, hstatus, htxie, hrxie, herrEn, htx, hlock]

/-- The key of the slot at the write cursor, whatever the ring's counters say. -/
def State.writeKeys (s : State) (p : RbPort) : List Nat :=
  (s.rb p).backing.toList.map fun r => slotAddress r (s.rb p).writeIndex

/-- R400: the handler of `LINK_A`. -/
theorem takeInterrupt_a_handlerFields (s : State) : (takeInterrupt .a s).handlerFields = s.handlerFields := by
  refine (takeInterrupt_changesOnly .a s (f := { rings := [.tx .a, .inner (.rx .a)], txie := [.a], rxie := [.a], status := [.a]
                                                 bytes := s.writeKeys (.inner (.rx .a)) })
    ?_ ?_ ?_ ?_ ?_ fun _ r hr => ?_).handlerFields
  case refine_6 => simp [State.writeKeys, hr]
  all_goals simp

/-- With the handler of `LINK_S` excluded no other agent touches its fields (R232). -/
theorem applyEvent_handlerFields (e : Event) (s : State) :
    (applyEvent (some .s) e s).handlerFields = s.handlerFields := by
  cases e with
  | isr k =>
    cases k with
    | s => simp [applyEvent]
    | a =>
      simp only [applyEvent]
      split
      · exact takeInterrupt_a_handlerFields s
      · rfl
  | periph k sig => cases k <;> rfl
  | app | lines _ _ | store _ _ _ | storeWide _ _ _ => rfl

theorem handlerFields_kept (v : HandlerFields) : KeptByOthers (some .s) fun s => s.handlerFields = v where
  event e _ u h := (applyEvent_handlerFields e u).trans h
  phase _ _ h := h

/-! ### The units of a transaction -/

/-- A put into `rx` is no put into `tx`. -/
theorem csPut_handlerFields (b : Byte) (s : State) : (csPut (.rx .s) b s).2.handlerFields = s.handlerFields := by
  have hput := csPut_only (.rx .s) b s
  have htx : (csPut (.rx .s) b s).2.rb (.tx .s) = s.rb (.tx .s) := csPutAll_rb_of_ne (.rx .s) [b] s _ (by simp)
  simp only [State.handlerFields, hput.status, hput.txie, hput.rxie, hput.errEn, hput.lockouts, htx]

section Transaction

variable {v : HandlerFields} (s : State) (h : s.handlerFields = v)
include h

theorem clockByte_handlerFields (b : Byte) : (clockByte b s).Holds fun t => t.handlerFields = v :=
  ((handlerFields_kept v).waitUntil .txReady s h).bind fun _ t ht =>
    ((handlerFields_kept v).waitUntil .rxReady (t.emit (.txWr .s b)) ht).bind fun _ _ hu => hu

theorem commandPhase_handlerFields (out : List Byte) : (commandPhase out s).Holds fun t => t.handlerFields = v := by
  induction out generalizing s with
  | nil => exact h
  | cons b out ih => exact (clockByte_handlerFields s h b).bind fun _ t ht => (ih t ht).bind fun _ _ hu => hu

theorem responsePhase_handlerFields (n : Nat) : (responsePhase n s).Holds fun t => t.handlerFields = v := by
  induction n generalizing s with
  | zero => exact h
  | succ n ih =>
    unfold responsePhase
    split
    · exact h
    · exact (clockByte_handlerFields s h _).bind fun b t ht => ih _ ((csPut_handlerFields b t).trans ht)

theorem hostTransaction_handlerFields (out : List Byte) (n : Nat) :
    (hostTransaction out n s).Holds fun t => t.handlerFields = v := by
  unfold hostTransaction
  split
  · exact (commandPhase_handlerFields (driveSelect false s) h out).bind fun _ t ht =>
      (responsePhase_handlerFields t ht n).bind fun _ _ hu => hu
  · exact h

end Transaction

/-- A property that no record changes holds of the next state too, the sequence of units done or hanging. -/
theorem Res.Holds.of_outcome {α : Type} {P : State → Prop} {r : Res α} {f : α → Result} {t : State} (h : r.Holds P)
    (hresult : ∀ s r, P s → P (s.setResult r)) (ht : r.outcome f = .next t) : P t := by
  cases r with
  | done a s =>
    obtain rfl : s.setResult (f a) = t := by injection ht
    exact hresult s (f a) h
  | hung s =>
    obtain rfl : s = t := by injection ht
    exact h

/-- Settles O48: done or hanging, the transaction ends with the fields of its handler as they were. -/
theorem hostTransactionExcludesItsHandler : Obligations.HostTransactionExcludesItsHandler := by
  intro s t out n hexec
  have hfields : t.handlerFields = s.handlerFields :=
    (hostTransaction_handlerFields s rfl out n.toNat).of_outcome (fun _ _ h => h)
      ((exec_dlcHostTransaction_sync s out n).symm.trans hexec)
  injection hfields with hstatus htxie hrxie herrEn htx hlock
  exact ⟨hstatus, htxie, hrxie, herrEn, htx, hlock⟩

end Sys2Proof.Machine
end

section
/-! O17: which operations end without a next state (R380, R261). An operation ends by presenting a record or in a hang; both are
next states. -/

namespace Sys2Proof.Machine

/-- The operation ends in a next state. -/
def Answers (o : Out) : Prop := ∃ t, o = .next t

theorem answer_answers (r : Result) (s : State) : Answers (answer r s) := ⟨_, rfl⟩

/-- A hang is a next state too (R395). -/
theorem outcome_answers {α : Type} (r : Res α) (f : α → Result) : Answers (r.outcome f) := by
  cases r with
  | done a s => exact ⟨_, rfl⟩
  | hung s => exact ⟨_, rfl⟩

theorem ite_answers {p : Prop} [Decidable p] {o o' : Out} (h : Answers o) (h' : Answers o') :
    Answers (if p then o else o') := by
  split
  · exact h
  · exact h'

/-- The two operations that R261(c) guards. -/
def NeedsInit (i : Instr) : Prop := (∃ payload timeout, i = .rcTransmit payload timeout) ∨ ∃ timeout, i = .rcReceive timeout

/-- Every other operation is a record presented, a sequence of units, or a choice between these by a guard. -/
theorem exec_answers (i : Instr) (s : State) (hi : ¬ NeedsInit i) : Answers (exec i s) := by
  cases i
  case rcTransmit payload timeout => exact absurd (.inl ⟨payload, timeout, rfl⟩) hi
  case rcReceive timeout => exact absurd (.inr ⟨timeout, rfl⟩) hi
  case rbReset | rbPut | csReset | dlcDeinit | dlcTransmitString | dlcMatchToken | dlcMatchAsciiUint | dlcMatchParam =>
    exact ite_answers (answer_answers _ _) (answer_answers _ _)
  case dlcInit =>
    exact ite_answers (answer_answers _ _) (ite_answers (answer_answers _ _) (answer_answers _ _))
  case dlcHostTransaction k out n =>
    cases k with
    | s => exact outcome_answers _ _
    | a => exact answer_answers _ _
  case rcInit => exact ite_answers (outcome_answers _ _) (answer_answers _ _)
  case spiSetRxMode => exact ite_answers (answer_answers _ _) (outcome_answers _ _)
  case spiStandbyMode | spiSetPacketType | spiSetRfFrequency | spiSetPowerAmplifierConfig | spiSetTxParams
    | spiWriteRegister | spiReadRegister | spiSetBufferBaseAddress | spiSetModulationParams | spiSetPacketParams
    | spiSetDioIrqParams | spiWriteBuffer | spiSetTxMode | spiGetIrqStatus | spiClearIrq | spiGetRxBufferStatus
    | spiReadBuffer =>
    exact outcome_answers _ _
  all_goals exact answer_answers _ _

/-- A guarded sequence of the radio refuses for want of an `RC.INIT` on an enabled link, and for nothing else. -/
theorem radio_guard_refused {s : State} {go fail : Out} {r : Refusal} (hgo : Answers go) (hfail : Answers fail)
    (h : (if (s.link .s).status.enabled then if s.radio.mode = .uninitialized then .refused .radioNotInitialised else go
      else fail) = .refused r) :
    r = .radioNotInitialised ∧ s.radio.mode = .uninitialized ∧ (s.link .s).status.enabled = true := by
  obtain ⟨t, rfl⟩ := hgo
  obtain ⟨u, rfl⟩ := hfail
  split at h
  · next he =>
    split at h
    · next hm =>
      injection h with hr
      exact ⟨hr.symm, hm, he⟩
    · cases h
  · cases h

/-- Settles O17: all but two operations answer, and these two refuse by one guard. -/
theorem onlyTheRadioRefuses : Obligations.OnlyTheRadioRefuses := by
  intro i s r h
  have hi : NeedsInit i := by
    by_contra hi
    obtain ⟨t, ht⟩ := exec_answers i s hi
    exact nomatch h.symm.trans ht
  obtain ⟨hr, hm, he⟩ : r = .radioNotInitialised ∧ s.radio.mode = .uninitialized ∧ (s.link .s).status.enabled = true := by
    rcases hi with ⟨payload, timeout, rfl⟩ | ⟨timeout, rfl⟩
    · exact radio_guard_refused (ite_answers (outcome_answers _ _) (answer_answers _ _)) (answer_answers _ _) h
    · exact radio_guard_refused (outcome_answers _ _) (answer_answers _ _) h
  exact ⟨hr, hm, he, hi⟩

end Sys2Proof.Machine
end

section
/-! O52, O57, O58: the IRQ mask (R268), what the RC operations answer without a frame (R261, R103, R112, R274), and the
received-data accessors (R282 to R286). -/

namespace Sys2Proof.Machine

theorem irqMask_getLsbD (e : Enc) (j : Nat) : (irqMask e).getLsbD j
    = (decide (j = e.irqTimeout) || decide (j = e.irqCrcErr) || decide (j = e.irqRxDone) || decide (j = e.irqTxDone)) := by
  have hbit (k : Fin 16) : (BitVec.twoPow 16 k).getLsbD j = decide (j = k) := by
    rw [BitVec.getLsbD_twoPow, Bool.eq_iff_iff]
    simp only [Bool.and_eq_true, decide_eq_true_eq]
    omega
  simp only [irqMask, BitVec.getLsbD_or, hbit]

/-- Settles O52: the mask is the union of four single bits. -/
theorem irqMaskHasTheFourBits : Obligations.IrqMaskHasTheFourBits := by
  intro e j
  simp only [irqMask_getLsbD, Bool.or_eq_true, decide_eq_true_eq, Fin.val_inj, or_assoc]

/-! ### The guards -/

section Guards

variable {s : State}

theorem exec_rcInit_disabled (h : (s.link .s).status.enabled = false) (c : RadioConfig) (b : Option Ref) (n : Word32) :
    exec (.rcInit c b n) s = .next (s.setResult .none) := if_neg (by simp [h])

/-- R103: the frequency word does not fit four bytes. -/
theorem exec_rcInit_frequency {c : RadioConfig} (h : maxFreqHz < c.freqHz.toNat) (b : Option Ref) (n : Word32) :
    exec (.rcInit c b n) s = .next (s.setResult .none) := if_neg (by simp [freqFits, h])

/-- R112: a capacity without an array. -/
theorem exec_rcInit_unbindable (c : RadioConfig) {n : Word32} (h : n.toNat ≠ 0) :
    exec (.rcInit c none n) s = .next (s.setResult .none) := if_neg (by simp [bindable, h])

theorem exec_rcTransmit_disabled (h : (s.link .s).status.enabled = false) (payload : List Byte) (timeout : Word32) :
    exec (.rcTransmit payload timeout) s = .next (s.setResult (.ok false)) := if_neg (by simp [h])

theorem exec_rcReceive_disabled (h : (s.link .s).status.enabled = false) (timeout : Word32) :
    exec (.rcReceive timeout) s = .next (s.setResult (.received false false)) := if_neg (by simp [h])

theorem exec_rcTransmit_uninitialized (he : (s.link .s).status.enabled = true) (hm : s.radio.mode = .uninitialized)
    (payload : List Byte) (timeout : Word32) :
    exec (.rcTransmit payload timeout) s = .refused .radioNotInitialised := by
  rw [exec, execRcTransmit, if_pos he, if_pos hm]

theorem exec_rcReceive_uninitialized (he : (s.link .s).status.enabled = true) (hm : s.radio.mode = .uninitialized)
    (timeout : Word32) : exec (.rcReceive timeout) s = .refused .radioNotInitialised := by
  rw [exec, execRcReceive, if_pos he, if_pos hm]

/-- R274: a payload that does not fit the length byte, whether the link is enabled or not. -/
theorem exec_rcTransmit_tooLong (hm : s.radio.mode ≠ .uninitialized) {payload : List Byte} (h : 255 < payload.length)
    (timeout : Word32) : exec (.rcTransmit payload timeout) s = .next (s.setResult (.ok false)) := by
  rw [exec, execRcTransmit, if_neg hm, if_neg (Nat.not_le.2 h)]
  exact ite_self _

end Guards

/-- Settles O57: each guard in the order it is tested. -/
theorem rcGuards : Obligations.RcGuards := fun _ =>
  ⟨fun h => ⟨exec_rcInit_disabled h, exec_rcTransmit_disabled h, exec_rcReceive_disabled h⟩,
    fun _ b n h => exec_rcInit_frequency h b n, fun c _ h => exec_rcInit_unbindable c h,
    fun he hm => ⟨exec_rcTransmit_uninitialized he hm, exec_rcReceive_uninitialized he hm⟩,
    fun hm _ timeout h => exec_rcTransmit_tooLong hm h timeout⟩

/-- Settles O58: each accessor is by definition the operation of the sink under the gate that does nothing (R116). -/
theorem rcDelegatesToItsSink : Obligations.RcDelegatesToItsSink := fun _ =>
  ⟨⟨_, rfl, rfl⟩, fun _ _ _ => ⟨_, rfl, rfl⟩, ⟨_, rfl, rfl⟩, fun _ _ _ => ⟨_, rfl, rfl⟩, rfl⟩

end Sys2Proof.Machine
end

section
/-! Bytes that pass through `LINK_S.rx`: an exchange puts them there and units of their own take them out again (R262, R263). What a
script of answered frames comes to is one relation, `Exchanged`, which one frame after another keeps. -/

namespace Sys2Proof.Machine

/-! ### Smaller and larger footprints -/

/-- Whatever may change under the first footprint may change under the second. -/
structure Footprint.Within (f g : Footprint) : Prop where
  rings : f.rings ⊆ g.rings
  lockouts : f.lockouts ⊆ g.lockouts
  txie : f.txie ⊆ g.txie
  rxie : f.rxie ⊆ g.rxie
  status : f.status ⊆ g.status
  errEn : f.errEn ⊆ g.errEn
  bytes : f.bytes ⊆ g.bytes
  wides : f.wides ⊆ g.wides
  claims : f.claims ⊆ g.claims
  radioConfig : g.radioConfig = false → f.radioConfig = false
  mode : g.mode = false → f.mode = false

theorem ChangesOnly.mono {f g : Footprint} {s t : State} (h : ChangesOnly f s t) (hfg : f.Within g) : ChangesOnly g s t where
  rings q hq := h.rings q fun hf => hq (hfg.rings hf)
  lockouts c hc := h.lockouts c fun hf => hc (hfg.lockouts hf)
  txie k hk := h.txie k fun hf => hk (hfg.txie hf)
  rxie k hk := h.rxie k fun hf => hk (hfg.rxie hf)
  status k hk := h.status k fun hf => hk (hfg.status hf)
  errEn k hk := h.errEn k fun hf => hk (hfg.errEn hf)
  bytes a ha := h.bytes a fun hf => ha (hfg.bytes hf)
  wides a ha := h.wides a fun hf => ha (hfg.wides hf)
  tainted r hr := h.tainted r fun hf => hr (hfg.claims hf)
  freeTick hb hw hc := h.freeTick (List.eq_nil_of_subset_nil (hb ▸ hfg.bytes)) (List.eq_nil_of_subset_nil (hw ▸ hfg.wides))
    (List.eq_nil_of_subset_nil (hc ▸ hfg.claims))
  radioConfig hr := h.radioConfig (hfg.radioConfig hr)
  mode hm := h.mode (hfg.mode hm)
  params := h.params

theorem setMode_changesOnly {f : Footprint} (s : State) (m : RadioMode) (hf : f.mode = true) :
    ChangesOnly f s (s.setMode m) := by
  constructor <;> simp [hf]

theorem setAgenda_changesOnly {f : Footprint} (s : State) (es : List Event) : ChangesOnly f s (s.setAgenda es) := by
  constructor <;> simp

/-! ### Values passed through an RB -/

section Passed

variable {rb : Rb} {m n : Nat}

theorem Rb.passed_zero (h : rb.Ok) (hcap : 1 ≤ rb.capacity) : rb.passed 0 = rb := by
  obtain ⟨-, hr, hw, -⟩ := h.2.2.2 hcap
  simp [Rb.passed, Nat.mod_eq_of_lt hr, Nat.mod_eq_of_lt hw]

theorem Rb.passed_passed : (rb.passed m).passed n = rb.passed (m + n) := by
  simp [Rb.passed, Nat.mod_add_mod, Nat.add_assoc]

theorem Rb.passed_ok (h : rb.Ok) (hcap : 1 ≤ rb.capacity) : (rb.passed n).Ok := by
  obtain ⟨hwidth, hcount, -, hbound⟩ := h
  obtain ⟨hb, -, -, hw⟩ := hbound hcap
  refine ⟨hwidth, hcount, fun h0 => absurd h0 (Nat.ne_of_gt hcap), fun _ => ⟨hb, Nat.mod_lt _ hcap, Nat.mod_lt _ hcap, ?_⟩⟩
  simp only [Rb.passed, hw, Nat.mod_add_mod]
  congr 1
  omega

end Passed

/-- After `n` values the next `m` are stored where values `n` to `n + m` would have been. -/
theorem nextKeys_passed {s t : State} {p : RbPort} {n : Nat} (h : t.rb p = (s.rb p).passed n) (m : Nat) :
    t.nextKeys p m ⊆ s.nextKeys p (n + m) := by
  intro a
  rw [State.nextKeys, State.nextKeys, h]
  cases hb : (s.rb p).backing with
  | none => simp [Rb.passed, hb]
  | some r =>
    simp only [Rb.passed, hb, List.mem_map, List.mem_range, Nat.mod_add_mod]
    rintro ⟨i, hi, rfl⟩
    exact ⟨n + i, by omega, by rw [Nat.add_assoc]⟩

theorem nextKeys_subset (s : State) (p : RbPort) {m n : Nat} (h : m ≤ n) : s.nextKeys p m ⊆ s.nextKeys p n := by
  intro a
  unfold State.nextKeys
  split
  · exact id
  · simp only [List.mem_map, List.mem_range]
    rintro ⟨i, hi, rfl⟩
    exact ⟨i, by omega, rfl⟩

/-! ### Responses taken -/

/-- `n` bytes of `LINK_S.rx` were taken, each by a `DLC.RECEIVE` unit. -/
def State.fetched (s : State) (n : Nat) : State := if n = 0 then s else s.takenUnder (.rx .s) (.rxGate .s) n

theorem fetched_one_fetched (s : State) (n : Nat) : (s.fetched 1).fetched n = s.fetched (n + 1) := by
  cases n with
  | zero => rfl
  | succ n =>
    have htaken := State.taken_taken (gateDisable (.rxGate .s) s) (.rx .s) 1 (n + 1)
    rw [Nat.add_comm 1] at htaken
    exact congrArg (gateEnable (.rxGate .s)) htaken

section Fetched

variable (s : State) (n : Nat)

theorem fetched_frame : ChangesOnly { rings := [.inner (.rx .s)], lockouts := [.rx .s], rxie := [.s] } s (s.fetched n)
    ∧ SameWorld [] s (s.fetched n) := by
  unfold State.fetched
  split
  · exact ⟨.refl s, .refl s⟩
  · have hframe := takenUnder_frame s (.rx .s) (.rxGate .s) n (s.takenUnder (.rx .s) (.rxGate .s) n).result
    exact ⟨hframe.1, hframe.2.1⟩

theorem fetched_rb : (s.fetched n).rb (.inner (.rx .s)) = (s.taken (.rx .s) n).rb (.inner (.rx .s)) := by
  unfold State.fetched
  split
  · next h0 => rw [h0, State.taken_zero]
  · exact State.takenUnder_rb s _ _ n

theorem fetched_lockout : ((s.fetched n).cs (.rx .s)).lockout = (s.cs (.rx .s)).lockout - n := by
  unfold State.fetched
  split
  · next h0 => rw [h0, Nat.sub_zero]
  · exact State.takenUnder_lockout s _ _ n

theorem fetched_rxie : ((s.fetched n).link .s).rxie = if n = 0 then (s.link .s).rxie else true := by
  unfold State.fetched
  split <;> rfl

@[simp] theorem fetched_mem : (s.fetched n).mem = s.mem := by
  unfold State.fetched
  split <;> rfl

@[simp] theorem fetched_wide : (s.fetched n).wide = s.wide := by
  unfold State.fetched
  split <;> rfl

@[simp] theorem fetched_tainted : (s.fetched n).tainted = s.tainted := by
  unfold State.fetched
  split <;> rfl

@[simp] theorem fetched_freeTick : (s.fetched n).freeTick = s.freeTick := by
  unfold State.fetched
  split <;> rfl

@[simp] theorem fetched_status : ((s.fetched n).link .s).status = (s.link .s).status :=
  (fetched_frame s n).1.status .s List.not_mem_nil

theorem fetched_setAgenda (es : List Event) : (s.setAgenda es).fetched n = (s.fetched n).setAgenda es := by
  unfold State.fetched
  split <;> rfl

variable {s}

theorem fetched_ok (hok : (s.rb (.inner (.rx .s))).Ok) (hn : n ≤ (s.rb (.inner (.rx .s))).count) :
    ((s.fetched n).rb (.inner (.rx .s))).Ok := by
  rw [fetched_rb]
  exact State.taken_ok s _ n hok hn

theorem fetched_unread (hok : (s.rb (.inner (.rx .s))).Ok) (hn : n ≤ (s.rb (.inner (.rx .s))).count) :
    (s.fetched n).unread (.rx .s) = (s.unread (.rx .s)).drop n := by
  unfold State.fetched
  split
  · next h0 => rw [h0, List.drop_zero]
  · exact State.takenUnder_unread s _ _ n hok hn

theorem count_pos_of_unread {c : CsPort} {b : Byte} {bs : List Byte} (hs : s.unread c = b :: bs) :
    1 ≤ (s.rb (.inner c)).count := by
  rw [← State.unread_length, hs]
  exact Nat.le_add_left _ _

theorem fetched_one_unread (hok : (s.rb (.inner (.rx .s))).Ok) {b : Byte} {bs : List Byte}
    (hs : s.unread (.rx .s) = b :: bs) : (s.fetched 1).unread (.rx .s) = bs := by
  rw [fetched_unread 1 hok (count_pos_of_unread hs), hs, List.drop_one, List.tail_cons]

/-- One unit takes the front byte. -/
theorem dlcReceive_front (he : (s.link .s).status.enabled = true) (hok : (s.rb (.inner (.rx .s))).Ok) {b : Byte}
    {bs : List Byte} (hs : s.unread (.rx .s) = b :: bs) : dlcReceive .s s = (some b, s.fetched 1) := by
  have hc : (s.rb (.inner (.rx .s))).count ≠ 0 := Nat.ne_of_gt (count_pos_of_unread hs)
  have hfront : csSlot (.rx .s) s (s.rb (.inner (.rx .s))).readIndex = b := by
    rw [State.unread_cons s _ hc hok] at hs
    exact (List.cons.inj hs).1
  rw [dlcReceive_enabled he, underGate, csGet_some _ _ (by rwa [gateDisable_rb]), gateDisable_csSlot, gateDisable_rb, hfront]
  rfl

end Fetched

@[simp] theorem State.setAgenda_unread (s : State) (es : List Event) (c : CsPort) : (s.setAgenda es).unread c = s.unread c :=
  State.unread_congr c rfl rfl rfl rfl rfl rfl

/-- APP goes on at a point at which nobody else steps. -/
theorem point_quietScript {s : State} {es : List Event} (h : s.agenda = .app :: es) : point s = s.setAgenda es := by
  rw [point, pointExcluding, h, serve]

theorem State.setAgenda_eq_self {s : State} {es : List Event} (h : s.agenda = es) : s.setAgenda es = s := by
  rw [← h, State.setAgenda_self]

/-- Nobody else steps before the unit. -/
theorem dlcReceive_point {s : State} {es : List Event} (he : (s.link .s).status.enabled = true)
    (hok : (s.rb (.inner (.rx .s))).Ok) {b : Byte} {bs : List Byte} (hs : s.unread (.rx .s) = b :: bs)
    (ha : s.agenda = .app :: es) : dlcReceive .s (point s) = (some b, (s.fetched 1).setAgenda es) := by
  rw [point_quietScript ha, ← fetched_setAgenda]
  exact dlcReceive_front (s := s.setAgenda es) he hok ((State.setAgenda_unread s es _).trans hs)

/-- `take` at points at which nobody else steps finds the bytes that stand in `rx`, and no more (R263). -/
theorem takeResponses_quiet {s : State} {ds : List Byte} {rest : List Event} (he : (s.link .s).status.enabled = true)
    (hok : (s.rb (.inner (.rx .s))).Ok) (hs : s.unread (.rx .s) = ds)
    (ha : s.agenda = quietScript ds.length ++ rest) :
    takeResponses ds.length s = (ds, (s.fetched ds.length).setAgenda rest) := by
  induction ds generalizing s with
  | nil => exact congrArg (Prod.mk []) (State.setAgenda_eq_self ha).symm
  | cons d ds ih =>
    have hunit := dlcReceive_point (es := quietScript ds.length ++ rest) he hok hs ha
    have hrest := ih (s := (s.fetched 1).setAgenda (quietScript ds.length ++ rest)) (by simpa using he)
      (fetched_ok 1 hok (count_pos_of_unread hs)) ((State.setAgenda_unread _ _ _).trans (fetched_one_unread hok hs)) rfl
    rw [List.length_cons, takeResponses, hunit]
    simp only [hrest, fetched_setAgenda, fetched_one_fetched]
    rfl

/-! ### An exchange, and its responses taken -/

/-- The ghost mode is no part of it (R36). -/
theorem LinkFree.setMode {s : State} {n : Nat} (h : LinkFree s n) (m : RadioMode) : LinkFree (s.setMode m) n := { h with }

theorem AfterScript.trans {out out' : List BusEvent} {rest rest' : List Event} {s t u : State}
    (h : AfterScript out rest s t) (h' : AfterScript out' rest' t u) : AfterScript (out ++ out') rest' s u where
  trace := by rw [h'.trace, h.trace, List.append_assoc]
  agenda := h'.agenda
  selectN := h'.selectN
  resetN := h'.resetN.trans h.resetN
  requests := h'.requests.trans h.requests
  phase := h'.phase.trans h.phase
  periphA := h'.periphA.trans h.periphA

/-- From `s` to `t` the frames `out` went out, `n` response bytes passed through `LINK_S.rx`, and `rest` is still to be served. -/
structure Exchanged (out : List BusEvent) (n : Nat) (rest : List Event) (s t : State) : Prop where
  script : AfterScript out rest s t
  ring : t.rb (.inner (.rx .s)) = (s.rb (.inner (.rx .s))).passed n
  lockout : (t.cs (.rx .s)).lockout = (s.cs (.rx .s)).lockout - n
  rxie : (t.link .s).rxie = if n = 0 then (s.link .s).rxie else true
  only : ChangesOnly { rings := [.inner (.rx .s)], lockouts := [.rx .s], rxie := [.s], bytes := s.nextKeys (.inner (.rx .s)) n }
    s t
  tainted : t.tainted = s.tainted
  freeTick : t.freeTick = s.freeTick
  memory : MemoryOk t

namespace Exchanged

variable {out out' : List BusEvent} {m n : Nat} {rest rest' : List Event} {s t u : State}

theorem trans (h : Exchanged out m rest s t) (h' : Exchanged out' n rest' t u) : Exchanged (out ++ out') (m + n) rest' s u where
  script := h.script.trans h'.script
  ring := by rw [h'.ring, h.ring, Rb.passed_passed]
  lockout := by rw [h'.lockout, h.lockout, Nat.sub_sub]
  rxie := by
    rw [h'.rxie, h.rxie]
    by_cases hn : n = 0 <;> simp [hn]
  only := (h.only.widen (nextKeys_subset s _ (Nat.le_add_right m n))).trans (h'.only.widen (nextKeys_passed h.ring n))
  tainted := h'.tainted.trans h.tainted
  freeTick := h'.freeTick.trans h.freeTick
  memory := h'.memory

theorem linkFree {k : Nat} (h : Exchanged out n rest s t) (hs : LinkFree s k) (hk : 1 ≤ k) : LinkFree t k where
  enabled := by rw [h.only.status .s List.not_mem_nil]; exact hs.enabled
  ring := by rw [h.ring]; exact Rb.passed_ok hs.ring (hk.trans hs.room)
  empty := by rw [h.ring]; exact hs.empty
  room := by rw [h.ring]; exact hs.room
  untainted r hr := by
    rw [h.tainted]
    rw [h.ring] at hr
    exact hs.untainted r hr
  memory := h.memory

/-- The lines and the agenda may be others. -/
theorem setLines (h : Exchanged out n rest s t) (busy irq : Bool) (es : List Event) :
    Exchanged out n es s ((t.setLines busy irq).setAgenda es) where
  script := { h.script with agenda := rfl }
  ring := h.ring
  lockout := h.lockout
  rxie := h.rxie
  only := (h.only.trans (setLines_changesOnly t busy irq)).trans (setAgenda_changesOnly _ es)
  tainted := h.tainted
  freeTick := h.freeTick
  memory := h.memory

/-- The ghost mode may be another throughout (R36). -/
theorem setMode (h : Exchanged out n rest s t) (mode : RadioMode) : Exchanged out n rest (s.setMode mode) (t.setMode mode) where
  script := { h.script with }
  ring := h.ring
  lockout := h.lockout
  rxie := h.rxie
  only := { h.only with mode := fun _ => rfl }
  tainted := h.tainted
  freeTick := h.freeTick
  memory := h.memory

end Exchanged

theorem disturb_untainted {s : State} {r : Ref} (h : r ∉ s.tainted) : s.disturb r = s := if_neg (by simpa using h)

/-- A byte put into an array whose contents are not free disturbs nothing (U3). -/
theorem csPut_freeTick {c : CsPort} {s : State} (hu : s.Untainted (.inner c)) (b : Byte) :
    (csPut c b s).2.freeTick = s.freeTick := by
  unfold csPut rbPut
  split
  · rfl
  · rw [State.setRb_freeTick, State.writeSlot]
    split
    · rfl
    · next r hr => rw [disturb_untainted (hu r hr), State.byteSlots_inner, if_pos rfl, State.setMem_freeTick]

theorem csPut_backing (c : CsPort) (b : Byte) (s : State) (q : RbPort) : ((csPut c b s).2.rb q).backing = (s.rb q).backing := by
  unfold csPut rbPut
  split
  · rfl
  · rw [State.setRb_rb]
    split
    · next hq => rw [hq]; rfl
    · rw [State.writeSlot_rb]

theorem csPut_untainted {c : CsPort} {s : State} {q : RbPort} (hu : s.Untainted q) (b : Byte) : (csPut c b s).2.Untainted q := by
  intro r hr
  rw [csPut_backing] at hr
  rw [(csPut_only c b s).tainted]
  exact hu r hr

theorem csPutAll_freeTick {c : CsPort} {s : State} (hu : s.Untainted (.inner c)) (ds : List Byte) :
    (csPutAll c ds s).freeTick = s.freeTick := by
  induction ds generalizing s with
  | nil => rfl
  | cons d ds ih => exact (ih (csPut_untainted hu d)).trans (csPut_freeTick hu d)

/-- The answers to a frame's fillers stand in `rx`, whence they can be taken. -/
structure Captured (out : List BusEvent) (ds : List Byte) (es : List Event) (s u : State) : Prop where
  agenda : u.agenda = es
  enabled : (u.link .s).status.enabled = true
  ring : (u.rb (.inner (.rx .s))).Ok
  unread : u.unread (.rx .s) = ds
  taken : ∀ rest, Exchanged out ds.length rest s ((u.fetched ds.length).setAgenda rest)

/-- An operation that leaves the world as it is, after a script. -/
theorem AfterScript.sameWorld {out out' : List BusEvent} {rest : List Event} {s t u : State} (h : AfterScript out rest s t)
    (h' : SameWorld out' t u) : AfterScript (out ++ out') rest s u where
  trace := by rw [h'.trace, h.trace, List.append_assoc]
  agenda := h'.agenda.trans h.agenda
  selectN := h'.selectN.trans h.selectN
  resetN := h'.resetN.trans h.resetN
  requests := h'.requests.trans h.requests
  phase := h'.phase.trans h.phase
  periphA := (h'.periph .a).trans h.periphA

/-- What an empty `rx` is after bytes were put into it and all of them taken. -/
theorem Rb.passed_eq {rb : Rb} {n : Nat} (hok : rb.Ok) (hcap : 1 ≤ rb.capacity) (h0 : rb.count = 0) :
    rb.passed n = { rb with
      readIndex := if n = 0 then rb.readIndex else (rb.readIndex + n) % rb.capacity
      writeIndex := if n = 0 then rb.writeIndex else (rb.writeIndex + n) % rb.capacity
      count := 0 } := by
  split
  · next hn => rw [hn, Rb.passed_zero hok hcap, ← h0]
  · rw [Rb.passed, ← h0]

theorem LinkFree.fits {s : State} {k n : Nat} (hs : LinkFree s k) (hn : n ≤ k) : n ≤ s.room (.rx .s) := by
  rw [State.room, hs.empty, Nat.sub_zero]
  exact hn.trans hs.room

section Captured

variable {s : State} {k : Nat} (hs : LinkFree s k) (hk : 1 ≤ k) {ds : List Byte} (hfit : ds.length ≤ k)
include hs hk hfit

/-- The state after a frame whose responses stand in `rx`. -/
theorem afterFrames_captured (sig : PeriphIn) (i : Bool) (es : List Event) (out : List BusEvent) :
    Captured out ds es s (s.afterFrames ds sig i es out) := by
  have hroom := hs.fits hfit
  have hput := csPutAll_only (.rx .s) ds s
  obtain ⟨hok, hrb⟩ := csPutAll_rb (.rx .s) ds s hs.ring hroom
  obtain ⟨hunread, hmem⟩ := csPutAll_unread (.rx .s) ds s hs.ring hroom hs.untainted hs.memory
  have hframe := fetched_frame (s.afterFrames ds sig i es out) ds.length
  have hscript := (afterFrames_afterScript s ds sig i es out (s.afterFrames ds sig i es out).result).sameWorld hframe.2
  have honly := afterFrames_changesOnly sig i es out (s.afterFrames ds sig i es out).result hs.ring hroom
  have hrb' : (s.afterFrames ds sig i es out).rb (.inner (.rx .s)) = (csPutAll (.rx .s) ds s).rb (.inner (.rx .s)) :=
    afterFrames_rb s ds sig i es out (s.afterFrames ds sig i es out).result _
  refine
    { agenda := rfl, enabled := (congrArg LinkStatus.enabled (hput.status .s)).trans hs.enabled, ring := hrb' ▸ hok,
      unread := ?_, taken := fun rest => ?_ }
  · rw [State.unread_nil s _ hs.empty, List.nil_append] at hunread
    exact (afterFrames_unread s ds sig i es out (s.afterFrames ds sig i es out).result).trans hunread
  · refine
      { script := { List.append_nil out ▸ hscript with agenda := rfl }, ring := ?_, lockout := ?_, rxie := ?_, only := ?_,
        tainted := ?_, freeTick := ?_, memory := ?_ }
    · rw [State.setAgenda_rb, fetched_rb, State.taken_rb, hrb', hrb, Rb.passed_eq hs.ring (hk.trans hs.room) hs.empty]
      simp [hs.empty]
    · rw [State.setAgenda_lockout, fetched_lockout]
      exact congrArg (· - ds.length) (hput.lockouts (.rx .s))
    · rw [State.setAgenda_rxie, fetched_rxie]
      exact congrArg (if ds.length = 0 then · else true) (hput.rxie .s)
    · have hrings : (if ds.length = 0 then [] else [RbPort.inner (.rx .s)]) ⊆ [.inner (.rx .s)] := by split <;> simp
      refine ((honly.mono ?_).trans (hframe.1.mono ?_)).trans (setAgenda_changesOnly _ rest)
      · refine ⟨hrings, ?_, ?_, ?_, ?_, ?_, ?_, ?_, ?_, ?_, ?_⟩ <;> simp
      · constructor <;> simp
    · exact (fetched_tainted _ _).trans hput.tainted
    · exact (fetched_freeTick _ _).trans (csPutAll_freeTick hs.untainted ds)
    · exact hmem.congr (fetched_mem _ _) (fetched_wide _ _)

theorem exchange_captured {f : Frame} {as : List Byte} {i : Bool} {es : List Event} (has : as.length = f.out.length)
    (hds : ds.length = f.numRead) (ha : s.agenda = exchangeScript i (as ++ ds) ++ es) :
    ∃ a u, exchange f s = .done a u ∧ Captured (frameEvents (f.wire s.params.enc)) ds es s u := by
  have hrun := exchange_script f as ds s hs.enabled has (by rw [← hds, Nat.min_eq_left (hs.fits hfit)]) hs.ring.2.1
    s.periphS s.busy s.irq i es s.selectN s.trace
  rw [← ha, State.env_self, hds] at hrun
  exact ⟨_, _, hrun, afterFrames_captured hs hk hfit _ i es _⟩

end Captured

end Sys2Proof.Machine
end

section
/-! O54, O55: the frames of `RC.TRANSMIT` and of `RC.RECEIVE` up to the status (R270 to R277), each block of the sequencer under the
script that answers it. -/

namespace Sys2Proof.Machine

theorem irqStatusOf_eq_append (b1 b2 : Byte) : irqStatusOf b1 b2 = b1 ++ b2 := by
  ext i hi
  rw [BitVec.getElem_append]
  by_cases h8 : i < 8
  · simp [irqStatusOf, h8]
  · have hhigh : b1.getLsbD (i - 8) = b1[i - 8] := BitVec.getLsbD_eq_getElem (by omega)
    simp [irqStatusOf, h8, BitVec.getLsbD_of_ge b2 i (Nat.not_lt.1 h8), hhigh]

/-- The transceiver raises `irq` before APP goes on. -/
theorem waitUntil_irqHigh_script {u : State} {es : List Event} (h : u.agenda = .lines false true :: .app :: es) :
    waitUntil none .irqHigh u = .done () ((u.setLines false true).setAgenda es) := by
  have hpoint : pointExcluding none u = (u.setLines false true).setAgenda es := by rw [pointExcluding, h]; rfl
  rw [waitUntil_holds _ _ _ (by rw [hpoint]; rfl), hpoint]

/-- What reading the status and clearing it sends (R270). -/
def statusEvents (e : Enc) : List BusEvent :=
  frameEvents ((Frame.getIrqStatus e).wire e) ++ frameEvents (Frame.clearIrq e).out

/-- What `RC.TRANSMIT` and `RC.RECEIVE` send first (R272, R271), with the RC's stored fields. -/
def openingEvents (ps : Params) (rc : Radio) (len : Byte) : List BusEvent :=
  (if ps.rcStandbyFirst then frameEvents (standbyFrame ps.enc).out else [])
    ++ frameEvents (packetParamsFrame ps.enc rc len).out

section Blocks

variable {s : State} {k : Nat} (hs : LinkFree s k) (hk : 1 ≤ k)
include hs hk

/-- A frame that asks for no response. -/
theorem exchange_command {f : Frame} {as : List Byte} {i : Bool} {rest : List Event} (hn : f.numRead = 0)
    (has : as.length = f.out.length) (ha : s.agenda = exchangeScript i as ++ rest) :
    ∃ a t, exchange f s = .done a t ∧ Exchanged (frameEvents f.out) 0 rest s t := by
  obtain ⟨a, t, hrun, ht⟩ := exchange_captured hs hk (Nat.zero_le k) (ds := []) (i := i) (es := rest) has hn.symm
    (by rwa [List.append_nil])
  have hdone : Exchanged (frameEvents (f.wire s.params.enc)) 0 rest s (t.setAgenda rest) := ht.taken rest
  rw [Frame.wire, hn, List.replicate_zero, List.append_nil, State.setAgenda_eq_self ht.agenda] at hdone
  exact ⟨a, t, hrun, hdone⟩

/-- A frame, and all its responses taken. -/
theorem exchange_query {f : Frame} {as ds : List Byte} {i : Bool} {rest : List Event} (has : as.length = f.out.length)
    (hds : ds.length = f.numRead) (hfit : ds.length ≤ k)
    (ha : s.agenda = exchangeScript i (as ++ ds) ++ (quietScript ds.length ++ rest)) :
    ∃ a u t, exchange f s = .done a u ∧ takeResponses ds.length u = (ds, t)
      ∧ Exchanged (frameEvents (f.wire s.params.enc)) ds.length rest s t := by
  obtain ⟨a, u, hrun, hu⟩ := exchange_captured hs hk hfit has hds ha
  exact ⟨a, u, _, hrun, takeResponses_quiet hu.enabled hu.ring hu.unread hu.agenda, hu.taken rest⟩

/-- R266. -/
theorem patchRegister_script (addr : Word16) (andMask orMask : Byte) {x0 x1 x2 x3 v : Byte} {ack : List Byte}
    {rest : List Event} (hack : ack.length = 4) (ha : s.agenda = patchScript x0 x1 x2 x3 v ack ++ rest) :
    ∃ t, patchRegister addr andMask orMask s = .done () t
      ∧ Exchanged (frameEvents ((Frame.readRegister s.params.enc addr).wire s.params.enc)
          ++ frameEvents (Frame.writeRegister s.params.enc addr [(v &&& andMask) ||| orMask]).out) 1 rest s t := by
  rw [patchScript, List.append_assoc, List.append_assoc] at ha
  obtain ⟨_, u, w, hget, htake, hw⟩ := exchange_query hs hk (f := Frame.readRegister s.params.enc addr)
    (as := [x0, x1, x2, x3]) (ds := [v]) rfl rfl hk ha
  obtain ⟨_, t, hput, ht⟩ := exchange_command (hw.linkFree hs hk) hk
    (f := Frame.writeRegister w.params.enc addr [(v &&& andMask) ||| orMask]) rfl hack hw.script.agenda
  refine ⟨t, ?_, ?_⟩
  · rw [List.length_singleton] at htake
    simp only [patchRegister, hget, Res.bind, htake, List.headD_cons, hput]
  · rw [hw.only.params] at ht
    exact hw.trans ht

/-- R270. -/
theorem readAndClearIrq_script (h3 : 3 ≤ k) {x0 b0 b1 b2 : Byte} {ack : List Byte} {i i' : Bool} {rest : List Event}
    (hack : ack.length = 3)
    (ha : s.agenda = exchangeScript i [x0, b0, b1, b2] ++ (quietScript 3 ++ (exchangeScript i' ack ++ rest))) :
    ∃ t, readAndClearIrq s = .done (b1 ++ b2) t
      ∧ Exchanged (statusEvents s.params.enc) 3 rest s t := by
  obtain ⟨_, u, w, hget, htake, hw⟩ := exchange_query hs hk (f := Frame.getIrqStatus s.params.enc)
    (as := [x0]) (ds := [b0, b1, b2]) rfl rfl h3 ha
  obtain ⟨_, t, hput, ht⟩ := exchange_command (hw.linkFree hs hk) hk (f := Frame.clearIrq w.params.enc) rfl hack
    hw.script.agenda
  refine ⟨t, ?_, ?_⟩
  · have htake' : takeResponses 3 u = ([b0, b1, b2], w) := htake
    simp only [readAndClearIrq, hget, Res.bind, htake', hput]
    exact congrArg (Res.done · t) (irqStatusOf_eq_append b1 b2)
  · rw [hw.only.params] at ht
    exact hw.trans ht

/-- R272, R271: the standby exchange where the parameter asks for it, then the packet parameters. -/
theorem standbyFirst_setPacketLength_script (len : Byte) {a1 a2 : List Byte} {rest : List Event} (h1 : a1.length = 2)
    (h2 : a2.length = 7)
    (ha : s.agenda = standbyScript s.params false a1 ++ (exchangeScript false a2 ++ rest)) :
    ∃ u a t, standbyFirst s = .done () u ∧ setPacketLength len u = .done a t
      ∧ Exchanged (openingEvents s.params s.radio len) 0 rest s t := by
  unfold standbyFirst setPacketLength openingEvents
  unfold standbyScript at ha
  split
  · next hf =>
    rw [if_pos hf] at ha
    obtain ⟨_, u, hx, hu⟩ := exchange_command hs hk (f := standbyFrame s.params.enc) rfl h1 ha
    obtain ⟨a, t, hy, ht⟩ := exchange_command (hu.linkFree hs hk) hk (f := packetParamsFrame u.params.enc u.radio len) rfl h2
      hu.script.agenda
    refine ⟨u, a, t, by rw [exchangeAll, hx]; rfl, hy, ?_⟩
    obtain ⟨hpre, hcrc⟩ := hu.only.radioConfig rfl
    rw [packetParamsFrame, hu.only.params, hpre, hcrc] at ht
    exact hu.trans ht
  · next hf =>
    rw [if_neg hf] at ha
    obtain ⟨a, t, hy, ht⟩ := exchange_command hs hk (f := packetParamsFrame s.params.enc s.radio len) rfl h2 ha
    exact ⟨s, a, t, rfl, hy, ht⟩

/-- The radio runs in ghost mode `m` and is back in Standby at the end; the status is read and cleared once (R274, R276). -/
theorem runRadio_script (h3 : 3 ≤ k) (m : RadioMode) {f : Frame} {as : List Byte} {x0 b0 b1 b2 : Byte} {ack : List Byte}
    {rest : List Event} (hn : f.numRead = 0) (has : as.length = f.out.length) (hack : ack.length = 3)
    (ha : s.agenda = exchangeScript false as ++ (irqScript x0 b0 b1 b2 ack ++ rest)) :
    ∃ t, runRadio m f s = .done (b1 ++ b2) t
      ∧ Exchanged (frameEvents f.out ++ statusEvents s.params.enc) 3 rest (s.setMode .standby) t := by
  obtain ⟨_, u, hx, hu⟩ := exchange_command (hs.setMode m) hk hn has ha
  have hraise : u.agenda = .lines false true :: .app ::
      (exchangeScript true [x0, b0, b1, b2] ++ (quietScript 3 ++ (exchangeScript false ack ++ rest))) := by
    rw [hu.script.agenda, irqScript]
    simp only [List.cons_append, List.append_assoc]
  have hwait := waitUntil_irqHigh_script hraise
  have hv := (hu.setLines false true
    (exchangeScript true [x0, b0, b1, b2] ++ (quietScript 3 ++ (exchangeScript false ack ++ rest)))).setMode .standby
  obtain ⟨t, hread, ht⟩ := readAndClearIrq_script (hv.linkFree (hs.setMode .standby) hk) hk h3 hack
    hv.script.agenda
  refine ⟨t, ?_, ?_⟩
  · simp only [runRadio, hx, Res.bind, hwait, hread]
  · have hparams : u.params = s.params := hu.only.params
    have hall := hv.trans ht
    simp only [State.setMode_params, State.setAgenda_params, State.setLines_params, hparams, Nat.zero_add] at hall
    exact hall

theorem radioTransmit_script (h3 : 3 ≤ k) {payload : List Byte} (timeout : Word32) {x0 b0 b1 b2 : Byte}
    {a1 a2 a3 a4 a5 : List Byte} {rest : List Event} (h1 : a1.length = 2) (h2 : a2.length = 7)
    (h3' : a3.length = 2 + payload.length) (h4 : a4.length = 4) (h5 : a5.length = 3)
    (ha : s.agenda = standbyScript s.params false a1 ++ (exchangeScript false a2 ++ (exchangeScript false a3
      ++ (exchangeScript false a4 ++ (irqScript x0 b0 b1 b2 a5 ++ rest))))) :
    ∃ t, radioTransmit payload timeout s = .done (irqBit (b1 ++ b2) s.params.enc.irqTxDone) t
      ∧ Exchanged (openingEvents s.params s.radio (BitVec.ofNat 8 payload.length)
          ++ frameEvents (Frame.writeBuffer s.params.enc 0 payload).out
          ++ (frameEvents (Frame.setTxMode s.params.enc (txTimeout timeout)).out ++ statusEvents s.params.enc))
          3 rest (s.setMode .standby) t := by
  obtain ⟨u1, _, u2, hx1, hx2, hu⟩ :=
    standbyFirst_setPacketLength_script hs hk (BitVec.ofNat 8 payload.length) h1 h2 ha
  obtain ⟨_, u3, hx3, hu3⟩ := exchange_command (hu.linkFree hs hk) hk (f := Frame.writeBuffer u2.params.enc 0 payload) rfl
    (by rw [h3', Nat.add_comm]; rfl) hu.script.agenda
  have hsent := hu.trans hu3
  obtain ⟨t, hx4, ht⟩ := runRadio_script (hsent.linkFree hs hk) hk h3 .transmitting
    (f := Frame.setTxMode u3.params.enc (txTimeout timeout)) rfl h4 h5 hsent.script.agenda
  have hall := (hsent.setMode .standby).trans ht
  rw [hu.only.params, hsent.only.params] at hall
  have hparams : t.params = s.params := hall.only.params
  refine ⟨t, ?_, by simpa only [Nat.zero_add] using hall⟩
  simp only [radioTransmit, hx1, hx2, hx3, hx4, Res.bind, hparams]

/-- `RC.RECEIVE` up to the reading of the status; what follows is `receiveResult` (R276). -/
theorem radioReceive_script (h3 : 3 ≤ k) (timeout : Word32) {x0 b0 b1 b2 : Byte} {a1 a2 a3 a4 : List Byte}
    {rest : List Event} (h1 : a1.length = 2) (h2 : a2.length = 7) (h3' : a3.length = 4) (h4 : a4.length = 3)
    (ha : s.agenda = standbyScript s.params false a1 ++ (exchangeScript false a2 ++ (exchangeScript false a3
      ++ (irqScript x0 b0 b1 b2 a4 ++ rest)))) :
    ∃ t, radioReceive timeout s = receiveResult (b1 ++ b2) t
      ∧ Exchanged (openingEvents s.params s.radio 0xFF
          ++ (frameEvents (Frame.setRxMode s.params.enc (rxTimeout timeout)).out ++ statusEvents s.params.enc))
          3 rest (s.setMode .standby) t := by
  obtain ⟨u1, _, u2, hx1, hx2, hu⟩ := standbyFirst_setPacketLength_script hs hk 0xFF h1 h2 ha
  obtain ⟨t, hx3, ht⟩ := runRadio_script (hu.linkFree hs hk) hk h3 .receiving
    (f := Frame.setRxMode u2.params.enc (rxTimeout timeout)) rfl h3' h4 hu.script.agenda
  have hall := (hu.setMode .standby).trans ht
  rw [hu.only.params] at hall
  refine ⟨t, ?_, by simpa only [Nat.zero_add] using hall⟩
  simp only [radioReceive, hx1, hx2, hx3, Res.bind]

end Blocks

/-- What a sequence that ends in Standby left behind, in the terms of Safety.lean. -/
theorem Exchanged.in_standby {out : List BusEvent} {n : Nat} {rest : List Event} {s t : State}
    (h : Exchanged out n rest (s.setMode .standby) t) (hn : n ≠ 0) (r : Result) :
    AfterScript out rest s (t.setResult r) ∧ (t.setResult r).radio.mode = .standby
      ∧ (t.setResult r).rb (.inner (.rx .s)) = (s.rb (.inner (.rx .s))).passed n
      ∧ ((t.setResult r).cs (.rx .s)).lockout = (s.cs (.rx .s)).lockout - n ∧ ((t.setResult r).link .s).rxie = true
      ∧ ChangesOnly { rings := [.inner (.rx .s)], lockouts := [.rx .s], rxie := [.s]
                      bytes := s.nextKeys (.inner (.rx .s)) n, mode := true } s (t.setResult r) := by
  refine ⟨{ h.script with }, h.only.mode rfl, h.ring, h.lockout, h.rxie.trans (if_neg hn), ?_⟩
  refine ((setMode_changesOnly s .standby rfl).trans (h.only.mono ?_)).trans (setResult_changesOnly t r)
  constructor <;> simp [State.nextKeys]

/-- A field of the low 24 bits is that field of the whole (R104). -/
theorem be24_txTimeout (t : Word32) : be24 (txTimeout t) = [t.extractLsb' 16 8, t.extractLsb' 8 8, t.extractLsb' 0 8] := by
  simp [be24, txTimeout, BitVec.extractLsb'_extractLsb'_of_le]

/-- Settles O54: the answer is the tx-done bit of the status that the sequence read. -/
theorem rcTransmitSendsThePayload : Obligations.RcTransmitSendsThePayload := by
  intro s payload timeout rest e x0 b0 b1 b2 a1 a2 a3 a4 a5 he hs hm hlen h1 h2 h3 h4 h5 ha
  subst he
  simp only [List.append_assoc] at ha
  obtain ⟨t, hrun, ht⟩ := radioTransmit_script hs (by decide) le_rfl timeout h1 h2 h3 h4 h5 ha
  obtain ⟨hscript, hframe⟩ := ht.in_standby (by decide) (.ok (irqBit (b1 ++ b2) s.params.enc.irqTxDone))
  refine ⟨_, (exec_rcTransmit payload timeout s hs.enabled hm hlen).trans (congrArg (Res.outcome · .ok) hrun), rfl, ?_, hframe⟩
  rw [Frame.setTxMode, be24_txTimeout] at hscript
  simp only [openingEvents, statusEvents, List.append_assoc] at hscript ⊢
  exact hscript

/-- The three failing rows of R277: the timeout counts only where rx-done is absent. -/
theorem receiveResult_fails {status : Word16} {t : State}
    (h : irqBit status t.params.enc.irqRxDone = true → irqBit status t.params.enc.irqCrcErr = true) :
    receiveResult status t
      = .done (false, !irqBit status t.params.enc.irqRxDone && irqBit status t.params.enc.irqTimeout) t := by
  unfold receiveResult rxOutcome
  cases hd : irqBit status t.params.enc.irqRxDone with
  | true => simp [h hd]
  | false => cases irqBit status t.params.enc.irqTimeout <;> simp

/-- Settles O55: no row but the payload's goes on after the status. -/
theorem rcReceiveReportsFailures : Obligations.RcReceiveReportsFailures := by
  intro s timeout rest e x0 b0 b1 b2 a1 a2 a3 a4 he hs hm h1 h2 h3 h4 hfail ha
  subst he
  simp only [List.append_assoc] at ha
  obtain ⟨t, hrun, ht⟩ := radioReceive_script hs (by decide) le_rfl timeout h1 h2 h3 h4 ha
  have hparams : t.params = s.params := ht.only.params
  rw [receiveResult_fails (by rwa [hparams]), hparams] at hrun
  obtain ⟨hscript, hframe⟩ := ht.in_standby (by decide)
    (.received false (!irqBit (b1 ++ b2) s.params.enc.irqRxDone && irqBit (b1 ++ b2) s.params.enc.irqTimeout))
  refine ⟨_, (exec_rcReceive timeout s hs.enabled hm).trans (congrArg (Res.outcome · _) hrun), rfl, ?_, hframe⟩
  simp only [openingEvents, statusEvents, List.append_assoc] at hscript ⊢
  exact hscript

end Sys2Proof.Machine
end

section
/-! Two streams on arrays of their own (R47): what goes into one leaves what stands unread in the other. -/

namespace Sys2Proof.Machine

/-- Places of two arrays are two places, where the slots are numbered in 32 bits (D4, log 16). -/
theorem slotAddress_ne {r r' : Ref} {i j : Nat} (hr : r ≠ r') (hi : i < 2 ^ 32) (hj : j < 2 ^ 32) :
    slotAddress r i ≠ slotAddress r' j := by
  intro h
  have hne : r.toNat ≠ r'.toNat := fun e => hr (BitVec.eq_of_toNat_eq e)
  unfold slotAddress at h
  omega

/-- No put through RB `p` stores into an array that `p` is not bound to. -/
theorem slotAddress_not_mem_nextKeys {s : State} {p : RbPort} {r : Ref} {i : Nat} (n : Nat) (hok : (s.rb p).Ok)
    (hr : (s.rb p).backing ≠ some r) (hi : i < 2 ^ 32) : slotAddress r i ∉ s.nextKeys p n := by
  intro hmem
  unfold State.nextKeys at hmem
  split at hmem
  · cases hmem
  · next r' hr' =>
    obtain ⟨j, -, hj⟩ := List.mem_map.1 hmem
    have hcap : 1 ≤ (s.rb p).capacity := by
      by_contra h0
      have hnone := (hok.2.2.1 (Nat.lt_one_iff.1 (Nat.not_le.1 h0))).1
      rw [hr'] at hnone
      cases hnone
    have hslot := (Nat.mod_lt ((s.rb p).writeIndex + j) hcap).trans hok.1
    exact slotAddress_ne (fun e => hr (hr'.trans (congrArg some e.symm))) hi hslot hj.symm

/-- The unread bytes of a stream depend on its ring and on the slots of its own array. -/
theorem unread_of_slots {s t : State} {c : CsPort} (hok : (s.rb (.inner c)).Ok) (hrb : t.rb (.inner c) = s.rb (.inner c))
    (htaint : t.tainted = s.tainted) (htick : t.freeTick = s.freeTick)
    (hread : ∀ r i, (s.rb (.inner c)).backing = some r → i < 2 ^ 32 →
      t.mem.read (slotAddress r i) = s.mem.read (slotAddress r i)) :
    t.unread c = s.unread c := by
  unfold State.unread State.contents
  rw [hrb]
  congr 1
  refine List.map_congr_left fun i hi => ?_
  have hpos : 1 ≤ (s.rb (.inner c)).capacity := by
    have hcount := hok.2.1
    have hlt := List.mem_range.1 hi
    omega
  have hslot := (Nat.mod_lt ((s.rb (.inner c)).readIndex + i) hpos).trans hok.1
  unfold State.readSlot State.byteAt
  rw [hrb, htaint, htick]
  split
  · rfl
  · next r hr => rw [State.byteSlots_inner, State.byteSlots_inner, if_pos rfl, if_pos rfl, hread r _ hr hslot]

/-! ### Bytes put where there may be no room for all -/

section PutAll

variable {c : CsPort} {s : State}

theorem csPutAll_of_full (h : (s.rb (.inner c)).isFull = true) (ds : List Byte) : csPutAll c ds s = s := by
  induction ds with
  | nil => rfl
  | cons d ds ih => rw [csPutAll_cons, csPut, rbPut_full _ _ _ h, ih]

/-- Bytes that find no room are dropped. -/
theorem csPutAll_take (hcount : (s.rb (.inner c)).count ≤ (s.rb (.inner c)).capacity) (ds : List Byte) :
    csPutAll c ds s = csPutAll c (ds.take (s.room c)) s := by
  induction ds generalizing s with
  | nil => rw [List.take_nil]
  | cons d ds ih =>
    cases hf : (s.rb (.inner c)).isFull with
    | true => rw [csPutAll_of_full hf, csPutAll_of_full hf]
    | false =>
      have hne : (s.rb (.inner c)).count ≠ (s.rb (.inner c)).capacity := by simpa [Rb.isFull] using hf
      obtain ⟨m, hm⟩ : ∃ m, s.room c = m + 1 := ⟨s.room c - 1, by unfold State.room; omega⟩
      have hrest := ih (s := (csPut c d s).2) (csPut_count_le c d s hcount)
      rw [csPut_room c d s hf, hm, Nat.add_sub_cancel] at hrest
      rw [hm, List.take_succ_cons, csPutAll_cons, csPutAll_cons, hrest]

theorem csPut_ok (hok : (s.rb (.inner c)).Ok) (b : Byte) : ((csPut c b s).2.rb (.inner c)).Ok := by
  unfold csPut
  cases hf : (s.rb (.inner c)).isFull with
  | true => rwa [rbPut_full _ _ _ hf]
  | false =>
    rw [rbPut_room _ _ _ hf, State.setRb_rb, if_pos rfl]
    exact Rb.afterPut_ok _ hok hf

theorem Rb.advancedBy_zero {rb : Rb} (h : rb.Ok) : rb.advancedBy 0 = rb := by
  have hw : rb.writeIndex % rb.capacity = rb.writeIndex := by
    obtain ⟨-, -, h0, h1⟩ := h
    rcases Nat.eq_zero_or_pos rb.capacity with hcap | hcap
    · rw [hcap, Nat.mod_zero]
    · exact Nat.mod_eq_of_lt (h1 hcap).2.2.1
  simp [Rb.advancedBy, hw]

variable (hok : (s.rb (.inner c)).Ok) {ds : List Byte} (hfit : ds.length ≤ s.room c)
include hok hfit

theorem csPutAll_advancedBy : (csPutAll c ds s).rb (.inner c) = (s.rb (.inner c)).advancedBy ds.length := by
  by_cases hd : ds = []
  · rw [hd, csPutAll_nil, List.length_nil, Rb.advancedBy_zero hok]
  · rw [(csPutAll_rb c ds s hok hfit).2, if_neg hd]
    rfl

theorem csPutAll_changesOnly (hu : s.Untainted (.inner c)) :
    ChangesOnly { rings := [.inner c], bytes := s.nextKeys (.inner c) ds.length } s (csPutAll c ds s) :=
  have hput := csPutAll_only c ds s
  { rings := fun q hq => csPutAll_rb_of_ne c ds s q fun h => hq (h ▸ List.mem_singleton_self _)
    lockouts := fun d _ => hput.lockouts d
    txie := fun k _ => hput.txie k
    rxie := fun k _ => hput.rxie k
    status := fun k _ => hput.status k
    errEn := fun k _ => hput.errEn k
    bytes := csPutAll_read c ds s hok hfit
    wides := fun a _ => congrArg (WideMemory.read · a) hput.wide
    tainted := fun r _ => iff_of_eq (congrArg (r ∈ ·) hput.tainted)
    freeTick := fun _ _ _ => csPutAll_freeTick hu ds
    radioConfig := fun _ => ⟨hput.preamble, hput.crc⟩
    mode := fun _ => hput.mode
    params := hput.params }

end PutAll

theorem PutOnly.sameWorld {s t : State} (h : PutOnly s t) : SameWorld [] s t where
  selectN := h.selectN
  resetN := h.resetN
  periph := h.periph
  busy := h.busy
  irq := h.irq
  requests := h.requests
  agenda := h.agenda
  phase := h.phase
  trace := by rw [h.trace, List.append_nil]

/-! ### `LINK_S.rx` and the sink -/

/-- `LINK_S.rx` and the sink obey R23 and stand on arrays of their own, the sink's contents definite. -/
structure SinkApart (s : State) : Prop where
  rx : (s.rb (.inner (.rx .s))).Ok
  sink : (s.rb (.inner .sink)).Ok
  untainted : s.Untainted (.inner .sink)
  apart : s.Apart (.inner (.rx .s)) (.inner .sink)

/-- A byte for the sink leaves what stands in `rx`. -/
theorem SinkApart.csPut_unread {s : State} (h : SinkApart s) (b : Byte) :
    (csPut .sink b s).2.unread (.rx .s) = s.unread (.rx .s) := by
  refine unread_of_slots h.rx (csPutAll_rb_of_ne .sink [b] s _ (by simp)) (csPut_only .sink b s).tainted
    (csPut_freeTick h.untainted b) fun r i hr hi => ?_
  have hne := slotAddress_not_mem_nextKeys 1 h.sink (h.apart r hr) hi
  cases hf : (s.rb (.inner .sink)).isFull with
  | true => rw [csPut, rbPut_full _ _ _ hf]
  | false =>
    refine csPutAll_read .sink [b] s h.sink ?_ _ hne
    have hcount := h.sink.2.1
    have hroom : (s.rb (.inner .sink)).count ≠ (s.rb (.inner .sink)).capacity := by simpa [Rb.isFull] using hf
    rw [List.length_singleton, State.room]
    omega

theorem SinkApart.csPut {s : State} (h : SinkApart s) (b : Byte) : SinkApart (csPut .sink b s).2 where
  rx := by
    have hrb : (Machine.csPut .sink b s).2.rb (.inner (.rx .s)) = s.rb (.inner (.rx .s)) :=
      csPutAll_rb_of_ne .sink [b] s _ (by simp)
    rw [hrb]
    exact h.rx
  sink := csPut_ok h.sink b
  untainted := csPut_untainted h.untainted b
  apart r hr := by
    rw [csPut_backing] at hr ⊢
    exact h.apart r hr

/-- The ghost mode is no part of it (R36). -/
theorem SinkApart.setMode {s : State} (h : SinkApart s) (m : RadioMode) : SinkApart (s.setMode m) := { h with }

theorem fetched_rb_of_ne (s : State) (n : Nat) {q : RbPort} (hq : q ≠ .inner (.rx .s)) : (s.fetched n).rb q = s.rb q :=
  (fetched_frame s n).1.rings q (by simpa using hq)

theorem SinkApart.fetched {s : State} (h : SinkApart s) {n : Nat} (hn : n ≤ (s.rb (.inner (.rx .s))).count)
    (es : List Event) : SinkApart ((s.fetched n).setAgenda es) where
  rx := fetched_ok n h.rx hn
  sink := by
    rw [State.setAgenda_rb, fetched_rb_of_ne s n (by simp)]
    exact h.sink
  untainted r hr := by
    rw [State.setAgenda_rb, fetched_rb_of_ne s n (by simp)] at hr
    rw [State.setAgenda_tainted, fetched_tainted]
    exact h.untainted r hr
  apart r hr := by
    rw [State.setAgenda_rb, fetched_rb, State.taken_rb] at hr
    rw [State.setAgenda_rb, fetched_rb_of_ne s n (by simp)]
    exact h.apart r hr

/-! ### Bytes moved from `LINK_S.rx` to the sink (R278) -/

/-- `LINK_S` and the agenda are no part of what a store into the sink's array reads or writes. -/
theorem writeSlot_sink_setLink (i v : Nat) (l : Link) (es : List Event) (s : State) :
    ((s.setLink .s l).setAgenda es).writeSlot (.inner .sink) i v
      = ((s.writeSlot (.inner .sink) i v).setLink .s l).setAgenda es := by
  have hrb : ((s.setLink .s l).setAgenda es).rb (.inner .sink) = s.rb (.inner .sink) := rfl
  unfold State.writeSlot State.disturb
  rw [hrb]
  split
  · rfl
  · next r _ =>
    have htaint : ((s.setLink .s l).setAgenda es).tainted = s.tainted := rfl
    rw [htaint, State.byteSlots_inner, State.byteSlots_inner, if_pos rfl, if_pos rfl]
    split <;> rfl

theorem csPut_sink_setLink (b : Byte) (l : Link) (es : List Event) (s : State) :
    (csPut .sink b ((s.setLink .s l).setAgenda es)).2 = ((csPut .sink b s).2.setLink .s l).setAgenda es := by
  have hrb : ((s.setLink .s l).setAgenda es).rb (.inner .sink) = s.rb (.inner .sink) := rfl
  unfold csPut
  cases hf : (s.rb (.inner .sink)).isFull with
  | true => rw [rbPut_full _ _ _ hf, rbPut_full _ _ _ (hrb ▸ hf)]
  | false =>
    rw [rbPut_room _ _ _ hf, rbPut_room _ _ _ (hrb ▸ hf), hrb, writeSlot_sink_setLink]
    rfl

/-- What `State.fetched` makes of `LINK_S`. -/
def Link.fetched (l : Link) (n : Nat) : Link :=
  if n = 0 then l
  else
    { l with
      rx :=
        { rb := { l.rx.rb with readIndex := (l.rx.rb.readIndex + n) % l.rx.rb.capacity, count := l.rx.rb.count - n }
          lockout := l.rx.lockout - n }
      rxie := true }

theorem fetched_eq_setLink (s : State) (n : Nat) : s.fetched n = s.setLink .s (s.linkS.fetched n) := by
  unfold State.fetched Link.fetched
  cases n with
  | zero => rfl
  | succ n => rfl

/-- Taking bytes from `rx` may as well come before a put into the sink as after it. -/
theorem csPut_sink_fetched (b : Byte) (n : Nat) (es : List Event) (s : State) :
    ((csPut .sink b s).2.fetched n).setAgenda es = (csPut .sink b ((s.fetched n).setAgenda es)).2 := by
  have hself : (csPut .sink b s).2 = ((csPut .sink b s).2.setLink .s s.linkS).setAgenda s.agenda :=
    csPut_sink_setLink b s.linkS s.agenda s
  have hlink : (csPut .sink b s).2.linkS = s.linkS := by
    rw [hself]
    rfl
  rw [fetched_eq_setLink, fetched_eq_setLink, hlink, csPut_sink_setLink]

/-- At points at which nobody else steps all of `rx` goes to the sink, as far as it has room. -/
theorem moveBytes_quiet {s : State} {ds : List Byte} {rest : List Event} (he : (s.link .s).status.enabled = true)
    (h : SinkApart s) (hs : s.unread (.rx .s) = ds) (ha : s.agenda = quietScript (2 * ds.length) ++ rest) :
    moveBytes ds.length s = csPutAll .sink ds ((s.fetched ds.length).setAgenda rest) := by
  induction ds generalizing s with
  | nil => exact (State.setAgenda_eq_self ha).symm
  | cons d ds ih =>
    have hgo : s.agenda = .app :: .app :: (quietScript (2 * ds.length) ++ rest) := ha
    have hunit := dlcReceive_point he h.rx hs hgo
    have hmove : moveByte s = (csPut .sink d ((s.fetched 1).setAgenda (quietScript (2 * ds.length) ++ rest))).2 := by
      simp only [moveByte, hunit]
      rw [point_quietScript rfl]
      rfl
    have hfetched := h.fetched (count_pos_of_unread hs) (quietScript (2 * ds.length) ++ rest)
    have hput := csPut_only .sink d ((s.fetched 1).setAgenda (quietScript (2 * ds.length) ++ rest))
    have hrest := ih (s := moveByte s) (by rw [hmove, hput.status]; simpa using he) (by rw [hmove]; exact hfetched.csPut d)
      (by rw [hmove, hfetched.csPut_unread, State.setAgenda_unread, fetched_one_unread h.rx hs]) (by rw [hmove, hput.agenda]; rfl)
    rw [List.length_cons, moveBytes, hrest, hmove, csPut_sink_fetched, fetched_setAgenda, fetched_one_fetched, csPutAll_cons]
    rfl

end Sys2Proof.Machine
end

section
/-! O56: `RC.RECEIVE` where a good packet came (R276 to R278). -/

namespace Sys2Proof.Machine

theorem SinkApart.unread_exchanged {out : List BusEvent} {n : Nat} {rest : List Event} {s t : State} (hs : SinkApart s)
    (h : Exchanged out n rest s t) : t.unread .sink = s.unread .sink := by
  refine unread_of_slots hs.sink (h.only.rings _ (by simp)) h.tainted h.freeTick fun r i hr hi => h.only.bytes _ ?_
  exact slotAddress_not_mem_nextKeys n hs.rx (fun hrx => hs.apart r hrx hr) hi

theorem SinkApart.exchanged {out : List BusEvent} {n : Nat} {rest : List Event} {s t : State} (hs : SinkApart s)
    (h : Exchanged out n rest s t) (hcap : 1 ≤ (s.rb (.inner (.rx .s))).capacity) : SinkApart t where
  rx := by
    rw [h.ring]
    exact Rb.passed_ok hs.rx hcap
  sink := by
    rw [h.only.rings (.inner .sink) (by simp)]
    exact hs.sink
  untainted r hr := by
    rw [h.only.rings (.inner .sink) (by simp)] at hr
    rw [h.tainted]
    exact hs.untainted r hr
  apart r hr := by
    rw [h.ring] at hr
    rw [h.only.rings (.inner .sink) (by simp)]
    exact hs.apart r hr

/-- `rx` as it is while responses stand in it is as apart from the sink as it is after they were taken. -/
theorem Captured.sinkApart {out : List BusEvent} {ds : List Byte} {es : List Event} {s u : State} (h : Captured out ds es s u)
    (hs : SinkApart ((u.fetched ds.length).setAgenda es)) : SinkApart u where
  rx := h.ring
  sink := by
    have hsink := hs.sink
    rwa [State.setAgenda_rb, fetched_rb_of_ne u _ (by simp)] at hsink
  untainted r hr := by
    have hfree := hs.untainted r
    rw [State.setAgenda_rb, fetched_rb_of_ne u _ (by simp), State.setAgenda_tainted, fetched_tainted] at hfree
    exact hfree hr
  apart r hr := by
    have hne := hs.apart r
    rw [State.setAgenda_rb, State.setAgenda_rb, fetched_rb, State.taken_rb, fetched_rb_of_ne u _ (by simp)] at hne
    exact hne hr

section Payload

variable {s : State} {k : Nat} (hs : LinkFree s k) (hk : 1 ≤ k) (hsink : SinkApart s)
include hs hk hsink

/-- R278: the bytes answered to read-buffer, all of which `rx` has room for, go to the sink. -/
theorem streamPayload_script {off len : Byte} {lead data : List Byte} {rest : List Event} (hlead : lead.length = 3)
    (hdata : data.length = len.toNat) (hfit : len.toNat ≤ k)
    (ha : s.agenda = exchangeScript false (lead ++ data) ++ (quietScript (1 + 2 * data.length) ++ rest)) :
    ∃ z, streamPayload off len s = .done () (csPutAll .sink data z)
      ∧ Exchanged (frameEvents ((Frame.readBuffer s.params.enc off len).wire s.params.enc)) data.length rest s z := by
  obtain ⟨_, u, hx, hu⟩ := exchange_captured hs hk (hdata.trans_le hfit) (f := Frame.readBuffer s.params.enc off len) hlead
    hdata ha
  refine ⟨_, ?_, hu.taken rest⟩
  have hgo : u.agenda = .app :: (quietScript (2 * data.length) ++ rest) := by
    rw [hu.agenda, quietScript, Nat.add_comm, List.replicate_succ]
    rfl
  have hapart := hu.sinkApart (hsink.exchanged (hu.taken _) (hk.trans hs.room))
  have hcount : (u.rb (.inner (.rx .s))).count = data.length := by rw [← State.unread_length, hu.unread]
  have hmove := moveBytes_quiet (s := u.setAgenda (quietScript (2 * data.length) ++ rest)) (rest := rest) hu.enabled
    { hapart with } ((State.setAgenda_unread u _ _).trans hu.unread) rfl
  rw [fetched_setAgenda] at hmove
  simp only [streamPayload, hx, Res.bind, point_quietScript hgo, State.setAgenda_rb, hcount]
  exact congrArg (Res.done ()) hmove

/-- R276: get-rx-buffer-status, then the payload where it says. -/
theorem fetchPayload_script {x1 c0 len off : Byte} {lead data : List Byte} {rest : List Event} (h3 : 3 ≤ k)
    (hlead : lead.length = 3) (hdata : data.length = len.toNat) (hfit : len.toNat ≤ k)
    (ha : s.agenda = payloadScript x1 c0 len off lead data ++ rest) :
    ∃ z, fetchPayload s = .done () (csPutAll .sink data z)
      ∧ Exchanged (frameEvents ((Frame.getRxBufferStatus s.params.enc).wire s.params.enc)
          ++ frameEvents ((Frame.readBuffer s.params.enc off len).wire s.params.enc)) (3 + data.length) rest s z := by
  simp only [payloadScript, List.append_assoc] at ha
  obtain ⟨_, u, w, hget, htake, hw⟩ := exchange_query hs hk (f := Frame.getRxBufferStatus s.params.enc)
    (as := [x1]) (ds := [c0, len, off]) rfl rfl h3 ha
  obtain ⟨z, hstream, hz⟩ := streamPayload_script (off := off) (hw.linkFree hs hk) hk (hsink.exchanged hw (hk.trans hs.room))
    hlead hdata hfit hw.script.agenda
  refine ⟨z, ?_, ?_⟩
  · have htake' : takeResponses 3 u = ([c0, len, off], w) := htake
    simp only [fetchPayload, hget, Res.bind, htake']
    exact hstream
  · rw [hw.only.params] at hz
    exact hw.trans hz

end Payload

theorem receiveResult_payload {status : Word16} {s t : State} (hd : irqBit status s.params.enc.irqRxDone = true)
    (hc : irqBit status s.params.enc.irqCrcErr = false) (ht : fetchPayload s = .done () t) :
    receiveResult status s = .done (true, false) t := by
  have hrow : rxOutcome s.params.enc status = .payload := by rw [rxOutcome, if_pos hd, if_neg (by simp [hc])]
  simp only [receiveResult, hrow, ht, Res.bind]

/-- What the sequence and the payload put into the sink left behind, in the terms of Safety.lean; `m` bytes had room. -/
theorem Exchanged.delivered {out : List BusEvent} {n m : Nat} {rest : List Event} {s z : State} {data : List Byte}
    (h : Exchanged out n rest (s.setMode .standby) z) (hn : n ≠ 0) (hs : SinkApart s)
    (hcap : 1 ≤ (s.rb (.inner (.rx .s))).capacity) (hm : m = min data.length (s.room .sink)) (r : Result) :
    AfterScript out rest s ((csPutAll .sink data z).setResult r)
      ∧ ((csPutAll .sink data z).setResult r).radio.mode = .standby
      ∧ ((csPutAll .sink data z).setResult r).unread .sink = s.unread .sink ++ data.take (s.room .sink)
      ∧ ((csPutAll .sink data z).setResult r).rb (.inner .sink) = (s.rb (.inner .sink)).advancedBy m
      ∧ ((csPutAll .sink data z).setResult r).rb (.inner (.rx .s)) = (s.rb (.inner (.rx .s))).passed n
      ∧ (((csPutAll .sink data z).setResult r).cs (.rx .s)).lockout = (s.cs (.rx .s)).lockout - n
      ∧ (((csPutAll .sink data z).setResult r).link .s).rxie = true
      ∧ ChangesOnly { rings := [.inner (.rx .s), .inner .sink], lockouts := [.rx .s], rxie := [.s], mode := true
                      bytes := s.nextKeys (.inner (.rx .s)) n ++ s.nextKeys (.inner .sink) m }
          s ((csPutAll .sink data z).setResult r) := by
  have hs' := hs.setMode .standby
  have hz := hs'.exchanged h hcap
  have hzsink : z.rb (.inner .sink) = s.rb (.inner .sink) := h.only.rings _ (by simp)
  have hroom : z.room .sink = s.room .sink := by rw [State.room, hzsink, State.room]
  obtain ⟨hscript, hmode, hring, hlock, hrxie, honly⟩ := h.in_standby hn z.result
  rw [csPutAll_take hz.sink.2.1, hroom]
  have hfit : (data.take (s.room .sink)).length ≤ z.room .sink := by rw [hroom]; exact List.length_take_le _ _
  have hlen : (data.take (s.room .sink)).length = m := by rw [hm, List.length_take, Nat.min_comm]
  generalize data.take (s.room .sink) = ds at hfit hlen ⊢
  have hput := csPutAll_only .sink ds z
  have hputOnly := csPutAll_changesOnly hz.sink hfit hz.untainted
  refine ⟨{ List.append_nil out ▸ hscript.sameWorld hput.sameWorld with }, hput.mode.trans hmode, ?_, ?_, ?_, ?_, ?_, ?_⟩
  · rw [State.setResult_unread, (csPutAll_unread .sink ds z hz.sink hfit hz.untainted h.memory).1, hs'.unread_exchanged h]
    rfl
  · rw [State.setResult_rb, csPutAll_advancedBy hz.sink hfit, hzsink, hlen]
  · rw [State.setResult_rb, csPutAll_rb_of_ne .sink ds z _ (by simp)]
    exact hring
  · exact (hput.lockouts (.rx .s)).trans hlock
  · exact (hput.rxie .s).trans hrxie
  · have hkeys : z.nextKeys (.inner .sink) m = s.nextKeys (.inner .sink) m := by simp only [State.nextKeys, hzsink]
    rw [hlen, hkeys] at hputOnly
    refine ((honly.mono ?_).trans (hputOnly.mono ?_)).trans (setResult_changesOnly _ r)
    · constructor <;> simp
    · constructor <;> simp

/-- Settles O56: the payload row reads the buffer and moves what it captured; `rx` was empty, so that is the payload. -/
theorem rcReceiveDeliversThePayload : Obligations.RcReceiveDeliversThePayload := by
  intro s timeout rest e x0 b0 b1 b2 x1 c0 len off a1 a2 a3 a4 lead data he hs hm hok hu hapart h1 h2 h3 h4 hlead hdata hd hc ha
  subst he
  simp only [List.append_assoc] at ha
  have hk : 3 ≤ max 3 len.toNat := le_max_left _ _
  have hk1 : 1 ≤ max 3 len.toNat := Nat.le_trans (by decide) hk
  have hsink : SinkApart s := ⟨hs.ring, hok, hu, hapart⟩
  obtain ⟨t, hrun, ht⟩ := radioReceive_script hs hk1 hk timeout h1 h2 h3 h4 ha
  have hparams : t.params = s.params := ht.only.params
  have hcap := hk1.trans hs.room
  obtain ⟨z, hfetch, hz⟩ := fetchPayload_script (ht.linkFree (hs.setMode .standby) hk1) hk1
    ((hsink.setMode .standby).exchanged ht hcap) hk hlead hdata (le_max_right _ _) ht.script.agenda
  rw [receiveResult_payload (by rwa [hparams]) (by rwa [hparams]) hfetch] at hrun
  rw [hparams] at hz
  have hall := ht.trans hz
  rw [← Nat.add_assoc, hdata] at hall
  obtain ⟨hscript, hframe⟩ := hall.delivered (by omega) hsink hcap (congrArg (min · _) hdata.symm) (.received true false)
  refine ⟨_, (exec_rcReceive timeout s hs.enabled hm).trans (congrArg (Res.outcome · _) hrun), rfl, ?_, hframe⟩
  simp only [openingEvents, statusEvents, List.append_assoc] at hscript ⊢
  exact hscript

end Sys2Proof.Machine
end

section
/-! O53: `RC.INIT` (R264 to R269): the sink is bound, `reset_n` pulsed, and fourteen frames sent. -/

namespace Sys2Proof.Machine

/-! ### Binding the sink and pulsing `reset_n` -/

theorem setRadioConfig_changesOnly {f : Footprint} (s : State) (preamble : Word16) (crc : Bool) (hf : f.radioConfig = true) :
    ChangesOnly f s (s.setRadioConfig preamble crc) := by
  constructor <;> simp [hf]

theorem setRadioConfig_sameWorld (s : State) (preamble : Word16) (crc : Bool) :
    SameWorld [] s (s.setRadioConfig preamble crc) := by
  constructor <;> simp

theorem setResetN_changesOnly {f : Footprint} (s : State) (level : Bool) : ChangesOnly f s (s.setResetN level) := by
  constructor <;> simp

/-- The array that `RC.INIT` claims for its sink. -/
def sinkClaims (b : Option Ref) (n : Nat) : List Ref := if n = 0 then [] else b.toList

section Start

variable (c : RadioConfig) (b : Option Ref) (n : Nat) (s : State)

theorem radioStart_changesOnly :
    ChangesOnly { rings := [.inner .sink], lockouts := [.sink], claims := sinkClaims b n, radioConfig := true } s
      (radioStart c b n s) :=
  (csBind_changesOnly_of_claims s .sink b n (List.mem_singleton_self _) (List.mem_singleton_self _) fun _ hr => hr).trans
    (setRadioConfig_changesOnly _ _ _ rfl)

theorem radioStart_sameWorld : SameWorld [] s (radioStart c b n s) :=
  (csBind_sameWorld s .sink b n).trans (setRadioConfig_sameWorld _ _ _)

theorem radioStart_sink : (radioStart c b n s).rb (.inner .sink) = Rb.bound b n
    ∧ ((radioStart c b n s).cs .sink).lockout = 1 := by
  simp [radioStart, csBind]

theorem radioStart_memoryOk (h : MemoryOk s) : MemoryOk (radioStart c b n s) :=
  h.congr (by simp [radioStart, csBind, rbBind]) (by simp [radioStart, csBind, rbBind])

/-- An array that no other RB has stays what it was (U3). -/
theorem radioStart_of_free (h : ∀ q r, q ≠ .inner .sink → b = some r → (s.rb q).backing ≠ some r) :
    (radioStart c b n s).tainted = s.tainted ∧ (radioStart c b n s).freeTick = s.freeTick := by
  rw [radioStart, csBind, rbBind_of_free s _ b n fun q r hq _ hb => h q r hq hb]
  simp

/-- `reset_n` low and high again, with nobody else to step in between (R265). -/
def State.resetPulsed (rest : List Event) : State :=
  (((s.setResetN true).emit (.radioReset false)).emit (.radioReset true)).setAgenda rest

theorem resetPulsed_changesOnly {f : Footprint} (rest : List Event) : ChangesOnly f s (s.resetPulsed rest) :=
  (((setResetN_changesOnly s true).trans (emit_changesOnly _ _)).trans (emit_changesOnly _ _)).trans
    (setAgenda_changesOnly _ rest)

theorem resetPulsed_sameWorld (rest : List Event) : SameWorld [.radioReset false, .radioReset true]
    ((s.setResetN true).setAgenda rest) (s.resetPulsed rest) := by
  constructor <;> simp [State.resetPulsed]

theorem resetPulsed_memoryOk (rest : List Event) (h : MemoryOk s) : MemoryOk (s.resetPulsed rest) := h.congr rfl rfl

theorem hardReset_quiet {s : State} {rest : List Event} (h : s.agenda = quietScript 2 ++ rest) :
    hardReset (point s) = s.resetPulsed rest := by
  have hfirst : s.agenda = .app :: .app :: rest := h
  rw [point_quietScript hfirst, hardReset, point_quietScript rfl]
  rfl

end Start

/-- From `s` to `v` the sink was bound, the two fields kept and `reset_n` pulsed (R264, R265). -/
structure Started (c : RadioConfig) (b : Option Ref) (n : Nat) (rest : List Event) (s v : State) : Prop where
  only : ChangesOnly { rings := [.inner .sink], lockouts := [.sink], claims := sinkClaims b n, radioConfig := true } s v
  world : SameWorld [.radioReset false, .radioReset true] ((s.setResetN true).setAgenda rest) v
  sink : v.rb (.inner .sink) = Rb.bound b n
  lockout : (v.cs .sink).lockout = 1
  preamble : v.radio.preambleLength = c.preambleLength
  crc : v.radio.crcEnabled = c.crcEnabled
  memory : MemoryOk s → MemoryOk v
  free : (∀ q r, q ≠ .inner .sink → b = some r → (s.rb q).backing ≠ some r) →
    v.tainted = s.tainted ∧ v.freeTick = s.freeTick

theorem hardReset_started (c : RadioConfig) (b : Option Ref) (n : Nat) {s : State} {rest : List Event}
    (ha : s.agenda = quietScript 2 ++ rest) : Started c b n rest s (hardReset (point (radioStart c b n s))) := by
  have honly := radioStart_changesOnly c b n s
  have hworld := radioStart_sameWorld c b n s
  have hsink := radioStart_sink c b n s
  have hmem := radioStart_memoryOk c b n s
  have hfree := radioStart_of_free c b n s
  have hkept : (radioStart c b n s).radio.preambleLength = c.preambleLength
      ∧ (radioStart c b n s).radio.crcEnabled = c.crcEnabled := ⟨rfl, rfl⟩
  rw [hardReset_quiet (hworld.agenda.trans ha)]
  generalize radioStart c b n s = u at honly hworld hsink hmem hfree hkept ⊢
  have hpulse : SameWorld [] ((s.setResetN true).setAgenda rest) ((u.setResetN true).setAgenda rest) :=
    { hworld with resetN := rfl, agenda := rfl }
  exact
    { only := honly.trans (resetPulsed_changesOnly u rest), world := hpulse.trans (resetPulsed_sameWorld u rest),
      sink := hsink.1, lockout := hsink.2, preamble := hkept.1, crc := hkept.2,
      memory := fun h => resetPulsed_memoryOk u rest (hmem h), free := hfree }

section Started

variable {c : RadioConfig} {b : Option Ref} {n : Nat} {rest : List Event} {s v : State} (h : Started c b n rest s v)
include h

theorem Started.rx : v.rb (.inner (.rx .s)) = s.rb (.inner (.rx .s)) := h.only.rings _ (by simp)

/-- What follows finds `LINK_S` as it was, if the sink's array is not that of its `rx`. -/
theorem Started.linkFree {k : Nat} (hs : LinkFree s k)
    (hb : ∀ r, b = some r → (s.rb (.inner (.rx .s))).backing ≠ some r) : LinkFree v k where
  enabled := by rw [h.only.status .s List.not_mem_nil]; exact hs.enabled
  ring := by rw [h.rx]; exact hs.ring
  empty := by rw [h.rx]; exact hs.empty
  room := by rw [h.rx]; exact hs.room
  untainted r hr := by
    rw [h.rx] at hr
    have hclaims : r ∉ sinkClaims b n := by
      unfold sinkClaims
      split
      · exact List.not_mem_nil
      · exact fun hmem => hb r (Option.mem_toList.1 hmem) hr
    rw [h.only.tainted r hclaims]
    exact hs.untainted r hr
  memory := h.memory hs.memory

/-- What the frames after it left behind, in the terms of Safety.lean. -/
theorem Started.configured {out : List BusEvent} {m : Nat} {rest' : List Event} {t : State}
    (ht : Exchanged out m rest' v t) (hm : m ≠ 0) (r : Result) :
    AfterScript ([.radioReset false, .radioReset true] ++ out) rest' (s.setResetN true) ((t.setMode .standby).setResult r)
      ∧ ((t.setMode .standby).setResult r).rb (.inner .sink) = Rb.bound b n
      ∧ (((t.setMode .standby).setResult r).cs .sink).lockout = 1
      ∧ ((t.setMode .standby).setResult r).radio.preambleLength = c.preambleLength
      ∧ ((t.setMode .standby).setResult r).radio.crcEnabled = c.crcEnabled
      ∧ ((t.setMode .standby).setResult r).radio.mode = .standby
      ∧ ((t.setMode .standby).setResult r).rb (.inner (.rx .s)) = (s.rb (.inner (.rx .s))).passed m
      ∧ (((t.setMode .standby).setResult r).cs (.rx .s)).lockout = (s.cs (.rx .s)).lockout - m
      ∧ (((t.setMode .standby).setResult r).link .s).rxie = true
      ∧ ChangesOnly { rings := [.inner (.rx .s), .inner .sink], lockouts := [.rx .s, .sink], rxie := [.s]
                      bytes := s.nextKeys (.inner (.rx .s)) m, claims := sinkClaims b n
                      radioConfig := true, mode := true } s ((t.setMode .standby).setResult r)
      ∧ ((∀ q r', q ≠ .inner .sink → b = some r' → (s.rb q).backing ≠ some r') →
          ((t.setMode .standby).setResult r).tainted = s.tainted
            ∧ ((t.setMode .standby).setResult r).freeTick = s.freeTick) := by
  obtain ⟨hpre, hcrc⟩ := ht.only.radioConfig rfl
  refine ⟨?_, ?_, ?_, hpre.trans h.preamble, hcrc.trans h.crc, rfl, ?_, ?_, ht.rxie.trans (if_neg hm), ?_, fun hfree => ?_⟩
  · exact
      { trace := ht.script.trace.trans (by rw [h.world.trace, List.append_assoc]; rfl), agenda := ht.script.agenda,
        selectN := ht.script.selectN, resetN := ht.script.resetN.trans h.world.resetN,
        requests := ht.script.requests.trans h.world.requests, phase := ht.script.phase.trans h.world.phase,
        periphA := ht.script.periphA.trans (h.world.periph .a) }
  · exact (ht.only.rings (.inner .sink) (by simp)).trans h.sink
  · exact (ht.only.lockouts .sink (by simp)).trans h.lockout
  · exact ht.ring.trans (congrArg (Rb.passed · m) h.rx)
  · exact ht.lockout.trans (congrArg (· - m) (h.only.lockouts (.rx .s) (by simp)))
  · have hkeys : v.nextKeys (.inner (.rx .s)) m = s.nextKeys (.inner (.rx .s)) m := by simp only [State.nextKeys, h.rx]
    have hframes := ht.only
    rw [hkeys] at hframes
    refine (((h.only.mono ?_).trans (hframes.mono ?_)).trans (setMode_changesOnly t .standby rfl)).trans
      (setResult_changesOnly _ r)
    · constructor <;> simp
    · constructor <;> simp
  · obtain ⟨htaint, htick⟩ := h.free hfree
    exact ⟨ht.tainted.trans htaint, ht.freeTick.trans htick⟩

end Started

/-! ### The configuration -/

/-- Frames one after another, each answered, none with responses. -/
theorem exchangeAll_script {fs : List Frame} {answers : List (List Byte)} {s : State} {k : Nat} {rest : List Event}
    (hs : LinkFree s k) (hk : 1 ≤ k) (hne : fs ≠ [])
    (hall : List.Forall₂ (fun f as => f.numRead = 0 ∧ as.length = f.out.length) fs answers)
    (ha : s.agenda = answers.flatMap (exchangeScript false) ++ rest) :
    ∃ t, exchangeAll fs s = .done () t ∧ Exchanged (fs.flatMap fun f => frameEvents f.out) 0 rest s t := by
  induction hall generalizing s with
  | nil => exact absurd rfl hne
  | @cons f as fs answers hf hall ih =>
    rw [List.flatMap_cons, List.append_assoc] at ha
    obtain ⟨_, u, hx, hu⟩ := exchange_command hs hk hf.1 hf.2 ha
    rw [exchangeAll, hx]
    cases hall with
    | nil => exact ⟨u, rfl, by simpa using hu⟩
    | cons hg hall =>
      obtain ⟨t, hrest, ht⟩ := ih (hu.linkFree hs hk) (List.cons_ne_nil _ _) hu.script.agenda
      exact ⟨t, hrest, hu.trans ht⟩

/-- R267, the value written back: the bit is cleared for the widest bandwidth and set for every other. -/
theorem modQuality_patched (e : Enc) (c : RadioConfig) (w : Byte) :
    (w &&& modQualityAnd e c) ||| modQualityOr e c
      = if c.bandwidth = e.bwWidest then w &&& (0xFF ^^^ e.modQualityBit) else w ||| e.modQualityBit := by
  unfold modQualityAnd modQualityOr
  split
  · exact BitVec.or_zero
  · exact congrArg (· ||| e.modQualityBit) BitVec.and_allOnes

/-- R266, step 7: nothing is masked away. -/
theorem txClamp_patched (e : Enc) (v : Byte) : (v &&& 0xFF) ||| e.txClampOr = v ||| e.txClampOr :=
  congrArg (· ||| e.txClampOr) BitVec.and_allOnes

section Configure

variable (e : Enc) (c : RadioConfig)

/-- Steps 2 to 6 of R264. -/
def powerFrames : List Frame :=
  [standbyFrame e, packetTypeFrame e, frequencyFrame e c, paFrame e c, txParamsFrame e c]

/-- Steps 8 and 9. -/
def modulationFrames : List Frame := [bufferBaseFrame e, modulationFrame e c]

/-- Steps 11 to 13, with the RC's stored fields. -/
def packetFrames (rc : Radio) : List Frame := [packetParamsFrame e rc 0xFF, dioIrqFrame e, syncWordFrame e c]

/-- What goes out in steps 2 to 13, the two patched registers holding `v` and `w`. -/
def configurationEvents (rc : Radio) (v w : Byte) : List BusEvent :=
  (powerFrames e c).flatMap (fun f => frameEvents f.out)
    ++ (frameEvents ((Frame.readRegister e e.regTxClamp).wire e)
      ++ frameEvents (Frame.writeRegister e e.regTxClamp [(v &&& 0xFF) ||| e.txClampOr]).out)
    ++ (modulationFrames e c).flatMap (fun f => frameEvents f.out)
    ++ (frameEvents ((Frame.readRegister e e.regModQuality).wire e)
      ++ frameEvents (Frame.writeRegister e e.regModQuality [(w &&& modQualityAnd e c) ||| modQualityOr e c]).out)
    ++ (packetFrames e c rc).flatMap (fun f => frameEvents f.out)

variable {s : State} {k : Nat} (hs : LinkFree s k) (hk : 1 ≤ k) {x0 x1 x2 x3 y0 y1 y2 y3 v w : Byte}
  {a2 a3 a4 a5 a6 a7 a8 a9 a10 a11 a12 a13 : List Byte} {rest : List Event}
include hs hk

theorem configureRadio_script (h2 : a2.length = 2) (h3 : a3.length = 2) (h4 : a4.length = 5) (h5 : a5.length = 5)
    (h6 : a6.length = 3) (h7 : a7.length = 4) (h8 : a8.length = 3) (h9 : a9.length = 5) (h10 : a10.length = 4)
    (h11 : a11.length = 7) (h12 : a12.length = 9) (h13 : a13.length = 5)
    (ha : s.agenda = [a2, a3, a4, a5, a6].flatMap (exchangeScript false) ++ (patchScript x0 x1 x2 x3 v a7
      ++ ([a8, a9].flatMap (exchangeScript false) ++ (patchScript y0 y1 y2 y3 w a10
      ++ ([a11, a12, a13].flatMap (exchangeScript false) ++ rest))))) :
    ∃ t, configureRadio c s = .done () (t.setMode .standby)
      ∧ Exchanged (configurationEvents s.params.enc c s.radio v w) 2 rest s t := by
  obtain ⟨u1, hx1, hu1⟩ := exchangeAll_script hs hk (fs := powerFrames s.params.enc c) (List.cons_ne_nil _ _)
    (.cons ⟨rfl, h2⟩ (.cons ⟨rfl, h3⟩ (.cons ⟨rfl, h4⟩ (.cons ⟨rfl, h5⟩ (.cons ⟨rfl, h6⟩ .nil))))) ha
  obtain ⟨u2, hx2, hu2⟩ := patchRegister_script (hu1.linkFree hs hk) hk s.params.enc.regTxClamp 0xFF s.params.enc.txClampOr h7
    hu1.script.agenda
  rw [hu1.only.params] at hu2
  have hto2 := hu1.trans hu2
  obtain ⟨u3, hx3, hu3⟩ := exchangeAll_script (hto2.linkFree hs hk) hk (fs := modulationFrames s.params.enc c)
    (List.cons_ne_nil _ _) (.cons ⟨rfl, h8⟩ (.cons ⟨rfl, h9⟩ .nil)) hto2.script.agenda
  have hto3 := hto2.trans hu3
  obtain ⟨u4, hx4, hu4⟩ := patchRegister_script (hto3.linkFree hs hk) hk s.params.enc.regModQuality
    (modQualityAnd s.params.enc c) (modQualityOr s.params.enc c) h10 hto3.script.agenda
  rw [hto3.only.params] at hu4
  have hto4 := hto3.trans hu4
  obtain ⟨u5, hx5, hu5⟩ := exchangeAll_script (hto4.linkFree hs hk) hk (fs := packetFrames s.params.enc c u4.radio)
    (List.cons_ne_nil _ _) (.cons ⟨rfl, h11⟩ (.cons ⟨rfl, h12⟩ (.cons ⟨rfl, h13⟩ .nil))) hto4.script.agenda
  obtain ⟨hpre, hcrc⟩ := hto4.only.radioConfig rfl
  have hpacket : packetFrames s.params.enc c u4.radio = packetFrames s.params.enc c s.radio := by
    simp only [packetFrames, packetParamsFrame, hpre, hcrc]
  have hall := hto4.trans hu5
  rw [hpacket] at hall
  refine ⟨u5, ?_, hall⟩
  rw [powerFrames] at hx1
  rw [modulationFrames] at hx3
  rw [packetFrames] at hx5
  simp only [configureRadio, hx1, hx2, hx3, hx4, hx5, Res.bind]

end Configure

/-! ### The operation -/

theorem exec_rcInit_enabled {s : State} {c : RadioConfig} {b : Option Ref} {n : Word32}
    (he : (s.link .s).status.enabled = true) (hf : c.freqHz.toNat ≤ maxFreqHz) (hb : n.toNat = 0 ∨ b ≠ none) :
    exec (.rcInit c b n) s
      = (configureRadio c (hardReset (point (radioStart c b n.toNat s)))).outcome fun _ => .none := by
  refine if_pos ?_
  simpa [he, freqFits, hf, bindable, Option.isSome_iff_ne_none] using hb

/-- Settles O53: the sequence starts where `LINK_S` is as it was, and touches nothing of what `RC.INIT` stored before it. -/
theorem rcInitSendsTheConfiguration : Obligations.RcInitSendsTheConfiguration := by
  intro s c b n rest e x0 x1 x2 x3 y0 y1 y2 y3 v w a2 a3 a4 a5 a6 a7 a8 a9 a10 a11 a12 a13 he hs hf hb hapart h2 h3 h4 h5 h6
    h7 h8 h9 h10 h11 h12 h13 ha
  subst he
  simp only [List.append_assoc] at ha
  have hstart := hardReset_started c b n.toNat ha
  have hexec := exec_rcInit_enabled hs.enabled hf hb
  generalize hardReset (point (radioStart c b n.toNat s)) = u at hstart hexec
  obtain ⟨t, hrun, ht⟩ := configureRadio_script c (hstart.linkFree hs hapart) le_rfl (x0 := x0) (x1 := x1)
    (x2 := x2) (x3 := x3) (v := v) (y0 := y0) (y1 := y1) (y2 := y2) (y3 := y3) (w := w) (rest := rest) h2 h3 h4 h5 h6 h7 h8 h9
    h10 h11 h12 h13 (hstart.world.agenda.trans (by
      simp only [List.flatMap_cons, List.flatMap_nil, List.append_assoc, List.nil_append]; rfl))
  have hparams : u.params = s.params := hstart.only.params
  rw [hparams] at ht
  obtain ⟨hscript, hframe⟩ := hstart.configured ht (by decide) .none
  refine ⟨_, hexec.trans (congrArg (Res.outcome · _) hrun), rfl, ?_, hframe⟩
  simp only [configurationEvents, powerFrames, modulationFrames, packetFrames, packetParamsFrame, hstart.preamble, hstart.crc,
    txClamp_patched, modQuality_patched, List.flatMap_cons, List.flatMap_nil, List.append_nil, List.append_assoc] at hscript
  simp only [List.append_assoc]
  exact hscript

end Sys2Proof.Machine
end


section
/-! O60: what the other agents do while APP hangs (R395): each entry of the agenda is one step of theirs, with the handler of
`LINK_S` excluded where the wait is one inside a host transaction (R232). -/

namespace Sys2Proof.Machine

/-! ### The turn of a hanging APP -/

/-- The first entry of the agenda is served, and no request is looked at. -/
theorem step_waiting_cons {s : State} {w : Wait} {e : Event} {es : List Event} (hp : s.phase = .waiting w)
    (ha : s.agenda = e :: es) : step s = .next (applyEvent (hangExcludes w) e (s.setAgenda es)) := by
  have ht : turn s = .other (applyEvent (hangExcludes w) e (s.setAgenda es)) := by unfold turn; rw [hp, ha]
  rw [step, ht]

/-- While APP hangs nothing happens, or an entry of the agenda is served. -/
theorem step_waiting_cases {s t : State} {w : Wait} (hp : s.phase = .waiting w) (h : step s = .next t) :
    t = s ∨ ∃ e es, s.agenda = e :: es ∧ t = applyEvent (hangExcludes w) e (s.setAgenda es) := by
  cases ha : s.agenda with
  | nil =>
    rw [step_waiting_alone s w hp ha] at h
    cases h
    exact .inl rfl
  | cons e es =>
    rw [step_waiting_cons hp ha] at h
    cases h
    exact .inr ⟨e, es, rfl, rfl⟩

theorem hangExcludes_inTransaction {w : Wait} (hw : w = .txReady ∨ w = .rxReady) : hangExcludes w = some .s := by
  rcases hw with rfl | rfl <;> rfl

/-- Only the waits inside a host transaction exclude a handler, and only that of `LINK_S` (R232). -/
theorem hangExcludes_ne {w : Wait} {k : LinkId} (h : k = .a ∨ w = .busyLow ∨ w = .irqHigh) : hangExcludes w ≠ some k := by
  rcases h with rfl | rfl | rfl
  · cases w <;> decide
  · exact nofun
  · exact nofun

/-! ### What a step of the others keeps -/

theorem applyEvent_phase (x : Option LinkId) (e : Event) (s : State) : (applyEvent x e s).phase = s.phase :=
  congrArg Controls.phase (applyEvent_controls s x e)

theorem applyEvent_requests (x : Option LinkId) (e : Event) (s : State) :
    (applyEvent x e s).requests = s.requests := by
  cases e with
  | isr k =>
    simp only [applyEvent]
    split
    · exact (takeInterrupt_sameWorld k s).requests
    · rfl
  | periph k sig => exact State.setPeriph_requests s k sig
  | app | lines _ _ | store _ _ _ | storeWide _ _ _ => rfl

/-- The handler of a link moves the two rings of its link only (R206, R400). -/
theorem takeInterrupt_rb_of_ne (k : LinkId) (s : State) (q : RbPort) (htx : q ≠ .tx k) (hrx : q ≠ .inner (.rx k)) :
    (takeInterrupt k s).rb q = s.rb q := by
  refine (takeInterrupt_changesOnly k s (f := { rings := [.tx k, .inner (.rx k)], txie := [k], rxie := [k], status := [k]
                                                bytes := s.writeKeys (.inner (.rx k)) })
    ?_ ?_ ?_ ?_ ?_ fun _ r hr => ?_).rings q (by simp [htx, hrx])
  case refine_6 => simp [State.writeKeys, hr]
  all_goals simp

/-- With its handler excluded nobody appends to `rx` of `LINK_S` (R232). -/
theorem applyEvent_rx (e : Event) (s : State) :
    (applyEvent (some .s) e s).rb (.inner (.rx .s)) = s.rb (.inner (.rx .s)) := by
  cases e with
  | isr k =>
    cases k with
    | s => simp [applyEvent]
    | a =>
      simp only [applyEvent]
      split
      · exact takeInterrupt_rb_of_ne .a s _ (by simp) (by simp)
      · rfl
  | periph k sig => cases k <;> rfl
  | app | lines _ _ | store _ _ _ | storeWide _ _ _ => rfl

/-! ### The entry of a handler -/

/-- Due and not excluded, it is `DLC.ON_INTERRUPT`, which presents no record (R386). -/
theorem applyEvent_isr_runs {x : Option LinkId} {k : LinkId} {s : State} (h : s.pending k = true) (hx : x ≠ some k) :
    ∃ u, exec (.dlcOnInterrupt k) s = .next u ∧ applyEvent x (.isr k) s = { u with result := s.result } := by
  refine ⟨(takeInterrupt k s).setResult .none, rfl, ?_⟩
  have hrun : applyEvent x (.isr k) s = takeInterrupt k s := by simp [applyEvent, h, hx]
  rw [hrun, ← (takeInterrupt_only k s).result]
  rfl

/-- Not due or excluded, it takes no step. -/
theorem applyEvent_isr_skips {x : Option LinkId} {k : LinkId} {s : State} (h : s.pending k = false ∨ x = some k) :
    applyEvent x (.isr k) s = s := by
  rcases h with h | h <;> simp [applyEvent, h]

/-- Settles O60: a step is none or one entry's (`step_waiting_cases`), and an entry keeps all this; a handler's entry runs by
whether the wait excludes its link. -/
theorem hangingAppPresentsNothing : Obligations.HangingAppPresentsNothing := by
  refine ⟨fun s t w hp hstep => ?_, fun s w k es hp ha => ?_⟩
  · rcases step_waiting_cases hp hstep with rfl | ⟨e, es, -, rfl⟩
    · exact ⟨hp, rfl, rfl, rfl, fun _ => ⟨rfl, rfl, rfl⟩⟩
    · refine ⟨(applyEvent_phase _ e _).trans hp, applyEvent_requests _ e _, applyEvent_result _ e _,
        applyEvent_selectN _ e _, fun hw => ?_⟩
      rw [hangExcludes_inTransaction hw]
      have hfields := applyEvent_handlerFields e (s.setAgenda es)
      exact ⟨congrArg HandlerFields.status hfields, congrArg HandlerFields.tx hfields, applyEvent_rx e _⟩
  · have hpending : (s.setAgenda es).pending k = s.pending k := by cases k <;> rfl
    rw [step_waiting_cons hp ha]
    refine ⟨fun hdue hrun => ?_, fun hskip => ?_⟩
    · obtain ⟨u, hexec, hu⟩ := applyEvent_isr_runs (hpending.trans hdue) (hangExcludes_ne hrun)
      exact ⟨u, hexec, congrArg _ hu⟩
    · exact congrArg _ (applyEvent_isr_skips
        (hskip.imp hpending.trans fun ⟨hk, hw⟩ => hk ▸ hangExcludes_inTransaction hw))

end Sys2Proof.Machine
end
